-- ==== Sys2Proof/Word.lean ====
section
/-! DEFINITION. The word types of the NM-DX16 (spec/00_scope.md R7). -/

namespace Sys2Proof

/-- An instruction word, a doubleword, a virtual address or a program counter (R7, R15). -/
abbrev Word64 := BitVec 64

/-- A register, a structure word or a count of 32 bits (R7). -/
abbrev Word32 := BitVec 32

/-- The byte of every memory (R7). -/
abbrev Byte := BitVec 8

/-- An 8-bit operand code (R20). -/
abbrev Code := BitVec 8

end Sys2Proof
end

