-- ==== Sys2Proof/Config.lean ====
section
/-! DEFINITION. What an implementation or the outside world fixes and the spec leaves open, as constants without a body: no
proof can see their values. -/

namespace Sys2Proof.Config

/-- Free values: the n-th value that the spec leaves open in a run (log 8). -/
opaque freeValue : Nat → BitVec 64

/-- The device key that the n-th boot loads into slot 0, the data key in its low half (R220, R398). -/
opaque deviceKey : Nat → BitVec 512

/-- Byte `i` of the SLH-DSA-SHAKE-256s signature by the module's identity key (R399, log 7). -/
opaque signature : List Byte → Nat → Byte

/-- M0: the digest of the boot ROM (R398, log 7). -/
opaque romDigest : BitVec 256

/-- What a verified flash slot gives the boot (R396, R398). -/
structure SlotImage where
  version : Word64
  patchSet : List Byte
  image : List Byte
  load : Nat
  entry : Word64
  deriving DecidableEq, Repr

/-- A manifest as its fields: its own length, the security version, the signer's public key, the place and digest of the patch set
and of the image, and where the image goes (R396). -/
structure Manifest where
  bytes : Nat
  version : Word64
  publicKey : List Byte
  patchAt : Nat × Nat
  patchDigest : BitVec 256
  imageAt : Nat × Nat
  imageDigest : BitVec 256
  load : Nat
  entry : Word64
  deriving DecidableEq, Repr

/-- The manifest at the start of a flash slot, from the slot's listed bytes (offset in the slot, byte); its layout is not given
(R396, log 12). -/
opaque manifest : List (Nat × Byte) → Option Manifest

/-- Whether a SLH-DSA-SHAKE-256s signature verifies: public key, message and signature (R396, log 7). -/
opaque verifies : List Byte → List Byte → List Byte → Bool

/-- The fused firmware key digest and the fused floor of the security version (R396). -/
opaque firmwareKey : BitVec 256
opaque versionFloor : Word64

/-- What a verified patch set gives the sequencer: entries, version and the microcode vector (R342, R380, log 12). -/
opaque patchFields : List Byte → Option (Nat × BitVec 16 × BitVec 128)

/-- The detail word w9 of a trap record of a cause for which no rule states one (R349, log 22). -/
opaque openDetail : BitVec 8 → BitVec 32

/-- What a device reads at an address that no memory backs (R230, log 66). -/
opaque unbackedByte : Nat → Byte

/-- The feature vector fused into a die (R380). -/
opaque fused : Nat → BitVec 128

end Sys2Proof.Config
end

