-- ==== Sys2Proof/Machine/Aes.lean ====
section
/-! DEFINITION. AES-256 and its XTS mode on one block of 16 bytes, as R220 has them by IEEE 1619 and the cipher it names, FIPS
197 (spec/09_objects_and_translation.md R220; log 7). The standards stand outside the spec. -/

namespace Sys2Proof.Machine

/-- The S-box and its inverse: 32 entries to a number, entry 0 in the low byte. -/
def aesSbox : List Nat :=
  [0xC072A49CAFA2D4ADF04759FA7DC982CA76ABD7FE2B670130C56F6BF27B777C63,
   0x75B227EBE28012079A059618C323C7041531D871F1E5A534CCF73F362693FDB7,
   0xCF584C4A39BECB6A5BB1FC20ED00D153842FE329B3D63B52A05A6E1B1A2C8309,
   0xD2F3FF1021DAB6BCF5389D928F40A351A89F3C507F02F94585334D43FBAAEFD0,
   0xDB0B5EDE14B8EE4688902A22DC4F816073195D643D7EA7C41744975FEC130CCD,
   0x08AE7A65EAF4566CA94ED58D6D37C8E779E4959162ACD3C25C2406490A3A32E0,
   0x9E1DC186B95735610EF6034866B53E708A8BBD4B1F74DDE8C6B4A61C2E2578BA,
   0x16BB54B00F2D99416842E6BF0D89A18CDF2855CEE9871E9B948ED9691198F8E1]

def aesInvSbox : List Nat :=
  [0xCBE9DEC444438E3487FF2F9B8239E37CFBD7F3819EA340BF38A53630D56A0952,
   0x25D18B6D49A25B76B224D92866A12E084EC3FA420B954CEE3D23C2A632947B54,
   0x849D8DA75746155EDAB9EDFD5048706C92B6655DCC5CA4D41698688664F6F872,
   0x6B8A130103BDAFC1020F3FCA8F1E2CD00645B3B80558E4F70AD3BC8C00ABD890,
   0x6EDF751CE837F9E28535ADE72274AC9673E6B4F0CECFF297EADC674F4111913A,
   0xF45ACD78FEC0DB9A2079D2C64B3E56FC1BBE18AA0E62B76F89C5291D711AF147,
   0xEF9CC9939F7AE52D0D4AB519A97F51605FEC8027591012B131C7078833A8DD1F,
   0x7D0C2155631469E126D677BA7E042B17619953833CBBEBC8B0F52AAE4D3BE0A0]

/-- Entry `b` of a table. -/
def aesLook (t : List Nat) (b : Byte) : Byte := BitVec.ofNat 8 (t.getD (b.toNat / 32) 0 >>> (8 * (b.toNat % 32)))

/-- Times x in the field of AES. -/
def aesTwice (b : Byte) : Byte := (b <<< 1) ^^^ (if b.getLsbD 7 then 0x1B else 0)

/-- The product of a field element and a constant below 16. -/
def aesTimes (k : Nat) (b : Byte) : Byte :=
  let b2 := aesTwice b
  let b4 := aesTwice b2
  let pick (n : Nat) (x : Byte) : Byte := if k.testBit n then x else 0
  pick 0 b ^^^ pick 1 b2 ^^^ pick 2 b4 ^^^ pick 3 (aesTwice b4)

def xorBytes (a b : List Byte) : List Byte := a.zipWith (· ^^^ ·) b

/-- Row `r` of every column turned by `k * r` columns. -/
def aesShift (k : Nat) (s : List Byte) : List Byte := (List.range 16).map fun i => s.getD ((i + 4 * k * (i % 4)) % 16) 0

/-- Every column times the circulant matrix of a row of constants. -/
def aesMix (cs : List Nat) (s : List Byte) : List Byte :=
  (List.range 16).map fun i =>
    ((List.range 4).map fun j => aesTimes (cs.getD j 0) (s.getD (i / 4 * 4 + (i + j) % 4) 0)).foldl (· ^^^ ·) 0

/-- The words of the key schedule, last first, from the eight of the key and `n` more. -/
def aesSchedule (key : List (List Byte)) : Nat → List (List Byte)
  | 0 => key.reverse
  | n + 1 =>
    let ws := aesSchedule key n
    let last := ws.getD 0 []
    let t := if n % 8 = 0 then
        ((last.drop 1 ++ last.take 1).map (aesLook aesSbox)).zipWith (· ^^^ ·) [BitVec.ofNat 8 (2 ^ (n / 8)), 0, 0, 0]
      else if n % 8 = 4 then last.map (aesLook aesSbox) else last
    xorBytes (ws.getD 7 []) t :: ws

/-- The fifteen round keys of a key of 32 bytes. -/
def aesRoundKeys (key : List Byte) : List (List Byte) :=
  let ws := (aesSchedule ((List.range 8).map fun i => (key.drop (4 * i)).take 4) 52).reverse
  (List.range 15).map fun r => ((ws.drop (4 * r)).take 4).flatten

/-- One block encrypted, and decrypted, under a key of 32 bytes. -/
def aesEncrypt (key block : List Byte) : List Byte :=
  let ks := aesRoundKeys key
  let s := (List.range 13).foldl (fun s r =>
    xorBytes (aesMix [2, 3, 1, 1] (aesShift 1 (s.map (aesLook aesSbox)))) (ks.getD (r + 1) [])) (xorBytes block (ks.getD 0 []))
  xorBytes (aesShift 1 (s.map (aesLook aesSbox))) (ks.getD 14 [])

def aesDecrypt (key block : List Byte) : List Byte :=
  let ks := aesRoundKeys key
  let s := (List.range 13).foldl (fun s r =>
    aesMix [14, 11, 13, 9] (xorBytes ((aesShift 3 s).map (aesLook aesInvSbox)) (ks.getD (13 - r) [])))
    (xorBytes block (ks.getD 14 []))
  xorBytes ((aesShift 3 s).map (aesLook aesInvSbox)) (ks.getD 0 [])

/-- `n` bytes of a number, low byte first. -/
def bytesLow (n : Nat) (x : Nat) : List Byte := (List.range n).map fun i => BitVec.ofNat 8 (x >>> (8 * i))

/-- A block under a pair of keys, its tweak the encrypted physical address: the data key in the low half of the pair (R220). -/
def xtsWith (f : List Byte → List Byte → List Byte) (keys : BitVec 512) (pa : Nat) (block : List Byte) : List Byte :=
  let t := aesEncrypt (bytesLow 32 (keys.toNat >>> 256)) (bytesLow 16 pa)
  xorBytes (f (bytesLow 32 (keys.toNat % 2 ^ 256)) (xorBytes block t)) t

/-- The plaintext that one pair of keys reads in a block written under another (R220): the reader's decryption of the writer's
ciphertext. -/
def xtsBlock (writer reader : BitVec 512) (pa : Nat) (block : List Byte) : List Byte :=
  xtsWith aesDecrypt reader pa (xtsWith aesEncrypt writer pa block)

end Sys2Proof.Machine
end

