-- ==== Sys2Proof/Syntax.lean ====
section
/-! DEFINITION. The steps of the NM-DX16: one constructor of `Instr` per row of spec/opcode_table.json.
F3, X, P2 and trailer words carry the fields of their class (R18, R25, R27, R31), copy commands those of R41,
and the events of the table the place and the data at which they arise. -/

namespace Sys2Proof

/-- The operand, guard and option fields of an F3 word (R18); the opcode is the constructor. -/
structure F3 where
  gs : Bool
  gp : BitVec 3
  d : Code
  a : Code
  b : Code
  c : Code
  /-- last-use A, B, C in bits 2, 1, 0 ([15:13]) -/
  lu : BitVec 3
  /-- keep-wait A, B, C in bits 2, 1, 0 ([12:10]) -/
  kw : BitVec 3
  ns : BitVec 2
  md : BitVec 8
  deriving DecidableEq, Repr

/-- The fields of an X word (R25); the xop is the constructor. -/
structure XW where
  gs : Bool
  gp : BitVec 3
  d : Code
  a : Code
  lu : Bool
  kw : Bool
  rsv : BitVec 2
  imm : Word32
  deriving DecidableEq, Repr

/-- The operations of P2 halves (R47). -/
inductive P2Op where
  | iadd | isub | and | or | xor | shl | shr | sar | mov | movi | iaddi | imin | imax
  | fadd | fsub | fmul | fmin | fmax | icmpeq | icmplt | fcmplt | nop
  deriving DecidableEq, Repr

/-- The fields of one P2 half (R27), less its op. -/
structure P2H where
  g : BitVec 2
  d : BitVec 7
  b : BitVec 7
  luA : Bool
  luB : Bool
  kw : Bool
  imm : BitVec 6
  deriving DecidableEq, Repr

/-- A P2 word whose high half's op is the constructor: the high half, and the low half with its op (R27). -/
structure P2W where
  hi : P2H
  lop : P2Op
  lo : P2H
  deriving DecidableEq, Repr

/-- The fields of a trailer word (R31); the exit kind is the constructor. -/
structure TW where
  gs : Bool
  gp : BitVec 3
  count : BitVec 5
  rsv : Bool
  target : BitVec 24
  a0 : Code
  a1 : Code
  a2 : Code
  deriving DecidableEq, Repr

/-- The flags, fields and extra words of a copy command (R41); the command code is the constructor. -/
structure Cmd where
  yield : Bool
  mark : Bool
  fields : BitVec 48
  extra : List Word64
  deriving DecidableEq, Repr

/-- One constructor per row of spec/opcode_table.json: the instruction words and copy commands first, with their fields,
then the events; the place and the data at which an event arises stand in the issuer of the state (Machine/State.lean). -/
inductive Instr where
  /-- IADD (R153). -/
  | iadd (w : F3)
  /-- ISUB (R153). -/
  | isub (w : F3)
  /-- IMUL (R153). -/
  | imul (w : F3)
  /-- IMAD (R153). -/
  | imad (w : F3)
  /-- IMULH (R153). -/
  | imulh (w : F3)
  /-- IMIN (R153). -/
  | imin (w : F3)
  /-- IMAX (R153). -/
  | imax (w : F3)
  /-- IABS (R153). -/
  | iabs (w : F3)
  /-- AND (R153). -/
  | and (w : F3)
  /-- OR (R153). -/
  | or (w : F3)
  /-- XOR (R153). -/
  | xor (w : F3)
  /-- ANDN (R153). -/
  | andn (w : F3)
  /-- SHL (R154). -/
  | shl (w : F3)
  /-- SHR (R154). -/
  | shr (w : F3)
  /-- SAR (R154). -/
  | sar (w : F3)
  /-- ROT (R153). -/
  | rot (w : F3)
  /-- POPC (R153). -/
  | popc (w : F3)
  /-- CLZ (R153). -/
  | clz (w : F3)
  /-- BREV (R153). -/
  | brev (w : F3)
  /-- BFE (R155). -/
  | bfe (w : F3)
  /-- BFI (R155). -/
  | bfi (w : F3)
  /-- SEL (R135). -/
  | sel (w : F3)
  /-- MOV (R135). -/
  | mov (w : F3)
  /-- IADD3 (R153). -/
  | iadd3 (w : F3)
  /-- LEA (R156). -/
  | lea (w : F3)
  /-- IDIV (R157). -/
  | idiv (w : F3)
  /-- IREM (R157). -/
  | irem (w : F3)
  /-- ICMP (R145). -/
  | icmp (w : F3)
  /-- UCMP (R145). -/
  | ucmp (w : F3)
  /-- FCMP (R146). -/
  | fcmp (w : F3)
  /-- PLOP (R148). -/
  | plop (w : F3)
  /-- PMOV_GET (R149). -/
  | pmovGet (w : F3)
  /-- PMOV_SET (R149). -/
  | pmovSet (w : F3)
  /-- FADD (R159). -/
  | fadd (w : F3)
  /-- FSUB (R159). -/
  | fsub (w : F3)
  /-- FMUL (R159). -/
  | fmul (w : F3)
  /-- FFMA (R159). -/
  | ffma (w : F3)
  /-- FMIN (R160). -/
  | fmin (w : F3)
  /-- FMAX (R160). -/
  | fmax (w : F3)
  /-- FRCP (R161). -/
  | frcp (w : F3)
  /-- FRSQ (R161). -/
  | frsq (w : F3)
  /-- FSQRT (R159). -/
  | fsqrt (w : F3)
  /-- FEX2 (R161). -/
  | fex2 (w : F3)
  /-- FLG2 (R161). -/
  | flg2 (w : F3)
  /-- FSIN (R161). -/
  | fsin (w : F3)
  /-- FCOS (R161). -/
  | fcos (w : F3)
  /-- FRND (R159). -/
  | frnd (w : F3)
  /-- FDIV (R159). -/
  | fdiv (w : F3)
  /-- FCLS (R162). -/
  | fcls (w : F3)
  /-- CVT (R163). -/
  | cvt (w : F3)
  /-- PACK (R164). -/
  | pack (w : F3)
  /-- UNPK (R164). -/
  | unpk (w : F3)
  /-- DP4I (R167). -/
  | dp4i (w : F3)
  /-- DP8I (R167). -/
  | dp8i (w : F3)
  /-- DP4F (R167). -/
  | dp4f (w : F3)
  /-- DP8F (R167). -/
  | dp8f (w : F3)
  /-- DP2B (R167). -/
  | dp2b (w : F3)
  /-- PSCL (R166). -/
  | pscl (w : F3)
  /-- PRMT (R165). -/
  | prmt (w : F3)
  /-- DFROM (R178). -/
  | dfrom (w : F3)
  /-- DTO (R179). -/
  | dto (w : F3)
  /-- DADD (R180). -/
  | dadd (w : F3)
  /-- DSUB (R180). -/
  | dsub (w : F3)
  /-- DMIX (R180). -/
  | dmix (w : F3)
  /-- DCOS (R181). -/
  | dcos (w : F3)
  /-- DDOT (R181). -/
  | ddot (w : F3)
  /-- DSCL (R182). -/
  | dscl (w : F3)
  /-- DNRM (R180). -/
  | dnrm (w : F3)
  /-- DSETN (R183). -/
  | dsetn (w : F3)
  /-- DPROJ (R180). -/
  | dproj (w : F3)
  /-- DMOV (R183). -/
  | dmov (w : F3)
  /-- IXSET (R141). -/
  | ixset (w : F3)
  /-- IXGET (R141). -/
  | ixget (w : F3)
  /-- IXSTEP (R141). -/
  | ixstep (w : F3)
  /-- IXSTEP_BY (R141). -/
  | ixstepBy (w : F3)
  /-- IXCUR (R141). -/
  | ixcur (w : F3)
  /-- RKILL (R129). -/
  | rkill (w : F3)
  /-- SHFL (R117). -/
  | shfl (w : F3)
  /-- VOTE (R118). -/
  | vote (w : F3)
  /-- LRED (R119). -/
  | lred (w : F3)
  /-- LSCAN (R119). -/
  | lscan (w : F3)
  /-- MJOIN (R110). -/
  | mjoin (w : F3)
  /-- MLEAVE (R110). -/
  | mleave (w : F3)
  /-- MWAIT (R111). -/
  | mwait (w : F3)
  /-- MSET (R110). -/
  | mset (w : F3)
  /-- MGET (R110). -/
  | mget (w : F3)
  /-- MEET (R108). -/
  | meet (w : F3)
  /-- MEETR (R108). -/
  | meetr (w : F3)
  /-- AADD (R255). -/
  | aadd (w : F3)
  /-- AMIN (R255). -/
  | amin (w : F3)
  /-- AMAX (R255). -/
  | amax (w : F3)
  /-- AAND (R255). -/
  | aand (w : F3)
  /-- AOR (R255). -/
  | aor (w : F3)
  /-- AXOR (R255). -/
  | axor (w : F3)
  /-- AEXCH (R255). -/
  | aexch (w : F3)
  /-- ACAS (R255). -/
  | acas (w : F3)
  /-- AFADD (R255). -/
  | afadd (w : F3)
  /-- AADDW (R258). -/
  | aaddw (w : F3)
  /-- AWAIT (R257). -/
  | await (w : F3)
  /-- LRES (R259). -/
  | lres (w : F3)
  /-- SCND (R259). -/
  | scnd (w : F3)
  /-- FENCE (R260). -/
  | fence (w : F3)
  /-- FENCER (R261). -/
  | fencer (w : F3)
  /-- BARI (R265). -/
  | bari (w : F3)
  /-- BARA (R266). -/
  | bara (w : F3)
  /-- BARW (R266). -/
  | barw (w : F3)
  /-- BARAW (R266). -/
  | baraw (w : F3)
  /-- RINIT (R201). -/
  | rinit (w : F3)
  /-- RACQ (R202). -/
  | racq (w : F3)
  /-- RREL (R203). -/
  | rrel (w : F3)
  /-- QPUSH (R321). -/
  | qpush (w : F3)
  /-- QPOP (R322). -/
  | qpop (w : F3)
  /-- JDEC (R324). -/
  | jdec (w : F3)
  /-- MCLAIM (R274). -/
  | mclaim (w : F3)
  /-- MRELS (R274). -/
  | mrels (w : F3)
  /-- MLDW (R280). -/
  | mldw (w : F3)
  /-- MSTREAM (R281). -/
  | mstream (w : F3)
  /-- MZERO (R281). -/
  | mzero (w : F3)
  /-- MDRAIN (R283). -/
  | mdrain (w : F3)
  /-- MSYNC (R284). -/
  | msync (w : F3)
  /-- MSYNC_HAND (R284). -/
  | msyncHand (w : F3)
  /-- FORK (R314). -/
  | fork (w : F3)
  /-- RDV (R316). -/
  | rdv (w : F3)
  /-- RDV_ABORT (R317). -/
  | rdvAbort (w : F3)
  /-- CPY (R313). -/
  | cpy (w : F3)
  /-- TRAP (R353). -/
  | trap (w : F3)
  /-- TRAP_BRK (R353). -/
  | trapBrk (w : F3)
  /-- SRET (R359). -/
  | sret (w : F3)
  /-- SYSRD (R345). -/
  | sysrd (w : F3)
  /-- SYSWR (R345). -/
  | syswr (w : F3)
  /-- OINV (R228). -/
  | oinv (w : F3)
  /-- OSHOOT (R229). -/
  | oshoot (w : F3)
  /-- IFLUSH (R376). -/
  | iflush (w : F3)
  /-- IDEM_ENTER (R362). -/
  | idemEnter (w : F3)
  /-- IDEM_EXIT (R362). -/
  | idemExit (w : F3)
  /-- WFI (R360). -/
  | wfi (w : F3)
  /-- KEYSET (R221). -/
  | keyset (w : F3)
  /-- KEYSET_CLEAR (R221). -/
  | keysetClear (w : F3)
  /-- HALTC (R370). -/
  | haltc (w : F3)
  /-- HALTC_RES (R370). -/
  | haltcRes (w : F3)
  /-- NOP (R371). -/
  | nop (w : F3)
  /-- TPOP (R354). -/
  | tpop (w : F3)
  /-- TRES (R355). -/
  | tres (w : F3)
  /-- LDC (R227). -/
  | ldc (w : F3)
  /-- STC (R227). -/
  | stc (w : F3)
  /-- MOVI (R136). -/
  | movi (w : XW)
  /-- MOVH (R136). -/
  | movh (w : XW)
  /-- IADDI (R168). -/
  | iaddi (w : XW)
  /-- ANDI (R168). -/
  | andi (w : XW)
  /-- ORI (R168). -/
  | ori (w : XW)
  /-- XORI (R168). -/
  | xori (w : XW)
  /-- ICMPI (R147). -/
  | icmpi (w : XW)
  /-- FADDI (R168). -/
  | faddi (w : XW)
  /-- LD (R222). -/
  | ld (w : XW)
  /-- LD_CO (R224). -/
  | ldCo (w : XW)
  /-- ST (R222). -/
  | st (w : XW)
  /-- LDS (R197). -/
  | lds (w : XW)
  /-- STS (R197). -/
  | sts (w : XW)
  /-- LDB (R190). -/
  | ldb (w : XW)
  /-- STB (R190). -/
  | stb (w : XW)
  /-- DLD (R185). -/
  | dld (w : XW)
  /-- DST (R185). -/
  | dst (w : XW)
  /-- SLOTST (R275). -/
  | slotst (w : XW)
  /-- PREF (R225). -/
  | pref (w : XW)
  /-- ACCLD (R285). -/
  | accld (w : XW)
  /-- P2_IADD (R169). -/
  | p2Iadd (w : P2W)
  /-- P2_ISUB (R169). -/
  | p2Isub (w : P2W)
  /-- P2_AND (R169). -/
  | p2And (w : P2W)
  /-- P2_OR (R169). -/
  | p2Or (w : P2W)
  /-- P2_XOR (R169). -/
  | p2Xor (w : P2W)
  /-- P2_SHL (R169). -/
  | p2Shl (w : P2W)
  /-- P2_SHR (R169). -/
  | p2Shr (w : P2W)
  /-- P2_SAR (R169). -/
  | p2Sar (w : P2W)
  /-- P2_MOV (R169). -/
  | p2Mov (w : P2W)
  /-- P2_MOVI (R169). -/
  | p2Movi (w : P2W)
  /-- P2_IADDI (R169). -/
  | p2Iaddi (w : P2W)
  /-- P2_IMIN (R169). -/
  | p2Imin (w : P2W)
  /-- P2_IMAX (R169). -/
  | p2Imax (w : P2W)
  /-- P2_FADD (R169). -/
  | p2Fadd (w : P2W)
  /-- P2_FSUB (R169). -/
  | p2Fsub (w : P2W)
  /-- P2_FMUL (R169). -/
  | p2Fmul (w : P2W)
  /-- P2_FMIN (R169). -/
  | p2Fmin (w : P2W)
  /-- P2_FMAX (R169). -/
  | p2Fmax (w : P2W)
  /-- ICMPEQ (R169). -/
  | icmpeq (w : P2W)
  /-- ICMPLT (R169). -/
  | icmplt (w : P2W)
  /-- FCMPLT (R169). -/
  | fcmplt (w : P2W)
  /-- P2_NOP (R169). -/
  | p2Nop (w : P2W)
  /-- FALL (R102). -/
  | fall (w : TW)
  /-- BRA (R102). -/
  | bra (w : TW)
  /-- BRX (R102). -/
  | brx (w : TW)
  /-- CALL (R104). -/
  | call (w : TW)
  /-- CALLX (R104). -/
  | callx (w : TW)
  /-- RET (R104). -/
  | ret (w : TW)
  /-- EXIT (R105). -/
  | exit (w : TW)
  /-- LOOP (R103). -/
  | loop (w : TW)
  /-- CORE_SPLIT_WRITE (R193). -/
  | coreSplitWrite (w : F3)
  /-- BSP_WRITE (R189). -/
  | bspWrite (w : F3)
  /-- ORT_REGISTER_WRITE (R206). -/
  | ortRegisterWrite (w : F3)
  /-- STATUS_WRITE (R347). -/
  | statusWrite (w : F3)
  /-- TQ_BASE_WRITE (R348). -/
  | tqBaseWrite (w : F3)
  /-- TQ_HEAD_WRITE (R348). -/
  | tqHeadWrite (w : F3)
  /-- TQ_HAND_WRITE (R348). -/
  | tqHandWrite (w : F3)
  /-- TQ_BATCH_WRITE (R346). -/
  | tqBatchWrite (w : F3)
  /-- INT_PENDING_CLEAR (R357). -/
  | intPendingClear (w : F3)
  /-- IPI_WRITE (R361). -/
  | ipiWrite (w : F3)
  /-- WDT_WRITE (R361). -/
  | wdtWrite (w : F3)
  /-- CWIN (R298). -/
  | cwin (c : Cmd)
  /-- CWINA (R299). -/
  | cwina (c : Cmd)
  /-- CFILL (R298). -/
  | cfill (c : Cmd)
  /-- CMCAST (R300). -/
  | cmcast (c : Cmd)
  /-- CRING (R301). -/
  | cring (c : Cmd)
  /-- CSLOT (R298). -/
  | cslot (c : Cmd)
  /-- CQF (R302). -/
  | cqf (c : Cmd)
  /-- CSIG (R303). -/
  | csig (c : Cmd)
  /-- CWAIT (R304). -/
  | cwait (c : Cmd)
  /-- CLOOP (R305). -/
  | cloop (c : Cmd)
  /-- CNET (R306). -/
  | cnet (c : Cmd)
  /-- CZERO (R307). -/
  | czero (c : Cmd)
  /-- CEND (R308). -/
  | cend (c : Cmd)
  /-- CROSSLANE_TIMEOUT (R114). -/
  | crosslaneTimeout
  /-- AWAIT_RETEST (R257). -/
  | awaitRetest
  /-- RELAY_WRITEBACK_REQUEST (R323). -/
  | relayWritebackRequest
  /-- MLDW_PERFORM (R280). -/
  | mldwPerform
  /-- MSTREAM_PERFORM (R281). -/
  | mstreamPerform
  /-- MZERO_PERFORM (R281). -/
  | mzeroPerform
  /-- DRAIN_HANDOVER (R283). -/
  | drainHandover
  /-- DRAIN_PERFORM (R283). -/
  | drainPerform
  /-- RDV_TIMEOUT (R316). -/
  | rdvTimeout
  /-- GROUP_PICK (R97). -/
  | groupPick
  /-- ACTIVE_SET_JOIN (R100). -/
  | activeSetJoin
  /-- RESULT_WRITEBACK (R124). -/
  | resultWriteback
  /-- HELD_WRITE_RECHECK (R219). -/
  | heldWriteRecheck
  /-- HELD_WRITE_DROP (R219). -/
  | heldWriteDrop
  /-- CORE_SPLIT_GROW_DONE (R193). -/
  | coreSplitGrowDone
  /-- TIMER_COMPARE_MATCH (R357). -/
  | timerCompareMatch
  /-- WATCHDOG_EXPIRY (R361). -/
  | watchdogExpiry
  /-- TQ_AGE_EXPIRY (R352). -/
  | tqAgeExpiry
  /-- INTERRUPT_TAKE (R358). -/
  | interruptTake
  /-- PARTITION_ENTRY_WRITE (R233). -/
  | partitionEntryWrite
  /-- SWEEP_PERIOD (R236). -/
  | sweepPeriod
  /-- STACK_COUNTER_RESET (R241). -/
  | stackCounterReset
  /-- STACK_NEW_CLEAR (R241). -/
  | stackNewClear
  /-- QUEUE_OWNER_WRITE (R291). -/
  | queueOwnerWrite
  /-- QUEUE_RESTART (R312). -/
  | queueRestart
  /-- QUEUE_DISCARD (R312). -/
  | queueDiscard
  /-- DISPATCHER_BLOCK_WRITE (R329). -/
  | dispatcherBlockWrite
  /-- SLOT_MAP (R331). -/
  | slotMap
  /-- SLOT_UNMAP (R331). -/
  | slotUnmap
  /-- PREEMPT_SAVE (R364). -/
  | preemptSave
  /-- PREEMPT_IDEM (R364). -/
  | preemptIdem
  /-- PRE_GRACE_EXPIRY (R364). -/
  | preGraceExpiry
  /-- SAVED_RESULT_ARRIVAL (R365). -/
  | savedResultArrival
  /-- SAVE_COMPLETE (R364). -/
  | saveComplete
  /-- BLOCK_RESTORE (R367). -/
  | blockRestore
  /-- KICK (R332). -/
  | kick
  /-- PENDING_MAP_CLEAR (R332). -/
  | pendingMapClear
  /-- PACKET_TAKE (R333). -/
  | packetTake
  /-- BLOCK_PLACE (R335). -/
  | blockPlace
  /-- NEIGHBOURHOOD_PLACE (R336). -/
  | neighbourhoodPlace
  /-- PHASE_CHANGE (R340). -/
  | phaseChange
  /-- SIGNAL_ONLY_PACKET (R337). -/
  | signalOnlyPacket
  /-- PACKET_COMPLETE (R334). -/
  | packetComplete
  /-- SEQUENCER_ERROR (R342). -/
  | sequencerError
  /-- CONTEXT_STORE_WRITE (R367). -/
  | contextStoreWrite
  /-- FEATURE_ENABLE_WRITE (R381). -/
  | featureEnableWrite
  /-- EVENT_BLOCK_WRITE (R390). -/
  | eventBlockWrite
  /-- INBOUND_WINDOW_WRITE (R391). -/
  | inboundWindowWrite
  /-- REMOTE_WINDOW_WRITE (R387). -/
  | remoteWindowWrite
  /-- CTLSEM_SUPERVISOR_TAKE (R394). -/
  | ctlsemSupervisorTake
  /-- CTLSEM_SUPERVISOR_GIVE (R394). -/
  | ctlsemSupervisorGive
  /-- CTLSEM_LAPSE (R394). -/
  | ctlsemLapse
  /-- MAILBOX_STATUS_CLEAR (R395). -/
  | mailboxStatusClear
  /-- REPORT_REQUEST (R395). -/
  | reportRequest
  /-- REPORT_DONE (R395). -/
  | reportDone
  /-- MEASUREMENT_EXTEND (R399). -/
  | measurementExtend
  /-- REGISTER_WRITE (R233). -/
  | registerWrite
  /-- GET_STATUS (R393). -/
  | getStatus
  /-- GET_REPORT (R399). -/
  | getReport
  /-- TAKE (R394). -/
  | take
  /-- GIVE (R394). -/
  | give
  /-- FLASH_WRITE (R393). -/
  | flashWrite
  /-- MARKER_SET (R397). -/
  | markerSet
  /-- POWER_LIMIT (R393). -/
  | powerLimit
  /-- RESET (R393). -/
  | reset
  /-- MAILBOX (R395). -/
  | mailbox
  /-- POWER_ON_BOOT (R398). -/
  | powerOnBoot
  /-- BOOT_TAKEOVER (R398). -/
  | bootTakeover
  /-- THERMAL_THROTTLE (R400). -/
  | thermalThrottle
  /-- THERMAL_SHUTDOWN (R400). -/
  | thermalShutdown
  /-- DIE_LINK_FAILURE (R384). -/
  | dieLinkFailure
  /-- HBM_UNCORRECTABLE_ERROR (R240). -/
  | hbmUncorrectableError
  /-- PATROL_SCRUB (R240). -/
  | patrolScrub
  /-- INBOUND_REQUEST (R391). -/
  | inboundRequest
  /-- MSIX_MESSAGE (R390). -/
  | msixMessage
  /-- PCIE_COMPLETION_TIMEOUT (R388). -/
  | pcieCompletionTimeout
  /-- PCIE_LINK_DOWN (R390). -/
  | pcieLinkDown
  /-- CXL_ERROR (R392). -/
  | cxlError
  /-- UET_RETRANSMIT_TIMEOUT (R386). -/
  | uetRetransmitTimeout
  /-- REMOTE_ATOMIC_ARRIVAL (R387). -/
  | remoteAtomicArrival
  /-- HBM_CORRECTABLE_ERROR (R240). -/
  | hbmCorrectableError
  /-- POWER_LOSS (R397). -/
  | powerLoss
  /-- THROTTLE_END (R400). -/
  | throttleEnd
  /-- INBOUND_REMOTE_ACCESS (R387). -/
  | inboundRemoteAccess
  /-- CNET_ACKNOWLEDGEMENT (R306). -/
  | cnetAcknowledgement
  deriving DecidableEq, Repr

end Sys2Proof
end

