-- ==== Sys2Proof/Decode.lean ====
section
/-! DEFINITION. The decoder of instruction words and copy command words, and the encoder, from the tables of
spec/01_instruction_words.md (R15-R48). The fields of a word stay raw codes: the checks of R19-R34 are the leg check's
(Machine/Forms.lean), which reports their causes (R37, R43). -/

namespace Sys2Proof

/-- The bit field [hi:lo] of a word, as a number. -/
def field (w : Word64) (hi lo : Nat) : Nat := (w.toNat >>> lo) % 2 ^ (hi + 1 - lo)

/-- Bits [lo + n - 1 : lo] of a word, as a bit vector. -/
def bits (w : Word64) (lo n : Nat) : BitVec n := BitVec.extractLsb' lo n w

/-- Why a word is no instruction (R43). -/
inductive DecodeErr where
  /-- F3 group 13-15 or an index past the list, X xop 19-63, P2 op 22-63, at the half with the given index (0 or 1) -/
  | illegalOpcode (half : Nat)
  /-- an exit kind 8-15 -/
  | badTrailer
  /-- a copy command 13-63 -/
  | badCommand
  deriving DecidableEq, Repr

/-! ### Fields of the word classes -/

/-- The fields of an F3 word (R18). -/
def unpackF3 (w : Word64) : F3 where
  gs := w.getLsbD 51
  gp := bits w 48 3
  d := bits w 40 8
  a := bits w 32 8
  b := bits w 24 8
  c := bits w 16 8
  lu := bits w 13 3
  kw := bits w 10 3
  ns := bits w 8 2
  md := bits w 0 8

/-- An F3 word: class 0, group and index as a 10-bit opcode (R18). -/
def packF3 (op : Nat) (f : F3) : Word64 :=
  (0 : BitVec 2) ++ BitVec.ofNat 10 op ++ BitVec.ofBool f.gs ++ f.gp ++ f.d ++ f.a ++ f.b ++ f.c ++ f.lu ++ f.kw ++ f.ns
    ++ f.md

/-- The fields of an X word (R25). -/
def unpackX (w : Word64) : XW where
  gs := w.getLsbD 55
  gp := bits w 52 3
  d := bits w 44 8
  a := bits w 36 8
  lu := w.getLsbD 35
  kw := w.getLsbD 34
  rsv := bits w 32 2
  imm := bits w 0 32

/-- An X word: class 2 and the xop (R25). -/
def packX (op : Nat) (f : XW) : Word64 :=
  (2 : BitVec 2) ++ BitVec.ofNat 6 op ++ BitVec.ofBool f.gs ++ f.gp ++ f.d ++ f.a ++ BitVec.ofBool f.lu
    ++ BitVec.ofBool f.kw ++ f.rsv ++ f.imm

/-- The fields of a P2 half that starts at bit `lo` (R27). -/
def unpackHalf (w : Word64) (lo : Nat) : P2H where
  g := bits w (lo + 23) 2
  d := bits w (lo + 16) 7
  b := bits w (lo + 9) 7
  luA := w.getLsbD (lo + 8)
  luB := w.getLsbD (lo + 7)
  kw := w.getLsbD (lo + 6)
  imm := bits w lo 6

/-- The 31 bits of a P2 half (R27). -/
def packHalf (op : Nat) (h : P2H) : BitVec 31 :=
  BitVec.ofNat 6 op ++ h.g ++ h.d ++ h.b ++ BitVec.ofBool h.luA ++ BitVec.ofBool h.luB ++ BitVec.ofBool h.kw ++ h.imm

/-- The fields of a trailer word (R31). -/
def unpackT (w : Word64) : TW where
  gs := w.getLsbD 57
  gp := bits w 54 3
  count := bits w 49 5
  rsv := w.getLsbD 48
  target := bits w 24 24
  a0 := bits w 16 8
  a1 := bits w 8 8
  a2 := bits w 0 8

/-- A trailer word: class 3 and the exit kind (R31). -/
def packT (kind : Nat) (f : TW) : Word64 :=
  (3 : BitVec 2) ++ BitVec.ofNat 4 kind ++ BitVec.ofBool f.gs ++ f.gp ++ f.count ++ BitVec.ofBool f.rsv ++ f.target
    ++ f.a0 ++ f.a1 ++ f.a2

/-! ### The opcode lists -/

/-- The number of the system register that SYSRD or SYSWR names (R345): B in bits [15:8], C in [7:0]. -/
def sysNumber (w : F3) : Nat := w.b.toNat * 256 + w.c.toNat

/-- The row of a SYSWR by its register number: the registers with a write rule of their own, else SYSWR (R346). -/
def sysInstr (n : Nat) (w : F3) : Instr :=
  match n with
  | 0x010 => .statusWrite w
  | 0x020 => .tqBaseWrite w
  | 0x021 => .tqHeadWrite w
  | 0x023 => .tqBatchWrite w
  | 0x025 => .tqHandWrite w
  | 0x032 => .intPendingClear w
  | 0x038 => .ipiWrite w
  | 0x039 => .wdtWrite w
  | 0x040 => .ortRegisterWrite w
  | 0x041 => .ortRegisterWrite w
  | 0x042 => .ortRegisterWrite w
  | 0x050 => .coreSplitWrite w
  | 0x080 => .bspWrite w
  | _ => .syswr w

/-- The instruction of an F3 opcode (R44); a word whose modifier or register number selects another row of the
table gives that row. -/
def f3Instr (op : Nat) (w : F3) : Option Instr :=
  match op with
  | 0x000 => some (.iadd w)
  | 0x001 => some (.isub w)
  | 0x002 => some (.imul w)
  | 0x003 => some (.imad w)
  | 0x004 => some (.imulh w)
  | 0x005 => some (.imin w)
  | 0x006 => some (.imax w)
  | 0x007 => some (.iabs w)
  | 0x008 => some (.and w)
  | 0x009 => some (.or w)
  | 0x00a => some (.xor w)
  | 0x00b => some (.andn w)
  | 0x00c => some (.shl w)
  | 0x00d => some (.shr w)
  | 0x00e => some (.sar w)
  | 0x00f => some (.rot w)
  | 0x010 => some (.popc w)
  | 0x011 => some (.clz w)
  | 0x012 => some (.brev w)
  | 0x013 => some (.bfe w)
  | 0x014 => some (.bfi w)
  | 0x015 => some (.sel w)
  | 0x016 => some (.mov w)
  | 0x017 => some (.iadd3 w)
  | 0x018 => some (.lea w)
  | 0x019 => some (.idiv w)
  | 0x01a => some (.irem w)
  | 0x040 => some (.icmp w)
  | 0x041 => some (.ucmp w)
  | 0x042 => some (.fcmp w)
  | 0x043 => some (.plop w)
  | 0x044 => some (if w.md.getLsbD 0 then .pmovSet w else .pmovGet w)
  | 0x080 => some (.fadd w)
  | 0x081 => some (.fsub w)
  | 0x082 => some (.fmul w)
  | 0x083 => some (.ffma w)
  | 0x084 => some (.fmin w)
  | 0x085 => some (.fmax w)
  | 0x086 => some (.frcp w)
  | 0x087 => some (.frsq w)
  | 0x088 => some (.fsqrt w)
  | 0x089 => some (.fex2 w)
  | 0x08a => some (.flg2 w)
  | 0x08b => some (.fsin w)
  | 0x08c => some (.fcos w)
  | 0x08d => some (.frnd w)
  | 0x08e => some (.fdiv w)
  | 0x08f => some (.fcls w)
  | 0x0c0 => some (.cvt w)
  | 0x0c1 => some (.pack w)
  | 0x0c2 => some (.unpk w)
  | 0x0c3 => some (.dp4i w)
  | 0x0c4 => some (.dp8i w)
  | 0x0c5 => some (.dp4f w)
  | 0x0c6 => some (.dp8f w)
  | 0x0c7 => some (.dp2b w)
  | 0x0c8 => some (.pscl w)
  | 0x0c9 => some (.prmt w)
  | 0x100 => some (.dfrom w)
  | 0x101 => some (.dto w)
  | 0x102 => some (.dadd w)
  | 0x103 => some (.dsub w)
  | 0x104 => some (.dmix w)
  | 0x105 => some (.dcos w)
  | 0x106 => some (.ddot w)
  | 0x107 => some (.dscl w)
  | 0x108 => some (.dnrm w)
  | 0x109 => some (.dsetn w)
  | 0x10a => some (.dproj w)
  | 0x10b => some (.dmov w)
  | 0x140 => some (.ixset w)
  | 0x141 => some (.ixget w)
  | 0x142 => some (if w.md.getLsbD 3 then .ixstepBy w else .ixstep w)
  | 0x143 => some (.ixcur w)
  | 0x144 => some (.rkill w)
  | 0x180 => some (.shfl w)
  | 0x181 => some (.vote w)
  | 0x182 => some (.lred w)
  | 0x183 => some (.lscan w)
  | 0x1c0 => some (.mjoin w)
  | 0x1c1 => some (.mleave w)
  | 0x1c2 => some (.mwait w)
  | 0x1c3 => some (.mset w)
  | 0x1c4 => some (.mget w)
  | 0x1c5 => some (.meet w)
  | 0x1c6 => some (.meetr w)
  | 0x200 => some (.aadd w)
  | 0x201 => some (.amin w)
  | 0x202 => some (.amax w)
  | 0x203 => some (.aand w)
  | 0x204 => some (.aor w)
  | 0x205 => some (.axor w)
  | 0x206 => some (.aexch w)
  | 0x207 => some (.acas w)
  | 0x208 => some (.afadd w)
  | 0x209 => some (.aaddw w)
  | 0x20a => some (.await w)
  | 0x20b => some (.lres w)
  | 0x20c => some (.scnd w)
  | 0x20d => some (.fence w)
  | 0x20e => some (.fencer w)
  | 0x240 => some (.bari w)
  | 0x241 => some (.bara w)
  | 0x242 => some (.barw w)
  | 0x243 => some (.baraw w)
  | 0x244 => some (.rinit w)
  | 0x245 => some (.racq w)
  | 0x246 => some (.rrel w)
  | 0x247 => some (.qpush w)
  | 0x248 => some (.qpop w)
  | 0x249 => some (.jdec w)
  | 0x280 => some (.mclaim w)
  | 0x281 => some (.mrels w)
  | 0x282 => some (.mldw w)
  | 0x283 => some (.mstream w)
  | 0x284 => some (.mzero w)
  | 0x285 => some (.mdrain w)
  | 0x286 => some (if w.md.getLsbD 0 then .msyncHand w else .msync w)
  | 0x2c0 => some (.fork w)
  | 0x2c1 => some (if w.md.getLsbD 0 then .rdvAbort w else .rdv w)
  | 0x2c2 => some (.cpy w)
  | 0x2c3 => some (if w.md.getLsbD 0 then .trapBrk w else .trap w)
  | 0x2c4 => some (.sret w)
  | 0x2c5 => some (.sysrd w)
  | 0x2c6 => some (sysInstr (sysNumber w) w)
  | 0x2c7 => some (.oinv w)
  | 0x2c8 => some (.oshoot w)
  | 0x2c9 => some (.iflush w)
  | 0x2ca => some (if w.md.getLsbD 0 then .idemExit w else .idemEnter w)
  | 0x2cb => some (.wfi w)
  | 0x2cc => some (if w.md.getLsbD 0 then .keysetClear w else .keyset w)
  | 0x2cd => some (if w.md.getLsbD 0 then .haltcRes w else .haltc w)
  | 0x2ce => some (.nop w)
  | 0x2cf => some (.tpop w)
  | 0x2d0 => some (.tres w)
  | 0x300 => some (.ldc w)
  | 0x301 => some (.stc w)
  | _ => none

/-- The instruction of an xop (R46). LD with the co bit is LD_CO (R26). -/
def xInstr (op : Nat) (w : XW) : Option Instr :=
  match op with
  | 0 => some (.movi w)
  | 1 => some (.movh w)
  | 2 => some (.iaddi w)
  | 3 => some (.andi w)
  | 4 => some (.ori w)
  | 5 => some (.xori w)
  | 6 => some (.icmpi w)
  | 7 => some (.faddi w)
  | 8 => some (if w.imm.getLsbD 6 then .ldCo w else .ld w)
  | 9 => some (.st w)
  | 10 => some (.lds w)
  | 11 => some (.sts w)
  | 12 => some (.ldb w)
  | 13 => some (.stb w)
  | 14 => some (.dld w)
  | 15 => some (.dst w)
  | 16 => some (.slotst w)
  | 17 => some (.pref w)
  | 18 => some (.accld w)
  | _ => none

/-- The op of a P2 half (R47). -/
def p2Op (n : Nat) : Option P2Op :=
  match n with
  | 0 => some .iadd
  | 1 => some .isub
  | 2 => some .and
  | 3 => some .or
  | 4 => some .xor
  | 5 => some .shl
  | 6 => some .shr
  | 7 => some .sar
  | 8 => some .mov
  | 9 => some .movi
  | 10 => some .iaddi
  | 11 => some .imin
  | 12 => some .imax
  | 13 => some .fadd
  | 14 => some .fsub
  | 15 => some .fmul
  | 16 => some .fmin
  | 17 => some .fmax
  | 18 => some .icmpeq
  | 19 => some .icmplt
  | 20 => some .fcmplt
  | 21 => some .nop
  | _ => none

/-- The code of a P2 op (R47). -/
def P2Op.code : P2Op → Nat
  | .iadd => 0
  | .isub => 1
  | .and => 2
  | .or => 3
  | .xor => 4
  | .shl => 5
  | .shr => 6
  | .sar => 7
  | .mov => 8
  | .movi => 9
  | .iaddi => 10
  | .imin => 11
  | .imax => 12
  | .fadd => 13
  | .fsub => 14
  | .fmul => 15
  | .fmin => 16
  | .fmax => 17
  | .icmpeq => 18
  | .icmplt => 19
  | .fcmplt => 20
  | .nop => 21

/-- The instruction of a P2 word by the op of its high half. -/
def p2Instr (op : P2Op) (w : P2W) : Instr :=
  match op with
  | .iadd => .p2Iadd w
  | .isub => .p2Isub w
  | .and => .p2And w
  | .or => .p2Or w
  | .xor => .p2Xor w
  | .shl => .p2Shl w
  | .shr => .p2Shr w
  | .sar => .p2Sar w
  | .mov => .p2Mov w
  | .movi => .p2Movi w
  | .iaddi => .p2Iaddi w
  | .imin => .p2Imin w
  | .imax => .p2Imax w
  | .fadd => .p2Fadd w
  | .fsub => .p2Fsub w
  | .fmul => .p2Fmul w
  | .fmin => .p2Fmin w
  | .fmax => .p2Fmax w
  | .icmpeq => .icmpeq w
  | .icmplt => .icmplt w
  | .fcmplt => .fcmplt w
  | .nop => .p2Nop w

/-- The trailer of an exit kind (R32). -/
def tInstr (k : Nat) (w : TW) : Option Instr :=
  match k with
  | 0 => some (.fall w)
  | 1 => some (.bra w)
  | 2 => some (.brx w)
  | 3 => some (.call w)
  | 4 => some (.callx w)
  | 5 => some (.ret w)
  | 6 => some (.exit w)
  | 7 => some (.loop w)
  | _ => none

/-- The copy command of a code (R41). -/
def cmdInstr (k : Nat) (c : Cmd) : Option Instr :=
  match k with
  | 0 => some (.cwin c)
  | 1 => some (.cwina c)
  | 2 => some (.cfill c)
  | 3 => some (.cmcast c)
  | 4 => some (.cring c)
  | 5 => some (.cslot c)
  | 6 => some (.cqf c)
  | 7 => some (.csig c)
  | 8 => some (.cwait c)
  | 9 => some (.cloop c)
  | 10 => some (.cnet c)
  | 11 => some (.czero c)
  | 12 => some (.cend c)
  | _ => none

/-! ### Decoding -/

/-- The instruction of a word (R15, R18, R25, R27, R31), or why it is none. -/
def decode (w : Word64) : Except DecodeErr Instr :=
  match field w 63 62 with
  | 0 =>
    match f3Instr (field w 61 52) (unpackF3 w) with
    | some i => .ok i
    | none => .error (.illegalOpcode 0)
  | 1 =>
    match p2Op (field w 61 56), p2Op (field w 30 25) with
    | some h, some l => .ok (p2Instr h { hi := unpackHalf w 31, lop := l, lo := unpackHalf w 0 })
    | none, _ => .error (.illegalOpcode 0)
    | some _, none => .error (.illegalOpcode 1)
  | 2 =>
    match xInstr (field w 61 56) (unpackX w) with
    | some i => .ok i
    | none => .error (.illegalOpcode 0)
  | _ =>
    match tInstr (field w 61 58) (unpackT w) with
    | some i => .ok i
    | none => .error .badTrailer

/-- The defined count of extra words of a command code with the given field [2] (inline) (R41, R297). -/
def cmdExtra (code : Nat) (inline : Bool) : Nat :=
  match code with
  | 0 | 2 | 5 => if inline then 0 else 1
  | 1 | 3 | 7 | 8 => 2
  | 4 | 6 | 11 => 1
  | 10 => 3
  | _ => 0

/-- The command word and its extra words (R41), with the command's defined count of extra words; [55:50] must be 0
(R42). -/
def decodeCmd (w : Word64) (extra : List Word64) : Except DecodeErr Instr :=
  if field w 55 50 ≠ 0 ∨ field w 57 56 ≠ cmdExtra (field w 63 58) (w.getLsbD 2) ∨ extra.length ≠ field w 57 56 then
    .error .badCommand
  else
    match cmdInstr (field w 63 58) { yield := w.getLsbD 49, mark := w.getLsbD 48, fields := bits w 0 48, extra := extra } with
    | some i => .ok i
    | none => .error .badCommand

/-! ### Encoding -/

/-- The word an instruction stands in: its class, opcode and fields; an event of the table stands in none. -/
inductive Form where
  | f3 (op : Nat) (w : F3)
  | x (op : Nat) (w : XW)
  | p2 (op : P2Op) (w : P2W)
  | t (kind : Nat) (w : TW)
  | cmd (code : Nat) (c : Cmd)
  | event
  deriving DecidableEq, Repr

/-- The form of each instruction, from the lists of R44, R46, R47 and R48. -/
def Instr.form : Instr → Form
  | .iadd w => .f3 0x000 w
  | .isub w => .f3 0x001 w
  | .imul w => .f3 0x002 w
  | .imad w => .f3 0x003 w
  | .imulh w => .f3 0x004 w
  | .imin w => .f3 0x005 w
  | .imax w => .f3 0x006 w
  | .iabs w => .f3 0x007 w
  | .and w => .f3 0x008 w
  | .or w => .f3 0x009 w
  | .xor w => .f3 0x00a w
  | .andn w => .f3 0x00b w
  | .shl w => .f3 0x00c w
  | .shr w => .f3 0x00d w
  | .sar w => .f3 0x00e w
  | .rot w => .f3 0x00f w
  | .popc w => .f3 0x010 w
  | .clz w => .f3 0x011 w
  | .brev w => .f3 0x012 w
  | .bfe w => .f3 0x013 w
  | .bfi w => .f3 0x014 w
  | .sel w => .f3 0x015 w
  | .mov w => .f3 0x016 w
  | .iadd3 w => .f3 0x017 w
  | .lea w => .f3 0x018 w
  | .idiv w => .f3 0x019 w
  | .irem w => .f3 0x01a w
  | .icmp w => .f3 0x040 w
  | .ucmp w => .f3 0x041 w
  | .fcmp w => .f3 0x042 w
  | .plop w => .f3 0x043 w
  | .pmovGet w => .f3 0x044 w
  | .pmovSet w => .f3 0x044 w
  | .fadd w => .f3 0x080 w
  | .fsub w => .f3 0x081 w
  | .fmul w => .f3 0x082 w
  | .ffma w => .f3 0x083 w
  | .fmin w => .f3 0x084 w
  | .fmax w => .f3 0x085 w
  | .frcp w => .f3 0x086 w
  | .frsq w => .f3 0x087 w
  | .fsqrt w => .f3 0x088 w
  | .fex2 w => .f3 0x089 w
  | .flg2 w => .f3 0x08a w
  | .fsin w => .f3 0x08b w
  | .fcos w => .f3 0x08c w
  | .frnd w => .f3 0x08d w
  | .fdiv w => .f3 0x08e w
  | .fcls w => .f3 0x08f w
  | .cvt w => .f3 0x0c0 w
  | .pack w => .f3 0x0c1 w
  | .unpk w => .f3 0x0c2 w
  | .dp4i w => .f3 0x0c3 w
  | .dp8i w => .f3 0x0c4 w
  | .dp4f w => .f3 0x0c5 w
  | .dp8f w => .f3 0x0c6 w
  | .dp2b w => .f3 0x0c7 w
  | .pscl w => .f3 0x0c8 w
  | .prmt w => .f3 0x0c9 w
  | .dfrom w => .f3 0x100 w
  | .dto w => .f3 0x101 w
  | .dadd w => .f3 0x102 w
  | .dsub w => .f3 0x103 w
  | .dmix w => .f3 0x104 w
  | .dcos w => .f3 0x105 w
  | .ddot w => .f3 0x106 w
  | .dscl w => .f3 0x107 w
  | .dnrm w => .f3 0x108 w
  | .dsetn w => .f3 0x109 w
  | .dproj w => .f3 0x10a w
  | .dmov w => .f3 0x10b w
  | .ixset w => .f3 0x140 w
  | .ixget w => .f3 0x141 w
  | .ixstep w => .f3 0x142 w
  | .ixstepBy w => .f3 0x142 w
  | .ixcur w => .f3 0x143 w
  | .rkill w => .f3 0x144 w
  | .shfl w => .f3 0x180 w
  | .vote w => .f3 0x181 w
  | .lred w => .f3 0x182 w
  | .lscan w => .f3 0x183 w
  | .crosslaneTimeout => .event
  | .mjoin w => .f3 0x1c0 w
  | .mleave w => .f3 0x1c1 w
  | .mwait w => .f3 0x1c2 w
  | .mset w => .f3 0x1c3 w
  | .mget w => .f3 0x1c4 w
  | .meet w => .f3 0x1c5 w
  | .meetr w => .f3 0x1c6 w
  | .aadd w => .f3 0x200 w
  | .amin w => .f3 0x201 w
  | .amax w => .f3 0x202 w
  | .aand w => .f3 0x203 w
  | .aor w => .f3 0x204 w
  | .axor w => .f3 0x205 w
  | .aexch w => .f3 0x206 w
  | .acas w => .f3 0x207 w
  | .afadd w => .f3 0x208 w
  | .aaddw w => .f3 0x209 w
  | .await w => .f3 0x20a w
  | .awaitRetest => .event
  | .lres w => .f3 0x20b w
  | .scnd w => .f3 0x20c w
  | .fence w => .f3 0x20d w
  | .fencer w => .f3 0x20e w
  | .bari w => .f3 0x240 w
  | .bara w => .f3 0x241 w
  | .barw w => .f3 0x242 w
  | .baraw w => .f3 0x243 w
  | .rinit w => .f3 0x244 w
  | .racq w => .f3 0x245 w
  | .rrel w => .f3 0x246 w
  | .qpush w => .f3 0x247 w
  | .qpop w => .f3 0x248 w
  | .relayWritebackRequest => .event
  | .jdec w => .f3 0x249 w
  | .mclaim w => .f3 0x280 w
  | .mrels w => .f3 0x281 w
  | .mldw w => .f3 0x282 w
  | .mstream w => .f3 0x283 w
  | .mzero w => .f3 0x284 w
  | .mdrain w => .f3 0x285 w
  | .msync w => .f3 0x286 w
  | .msyncHand w => .f3 0x286 w
  | .mldwPerform => .event
  | .mstreamPerform => .event
  | .mzeroPerform => .event
  | .drainHandover => .event
  | .drainPerform => .event
  | .fork w => .f3 0x2c0 w
  | .rdv w => .f3 0x2c1 w
  | .rdvAbort w => .f3 0x2c1 w
  | .rdvTimeout => .event
  | .cpy w => .f3 0x2c2 w
  | .trap w => .f3 0x2c3 w
  | .trapBrk w => .f3 0x2c3 w
  | .sret w => .f3 0x2c4 w
  | .sysrd w => .f3 0x2c5 w
  | .syswr w => .f3 0x2c6 w
  | .oinv w => .f3 0x2c7 w
  | .oshoot w => .f3 0x2c8 w
  | .iflush w => .f3 0x2c9 w
  | .idemEnter w => .f3 0x2ca w
  | .idemExit w => .f3 0x2ca w
  | .wfi w => .f3 0x2cb w
  | .keyset w => .f3 0x2cc w
  | .keysetClear w => .f3 0x2cc w
  | .haltc w => .f3 0x2cd w
  | .haltcRes w => .f3 0x2cd w
  | .nop w => .f3 0x2ce w
  | .tpop w => .f3 0x2cf w
  | .tres w => .f3 0x2d0 w
  | .ldc w => .f3 0x300 w
  | .stc w => .f3 0x301 w
  | .movi w => .x 0 w
  | .movh w => .x 1 w
  | .iaddi w => .x 2 w
  | .andi w => .x 3 w
  | .ori w => .x 4 w
  | .xori w => .x 5 w
  | .icmpi w => .x 6 w
  | .faddi w => .x 7 w
  | .ld w => .x 8 w
  | .ldCo w => .x 8 w
  | .st w => .x 9 w
  | .lds w => .x 10 w
  | .sts w => .x 11 w
  | .ldb w => .x 12 w
  | .stb w => .x 13 w
  | .dld w => .x 14 w
  | .dst w => .x 15 w
  | .slotst w => .x 16 w
  | .pref w => .x 17 w
  | .accld w => .x 18 w
  | .p2Iadd w => .p2 .iadd w
  | .p2Isub w => .p2 .isub w
  | .p2And w => .p2 .and w
  | .p2Or w => .p2 .or w
  | .p2Xor w => .p2 .xor w
  | .p2Shl w => .p2 .shl w
  | .p2Shr w => .p2 .shr w
  | .p2Sar w => .p2 .sar w
  | .p2Mov w => .p2 .mov w
  | .p2Movi w => .p2 .movi w
  | .p2Iaddi w => .p2 .iaddi w
  | .p2Imin w => .p2 .imin w
  | .p2Imax w => .p2 .imax w
  | .p2Fadd w => .p2 .fadd w
  | .p2Fsub w => .p2 .fsub w
  | .p2Fmul w => .p2 .fmul w
  | .p2Fmin w => .p2 .fmin w
  | .p2Fmax w => .p2 .fmax w
  | .icmpeq w => .p2 .icmpeq w
  | .icmplt w => .p2 .icmplt w
  | .fcmplt w => .p2 .fcmplt w
  | .p2Nop w => .p2 .nop w
  | .fall w => .t 0 w
  | .bra w => .t 1 w
  | .brx w => .t 2 w
  | .call w => .t 3 w
  | .callx w => .t 4 w
  | .ret w => .t 5 w
  | .exit w => .t 6 w
  | .loop w => .t 7 w
  | .groupPick => .event
  | .activeSetJoin => .event
  | .resultWriteback => .event
  | .heldWriteRecheck => .event
  | .heldWriteDrop => .event
  | .coreSplitWrite w => .f3 0x2c6 w
  | .coreSplitGrowDone => .event
  | .bspWrite w => .f3 0x2c6 w
  | .ortRegisterWrite w => .f3 0x2c6 w
  | .statusWrite w => .f3 0x2c6 w
  | .tqBaseWrite w => .f3 0x2c6 w
  | .tqHeadWrite w => .f3 0x2c6 w
  | .tqHandWrite w => .f3 0x2c6 w
  | .tqBatchWrite w => .f3 0x2c6 w
  | .intPendingClear w => .f3 0x2c6 w
  | .ipiWrite w => .f3 0x2c6 w
  | .wdtWrite w => .f3 0x2c6 w
  | .timerCompareMatch => .event
  | .watchdogExpiry => .event
  | .tqAgeExpiry => .event
  | .interruptTake => .event
  | .partitionEntryWrite => .event
  | .sweepPeriod => .event
  | .stackCounterReset => .event
  | .stackNewClear => .event
  | .queueOwnerWrite => .event
  | .queueRestart => .event
  | .queueDiscard => .event
  | .dispatcherBlockWrite => .event
  | .slotMap => .event
  | .slotUnmap => .event
  | .preemptSave => .event
  | .preemptIdem => .event
  | .preGraceExpiry => .event
  | .savedResultArrival => .event
  | .saveComplete => .event
  | .blockRestore => .event
  | .kick => .event
  | .pendingMapClear => .event
  | .packetTake => .event
  | .blockPlace => .event
  | .neighbourhoodPlace => .event
  | .phaseChange => .event
  | .signalOnlyPacket => .event
  | .packetComplete => .event
  | .sequencerError => .event
  | .contextStoreWrite => .event
  | .featureEnableWrite => .event
  | .eventBlockWrite => .event
  | .inboundWindowWrite => .event
  | .remoteWindowWrite => .event
  | .ctlsemSupervisorTake => .event
  | .ctlsemSupervisorGive => .event
  | .ctlsemLapse => .event
  | .mailboxStatusClear => .event
  | .reportRequest => .event
  | .reportDone => .event
  | .measurementExtend => .event
  | .registerWrite => .event
  | .getStatus => .event
  | .getReport => .event
  | .take => .event
  | .give => .event
  | .flashWrite => .event
  | .markerSet => .event
  | .powerLimit => .event
  | .reset => .event
  | .mailbox => .event
  | .powerOnBoot => .event
  | .bootTakeover => .event
  | .thermalThrottle => .event
  | .thermalShutdown => .event
  | .dieLinkFailure => .event
  | .hbmUncorrectableError => .event
  | .patrolScrub => .event
  | .inboundRequest => .event
  | .msixMessage => .event
  | .pcieCompletionTimeout => .event
  | .pcieLinkDown => .event
  | .cxlError => .event
  | .uetRetransmitTimeout => .event
  | .remoteAtomicArrival => .event
  | .cwin w => .cmd 0 w
  | .cwina w => .cmd 1 w
  | .cfill w => .cmd 2 w
  | .cmcast w => .cmd 3 w
  | .cring w => .cmd 4 w
  | .cslot w => .cmd 5 w
  | .cqf w => .cmd 6 w
  | .csig w => .cmd 7 w
  | .cwait w => .cmd 8 w
  | .cloop w => .cmd 9 w
  | .cnet w => .cmd 10 w
  | .czero w => .cmd 11 w
  | .cend w => .cmd 12 w
  | .hbmCorrectableError => .event
  | .powerLoss => .event
  | .throttleEnd => .event
  | .inboundRemoteAccess => .event
  | .cnetAcknowledgement => .event

/-- The word of an instruction; none for a copy command (see `encodeCmd`) and for an event. -/
def encode (i : Instr) : Option Word64 :=
  match i.form with
  | .f3 op w => some (packF3 op w)
  | .x op w => some (packX op w)
  | .p2 op w => some ((1 : BitVec 2) ++ packHalf op.code w.hi ++ packHalf w.lop.code w.lo)
  | .t kind w => some (packT kind w)
  | .cmd _ _ => none
  | .event => none

/-- The words of a copy command (R41). -/
def encodeCmd (i : Instr) : Option (List Word64) :=
  match i.form with
  | .cmd code c =>
    some (((BitVec.ofNat 6 code ++ BitVec.ofNat 2 c.extra.length ++ (0 : BitVec 6) ++ BitVec.ofBool c.yield
      ++ BitVec.ofBool c.mark ++ c.fields : BitVec 64)) :: c.extra)
  | _ => none

/-- Whether the fields of an instruction select its own row of the table: the modifier bit, register number or co bit that
tells rows of one opcode apart, and a copy command's count of extra words. -/
def Instr.ownRow (i : Instr) : Bool :=
  match i.form with
  | .f3 op w => decide (f3Instr op w = some i)
  | .x op w => decide (xInstr op w = some i)
  | .p2 op w => decide (p2Instr op w = i)
  | .t kind w => decide (tInstr kind w = some i)
  | .cmd code c => decide (cmdInstr code c = some i) && decide (c.extra.length = cmdExtra code (c.fields.getLsbD 2))
  | .event => false

/-- The instruction the decoder reads from the `nbits` low bits of `w`: a word is eight bytes, so a shorter row stands for a
word whose higher bits are 0; a row longer than one word is a copy command with its extra words. -/
def decodeTableWord (nbits w : Nat) : Option Instr :=
  if nbits ≤ 64 then
    match decode (BitVec.ofNat 64 (w % 2 ^ nbits)) with
    | .ok i => some i
    | .error _ => none
  else
    let words := (List.range (nbits / 64)).map fun k => BitVec.ofNat 64 (w >>> (64 * k))
    match decodeCmd (words.headD 0) (words.drop 1) with
    | .ok i => some i
    | .error _ => none

end Sys2Proof
end

