-- ==== Sys2Proof/Machine/Num.lean ====
section
/-! DEFINITION. Exact arithmetic behind the number formats: dyadic numbers, rounding of exact rationals, integer roots
and logarithms (R69, R72, R82-R86, R174). All values are exact; rounding happens in the functions that say so. -/

namespace Sys2Proof.Machine

/-- The rounding modes (R82). -/
inductive Rnd where | rn | rz | ru | rd
  deriving DecidableEq, Repr

/-- The mode a two-bit field selects: 0 RN, 1 RZ, 2 RU, 3 RD (R52). -/
def Rnd.ofBits (b : BitVec 2) : Rnd :=
  if b = 0 then .rn else if b = 1 then .rz else if b = 2 then .ru else .rd

/-- The exact number m * 2^e. -/
structure Dyad where
  m : Int
  e : Int
  deriving DecidableEq, Repr

def Dyad.zero : Dyad := { m := 0, e := 0 }

def Dyad.ofInt (i : Int) : Dyad := { m := i, e := 0 }

def Dyad.neg (a : Dyad) : Dyad := { a with m := -a.m }

def Dyad.mul (a b : Dyad) : Dyad := { m := a.m * b.m, e := a.e + b.e }

def Dyad.add (a b : Dyad) : Dyad :=
  let e := min a.e b.e
  { m := a.m * (2 ^ (a.e - e).toNat : Nat) + b.m * (2 ^ (b.e - e).toNat : Nat), e := e }

def Dyad.sub (a b : Dyad) : Dyad := a.add b.neg

/-- The sign of a - b decides an exact comparison. -/
def Dyad.lt (a b : Dyad) : Bool := decide ((a.sub b).m < 0)

def Dyad.sum (l : List Dyad) : Dyad := l.foldl Dyad.add .zero

/-- Multiplication by a power of two. -/
def Dyad.scale (a : Dyad) (k : Int) : Dyad := { a with e := a.e + k }

/-- Numerator and denominator of |a|. -/
def Dyad.frac (a : Dyad) : Nat × Nat :=
  if a.e ≥ 0 then (a.m.natAbs * 2 ^ a.e.toNat, 1) else (a.m.natAbs, 2 ^ (-a.e).toNat)

/-- num * 2^k over den, for a k of either sign. -/
def shiftFrac (num den : Nat) (k : Int) : Nat × Nat :=
  if k ≥ 0 then (num * 2 ^ k.toNat, den) else (num, den * 2 ^ (-k).toNat)

/-- floor(log2(num/den)) for positive num and den. -/
def ilog2 (num den : Nat) : Int :=
  let k : Int := (num.log2 : Int) - (den.log2 : Int)
  let f := shiftFrac num den (-k)
  if f.1 < f.2 then k - 1 else k

/-- num/den rounded to an integer in mode `md`, the value being negative when `neg` (R82). -/
def quot (md : Rnd) (neg : Bool) (num den : Nat) : Nat :=
  let q := num / den
  let r := num % den
  let up : Bool :=
    match md with
    | .rn => decide (2 * r > den) || (decide (2 * r = den) && decide (q % 2 = 1))
    | .rz => false
    | .ru => decide (r > 0) && !neg
    | .rd => decide (r > 0) && neg
  if up then q + 1 else q

/-- An exact dyadic number rounded to an integer. -/
def Dyad.toInt (md : Rnd) (a : Dyad) : Int :=
  let f := a.frac
  let n := quot md (decide (a.m < 0)) f.1 f.2
  if a.m < 0 then -(n : Int) else n

/-- A positive rational rounded to `p` significant bits, exponent unbounded: the value is (result.1) * 2^(result.2). -/
def roundSig (md : Rnd) (neg : Bool) (p : Nat) (num den : Nat) : Nat × Int :=
  let q : Int := ilog2 num den - ((p : Int) - 1)
  let f := shiftFrac num den (-q)
  (quot md neg f.1 f.2, q)

/-- Newton's iteration for the integer square root, from above. -/
def isqrtGo (n : Nat) : Nat → Nat → Nat
  | 0, x => x
  | fuel + 1, x =>
    let y := (x + n / x) / 2
    if y < x then isqrtGo n fuel y else x

/-- floor(sqrt n). -/
def isqrt (n : Nat) : Nat :=
  if n = 0 then 0 else isqrtGo n (n.log2 + 2) (2 ^ (n.log2 / 2 + 1))

/-- The square root of num/den as a rational that rounds as the root does at up to `bits` significant bits: exact when
the root is a multiple of the last of them, else held strictly between two of their midpoints. -/
def sqrtFrac (bits : Nat) (num den : Nat) : Nat × Nat × Int :=
  let k := ilog2 num den
  let j : Int := (bits : Int) + 2 - k / 2
  let f := shiftFrac num den (2 * j)
  let s := isqrt (f.1 / f.2)
  if s * s * f.2 = f.1 then (s, 1, -j) else (2 * s + 1, 2, -j)

/-- Eight integer square roots: floor(n^(1/256)). -/
def root256 (n : Nat) : Nat :=
  isqrt (isqrt (isqrt (isqrt (isqrt (isqrt (isqrt (isqrt n)))))))

/-- v * 2^(n/256) for a positive dyadic v, as a rational times a power of two that rounds as the exact value does at up
to 60 significant bits (R174, R179, R181). The value is irrational unless 256 divides n. -/
def scale256 (v : Dyad) (n : Int) : Nat × Nat × Int :=
  if n % 256 = 0 then
    let f := (v.scale (n / 256)).frac
    (f.1, f.2, 0)
  else
    let k := ilog2 v.frac.1 v.frac.2 + n / 256
    let j : Int := 64 - k
    let f := shiftFrac (v.m.natAbs ^ 256) 1 (256 * (v.e + j) + n)
    (2 * root256 (f.1 / f.2) + 1, 2, -j)

/-- RoundNE(c * log2(num/den)); the exact value is never halfway between integers for the arguments of R174 and R182. -/
def nearLog2 (c : Nat) (num den : Nat) : Int :=
  (ilog2 (num ^ (2 * c)) (den ^ (2 * c)) + 1) / 2

end Sys2Proof.Machine
end

