-- ==== Sys2Proof/Machine/Float.lean ====
section
/-! DEFINITION. The number formats (R70-R81), conversion and rounding (R82-R87), the floating-point operations
(R72, R73, R159-R162, R166), the fixed-rule functions (R161) and the dot products (R88, R89). -/

namespace Sys2Proof.Machine

/-! ### IEEE formats -/

/-- An IEEE format: precision, exponents of the smallest and largest normals, width (R72). -/
structure Ieee where
  p : Nat
  emin : Int
  emax : Int
  w : Nat
  deriving DecidableEq, Repr

def fp32 : Ieee := { p := 24, emin := -126, emax := 127, w := 32 }
def fp16 : Ieee := { p := 11, emin := -14, emax := 15, w := 16 }
def bf16 : Ieee := { p := 8, emin := -126, emax := 127, w := 16 }

/-- A value read from a floating-point code. -/
inductive FVal where
  | nan
  | inf (neg : Bool)
  /-- the value ± m * 2^e; a zero keeps its sign -/
  | fin (neg : Bool) (m : Nat) (e : Int)
  deriving DecidableEq, Repr

def FVal.neg : FVal → FVal
  | .nan => .nan
  | .inf s => .inf !s
  | .fin s m e => .fin (!s) m e

def FVal.isNan : FVal → Bool
  | .nan => true
  | _ => false

def FVal.isZero : FVal → Bool
  | .fin _ m _ => m == 0
  | _ => false

def FVal.sign : FVal → Bool
  | .nan => false
  | .inf s => s
  | .fin s _ _ => s

/-- The exact number of a finite value (0 for the others). -/
def FVal.dyad : FVal → Dyad
  | .fin s m e => { m := if s then -(m : Int) else m, e := e }
  | _ => .zero

def FVal.ofDyad (d : Dyad) : FVal := .fin (decide (d.m < 0)) d.m.natAbs d.e

/-- The bits of a sign, an exponent field and a fraction. -/
def Ieee.pack (f : Ieee) (neg : Bool) (field frac : Nat) : Nat :=
  (if neg then 2 ^ (f.w - 1) else 0) + field * 2 ^ (f.p - 1) + frac

def Ieee.maxField (f : Ieee) : Nat := 2 ^ (f.w - f.p) - 1

/-- The canonical quiet NaN (R73). -/
def Ieee.nan (f : Ieee) : Nat := f.pack false f.maxField (2 ^ (f.p - 2))

def Ieee.inf (f : Ieee) (neg : Bool) : Nat := f.pack neg f.maxField 0

def Ieee.zero (f : Ieee) (neg : Bool) : Nat := f.pack neg 0 0

def Ieee.maxFinite (f : Ieee) (neg : Bool) : Nat := f.pack neg (f.maxField - 1) (2 ^ (f.p - 1) - 1)

/-- The value of a code of an IEEE format (R72). -/
def Ieee.read (f : Ieee) (bits : Nat) : FVal :=
  let neg := decide (bits / 2 ^ (f.w - 1) % 2 = 1)
  let field := bits / 2 ^ (f.p - 1) % 2 ^ (f.w - f.p)
  let frac := bits % 2 ^ (f.p - 1)
  if field = f.maxField then (if frac = 0 then .inf neg else .nan)
  else if field = 0 then .fin neg frac (f.emin - (f.p - 1))
  else .fin neg (frac + 2 ^ (f.p - 1)) (f.emin - (f.p - 1) + field - 1)

/-- Whether a finite value is subnormal in the format. -/
def Ieee.subnormal (f : Ieee) : FVal → Bool
  | .fin _ m e => decide (m ≠ 0) && decide (ilog2 (shiftFrac m 1 e).1 (shiftFrac m 1 e).2 < f.emin)
  | _ => false

/-- R86 step 1: a subnormal source becomes zero of its sign. -/
def Ieee.flushIn (f : Ieee) (fz : Bool) (x : FVal) : FVal :=
  if fz && f.subnormal x then .fin x.sign 0 0 else x

/-- ± num/den * 2^k rounded to the format: one rounding (R82), overflow by R84, and with `fz` the flush of R86 steps 2
and 3. A zero numerator gives zero of the sign `neg`. -/
def Ieee.round (f : Ieee) (md : Rnd) (fz : Bool) (neg : Bool) (num den : Nat) (k : Int) : Nat :=
  if num = 0 then f.zero neg
  else
    let l := ilog2 num den + k
    let ulp (q : Int) : Nat :=
      let r := shiftFrac num den (k - q)
      quot md neg r.1 r.2
    let qFree : Int := l - ((f.p : Int) - 1)
    let nFree := ulp qFree
    let tiny := decide (l < f.emin) && !(decide (nFree = 2 ^ f.p) && decide (l + 1 = f.emin))
    if fz && tiny then f.zero neg
    else
      let q := max qFree (f.emin - ((f.p : Int) - 1))
      let n := ulp q
      let n' := if n = 2 ^ f.p then 2 ^ (f.p - 1) else n
      let q' := if n = 2 ^ f.p then q + 1 else q
      if n' < 2 ^ (f.p - 1) then f.pack neg 0 n'
      else
        let e := q' + ((f.p : Int) - 1)
        if e > f.emax then
          match md with
          | .rn => f.inf neg
          | .rz => f.maxFinite neg
          | .ru => if neg then f.maxFinite true else f.inf false
          | .rd => if neg then f.inf true else f.maxFinite false
        else f.pack neg (e - f.emin + 1).toNat (n' - 2 ^ (f.p - 1))

/-- A dyadic number rounded to the format; an exact zero takes the sign `zneg`. -/
def Ieee.roundDyad (f : Ieee) (md : Rnd) (fz : Bool) (zneg : Bool) (d : Dyad) : Nat :=
  if d.m = 0 then f.zero zneg else f.round md fz (decide (d.m < 0)) d.m.natAbs 1 d.e

/-- A value written back without rounding error: canonical NaN, infinity, or the (representable) number, flushed with
`fz` when subnormal. -/
def Ieee.write (f : Ieee) (md : Rnd) (fz : Bool) : FVal → Nat
  | .nan => f.nan
  | .inf s => f.inf s
  | .fin s m e => f.round md fz s m 1 e

/-- The sign of an exact zero sum (R72): the common sign, else +0, or −0 in RD. -/
def zeroSign (md : Rnd) (a b : Bool) : Bool :=
  if a = b then a else decide (md = .rd)

/-- a + b (R72, R159). -/
def Ieee.add (f : Ieee) (md : Rnd) (fz : Bool) (a b : FVal) : Nat :=
  match a, b with
  | .nan, _ => f.nan
  | _, .nan => f.nan
  | .inf s, .inf t => if s = t then f.inf s else f.nan
  | .inf s, .fin .. => f.inf s
  | .fin .., .inf t => f.inf t
  | .fin s m e, .fin t n g =>
    let zs := if m = 0 ∧ n = 0 then zeroSign md s t else decide (md = .rd)
    f.roundDyad md fz zs ((FVal.fin s m e).dyad.add (FVal.fin t n g).dyad)

/-- a × b (R72, R159). -/
def Ieee.mul (f : Ieee) (md : Rnd) (fz : Bool) (a b : FVal) : Nat :=
  let s := a.sign != b.sign
  match a, b with
  | .nan, _ => f.nan
  | _, .nan => f.nan
  | .inf _, y => if y.isZero then f.nan else f.inf s
  | x, .inf _ => if x.isZero then f.nan else f.inf s
  | .fin _ m e, .fin _ n g => f.round md fz s (m * n) 1 (e + g)

/-- a × b + c with one rounding (R72, R159). -/
def Ieee.fma (f : Ieee) (md : Rnd) (fz : Bool) (a b c : FVal) : Nat :=
  let s := a.sign != b.sign
  if a.isNan || b.isNan || c.isNan then f.nan
  else
    match a, b, c with
    | .fin _ m e, .fin _ n g, .fin t k h =>
      let p : FVal := .fin s (m * n) (e + g)
      let zs := if m * n = 0 ∧ k = 0 then zeroSign md s t else decide (md = .rd)
      f.roundDyad md fz zs (p.dyad.add (FVal.fin t k h).dyad)
    | .fin .., .fin .., .inf t => f.inf t
    | x, y, z =>
      if x.isZero || y.isZero then f.nan
      else
        match z with
        | .inf t => if t = s then f.inf s else f.nan
        | _ => f.inf s

/-- a / b, correctly rounded (R72, R159). -/
def Ieee.div (f : Ieee) (md : Rnd) (fz : Bool) (a b : FVal) : Nat :=
  let s := a.sign != b.sign
  match a, b with
  | .nan, _ => f.nan
  | _, .nan => f.nan
  | .inf _, .inf _ => f.nan
  | .inf _, .fin .. => f.inf s
  | .fin .., .inf _ => f.zero s
  | .fin _ m e, .fin _ n g =>
    if n = 0 then (if m = 0 then f.nan else f.inf s) else f.round md fz s m n (e - g)

/-- √a, correctly rounded; √−0 is −0 (R159). -/
def Ieee.sqrt (f : Ieee) (md : Rnd) (fz : Bool) (a : FVal) : Nat :=
  match a with
  | .nan => f.nan
  | .inf s => if s then f.nan else f.inf false
  | .fin s m e =>
    if m = 0 then f.zero s
    else if s then f.nan
    else
      let x := (Dyad.mk m e).frac
      let r := sqrtFrac f.p x.1 x.2
      f.round md fz false r.1 r.2.1 r.2.2

/-- a rounded to an integral value; the sign is kept (R159). -/
def Ieee.rint (f : Ieee) (md : Rnd) (fz : Bool) (a : FVal) : Nat :=
  match a with
  | .fin s m e =>
    let x := shiftFrac m 1 e
    f.round .rn fz s (quot md s x.1 x.2) 1 0
  | x => f.write md fz x

/-- a before b in the order of FMIN and FMAX: −0 below +0 (R160). -/
def FVal.below (a b : FVal) : Bool :=
  match a, b with
  | .inf s, .inf t => s && !t
  | .inf s, .fin .. => s
  | .fin .., .inf t => !t
  | .fin s m e, .fin t n g =>
    if m = 0 ∧ n = 0 then s && !t else (FVal.fin s m e).dyad.lt (FVal.fin t n g).dyad
  | _, _ => false

/-- The smaller (`mx` false) or larger value; a number wins over a NaN (R160). The bits of the value are never rounded. -/
def Ieee.minmax (f : Ieee) (mx : Bool) (a b : FVal) : Nat :=
  match a, b with
  | .nan, .nan => f.nan
  | .nan, y => f.write .rn false y
  | x, .nan => f.write .rn false x
  | x, y =>
    let first := if mx then y.below x else !(y.below x)
    f.write .rn false (if first then x else y)

/-- The class mask of raw bits (R162). -/
def Ieee.classMask (f : Ieee) (bits : Nat) : Nat :=
  match f.read bits with
  | .nan => if bits / 2 ^ (f.p - 2) % 2 = 0 then 1 else 2
  | .inf s => if s then 4 else 512
  | .fin s m e =>
    if m = 0 then (if s then 32 else 64)
    else if f.subnormal (.fin s m e) then (if s then 16 else 128)
    else (if s then 8 else 256)

/-! ### The fixed-rule functions -/

/-- Fractional bits of the fixed-point numbers below. -/
def fixP : Nat := 320

/-- One over two to `fixGuard` bounds the error of the fixed-point functions below. -/
def fixGuard : Nat := 288

/-- Sum of z^(2k+1)/(2k+1) over k, with sign (-1)^k when `alt`; `z2` is z², `t` the current power (fixed point). -/
def oddSeries (alt : Bool) (z2 : Nat) : Nat → Nat → Nat → Int → Int
  | 0, _, _, acc => acc
  | fuel + 1, k, t, acc =>
    let term : Int := (t / (2 * k + 1) : Nat)
    oddSeries alt z2 fuel (k + 1) (t * z2 / 2 ^ fixP) (if alt && k % 2 == 1 then acc - term else acc + term)

/-- atanh(num/den) for num/den ≤ 1/3, fixed point. -/
def fixAtanh (num den : Nat) : Nat :=
  let z := num * 2 ^ fixP / den
  (oddSeries false (z * z / 2 ^ fixP) 110 0 z 0).toNat

/-- atan(1/n), fixed point. -/
def fixAtanInv (n : Nat) : Int :=
  let z := 2 ^ fixP / n
  oddSeries true (z * z / 2 ^ fixP) 80 0 z 0

/-- π by Machin's formula, fixed point. -/
def fixPi : Nat := (16 * fixAtanInv 5 - 4 * fixAtanInv 239).toNat

/-- ln 2, fixed point. -/
def fixLn2 : Nat := 2 * fixAtanh 1 3

/-- Sum of x^k/k! over k, fixed point. -/
def expSeries (x : Nat) : Nat → Nat → Nat → Nat → Nat
  | 0, _, _, acc => acc
  | fuel + 1, k, t, acc =>
    let t' := t * x / 2 ^ fixP / k
    expSeries x fuel (k + 1) t' (acc + t')

/-- e^x for 0 ≤ x < 1, fixed point. -/
def fixExp (x : Nat) : Nat := expSeries x 80 1 (2 ^ fixP) (2 ^ fixP)

/-- Sum of (-1)^k x^(2k+1)/(2k+1)!, fixed point. -/
def sinSeries (x2 : Nat) : Nat → Nat → Nat → Int → Int
  | 0, _, _, acc => acc
  | fuel + 1, k, t, acc =>
    let t' := t * x2 / 2 ^ fixP / ((2 * k) * (2 * k + 1))
    sinSeries x2 fuel (k + 1) t' (if k % 2 == 1 then acc - t' else acc + t')

/-- sin x for 0 ≤ x ≤ 2, fixed point. -/
def fixSin (x : Nat) : Nat := (sinSeries (x * x / 2 ^ fixP) 60 1 x x).toNat

/-- num/den * 2^k truncated toward zero to `p` significant bits: mantissa and exponent (R161 step 2). -/
def truncSig (p : Nat) (num den : Nat) (k : Int) : Nat × Int :=
  let q : Int := ilog2 num den - ((p : Int) - 1)
  let r := shiftFrac num den (-q)
  (r.1 / r.2, q + k)

/-- R161 steps 2 and 3 for the exact positive value num/den * 2^k of sign `neg`. -/
def Ieee.twoStep (f : Ieee) (fz neg : Bool) (num den : Nat) (k : Int) : Nat :=
  let t := truncSig (f.p + 2) num den k
  f.round .rn fz neg t.1 1 t.2

/-- R161 steps 2 and 3 for an irrational value known as `x` * 2^(k - fixP) to within 2^-fixGuard: the truncation of the
interval's lower end, which both ends share unless the value lies within that distance of a boundary (log 15). -/
def Ieee.twoStepFix (f : Ieee) (fz neg : Bool) (x : Nat) (k : Int) : Nat :=
  let eps := 2 ^ (fixP - fixGuard)
  let lo := truncSig (f.p + 2) (x - eps) 1 (k - fixP)
  f.round .rn fz neg lo.1 1 lo.2

/-- 1/a (R161). -/
def Ieee.rcp (f : Ieee) (fz : Bool) (a : FVal) : Nat :=
  match a with
  | .nan => f.nan
  | .inf s => f.zero s
  | .fin s m e => if m = 0 then f.inf s else f.twoStep fz s 1 m (-e)

/-- 1/√a (R161). -/
def Ieee.rsq (f : Ieee) (fz : Bool) (a : FVal) : Nat :=
  match a with
  | .nan => f.nan
  | .inf s => if s then f.nan else f.zero false
  | .fin s m e =>
    if m = 0 then f.inf s
    else if s then f.nan
    else
      let x := (Dyad.mk m e).frac
      let r := sqrtFrac (f.p + 8) x.2 x.1
      f.twoStep fz false r.1 r.2.1 r.2.2

/-- 2^a (R161). -/
def Ieee.ex2 (f : Ieee) (fz : Bool) (a : FVal) : Nat :=
  match a with
  | .nan => f.nan
  | .inf s => if s then f.zero false else f.inf false
  | .fin s m e =>
    let d := (FVal.fin s m e).dyad
    let x := shiftFrac m 1 e
    if x.1 ≥ 1024 * x.2 then (if s then f.zero false else f.inf false)
    else
      let i : Int := if d.e ≥ 0 then d.m * (2 ^ d.e.toNat : Nat) else d.m / (2 ^ (-d.e).toNat : Nat)
      let fr := (d.sub (.ofInt i)).frac
      if fr.1 = 0 then f.twoStep fz false 1 1 i
      else f.twoStepFix fz false (fixExp (fr.1 * fixLn2 / fr.2)) i

/-- log2 a (R161). -/
def Ieee.lg2 (f : Ieee) (fz : Bool) (a : FVal) : Nat :=
  match a with
  | .nan => f.nan
  | .inf s => if s then f.nan else f.inf false
  | .fin s m e =>
    if m = 0 then f.inf true
    else if s then f.nan
    else
      let k := m.log2
      let i : Int := e + k
      if m = 2 ^ k then (if i = 0 then f.zero false else f.twoStep fz (decide (i < 0)) i.natAbs 1 0)
      else
        let frac := 2 * fixAtanh (m - 2 ^ k) (m + 2 ^ k) * 2 ^ fixP / fixLn2
        let y : Int := i * (2 ^ fixP : Nat) + frac
        f.twoStepFix fz (decide (y < 0)) y.natAbs 0

/-- sin(π num/den) for num/den in [0, 2): sign, then zero, one, or the fixed-point magnitude. -/
def sinPiParts (num den : Nat) : Bool × Nat × Bool :=
  let neg := decide (num ≥ den)
  let u := if num ≥ den then num - den else num
  let w := if 2 * u > den then den - u else u
  if w = 0 then (false, 0, true)
  else if 2 * w = den then (neg, 1, true)
  else (neg, fixSin (w * fixPi / den), false)

/-- The value ± sin(π x) of R161 for x = num/den ≥ 0 reduced modulo 2. -/
def Ieee.sinPi (f : Ieee) (fz flip : Bool) (num den : Nat) : Nat :=
  let r := sinPiParts (num % (2 * den)) den
  let s := r.1 != flip
  if r.2.2 then (if r.2.1 = 0 then f.zero false else f.twoStep fz s 1 1 0)
  else f.twoStepFix fz s r.2.1 0

/-- sin(π a) (R161); of −0 it is −0. -/
def Ieee.sin (f : Ieee) (fz : Bool) (a : FVal) : Nat :=
  match a with
  | .fin s m e =>
    if m = 0 then f.zero s
    else let x := shiftFrac m 1 e
      f.sinPi fz s x.1 x.2
  | _ => f.nan

/-- cos(π a) (R161). -/
def Ieee.cos (f : Ieee) (fz : Bool) (a : FVal) : Nat :=
  match a with
  | .fin _ m e => let x := shiftFrac m 1 e
    f.sinPi fz false (2 * x.1 + x.2) (2 * x.2)
  | _ => f.nan

/-! ### Element formats -/

/-- Bits per element of a format code (R70); 0 for a reserved code. -/
def fmtBits (c : Nat) : Nat :=
  if c = 0 ∨ c = 8 then 32
  else if c = 1 ∨ c = 2 ∨ c = 9 then 16
  else if c = 3 ∨ c = 4 ∨ c = 6 ∨ c = 10 ∨ c = 11 then 8
  else if c = 5 ∨ c = 7 then 4
  else 0

/-- The IEEE format of code 0, 1 or 2. -/
def fmtIeee (c : Nat) : Ieee := if c = 1 then fp16 else if c = 2 then bf16 else fp32

/-- Narrow floating-point formats: fraction bits and the exponent of the value of one unit at field 0 (R74-R76). -/
def narrow (c : Nat) : Nat × Int × Nat :=
  if c = 3 then (3, -9, 8) else if c = 4 then (2, -16, 8) else (1, -1, 4)

/-- Magnitude of a narrow code without its sign: field 0 is subnormal (R74-R76). -/
def narrowMag (c : Nat) (code : Nat) : Dyad :=
  let fb := (narrow c).1
  let field := code / 2 ^ fb
  let frac := code % 2 ^ fb
  if field = 0 then { m := frac, e := (narrow c).2.1 }
  else { m := (frac + 2 ^ fb : Nat), e := (narrow c).2.1 + field - 1 }

/-- The largest code of a narrow format that is not reserved (R77). -/
def narrowMax (c : Nat) : Nat := if c = 3 then 0x7E else if c = 4 then 0x7B else 7

/-- Two's complement of `w` bits. -/
def toSigned (w : Nat) (x : Nat) : Int :=
  if x % 2 ^ w ≥ 2 ^ (w - 1) then (x % 2 ^ w : Nat) - (2 ^ w : Nat) else (x % 2 ^ w : Nat)

/-- The code of an integer in `w` bits. -/
def ofSigned (w : Nat) (i : Int) : Nat := (i % (2 ^ w : Nat)).toNat

/-- The value of an element code in a format, with the substitutes of R77. -/
def readElem (c : Nat) (code : Nat) : FVal :=
  if c ≤ 2 then (fmtIeee c).read code
  else if c ≤ 5 then
    let sb := (narrow c).2.2 - 1
    let mag := min (code % 2 ^ sb) (narrowMax c)
    let neg := decide (code / 2 ^ sb % 2 = 1) && decide (mag ≠ 0)
    let d := narrowMag c mag
    .fin neg d.m.natAbs d.e
  else if c = 6 ∨ c = 7 then
    let w := fmtBits c
    let i := toSigned w code
    .ofDyad (.ofInt (max i (-((2 ^ (w - 1) - 1 : Nat) : Int))))
  else if c ≤ 10 then .ofDyad (.ofInt (toSigned (fmtBits c) code))
  else .fin false 1 ((min code 0xFE : Nat) - 127)

/-- Element k of a register in a format (R81). -/
def elemCode (c : Nat) (k : Nat) (x : Nat) : Nat := x / 2 ^ (k * fmtBits c) % 2 ^ fmtBits c

/-- Rounding to the grid of a narrow format, with saturation and +0 (R83). -/
def cvtNarrow (c : Nat) (md : Rnd) (neg : Bool) (d : Dyad) : Nat :=
  let fb := (narrow c).1
  let base := (narrow c).2.1
  if d.m = 0 then 0
  else
    let f := d.frac
    let q := max (ilog2 f.1 f.2 - fb) base
    let r := shiftFrac f.1 f.2 (-q)
    let n := quot md neg r.1 r.2
    let q' := if n = 2 ^ (fb + 1) then q + 1 else q
    let n' := if n = 2 ^ (fb + 1) then 2 ^ fb else n
    let code := if n' < 2 ^ fb then n' else (q' - base + 1).toNat * 2 ^ fb + (n' - 2 ^ fb)
    let code := min code (narrowMax c)
    if code = 0 then 0 else (if neg then 2 ^ ((narrow c).2.2 - 1) else 0) + code

/-- Range of an integer format (R78, R79). -/
def intRange (c : Nat) : Int × Int :=
  let h : Int := (2 ^ (fmtBits c - 1) : Nat)
  if c = 6 ∨ c = 7 then (-(h - 1), h - 1) else (-h, h - 1)

/-- CvtScale (R85): the SC8 code of a magnitude. -/
def cvtScale (md : Rnd) : FVal → Nat
  | .nan => 0
  | .inf _ => 0xFE
  | .fin _ m e =>
    if m = 0 then 0
    else
      let k : Int := e + m.log2
      let up : Bool :=
        if m = 2 ^ m.log2 then false
        else match md with
          | .rz => false
          | .rd => false
          | .ru => true
          | .rn => decide (2 * m > 3 * 2 ^ m.log2) || (decide (2 * m = 3 * 2 ^ m.log2) && decide ((k + 127) % 2 = 1))
      let k' := if up then k + 1 else k
      (max 0 (min 254 (k' + 127))).toNat

/-- The conversion of R83 to a format, giving the element's code. -/
def cvt (c : Nat) (md : Rnd) (fz : Bool) (x : FVal) : Nat :=
  if c ≤ 2 then (fmtIeee c).write md fz x
  else if c ≤ 5 then
    match x with
    | .nan => 0
    | .inf s => (if s then 2 ^ ((narrow c).2.2 - 1) else 0) + narrowMax c
    | .fin s m e => cvtNarrow c md s ((FVal.fin s m e).dyad)
  else if c ≤ 10 then
    let r := intRange c
    match x with
    | .nan => 0
    | .inf s => ofSigned (fmtBits c) (if s then r.1 else r.2)
    | .fin s m e => ofSigned (fmtBits c) (max r.1 (min r.2 ((FVal.fin s m e).dyad.toInt md)))
  else cvtScale md x

/-- A conversion result in a register (R163): the integer formats sign-extended, the others zero-extended. -/
def placeElem (c : Nat) (code : Nat) : Nat :=
  if c = 6 ∨ c = 7 ∨ c = 9 ∨ c = 10 then ofSigned 32 (toSigned (fmtBits c) code) else code

/-! ### Sums rounded once -/

/-- The sum of exact products and an accumulator of R88: NaN and infinities first, then one rounding. -/
def dotSum (md : Rnd) (fz : Bool) (ps : List (FVal × FVal)) (c : FVal) : Nat :=
  let prod (x : FVal × FVal) : FVal :=
    let s := x.1.sign != x.2.sign
    match x.1, x.2 with
    | .nan, _ => .nan
    | _, .nan => .nan
    | .inf _, y => if y.isZero then .nan else .inf s
    | y, .inf _ => if y.isZero then .nan else .inf s
    | .fin _ m e, .fin _ n g => .fin s (m * n) (e + g)
  let terms := c :: ps.map prod
  let isInf (s : Bool) (v : FVal) : Bool := decide (v = .inf s)
  if terms.any FVal.isNan then fp32.nan
  else if terms.any (isInf false) && terms.any (isInf true) then fp32.nan
  else if terms.any (isInf false) then fp32.inf false
  else if terms.any (isInf true) then fp32.inf true
  else
    let zneg := terms.all (fun v => v.isZero && v.sign) || decide (md = .rd)
    fp32.roundDyad md fz zneg (Dyad.sum (terms.map FVal.dyad))

/-- The pass of R92 and R93: the window sum of the products of one activation row and one weight column (values in
order), scaled by 2^(er-127) and 2^(ec-127), added to the accumulator bits with one rounding. `W` is the window width. -/
def passSum (W : Nat) (ps : List (FVal × FVal)) (er ec : Nat) (acc : Nat) : Nat :=
  let isInf (v : FVal) : Bool := match v with | .inf _ => true | _ => false
  let a := fp32.read acc
  let bad (x : FVal × FVal) : Bool :=
    x.1.isNan || x.2.isNan || (isInf x.1 && x.2.isZero) || (isInf x.2 && x.1.isZero)
  let infs := (ps.filter fun x => isInf x.1 || isInf x.2).map fun x => x.1.sign != x.2.sign
  let sc : Int := (min er 0xFE : Nat) - 127 + ((min ec 0xFE : Nat) - 127 : Int)
  if a.isNan || ps.any bad || (infs.any (· == true) && infs.any (· == false)) then fp32.nan
  else
    match infs with
    | s :: _ => fp32.add .rn false a (.inf s)
    | [] =>
      let prods := ps.map fun x => x.1.dyad.mul x.2.dyad
      let live := prods.filter fun d => decide (d.m ≠ 0)
      match live with
      | [] => fp32.add .rn false a (.fin false 0 0)
      | d :: ds =>
        let lead (x : Dyad) : Int := x.e + x.m.natAbs.log2
        let L := ds.foldl (fun l x => max l (lead x)) (lead d)
        let q := L - W
        let trunc (x : Dyad) : Int :=
          let r := shiftFrac x.m.natAbs 1 (x.e - q)
          let n : Int := (r.1 / r.2 : Nat)
          if x.m < 0 then -n else n
        let S : Dyad := { m := live.foldl (fun t x => t + trunc x) 0, e := q + sc }
        fp32.add .rn false a (.ofDyad S)

end Sys2Proof.Machine
end

