-- ==== Sys2Proof/Machine/State.lean ====
section
/-! DEFINITION. The state of the module as plain data (INVENTORY.md lists every piece with its rule), the reasons a step
can stop, and the state after reset. -/

namespace Sys2Proof.Machine

/-- A sparse table: (key, value) pairs, keys strictly rising. What an unlisted key stands for is said at each use. -/
abbrev Tab (α : Type) := List (Nat × α)

/-- A byte store: listed bytes by address, an unlisted byte reads 0 (log 1); addresses strictly rising, no listed 0. -/
abbrev Memory := List Host.Cell

/-- The two modes (R343). -/
inductive Mode where | u | s
  deriving DecidableEq, Repr

/-! ### Events -/

/-- A store to the control window of die `die` (16 and 17 are the I/O dies) at offset `off`, of 4 or 8 bytes (R233). -/
structure CtlStore where
  die : Nat
  off : Nat
  wide : Bool
  data : Word64
  deriving DecidableEq, Repr

/-- A control port (R393). -/
inductive Port where | a | b
  deriving DecidableEq, Repr

/-- What a patrol scrub finds in a line (R240). -/
inductive ScrubFinding where | clean | corrected | uncorrectable
  deriving DecidableEq, Repr

/-- An inbound PCIe request: I/O die, link, bus address, and the bytes written or the count read (R389, R391). -/
structure Inbound where
  io : Nat
  link : Nat
  addr : Nat
  write : Bool
  data : List Byte
  len : Nat
  deriving DecidableEq, Repr

/-- The arithmetic of a read-modify-write (R254); `scnd` is the write of an SCND (R259). -/
inductive AtomOp where | add | min | max | and | or | xor | exch | cas | fadd | addw | scnd
  deriving DecidableEq, Repr

/-- A system-scope atomic carried from a peer module, and the I/O die at which it arrives (R387). -/
structure RemoteAtomic where
  io : Nat
  op : AtomOp
  pa : Nat
  wide : Bool
  signed : Bool
  data : Word64
  cmp : Word64
  deriving DecidableEq, Repr

/-- A put (bytes) or get (length) from a peer module, and the I/O die at which it arrives (R387). -/
structure RemoteAccess where
  io : Nat
  pa : Nat
  put : Bool
  data : List Byte
  len : Nat
  deriving DecidableEq, Repr

/-- The place and the data of an event of the table (the constructors of `Instr` without fields): which fields each event
takes is said at its meaning. -/
inductive Occ where
  | none
  | group (key g : Nat)
  | laneBlock (core lb : Nat)
  | core (c : Nat)
  | team (core slot : Nat) (tag : BitVec 16)
  | result (key n : Nat)
  | held (n : Nat)
  | hitch (h : Nat)
  | queue (die q : Nat)
  | slice (die slice : Nat)
  | ctl (c : CtlStore)
  | saved (blk n : Nat)
  | block (blk : Nat)
  | slot (die slot : Nat)
  | die (d : Nat)
  | seqError (die : Nat) (code : BitVec 8)
  | port (p : Port)
  /-- parties whose requests for CTLSEM reach it in one clock: 1 A, 2 B, 3 the supervisor (R394) -/
  | takers (parties : List Nat)
  | portBytes (p : Port) (n : Nat) (data : List Byte)
  | marker (p : Port) (slotB : Bool)
  | temp (die temp : Nat)
  | link (a b : Nat)
  | phys (pa : Nat)
  | scrub (die stack line : Nat) (found : ScrubFinding)
  | inbound (r : Inbound)
  | msix (io link : Nat) (vector : BitVec 16)
  | io (io port : Nat)
  | remoteAtomic (a : RemoteAtomic)
  | remoteAccess (r : RemoteAccess)
  | torn (n : Nat)
  | ack (die q n : Nat)
  deriving DecidableEq, Repr

/-! ### Threads -/

/-- A v register of a thread: contents, full/empty bit, liveness bit (R124, R127). -/
structure VReg where
  val : Word32
  full : Bool
  live : Bool
  deriving DecidableEq, Repr

/-- A direction register: 16 Q2.14 components, norm entry, and the full bits of both parts (R170, R173). -/
structure DReg where
  comps : BitVec 256
  norm : BitVec 16
  cfull : Bool
  nfull : Bool
  deriving DecidableEq, Repr

/-- A team scalar register with its full/empty bit (R133, R134). -/
structure SReg where
  val : Word32
  full : Bool
  deriving DecidableEq, Repr

/-- Where a parked or saved thread continues (R349, R355, R104). -/
inductive Point where
  /-- at the leg start in `pc` -/
  | leg
  /-- at word `pos` (instruction `idx`) of the fetched leg -/
  | instr (start : Word64) (leg : List Word64) (pos idx : Nat)
  /-- past the exit of the trailer at word `pos`: the destination in `pc` is still to be found a leg start (R36, R39) -/
  | taken (start : Word64) (leg : List Word64) (pos idx : Nat)
  deriving DecidableEq, Repr

/-- How a thread stands (R97, R105, R107, R351). -/
inductive TStat where
  /-- at a leg start, perhaps held by its awaits -/
  | atLeg
  /-- in a running group of its team -/
  | running
  /-- held at its meeting address -/
  | meet
  /-- parked by the trap record `seq` of core `core`, with its cause and lane mask, at the point where it trapped -/
  | parked (core : Nat) (seq : Word32) (cause : BitVec 8) (mask : BitVec 64) (at_ : Point)
  /-- exited, or a lane that was never live (R105) -/
  | exited
  deriving DecidableEq, Repr

/-- One thread: of a vector team, a scalar lane or a rein core (R97, R122, R130, R137, R143, R170, R188, R268, R344). -/
structure Thread where
  stat : TStat
  pc : Word64
  awaits : List Code
  readySince : Nat
  v : List VReg
  t : List Word32
  ix : List Word32
  p : BitVec 7
  mt : Word64
  d : List DReg
  bag : Memory
  bagBytes : Nat
  bsp : Word32
  taskTag : BitVec 16
  idem : Bool
  sect : Word64
  tid : Nat
  /-- instruction index at which an SRET with mid = 1 continues inside the leg at `pc`; 0 for the leg start (R359) -/
  resume : Nat
  deriving DecidableEq, Repr

/-- What holds or stalls a running group at its instruction. -/
inductive Hold where
  /-- not held: it issues when its turn comes -/
  | none
  /-- stalled on an empty register, an earlier result or a held write (R125, R126, R219) -/
  | stall
  /-- stalled past sys.pre_grace while its block is being saved: it is saved at its instruction (R364) -/
  | graced
  /-- stalled on an empty register of a neighbour, read by these lanes; the neighbour threads of `gone` have ended since (R121) -/
  | tandem (lanes gone : BitVec 64)
  /-- at MWAIT on a mask (R111) -/
  | mwait (m : Nat)
  /-- at a cross-lane instruction: the snapshot S, and the threads that have left the mask since (R112) -/
  | cross (snap left : BitVec 64)
  /-- at BARW or BARAW: each waiting lane with its barrier's phase (R266) -/
  | barrier (phases : List (Nat × Word32))
  /-- at an instruction that waits and is tested again when it issues: the lanes that have completed it (R257, R313, R316) -/
  | wait (done : BitVec 64)
  /-- at its trailer with the exit taken: the destinations in `pc` are tested when it issues (R36, R39) -/
  | dest
  deriving DecidableEq, Repr

/-- A group running a leg (R97, R98): lanes, leg start, the words fetched for it (R16), word position, instruction index. -/
structure Group where
  lanes : BitVec 64
  start : Word64
  leg : List Word64
  pos : Nat
  idx : Nat
  hold : Hold
  since : Nat
  deriving DecidableEq, Repr

/-- Where a long-latency result goes (R40, R124, R134, R173). -/
inductive Dest where
  | v (r n : Nat)
  | s (r n : Nat)
  /-- the components of a direction of `w` registers, and its norm entries (R173, R176) -/
  | dirc (r w : Nat)
  | dirn (r w : Nat)
  | none
  deriving DecidableEq, Repr

/-- What a pending result waits for: nothing, a ring grant (R202), a relay record (R322), a held write (R219), a write-back (R323). -/
inductive Wait where
  | ready
  | ring (blk off : Nat) (prod : Bool)
  /-- a pop of the queue whose header lies at `header`; with the QPOP's leg start, word, and index and destination, for its trap
  (R322, R349) -/
  | relay (header : Nat) (start word : Word64) (w8 : Word32)
  /-- the atomic is a held write (R219) -/
  | held (id : Nat)
  /-- granted, waiting for a write-back of the producer core (R323) -/
  | writeback (core slot : Nat) (tag : BitVec 16)
  deriving DecidableEq, Repr

/-- A long-latency result in flight for one lane: the words to write, lowest register first. -/
structure Pend where
  lane : Nat
  dest : Dest
  words : List Word32
  /-- v registers of the destination that RKILL has killed since (R129) -/
  killed : List Nat
  /-- words that a TRES.val has written to registers of the destination since: they replace the result (R126) -/
  newer : List (Nat × Word32)
  wait : Wait
  /-- order of arrival among requests that wait (R202, R322) -/
  order : Nat
  deriving DecidableEq, Repr

inductive Kind where | vector | scalar | rein
  deriving DecidableEq, Repr

/-- A dropped held write whose threads trap at their next leg boundary (R219): leg start, word, index and destination of the
instruction, and its lanes with their granules and addresses. -/
structure Drop where
  start : Word64
  word : Word64
  w8 : Word32
  lanes : List (Nat × Nat × Word64)
  deriving DecidableEq, Repr

/-- A resident team; a scalar lane and a rein core are teams of one thread (R96, R133, R268, R344).
It is listed under the key core * 64 + slot; slot 32 is the scalar lane, slot 33 the rein core of the hitch whose lowest
core it is. -/
structure Team where
  kind : Kind
  core : Nat
  slot : Nat
  gen : BitVec 16
  /-- the block (0 for a scalar lane), and the team's index in it -/
  block : Nat
  tix : Nat
  mode : Mode
  region : BitVec 24
  ortBase : Word64
  ortSize : Word32
  asid : Word32
  /-- values written by SYSWR, oldest first: the issuing lane, the register number and the value; each is in effect from that thread's
  next leg (R206) -/
  ortNext : List (Nat × Nat × Word64)
  dirRange : Bool
  scopeMis : Bool
  step : Bool
  xltLimit : Word32
  relocLimit : Word32
  rdvLimit : Word32
  m : List (BitVec 64)
  s : List SReg
  res : Option Nat
  active : Bool
  legs : Nat
  waitSince : Nat
  threads : List Thread
  groups : List Group
  pend : List Pend
  drops : List Drop
  deriving DecidableEq, Repr

/-! ### Translation and caches -/

/-- The eight doublewords of an object record (R207). -/
structure Record where
  d : List Word64
  deriving DecidableEq, Repr

/-- A cached object record, with its tag (R215). -/
structure RecEntry where
  asid : Word32
  handle : Nat
  gen : BitVec 16
  record : Record
  deriving DecidableEq, Repr

/-- A cached granule entry, with its tag (R215). -/
structure GranEntry where
  asid : Word32
  handle : Nat
  gen : BitVec 16
  gran : Nat
  entry : Word64
  deriving DecidableEq, Repr

/-- A translation cache: entries of the object records and of the granule tables (R215). -/
structure Tlb where
  recs : List RecEntry
  grans : List GranEntry
  deriving DecidableEq, Repr

/-- A cached code line with its tag (R374); a line fetched in bare mode has a tag of its own kind (R344). -/
structure ILine where
  bare : Bool
  asid : Word32
  handle : Nat
  gen : BitVec 16
  off : Nat
  words : List Word64
  deriving DecidableEq, Repr

/-- Who dirtied an L1 line: a team and task tag, or several (R251, R323). -/
inductive LTag where
  | clean
  | team (key : Nat) (tag : BitVec 16)
  | multi
  deriving DecidableEq, Repr

/-- A 128-byte L1 line: its way of the array, bytes, present and dirty byte masks, tag, the key index, partition and class of the
record through which it was opened, and whether policy 2 keeps it (R192, R222, R235, R251). Lines of a core stand most recently used
first. -/
structure L1Line where
  line : Nat
  way : Nat
  data : BitVec 1024
  present : BitVec 128
  dirty : BitVec 128
  tag : LTag
  key : Nat
  part : Nat
  cls : Nat
  keep : Bool
  deriving DecidableEq, Repr

/-- A line held by an L2 slice (R232, R235): set, way, line, partition, class, key index, last use. -/
structure L2Line where
  slice : Nat
  set : Nat
  way : Nat
  line : Nat
  part : Nat
  cls : Nat
  key : Nat
  pinned : Bool
  used : Int
  deriving DecidableEq, Repr

/-! ### Cores -/

/-- A trap record: its sixteen words and the detail entries (lane, four words) (R349, R350). -/
structure TrapRec where
  words : List Word32
  detail : List (Nat × List Word32)
  deriving DecidableEq, Repr

/-- Per-core state other than the teams (R192, R346, R348, R352, R357, R358, R361, R370). -/
structure Core where
  tqBase : Word64
  tqHead : Word32
  tqTail : Word32
  tqHand : Word32
  tqBatch : Word32
  tqAge : Word32
  /-- records that wait for a slot (R351), oldest first -/
  tqWait : List TrapRec
  /-- clock at which each written record was written: (sequence, clock) (R352) -/
  tqTimes : List (Nat × Nat)
  timerOff : Word64
  timerCmp : Word64
  intPending : BitVec 6
  intEnable : Word32
  tvec : Word64
  tpc : Word64
  cause : Word32
  tval : Word64
  shadow : List Word32
  inHandler : Bool
  /-- an SRET of the running leg has been performed; it takes effect at the trailer (R359) -/
  sret : Bool
  wdt : Word32
  wdtSet : Nat
  started : Bool
  splitTarget : Nat
  splitCurrent : Nat
  splitMoving : Bool
  splitBusy : Bool
  preGrace : Word32
  halted : Bool
  gens : List (BitVec 16)
  l1 : List L1Line
  tlb : Tlb
  icache : List ILine
  deriving DecidableEq, Repr

/-! ### Hitches -/

/-- A claimed run of operand slots (R273, R274), with the region blocks that it is charged to (R326). -/
structure Run where
  first : Nat
  n : Nat
  released : Bool
  path : List Nat
  deriving DecidableEq, Repr

/-- An array operation in the array queue (R276-R283). -/
inductive ArrOp where
  | ldw (wd sd : Word32)
  | stream (st sd acc : Word32)
  | zero (acc : Word32)
  | drain (acc : Word32) (q : Nat) (word : Word64) (tsr : Option (List Word32)) (tsrAddr : Word64)
  deriving DecidableEq, Repr

/-- Latched weights: format, tile bytes, column scales (R280). -/
structure Weights where
  fmt : BitVec 4
  tile : List Byte
  scales : List Byte
  deriving DecidableEq, Repr

/-- Per-hitch state (R244, R271, R273, R276, R280, R283). -/
structure Hitch where
  mem : Memory
  runs : List Run
  /-- FP32 bits of accumulator elements by bank * 65536 + row * 256 + column; unlisted is +0 -/
  acc : Tab Word32
  /-- locked rows as bank * 256 + row, once for every drain that has locked a row and not read it -/
  locked : List Nat
  arrayQ : List ArrOp
  weights : Option Weights
  /-- number of weight loads issued minus performed decides the format an MSTREAM checks (R279): the last one issued -/
  lastFmt : Option (BitVec 4)
  asid : Option Word32
  /-- block and rendezvous offset of the fork whose program holds the rein core (R314) -/
  fork : Option (Nat × Nat)
  granted : List Nat
  /-- the rein core's translation cache and code lines (R215, R229, R376) -/
  tlb : Tlb
  icache : List ILine
  deriving DecidableEq, Repr

/-! ### Blocks, barriers, forks -/

/-- A hardware barrier (R263); threads are named by block * 4096 + tid. -/
structure Barrier where
  n : Nat
  strict : Bool
  p : Word32
  a : Nat
  arrived : List Nat
  carried : List Nat
  deriving DecidableEq, Repr

/-- The translation context of a command (R289): the team whose space, mode and region it uses, as values. -/
structure Ctx where
  asid : Word32
  ortBase : Word64
  ortSize : Word32
  mode : Mode
  region : BitVec 24
  reloc : Word32
  deriving DecidableEq, Repr

/-- A fork that has not been met (R314, R315): its rendezvous offset, hitch, die-local queues, expected and ended parties, and the
region blocks that it is charged to (R326). -/
structure Fork where
  off : Nat
  hitch : Nat
  die : Nat
  queues : List Nat
  rein : Bool
  /-- parties that have ended, as the bits of `expected` -/
  ended : BitVec 4
  path : List Nat
  deriving DecidableEq, Repr

/-- A neighbourhood: its blocks, barriers 16 to 19 (R263, R336), and the region blocks that these are charged to; none while no block
of it is on cores (R244, R326). -/
structure Nbhd where
  blocks : List Nat
  count : Nat
  threads : Nat
  sb : Nat
  bars : List Barrier
  width : Nat
  height : Nat
  path : List Nat
  deriving DecidableEq, Repr

/-! ### Copy engines -/

/-- A command held by a queue: its words, context, inline record, or a handed-over drain (R283, R290, R313). -/
structure Entry where
  word : Word64
  extra : List Word64
  tsr : Option (List Word32)
  ctx : Ctx
  drain : Option (Word32 × Word64)
  hitch : Nat
  /-- address of a program command, which CLOOP counts from; none for a command taken from the FIFO (R305, R309) -/
  pc : Option Word64
  /-- the accumulator rows that a drain has read, row by row (R283) -/
  rows : List Word32
  /-- the rows of a drain have been unlocked (R283) -/
  unlocked : Bool
  deriving DecidableEq, Repr

inductive QState where | idle | bound | stopped
  deriving DecidableEq, Repr

/-- A copy queue (R288-R291, R305, R310). -/
structure Queue where
  owner : BitVec 24
  enabled : Bool
  refused : Bool
  state : QState
  block : Option Nat
  fifo : List Entry
  prog : Option (Word64 × Ctx)
  cur : Option Entry
  elem : Nat
  cnt : List Nat
  armed : List Bool
  progress : Word32
  cause : BitVec 8
  detail : BitVec 24
  addr : Word64
  command : Word64
  /-- the clock of a CNET's last transmission or acknowledgement, and the retransmissions since (R386) -/
  sent : Option Nat
  tries : Nat
  /-- a CRING that waits for a free slot: block and offset of the descriptor, and its order among the ring's requests (R202, R301) -/
  ringWait : Option (Nat × Nat × Nat)
  deriving DecidableEq, Repr

/-- How a block stands (R364, R367, R368). -/
inductive BStat where
  | placed
  /-- being saved -/
  | saving
  | saved
  | discarded
  deriving DecidableEq, Repr

/-- The region table of a die as its dispatcher block gives it, with the core of interrupt bit 2: a packet keeps the values that stood
at its take (R329). -/
structure RegionTab where
  die : Nat
  base : Nat
  count : Nat
  sup : Nat
  deriving DecidableEq, Repr

/-- The effective values of a region (R325, R327). -/
structure RegionEff where
  degrade : Bool
  skipLate : Bool
  sup : Bool
  ceiling : Nat
  ageing : Nat
  domain : Nat
  asid : Word32
  ortBase : Word64
  ortSize : Word32
  deriving DecidableEq, Repr

/-- A block of a launch packet, placed or kept in the context store (R333-R336, R364-R368). -/
structure Block where
  die : Nat
  slot : Nat
  qcb : Nat
  packet : Nat
  stat : BStat
  cores : List Nat
  threads : Nat
  vregs : Nat
  dregs : Nat
  nbars : Nat
  scratchKiB : Nat
  bagBytes : Nat
  blk : Nat
  nblk : Option Nat
  nbhd : Nat
  entry : Word64
  arg : Word64
  pktAddr : Word64
  region : BitVec 24
  policy : Bool
  mode : Mode
  asid : Word32
  ortBase : Word64
  ortSize : Word32
  /-- the region table of its packet, what it holds of each resource, and the region blocks that this is charged to (R326, R329) -/
  tab : RegionTab
  charges : List (Nat × Nat)
  path : List Nat
  scratch : Memory
  /-- first KiB of the block's part in the scratchpad of each of its cores (R194) -/
  parts : List (Nat × Nat)
  bars : List Barrier
  forks : List Fork
  /-- teams of a saved block (live ones), queue states by die-local number, and the hitch of its fork (R364) -/
  savedTeams : List Team
  savedQueues : Tab Queue
  savedHitch : Option Hitch
  savedRein : Option Team
  /-- section entries of a discarded block's live threads: (tid, entry) -/
  reentry : List (Nat × Word64)
  /-- marked waiting: core and sequence of the FETCH_RESIDENCY record, and its count of lanes (R368) -/
  waiting : Option (Nat × Word32 × Nat)
  /-- frames of the context store that its image takes -/
  frames : Nat
  deriving DecidableEq, Repr

/-! ### Dies -/

/-- A partition table entry (R232). -/
structure Part where
  w0 : Word32
  w1 : Word32
  w2 : Word32
  refused : Bool
  sweeping : Bool
  deriving DecidableEq, Repr

/-- A stack block (R241). -/
structure Stack where
  corrected : Word32
  uncorrected : Word32
  lastAddr : Word64
  fresh : Bool
  deriving DecidableEq, Repr

/-- A taken packet that has not left its ring (R330, R333, R337): its QCB, the slot that took it, its ring number, and the region table
and effective values of its take, which govern it for its whole life (R327, R329). -/
structure Packet where
  qcb : Nat
  slot : Nat
  n : Nat
  words : List Word32
  nextBlk : Nat
  total : Nat
  late : Bool
  done : Bool
  judged : Bool
  tab : RegionTab
  eff : RegionEff
  deriving DecidableEq, Repr

/-- A hardware queue slot (R331), with the region blocks that a mapped one is charged to (R326). -/
structure Slot where
  valid : Bool
  doorbell : BitVec 12
  qcb : Word64
  since : Nat
  /-- the dispatcher knows of a packet to take: the last comparison found the QCB's indices different (R332) -/
  known : Bool
  ready : Bool
  refused : Bool
  result : BitVec 2
  preempting : Bool
  path : List Nat
  deriving DecidableEq, Repr

/-- A compute die: control window, dispatcher, queues and second-level translation cache. -/
structure Die where
  parts : Tab Part
  fallback : Word32
  hbmStacks : List Stack
  queues : List Queue
  regionBase : Word64
  regionCount : Word32
  supCore : Word32
  dispRefused : Bool
  patches : Nat
  verified : Bool
  patchVer : BitVec 16
  seqError : BitVec 8
  slots : List Slot
  packets : List Packet
  /-- cores that ran blocks of a queue's packets, by QCB (R334, R340) -/
  ran : Tab (List Nat)
  lastPick : Nat
  pending : List Nat
  ctxBase : Word64
  ctxFrames : Word32
  ctxUsed : Word32
  ctxRefused : Bool
  microcode : BitVec 128
  featEnabled : BitVec 128
  featLocked : Bool
  featRefused : Bool
  temp : Nat
  throttled : Bool
  tlb : Tlb
  l2 : List L2Line
  /-- clock of the last sweep of each slice that has swept (R236) -/
  swept : Tab Nat
  deriving DecidableEq, Repr

/-! ### I/O dies, boot, control ports -/

/-- An inbound DMA window (R391): w0-w1, size, key word. -/
structure InWin where
  w01 : Word64
  size : Word32
  key : Word32
  refused : Bool
  deriving DecidableEq, Repr

/-- A remote-module window entry (R387), as its eight words. -/
structure RemWin where
  words : List Word32
  refused : Bool
  deriving DecidableEq, Repr

/-- An I/O die: event block, inbound and remote windows, failing links and ports (R387-R392). -/
structure IoDie where
  eventCore : Word32
  ringBase : Word64
  cap : Word32
  head : Word32
  tail : Word32
  overflow : Word32
  refused : Bool
  inwins : Tab InWin
  remwins : Tab RemWin
  /-- links on which an access has timed out, CXL ports with an error, links down -/
  pcieErr : List Nat
  cxlErr : List Nat
  down : List Nat
  deriving DecidableEq, Repr

/-- How the boot stands (R398, R400). -/
inductive Boot where
  | off | ran (slotB markerFailed : Bool) | noSlot | thermal
  deriving DecidableEq, Repr

/-- An answer of a control port (R393-R395); the encodings of the replies are not given, so an answer is its content (log 18). -/
inductive Reply where
  | none
  | ok
  | notOwner
  | busy
  /-- the party to which a CTLSEM asked for by several in one clock went (R394) -/
  | granted (party : Nat)
  /-- an inbound request completed as Unsupported Request, or as Completer Abort (R389, R391) -/
  | unsupported
  | aborted
  /-- a command that the port does not take: its values are outside those of R393, or the boot found no slot (R398) -/
  | refused
  /-- the bytes of a MAILBOX reply, or of an inbound read -/
  | data (bs : List Byte)
  /-- a report of 192 bytes; its signature is `Config.signature` of them (R399) -/
  | report (bs : List Byte)
  | status (boot : Boot) (holder : Nat) (temps : List Nat) (power : Word64)
  deriving DecidableEq, Repr

/-- Control ports, CTLSEM, mailbox, measurements, flash and boot (R393-R399). -/
structure Mgmt where
  holder : Nat
  last : Nat
  grants : BitVec 16
  lastCmd : Nat
  inbox : Memory
  outbox : Memory
  reportDone : Bool
  reportBusy : Bool
  inPort : Nat
  outFull : Bool
  inFull : Bool
  nonce : Memory
  /-- nonce of the report that is being made, as it stood at the request (R395) -/
  asked : List Byte
  /-- the last supervisor report, without its signature; empty before the first -/
  report : List Byte
  m : List (BitVec 256)
  /-- the words of a digest stored so far at the extend word (R399, log 18) -/
  digest : Memory
  secVersion : Word64
  boot : Boot
  bootIo : Nat
  flash : Memory
  /-- the last flash write: the clock after it, its offset and the bytes that it replaced (R397) -/
  flashUndo : Option (Nat × Nat × List Byte)
  powerKw : Nat
  /-- the answer to the last request from outside -/
  reply : Reply
  badEdges : List (Nat × Nat)
  deriving DecidableEq, Repr

/-! ### Memory system -/

/-- The value of a key slot: the device key of a boot, or a loaded pair (R220, R221, R398). -/
inductive KeyVal where
  | device (boot : Nat)
  | pair (data tweak : BitVec 256)
  deriving DecidableEq, Repr

/-- An AWAIT or CWAIT registration (R257, R304). -/
structure Watch where
  /-- the executing unit -/
  unit : Nat
  /-- physical address, or for a scratchpad location block * 2^32 + window offset with `scratch` -/
  scratch : Bool
  loc : Nat
  /-- bytes of the location -/
  width : Nat
  cond : Nat
  sgn : Bool
  cmp : Word64
  /-- the waiting thread, or the waiting queue with `engine` (die * 32 + queue) -/
  engine : Bool
  key : Nat
  lane : Nat
  /-- woken by AADDW, or the condition was true of a value written there -/
  woken : Bool
  since : Nat
  registered : Bool
  /-- its acquire is dropped under DEGRADE (R253) -/
  degraded : Bool
  /-- registers of an AWAIT.ret that are empty while it waits (R257) -/
  dest : Dest
  deriving DecidableEq, Repr

/-- A write held at a moving granule (R219). -/
structure Held where
  id : Nat
  asid : Word32
  ortBase : Word64
  ortSize : Word32
  va : Word64
  pa : Nat
  entryAt : Nat
  op : AtomOp
  plain : Bool
  bytes : List Byte
  width : Nat
  signed : Bool
  data : Word64
  cmp : Word64
  dev : Bool
  key : Nat
  lane : Nat
  /-- the copy queue that waits on it at its element, for an engine's write -/
  engine : Option (Nat × Nat)
  dest : Dest
  start : Word64
  word : Word64
  w8 : Word32
  gran : Nat
  since : Nat
  limit : Word32
  keySlot : Nat
  live : Bool
  /-- an acquiring atomic, which every later access of the thread waits for (R247) -/
  acq : Bool
  /-- for the check of a synchronising access when it performs: its scope and order, its hitch, and whether its policy is DEGRADE
  (R252, R253) -/
  scope : Nat
  order : Nat
  hitch : Nat
  degrade : Bool
  /-- the coordinates, run and register width of an STC, from which its element is found afresh (R219, R227) -/
  coord : Option (List Nat × Nat × Nat)
  /-- the thread that issued it: its block and tid, or 0 and a team key (R219) -/
  owner : Nat × Nat
  /-- the launch of its block: its queue and packet -/
  launch : Option (Nat × Nat)
  /-- the party, for the translation afresh: its mode, whether it is a vector thread, and whether it is a copy engine (R209) -/
  mode : Mode
  vector : Bool
  byEngine : Bool
  /-- the region table in which a fault of a signal counts (R310, R334) -/
  tab : RegionTab
  deriving DecidableEq, Repr

/-! ### The machine -/

/-- Whose instruction or command a step performs. -/
inductive Issuer where
  | none
  | group (key g : Nat)
  | queue (die q : Nat)
  /-- an event of the table, with its place and data -/
  | event (o : Occ)
  deriving DecidableEq, Repr

/-- One turn of the agenda: which agent acts next (log 3). -/
inductive Turn where
  /-- group `g` of the team `key` issues its next word -/
  | issue (key g : Nat)
  /-- queue `q` of a die takes or performs its next command -/
  | queue (die q : Nat)
  /-- a device action or an outside event -/
  | event (i : Instr) (o : Occ)
  /-- an L1 line is evicted, its dirty bytes written back (R251) -/
  | evict (core line : Nat)
  /-- clocks pass -/
  | elapse (n : Nat)
  deriving DecidableEq, Repr

/-- The module. -/
structure State where
  clock : Nat
  agenda : List Turn
  issuer : Issuer
  /-- counter of free values (log 8) -/
  free : Nat
  mem : Memory
  /-- key under which a 16-byte block was written, by pa / 16; an unlisted block was never written and reads as it stands
  under every key (log 1) -/
  blockKey : Tab KeyVal
  /-- loaded key slots; slot 0 holds the device key -/
  keys : Tab KeyVal
  boots : Nat
  /-- poisoned lines, each with whether it has had a consumer (R240) -/
  poison : Tab Bool
  /-- scope record of a line: effective scope code, and the hitch of the party (R252) -/
  scopes : Tab (Nat × Nat)
  /-- fault-signalled bytes: the cause, the module queue number and the faulting address (R310, R311) -/
  faultSig : Tab (BitVec 8 × Nat × Word64)
  held : List Held
  watches : List Watch
  teams : Tab Team
  cores : Tab Core
  hitches : Tab Hitch
  blocks : Tab Block
  nbhds : Tab Nbhd
  nextId : Nat
  dies : List Die
  ios : List IoDie
  mgmt : Mgmt
  deriving DecidableEq, Repr

/-! ### Why a step stops -/

/-- A machine stop that is no trap of the device. -/
inductive Fault where
  /-- Raised by every instruction meaning when `issuer` names no running group, and by every command meaning when it names
  no queue with a command in progress, and by every event meaning when it names no occasion of the event's shape: the state
  gives the instruction no agent to act for. A `step` raises it only for an event of the agenda whose occasion has not the
  event's shape (log 3). Safe. -/
  | noIssuer
  deriving DecidableEq, Repr

/-- An instruction without a meaning. -/
inductive Refusal where
  /-- The instruction has no meaning yet (raised by Dispatch.lean only). Safe. -/
  | notModelled (mnemonic : String)
  deriving DecidableEq, Repr

/-! ### Reset -/

/-- A core at reset (R346, R192; the shadow set and slot generations by log 2). -/
def Core.reset : Core where
  tqBase := 0
  tqHead := 0
  tqTail := 0
  tqHand := 0
  tqBatch := 1
  tqAge := 0
  tqWait := []
  tqTimes := []
  timerOff := 0
  timerCmp := 0xFFFFFFFFFFFFFFFF
  intPending := 0
  intEnable := 0
  tvec := 0
  tpc := 0
  cause := 0
  tval := 0
  shadow := List.replicate 6 0
  inHandler := false
  sret := false
  wdt := 0
  wdtSet := 0
  started := false
  splitTarget := 0
  splitCurrent := 0
  splitMoving := false
  splitBusy := false
  preGrace := 4096
  halted := false
  gens := List.replicate 32 0
  l1 := []
  tlb := { recs := [], grans := [] }
  icache := []

/-- A hitch at reset (log 2). -/
def Hitch.reset : Hitch where
  mem := []
  runs := []
  acc := []
  locked := []
  arrayQ := []
  weights := none
  lastFmt := none
  asid := none
  fork := none
  granted := []
  tlb := { recs := [], grans := [] }
  icache := []

/-- A copy queue at reset (R291). -/
def Queue.reset : Queue where
  owner := 0
  enabled := false
  refused := false
  state := .idle
  block := none
  fifo := []
  prog := none
  cur := none
  elem := 0
  cnt := [0, 0]
  armed := [false, false]
  progress := 0
  cause := 0
  detail := 0
  addr := 0
  command := 0
  sent := none
  tries := 0
  ringWait := none

/-- A hardware queue slot at reset (R331). -/
def Slot.reset : Slot where
  valid := false
  doorbell := 0
  qcb := 0
  since := 0
  known := false
  ready := false
  refused := false
  result := 0
  preempting := false
  path := []

/-- A compute die at reset: entry 0 of the partition table is valid with every way (R232), sup_core is die * 96 (R329),
features are the base set (R380). -/
def Die.reset (d : Nat) : Die where
  parts := [(0, { w0 := 0x0001FFFF, w1 := 0, w2 := 0, refused := false, sweeping := false })]
  fallback := 0
  hbmStacks := List.replicate 2 { corrected := 0, uncorrected := 0, lastAddr := 0, fresh := false }
  queues := List.replicate 32 Queue.reset
  regionBase := 0
  regionCount := 0
  supCore := BitVec.ofNat 32 (d * 96)
  dispRefused := false
  patches := 0
  verified := false
  patchVer := 0
  seqError := 0
  slots := List.replicate 16 Slot.reset
  packets := []
  ran := []
  lastPick := 15
  pending := []
  ctxBase := 0
  ctxFrames := 0
  ctxUsed := 0
  ctxRefused := false
  microcode := 1
  featEnabled := 1
  featLocked := false
  featRefused := false
  temp := 25
  throttled := false
  tlb := { recs := [], grans := [] }
  l2 := []
  swept := []

/-- An I/O die at reset: event cores 0 and 1,152 (R390). -/
def IoDie.reset (i : Nat) : IoDie where
  eventCore := BitVec.ofNat 32 (i * 1152)
  ringBase := 0
  cap := 0
  head := 0
  tail := 0
  overflow := 0
  refused := false
  inwins := []
  remwins := []
  pcieErr := []
  cxlErr := []
  down := []

/-- Management state at reset, before the boot (log 2). -/
def Mgmt.reset : Mgmt where
  holder := 0
  last := 0
  grants := 0
  lastCmd := 0
  inbox := []
  outbox := []
  reportDone := false
  reportBusy := false
  inPort := 0
  outFull := false
  inFull := false
  nonce := []
  asked := []
  report := []
  m := List.replicate 4 0
  digest := []
  secVersion := 0
  boot := .off
  bootIo := 0
  flash := []
  flashUndo := none
  powerKw := 15
  reply := .none
  badEdges := []

/-- The module right after reset: the boot ROM has not run (R398), no lane is started and no team is resident. -/
def State.reset : State where
  clock := 0
  agenda := []
  issuer := .none
  free := 0
  mem := []
  blockKey := []
  keys := [(0, .device 0)]
  boots := 0
  poison := []
  scopes := []
  faultSig := []
  held := []
  watches := []
  teams := []
  cores := []
  hitches := []
  blocks := []
  nbhds := []
  nextId := 1
  dies := (List.range 16).map Die.reset
  ios := (List.range 2).map IoDie.reset
  mgmt := .reset

end Sys2Proof.Machine
end

