-- ==== Sys2Proof/Machine/Forms.lean ====
section
/-! DEFINITION. Operand forms: what each operand field of each opcode holds, which modifier values are assigned, and the leg
check built on them (R19-R34, R37, R38, R40, R43, R45, R268, R344). The meanings read their operand codes and widths from the
same table. -/

namespace Sys2Proof.Machine

/-- The causes of traps and engine stops (R356). -/
inductive Cause where
  | illegalOpcode | reservedField | badOperandCode | pairBank | legTooLong | legHazard | badTrailer | badBranchTarget
  | privilegedOp | classMismatch
  | emptySource | indexBound | indexSetup | regAllot | dirNotAllotted
  | residency | outOfExtent | outOfShape | permission | nullObject | badHandle | misaligned | relocationWait
  | fetchResidency | keyInvalid | tsrReserved | tsrRange | saddlebagBound | scratchBound
  | scopeMismatch | barExcess | barInvalid | crosslaneTimeout | ringInvalid
  | slotNotClaimed | matrixRange | formatMismatch | engineProgram | relayFull | rdvTimeout | joinUnderflow | relayInvalid
  | syscall | breakpoint | timer | interrupt | preempt | watchdog | singleStep | deviceError
  deriving DecidableEq, Repr

/-- The code of a cause (R356). -/
def Cause.code : Cause → BitVec 8
  | .illegalOpcode => 0x00 | .reservedField => 0x01 | .badOperandCode => 0x02 | .pairBank => 0x03
  | .legTooLong => 0x04 | .legHazard => 0x05 | .badTrailer => 0x06 | .badBranchTarget => 0x07
  | .privilegedOp => 0x08 | .classMismatch => 0x09
  | .emptySource => 0x10 | .indexBound => 0x11 | .indexSetup => 0x12 | .regAllot => 0x13 | .dirNotAllotted => 0x14
  | .residency => 0x20 | .outOfExtent => 0x21 | .outOfShape => 0x22 | .permission => 0x23 | .nullObject => 0x24
  | .badHandle => 0x25 | .misaligned => 0x26 | .relocationWait => 0x27 | .fetchResidency => 0x28 | .keyInvalid => 0x29
  | .tsrReserved => 0x2A | .tsrRange => 0x2B | .saddlebagBound => 0x2C | .scratchBound => 0x2D
  | .scopeMismatch => 0x30 | .barExcess => 0x31 | .barInvalid => 0x32 | .crosslaneTimeout => 0x33 | .ringInvalid => 0x35
  | .slotNotClaimed => 0x40 | .matrixRange => 0x41 | .formatMismatch => 0x42 | .engineProgram => 0x43
  | .relayFull => 0x44 | .rdvTimeout => 0x45 | .joinUnderflow => 0x46 | .relayInvalid => 0x47
  | .syscall => 0x50 | .breakpoint => 0x51 | .timer => 0x52 | .interrupt => 0x53 | .preempt => 0x54 | .watchdog => 0x55
  | .singleStep => 0x56 | .deviceError => 0x57

/-- What an operand field holds. `n` counts 32-bit registers, `w` direction registers. -/
inductive Role where
  /-- 0xF0, last-use and keep-wait 0 -/
  | unused
  /-- a number or predicate number, checked by the form; last-use and keep-wait 0 -/
  | num
  /-- a source of `n` registers: any source code (R20, R23) -/
  | src (n : Nat)
  /-- a destination of `n` registers; `long` when the instruction is long-latency (R40) -/
  | dst (n : Nat) (long : Bool)
  /-- a direct v code that is a multiple of `al`, naming `n` registers that are read -/
  | vsrc (n al : Nat)
  /-- a direct v code that is a multiple of `al`, naming `n` registers that are written -/
  | vdst (n al : Nat) (long : Bool)
  /-- a direct v code, the first of up to five coordinate registers (R226) -/
  | coord
  /-- a direction of `w` registers that is read -/
  | dirSrc (w : Nat)
  /-- a direction of `w` registers that is written -/
  | dirDst (w : Nat) (long : Bool)
  /-- the first register killed by RKILL, with its count (R129) -/
  | kill (n : Nat)
  /-- the result register of TRAP: a v or t code or 0xF0 (R353) -/
  | trapDst (n : Nat)
  /-- an even v or s code whose high register is written (MOVH, R136) -/
  | high
  /-- two predicate numbers (R19) -/
  | preds
  deriving DecidableEq, Repr

/-- The form of an F3 or X instruction: its fields, whether a modifier or number field breaks R19 or R26, and whether it is
a value instruction, which may read a neighbour (R19). -/
structure Sig where
  d : Role
  a : Role
  b : Role
  c : Role
  bad : Bool
  value : Bool
  deriving DecidableEq, Repr

/-- A form without fields. -/
def Sig.none (bad : Bool) : Sig := { d := .unused, a := .unused, b := .unused, c := .unused, bad := bad, value := false }

/-- Whether a modifier sets a bit outside the allowed ones. -/
def outside (md allowed : BitVec 8) : Bool := decide (md &&& ~~~allowed ≠ 0)

/-- The field [hi:lo] of a modifier. -/
def mdField (md : BitVec 8) (hi lo : Nat) : Nat := md.toNat / 2 ^ lo % 2 ^ (hi + 1 - lo)

/-- One register, or a pair when the option bit is set. -/
def pairIf (b : Bool) : Nat := if b then 2 else 1

/-- A destination in use, or an unused field. -/
def dstIf (b : Bool) (n : Nat) (long : Bool) : Role := if b then .dst n long else .unused

/-- Whether a G8 word's scope and option bits are assigned (R254): `sgn`, `wide` say which of .s and .64 exist. -/
def atomBad (md : BitVec 8) (sgn wide : Bool) : Bool :=
  decide (mdField md 2 0 > 4) || (md.getLsbD 5 && !sgn) || (md.getLsbD 6 && !wide)

/-- The form of an atomic of R254. -/
def atomSig (md : BitVec 8) (sgn wide useC : Bool) : Sig where
  d := dstIf (md.getLsbD 7) (pairIf (md.getLsbD 6)) true
  a := .src 2
  b := .src (pairIf (md.getLsbD 6))
  c := if useC then .src (pairIf (md.getLsbD 6)) else .unused
  bad := atomBad md sgn wide
  value := false

/-- The form of a G2 instruction (R158): its count of sources and which of the modifier's fields it has. -/
def fpSig (md : BitVec 8) (n : Nat) (rnd fz neg long : Bool) : Sig where
  d := .dst 1 long
  a := .src 1
  b := if n ≥ 2 then .src 1 else .unused
  c := if n ≥ 3 then .src 1 else .unused
  bad := decide (mdField md 1 0 = 3) || (!rnd && decide (mdField md 3 2 ≠ 0)) || (!fz && md.getLsbD 4)
    || (md.getLsbD 5 && !neg) || (md.getLsbD 6 && !(neg && decide (n ≥ 2))) || (md.getLsbD 7 && !(neg && decide (n ≥ 3)))
  value := true

/-- A value form: destination, sources and the broken-modifier test. -/
def valSig (d a b c : Role) (bad : Bool) : Sig := { d := d, a := a, b := b, c := c, bad := bad, value := true }

/-- Any other form. -/
def sig (d a b c : Role) (bad : Bool) : Sig := { d := d, a := a, b := b, c := c, bad := bad, value := false }

/-- Whether a CVT's modifier and control byte are reserved (R163). -/
def cvtBad (w : F3) : Bool :=
  let dst := mdField w.md 3 0
  let src := mdField w.md 7 4
  let k := mdField w.c 6 4
  let int := fun c => decide (8 ≤ c ∧ c ≤ 10)
  decide (fmtBits dst = 0) || decide (fmtBits src = 0) || decide (fmtBits src ≠ 0 ∧ k ≥ 32 / fmtBits src)
    || (w.c.getLsbD 3 && !(int dst && int src)) || w.c.getLsbD 7

/-- Whether a PACK or UNPK names a format or element it cannot have (R164). -/
def packBad (md : BitVec 8) : Bool :=
  let n := fmtBits (mdField md 3 0)
  decide (n = 0) || decide (n = 32) || decide (n ≠ 0 ∧ mdField md 6 4 ≥ 32 / n)

/-- The registers of a run of LDC or STC: one register, a pair or a quad (R226). -/
def runRegs (md : BitVec 8) : Nat := 2 ^ mdField md 4 3

/-- Whether the modifier of LDC or STC is unassigned (R226). -/
def runBad (md : BitVec 8) : Bool := decide (mdField md 2 0 > 4) || decide (mdField md 4 3 = 3) || md.getLsbD 7

/-- The form of an F3 opcode with its fields (R141, R145, R148, R149, R153, R158, R163-R167, R177, R110, R116, R254, R257,
R259-R261, R264, R201-R203, R321-R324, R274, R277, R313-R316, R345, R353-R355, R359, R360, R370, R371, R228, R229, R376,
R362, R221, R226). None for an unassigned opcode. -/
def f3Sig (op : Nat) (w : F3) : Option Sig :=
  let md := w.md
  let n0 := pairIf (md.getLsbD 0)
  let wd := 2 ^ mdField md 1 0
  let vec := Role.vsrc (16 * wd) 1
  match op with
  -- G0
  | 0x000 | 0x001 => some (valSig (.dst n0 false) (.src n0) (.src n0) .unused (outside md 0x07 || decide (mdField md 2 1 = 3)))
  | 0x002 => some (valSig (.dst n0 false) (.src n0) (.src n0) .unused (outside md 0x01))
  | 0x003 =>
    let wide := md.getLsbD 1
    let n := if wide then 1 else n0
    let nc := if wide then 2 else n0
    some (valSig (.dst nc false) (.src n) (.src n) (.src nc)
      (outside md 0x07 || (md.getLsbD 2 && !wide) || (md.getLsbD 0 && wide)))
  | 0x004 | 0x005 | 0x006 => some (valSig (.dst n0 false) (.src n0) (.src n0) .unused (outside md 0x05))
  | 0x007 => some (valSig (.dst n0 false) (.src n0) .unused .unused (outside md 0x03))
  | 0x008 | 0x009 | 0x00A | 0x00B => some (valSig (.dst n0 false) (.src n0) (.src n0) .unused (outside md 0x01))
  | 0x00C | 0x00D | 0x00E | 0x00F => some (valSig (.dst n0 false) (.src n0) (.src 1) .unused (outside md 0x03))
  | 0x010 | 0x011 => some (valSig (.dst 1 false) (.src n0) .unused .unused (outside md 0x01))
  | 0x012 => some (valSig (.dst n0 false) (.src n0) .unused .unused (outside md 0x01))
  | 0x013 => some (valSig (.dst 1 false) (.src 1) (.src 1) .unused (outside md 0x04))
  | 0x014 => some (valSig (.dst 1 false) (.src 1) (.src 1) (.src 1) (outside md 0x00))
  | 0x015 =>
    let n := pairIf (md.getLsbD 4)
    some (valSig (.dst n false) (.src n) (.src n) .unused (outside md 0x1F))
  | 0x016 =>
    let n := if md.getLsbD 1 then 4 else n0
    some (valSig (.dst n false) (.src n) .unused .unused (outside md 0x03 || (md.getLsbD 0 && md.getLsbD 1)))
  | 0x017 => some (valSig (.dst n0 false) (.src n0) (.src n0) (.src n0) (outside md 0x01))
  | 0x018 => some (valSig (.dst 2 false) (.src 2) (.src 1) .unused (outside md 0x1F))
  | 0x019 | 0x01A => some (valSig (.dst n0 true) (.src n0) (.src n0) .unused (outside md 0x05))
  -- G1
  | 0x040 | 0x041 =>
    let n := pairIf (md.getLsbD 7)
    some (valSig .preds (.src n) (.src n) .unused (decide (mdField md 6 3 > 5)))
  | 0x042 => some (valSig .preds (.src 1) (.src 1) .unused (decide (mdField md 6 3 > 13)))
  | 0x043 => some (sig .preds .num .num .num (decide (w.a.toNat > 7 ∨ w.b.toNat > 7 ∨ w.c.toNat > 7)))
  | 0x044 =>
    if md.getLsbD 0 then some (sig .unused (.src 1) .unused .unused false)
    else some (sig (.dst 1 false) .unused .unused .unused (decide (md ≠ 0)))
  -- G2
  | 0x080 | 0x081 | 0x082 => some (fpSig md 2 true true true false)
  | 0x083 => some (fpSig md 3 true true true false)
  | 0x084 | 0x085 => some (fpSig md 2 false true true false)
  | 0x086 | 0x087 => some (fpSig md 1 false true true true)
  | 0x088 => some (fpSig md 1 true true true true)
  | 0x089 | 0x08A | 0x08B | 0x08C => some (fpSig md 1 false true true true)
  | 0x08D => some (fpSig md 1 true true true false)
  | 0x08E => some (fpSig md 2 true true true true)
  | 0x08F => some (fpSig md 1 false false false false)
  -- G3
  | 0x0C0 => some (valSig (.dst 1 false) (.src 1) .unused .num (cvtBad w))
  | 0x0C1 => some (valSig (.dst 1 false) (.src 1) (.src 1) .unused (packBad md || md.getLsbD 7))
  | 0x0C2 => some (valSig (.dst 1 false) (.src 1) .unused .unused (packBad md))
  | 0x0C3 => some (valSig (.dst 1 false) (.src 1) (.src 1) (.src 1) (outside md 0x07))
  | 0x0C4 => some (valSig (.dst 1 false) (.src 1) (.src 1) (.src 1) (outside md 0x04))
  | 0x0C5 => some (valSig (.dst 1 false) (.src 1) (.src 1) (.src 1) (outside md 0x1F))
  | 0x0C6 => some (valSig (.dst 1 false) (.src 1) (.src 1) (.src 1) (outside md 0x1C))
  | 0x0C7 => some (valSig (.dst 1 false) (.src 1) (.src 1) (.src 1) (outside md 0x1D))
  | 0x0C8 => some (valSig (.dst 1 false) (.src 1) (.src 1) .unused (outside md 0x1F || decide (mdField md 1 0 = 3)))
  | 0x0C9 => some (valSig (.dst 1 false) (.src 1) (.src 1) (.src 1) (outside md 0x00))
  -- G4
  | 0x100 => some (sig (.dirDst wd true) vec .unused .unused (outside md 0x03))
  | 0x101 =>
    some (sig (if md.getLsbD 3 then .dst 1 false else .vdst (16 * wd) 1 false) (.dirSrc wd) .unused .unused
      (outside md 0x0F || (md.getLsbD 2 && md.getLsbD 3)))
  | 0x102 | 0x103 => some (sig (.dirDst wd true) (.dirSrc wd) (.dirSrc wd) .unused (outside md 0x03))
  | 0x104 => some (sig (.dirDst wd true) (.dirSrc wd) (.dirSrc wd) (.src 1) (outside md 0x03))
  | 0x105 => some (sig (.dst 1 false) (.dirSrc wd) (.dirSrc wd) .unused (outside md 0x07))
  | 0x106 => some (sig (.dst 1 false) (.dirSrc wd) (.dirSrc wd) .unused (outside md 0x03))
  | 0x107 => some (sig (.dirDst wd false) (.dirSrc wd) (.src 1) .unused (outside md 0x07))
  | 0x108 => some (sig (.dirDst wd true) (.dirSrc wd) .unused .unused (outside md 0x03))
  | 0x109 => some (sig (.dirDst wd false) (.src 1) .unused .unused (outside md 0x03))
  | 0x10A => some (sig (.dirDst wd true) (.dirSrc wd) (.dirSrc wd) .unused (outside md 0x07))
  | 0x10B => some (sig (.dirDst wd false) (.dirSrc wd) .unused .unused (outside md 0x07))
  -- G5
  | 0x140 | 0x143 => some (sig .unused (.src 1) .unused .unused (outside md 0x07))
  | 0x141 => some (sig (.dst 1 false) .unused .unused .unused (outside md 0x07))
  | 0x142 => some (sig .unused (if md.getLsbD 3 then .src 1 else .unused) .unused .unused (outside md 0x0F))
  | 0x144 =>
    let ind := decide (0xC8 ≤ w.a.toNat ∧ w.a.toNat ≤ 0xCF)
    some (sig .unused (.kill md.toNat) .unused .unused
      (if ind then decide (md ≠ 0) else decide (md = 0 ∨ md.toNat > 192)))
  -- G6
  | 0x180 =>
    let n := pairIf (md.getLsbD 6)
    some (sig (.dst n false) (.vsrc n n) (.src 1) .unused (decide (mdField md 3 0 > 13) || md.getLsbD 7))
  | 0x181 =>
    some (sig (.dst (if mdField md 5 4 = 3 then 2 else 1) false) (.src 1) .unused .unused
      (decide (mdField md 3 0 > 13) || decide (mdField md 7 6 ≠ 0)))
  | 0x182 => some (sig (.dst 1 false) (.src 1) .unused .unused (decide (mdField md 3 0 > 13) || decide (mdField md 7 4 > 12)))
  | 0x183 =>
    some (sig (.dst 1 false) (.src 1) (.dst 1 false) .unused (decide (mdField md 3 0 > 13) || decide (mdField md 7 4 > 12)))
  -- G7
  | 0x1C0 | 0x1C1 | 0x1C2 => some (Sig.none (decide (mdField md 3 0 > 11) || decide (mdField md 7 4 ≠ 0)))
  | 0x1C3 => some (sig .unused (.src 2) .unused .unused (decide (mdField md 3 0 > 11) || decide (mdField md 7 4 ≠ 0)))
  | 0x1C4 => some (sig (.dst 2 false) .unused .unused .unused (decide (mdField md 3 0 > 11) || decide (mdField md 7 4 ≠ 0)))
  | 0x1C5 => some (sig .unused (.src 2) .unused .unused (decide (md ≠ 0)))
  | 0x1C6 => some (sig .unused .unused .num .num (decide (md ≠ 0)))
  -- G8
  | 0x200 | 0x203 | 0x204 | 0x205 | 0x206 => some (atomSig md false true false)
  | 0x201 | 0x202 => some (atomSig md true true false)
  | 0x207 => some (atomSig md false true true)
  | 0x208 => some (atomSig md false false false)
  | 0x209 => some (atomSig md true true true)
  | 0x20A =>
    some { atomSig md true true false with
      c := .num, bad := atomBad md true true || decide (mdField md 4 3 > 1) || decide (w.c.toNat > 5) }
  | 0x20B =>
    some (sig (.dst (pairIf (md.getLsbD 6)) true) (.src 2) .unused .unused
      (decide (mdField md 2 0 ≠ 3) || decide (mdField md 4 3 > 1) || md.getLsbD 5 || !md.getLsbD 7))
  | 0x20C =>
    some (sig (.dst 1 true) (.src 2) (.src (pairIf (md.getLsbD 6))) .unused
      (decide (mdField md 2 0 ≠ 3) || md.getLsbD 3 || md.getLsbD 5 || md.getLsbD 7))
  | 0x20D => some (Sig.none (decide (mdField md 2 0 > 4) || decide (mdField md 4 3 = 0) || decide (mdField md 7 5 ≠ 0)))
  | 0x20E =>
    some (sig .unused (.src 2) (.src 1) .unused
      (decide (mdField md 2 0 > 4) || decide (mdField md 4 3 = 0) || decide (mdField md 7 5 ≠ 0)))
  -- G9
  | 0x240 => some (sig .unused (.src 1) .unused .unused (outside md 0x3F))
  | 0x241 => some (sig (.dst 1 true) .unused .unused .unused (outside md 0x1F))
  | 0x242 => some (sig .unused (.src 1) .unused .unused (outside md 0x1F))
  | 0x243 => some (sig (.dst 1 false) .unused .unused .unused (outside md 0x1F))
  | 0x244 => some (sig .unused (.src 1) (.src 1) (.src 1) (outside md 0x00))
  | 0x245 => some (sig (.dst 1 true) (.src 1) .unused .unused (outside md 0x03))
  | 0x246 => some (sig .unused (.src 1) .unused .unused (outside md 0x01))
  | 0x247 => some (sig .unused (.src 2) (.vsrc 8 4) .unused (outside md 0x01))
  | 0x248 => some (sig (.vdst 8 4 true) (.src 2) .unused .unused (outside md 0x01))
  | 0x249 => some (sig .unused (.src 2) .unused .unused (outside md 0x00))
  -- G10
  | 0x280 => some (sig (.dst 1 false) .unused .unused .unused (outside md 0x07 || decide (mdField md 1 0 = 3)))
  | 0x281 => some (sig .unused (.src 1) .unused .unused (outside md 0x03 || decide (mdField md 1 0 = 3)))
  | 0x282 => some (sig .unused (.src 1) (.src 1) .unused (outside md 0x00))
  | 0x283 => some (sig .unused (.src 1) (.src 1) (.src 1) (outside md 0x00))
  | 0x284 => some (sig .unused (.src 1) .unused .unused (outside md 0x00))
  | 0x285 => some (sig .unused (.src 1) (.src 1) (if md.getLsbD 0 then .src 2 else .vsrc 24 1) (outside md 0x01))
  | 0x286 => some (Sig.none (outside md 0x01))
  -- G11
  | 0x2C0 => some (sig .unused (.src 2) (.src 1) .unused (outside md 0x00))
  | 0x2C1 => some (sig (.dst 1 false) (.src 1) .unused .unused (outside md 0x01))
  | 0x2C2 => some (sig .unused (.vsrc 8 2) (.src 1) (if md.getLsbD 0 then .vsrc 24 1 else .unused) (outside md 0x01))
  | 0x2C3 =>
    if md.getLsbD 0 then some (sig .unused .unused (.src 1) .unused (outside md 0x03))
    else some (sig (.trapDst (pairIf (md.getLsbD 1))) (.src 2) (.src 1) .unused (outside md 0x03))
  | 0x2C4 => some (Sig.none (outside md 0x00))
  | 0x2C5 => some (sig (.dst n0 false) .unused .num .num (outside md 0x01 || decide (mdField w.b 7 4 ≠ 0)))
  | 0x2C6 => some (sig .unused (.src n0) .num .num (outside md 0x01 || decide (mdField w.b 7 4 ≠ 0)))
  | 0x2C7 =>
    some (sig .unused (if mdField md 1 0 = 2 then .unused else .src 1) .unused .unused
      (outside md 0x03 || decide (mdField md 1 0 = 3)))
  | 0x2C8 =>
    some (sig .unused (.src 1) (.src 1) (if md.getLsbD 3 then .src 1 else .unused)
      (outside md 0x0F || decide (mdField md 2 0 < 2) || decide (mdField md 2 0 > 4)))
  | 0x2C9 => some (Sig.none (outside md 0x07 || decide (mdField md 2 0 > 4)))
  | 0x2CA => some (Sig.none (outside md 0x01))
  | 0x2CB => some (Sig.none (outside md 0x00))
  | 0x2CC => some (sig .unused (.src 1) (if md.getLsbD 0 then .unused else .src 2) .unused (outside md 0x01))
  | 0x2CD => some (sig .unused (.src 1) .unused .unused (outside md 0x01))
  | 0x2CE => some (Sig.none (outside md 0x00))
  | 0x2CF => some (sig (.vdst 16 4 true) .unused .unused .unused (outside md 0x01))
  | 0x2D0 =>
    some (sig (.dst 1 false) (.vsrc 16 4) (if md.getLsbD 0 then .src (pairIf (md.getLsbD 1)) else .unused) (.src 2)
      (outside md 0x03 || (md.getLsbD 1 && !md.getLsbD 0)))
  -- G12
  | 0x300 => some (sig (.dst (runRegs md) true) (.src 2) .coord .unused (runBad md))
  | 0x301 => some (sig .unused (.src 2) .coord (.src (runRegs md)) (runBad md))
  | _ => none

/-- The registers of a memory access of the size code in imm32 [2:0] (R26). -/
def sizeRegs (imm : Word32) : Nat := if imm.toNat % 8 = 3 then 2 else if imm.toNat % 8 = 4 then 4 else 1

/-- Whether the memory split of imm32 is unassigned (R26): `co`, `pol`, `sx` say which fields the xop has. -/
def splitBad (imm : Word32) (co pol sx : Bool) : Bool :=
  let size := imm.toNat % 8
  imm.getLsbD 7 || (imm.getLsbD 6 && !co) || (decide (imm.toNat / 16 % 4 ≠ 0) && !pol)
    || (imm.getLsbD 3 && !(sx && decide (size ≤ 1))) || decide (size > 4)

/-- The form of an X instruction; field D of a store is its data source (R25, R26, R136, R147, R168, R184, R275, R285). -/
def xSig (op : Nat) (w : XW) : Option Sig :=
  let n := sizeRegs w.imm
  let wd := 2 ^ (w.imm.toNat % 4)
  let dirBad := decide (w.imm.toNat / 4 % 4 ≠ 0) || decide (w.imm.toNat / 64 % 4 ≠ 0)
  match op with
  | 0 => some (sig (.dst 1 false) .unused .unused .unused false)
  | 1 => some (sig .high .unused .unused .unused false)
  | 2 | 3 | 4 | 5 | 7 => some (sig (.dst 1 false) (.src 1) .unused .unused false)
  | 6 => some (sig .preds (.src 1) .unused .unused (decide (w.imm.toNat % 16 ≠ 0) || decide (w.imm.toNat / 128 % 16 > 5)))
  | 8 => some (sig (.dst n true) (.src 2) .unused .unused (splitBad w.imm true true true))
  | 9 => some (sig (.src n) (.src 2) .unused .unused (splitBad w.imm false true false))
  | 10 | 12 => some (sig (.dst n true) (.src 1) .unused .unused (splitBad w.imm false false true))
  | 11 | 13 => some (sig (.src n) (.src 1) .unused .unused (splitBad w.imm false false false))
  | 14 => some (sig (.dirDst wd true) (.src 2) .unused .unused dirBad)
  | 15 => some (sig (.dirSrc wd) (.src 2) .unused .unused dirBad)
  | 16 => some (sig (.src 4) (.src 1) .unused .unused (decide (w.imm.toNat / 2 ^ 11 ≠ 0)))
  | 17 => some (sig .unused (.src 2) .unused .unused (splitBad w.imm false true false))
  | 18 => some (sig (.dst 4 true) (.src 1) .unused .unused (decide (w.imm.toNat / 2 ^ 9 ≠ 0)))
  | _ => none

/-! ### Checks of one operand -/

/-- What a thread may name: its register and direction allotments, and whether it is on the rein core (R21, R268, R344). -/
structure Allot where
  kind : Kind
  mode : Mode
  vregs : Nat
  dregs : Nat
  deriving DecidableEq, Repr

def Code.isV (c : Code) : Bool := decide (c.toNat < 0xC0)
def Code.isT (c : Code) : Bool := decide (0xC0 ≤ c.toNat ∧ c.toNat ≤ 0xC5)
def Code.isIx (c : Code) : Bool := decide (0xC8 ≤ c.toNat ∧ c.toNat ≤ 0xD7)
def Code.isD (c : Code) : Bool := decide (0xD8 ≤ c.toNat ∧ c.toNat ≤ 0xDF)
def Code.isS (c : Code) : Bool := decide (0xE0 ≤ c.toNat ∧ c.toNat ≤ 0xEF)

/-- Causes of a register operand of `n` registers in a source position, or as a destination (R20, R21, R23, R40). A d code gives
CLASS_MISMATCH in every such field, the 32-bit fields of the words of G4 among them (DESIGN CHOICE, log 57). -/
def regCauses (al : Allot) (c : Code) (n : Nat) (dst long : Bool) : List Cause :=
  if Code.isV c then
    (if c.toNat % n ≠ 0 then [.badOperandCode] else []) ++ (if c.toNat + n > al.vregs then [.regAllot] else [])
  else if Code.isT c then
    if n > 2 ∨ c.toNat % n ≠ 0 ∨ (dst ∧ long) then [.badOperandCode] else []
  else if Code.isIx c then (if al.kind = .rein then [.badOperandCode] else [])
  else if Code.isD c then [.classMismatch]
  else if Code.isS c then (if n > 2 ∨ c.toNat % n ≠ 0 then [.badOperandCode] else [])
  else if c = 0xF0 then (if n > 2 ∧ !dst then [.badOperandCode] else [])
  else if 0xF1 ≤ c.toNat ∧ c.toNat ≤ 0xF7 then (if dst ∨ n > 1 then [.badOperandCode] else [])
  else [.badOperandCode]

/-- Causes of a direct v operand of `n` registers at a multiple of `m`. -/
def vecCauses (al : Allot) (c : Code) (n m : Nat) : List Cause :=
  if !Code.isV c ∨ c.toNat % m ≠ 0 then .badOperandCode :: (if Code.isD c then [.classMismatch] else [])
  else if c.toNat + n > al.vregs then [.regAllot] else []

/-- Causes of a direction operand of width `w` (R20, R21, R172). A code that is no direction gives CLASS_MISMATCH (R21, R177, R184), and
BAD_OPERAND_CODE, the lower cause, where R20 and R40 forbid it in its position too (R37, log 75). -/
def dirCauses (al : Allot) (c : Code) (w : Nat) (dst long : Bool) : List Cause :=
  if !Code.isD c then
    (if c = 0xC6 ∨ c = 0xC7 ∨ c.toNat ≥ 0xF8 ∨ (dst ∧ 0xF1 ≤ c.toNat ∧ c.toNat ≤ 0xF7) ∨ (dst ∧ long ∧ Code.isT c) then [.badOperandCode]
      else []) ++ [.classMismatch]
  else (if (c.toNat - 0xD8) % w ≠ 0 then [.badOperandCode] else [])
    ++ (if c.toNat - 0xD8 + w > al.dregs then [.dirNotAllotted] else [])

/-- Whether a last-use bit may stand on a code (R24). -/
def luAllowed (c : Code) : Bool := Code.isV c || Code.isT c || Code.isIx c

/-- Whether a keep-wait bit may stand on a code (R24). -/
def kwAllowed (c : Code) : Bool := Code.isV c || Code.isIx c || Code.isD c

/-- Whether a role reads registers. -/
def Role.reads : Role → Bool
  | .src _ | .vsrc _ _ | .coord | .dirSrc _ => true
  | _ => false

/-- Whether a role names a register, read or written: R24 allows its bits by the code that stands there. -/
def Role.names (r : Role) : Bool :=
  r.reads || match r with
  | .dst _ _ | .vdst _ _ _ | .dirDst _ _ => true
  | _ => false

/-- Causes of one field with its role and its last-use bit, and its own keep-wait bit. -/
def roleCauses (al : Allot) (c : Code) (r : Role) (lu kw : Bool) : List Cause :=
  (if r.names then (if (lu && !luAllowed c) || (kw && !kwAllowed c) then [Cause.reservedField] else [])
    else if lu || kw then [.reservedField] else [])
  ++ match r with
  | .unused => if c ≠ 0xF0 then [.reservedField] else []
  | .num => []
  | .src n => regCauses al c n false false
  | .dst n long => regCauses al c n true long
  | .vsrc n m => vecCauses al c n m
  | .vdst n m _ => vecCauses al c n m
  | .coord => vecCauses al c 1 1
  | .dirSrc w => dirCauses al c w false false
  | .dirDst w long => dirCauses al c w true long
  | .kill n =>
    if 0xC8 ≤ c.toNat ∧ c.toNat ≤ 0xCF then (if al.kind = .rein then [.badOperandCode] else [])
    else if Code.isD c then [.classMismatch]
    else vecCauses al c n 1
  | .trapDst n => if Code.isS c || Code.isIx c then [.badOperandCode] else regCauses al c n true false
  | .high =>
    if (Code.isV c || Code.isS c) && decide (c.toNat % 2 = 0) then (if Code.isV c ∧ c.toNat + 2 > al.vregs then [.regAllot] else [])
    else [if Code.isD c then .classMismatch else .badOperandCode]
  | .preds => if mdField c 7 4 > 7 ∨ mdField c 3 0 > 7 then [.reservedField] else []

/-! ### What a field reads or writes, for the hazard rule -/

/-- Registers that a word touches, for R40. -/
inductive Touch where
  | v (r n : Nat)
  | anyV
  | s (r n : Nat)
  | d (r n : Nat)
  deriving DecidableEq, Repr

/-- Whether two touches share a register (R40): an indirect access counts as every v register. -/
def Touch.meets : Touch → Touch → Bool
  | .v a n, .v b m => decide (a < b + m ∧ b < a + n)
  | .v _ _, .anyV => true
  | .anyV, .v _ _ => true
  | .anyV, .anyV => true
  | .s a n, .s b m => decide (a < b + m ∧ b < a + n)
  | .d a n, .d b m => decide (a < b + m ∧ b < a + n)
  | _, _ => false

/-- The registers of a register operand. -/
def codeTouch (c : Code) (n : Nat) : List Touch :=
  if Code.isV c then [.v c.toNat n]
  else if Code.isIx c then [.anyV]
  else if Code.isS c then [.s (c.toNat - 0xE0) n]
  else []

/-- The direction registers of a direction operand; a code that names no direction names no register here (R21). -/
def dirTouch (c : Code) (w : Nat) : List Touch := if Code.isD c then [.d (c.toNat - 0xD8) w] else []

/-- The registers that a field touches. -/
def roleTouch (c : Code) : Role → List Touch
  | .unused | .num | .preds => []
  | .src n | .dst n _ | .vsrc n _ | .vdst n _ _ | .trapDst n => codeTouch c n
  | .kill n => codeTouch c n
  | .coord => codeTouch c 5
  | .dirSrc w | .dirDst w _ => dirTouch c w
  | .high => codeTouch (c + 1) 1

/-- The registers that a field leaves pending: those of a long-latency destination. -/
def rolePending (c : Code) : Role → List Touch
  | .dst n true => codeTouch c n
  | .vdst n _ true => codeTouch c n
  | .dirDst w true => dirTouch c w
  | _ => []

/-! ### Privilege and lane subsets (R45, R268, R344, R360) -/

/-- Whether an F3 opcode is in the subset of a kind of lane; `fmt` is its modifier [1:0]. -/
def f3Runs (k : Kind) (op fmt : Nat) : Bool :=
  match k with
  | .vector => !decide (0x280 ≤ op ∧ op ≤ 0x286) && decide (op ≠ 0x2CB)
  | .scalar =>
    !(decide (0x100 ≤ op ∧ op ≤ 0x10B) || decide (0x240 ≤ op ∧ op ≤ 0x246) || decide (0x280 ≤ op ∧ op ≤ 0x286)
      || decide (op = 0x2C0 ∨ op = 0x2C1 ∨ op = 0x2C2 ∨ op = 0x2CA ∨ op = 0x2CF))
  | .rein =>
    decide (op ≤ 0x01A) || decide (0x040 ≤ op ∧ op ≤ 0x044) || (decide (0x080 ≤ op ∧ op ≤ 0x08F) && decide (fmt = 0))
      || decide (0x200 ≤ op ∧ op ≤ 0x20E) || decide (0x280 ≤ op ∧ op ≤ 0x286)
      || decide (op = 0x2C2 ∨ op = 0x2C3 ∨ op = 0x2C5 ∨ op = 0x2CE)

/-- Whether an xop is in the subset of a kind of lane. -/
def xRuns (k : Kind) (op : Nat) : Bool :=
  match k with
  | .vector => true
  | .scalar => !decide (op = 10 ∨ op = 11 ∨ op = 14 ∨ op = 15 ∨ op = 16 ∨ op = 18)
  | .rein => decide (op ≤ 9 ∨ op = 17)

/-- Whether the mode and lane forbid an F3 opcode by opcode alone (R45). -/
def f3Privileged (al : Allot) (op : Nat) : Bool :=
  (decide (op = 0x2C4) && decide (al.kind ≠ .scalar))
    || (decide (al.mode = .u) && decide (op = 0x2C7 ∨ op = 0x2C8 ∨ op = 0x2CC ∨ op = 0x2CD ∨ op = 0x2CF ∨ op = 0x2D0))

/-! ### Checks of one word -/

/-- A failure of a leg check: the cause, the half (1 for the low half of a P2 word), the destination code and w9 (R38). -/
structure Fail where
  cause : Cause
  half : Nat
  dest : Code
  w9 : Word32
  deriving DecidableEq, Repr

/-- w9 of a leg-check record: the offending operand code for four causes, 0 for the others (R38). -/
def failW9 (cause : Cause) (c : Code) : Word32 :=
  match cause with
  | .badOperandCode | .classMismatch | .regAllot | .dirNotAllotted => c.setWidth 32
  | _ => 0

/-- The destination code of a record: field D when it names a destination register, else 0xF0. -/
def destOf (c : Code) : Role → Code
  | .dst _ _ | .vdst _ _ _ | .dirDst _ _ | .trapDst _ | .high => c
  | _ => 0xF0

/-- The failures of an F3 word: fields in the order D, A, B, C, then the form, neighbour, subset, mode and hazard rules. -/
def f3Fails (al : Allot) (pend : List Touch) (first : Bool) (op : Nat) (w : F3) : List Fail :=
  match f3Sig op w with
  | none => [{ cause := .illegalOpcode, half := 0, dest := 0xF0, w9 := 0 }]
  | some g =>
    let dest := destOf w.d g.d
    let fail (c : Cause) (k : Code) : Fail := { cause := c, half := 0, dest := dest, w9 := failW9 c k }
    let one (c : Code) (r : Role) (lu kw : Bool) : List Fail := (roleCauses al c r lu kw).map (fail · c)
    let when (b : Bool) (c : Cause) : List Fail := if b then [fail c 0] else []
    let nb := decide (w.ns ≠ 0)
    let aTouch := if nb then [] else roleTouch w.a g.a
    one w.d g.d false false
      ++ one w.a g.a (w.lu.getLsbD 2) (w.kw.getLsbD 2)
      ++ one w.b g.b (w.lu.getLsbD 1) (w.kw.getLsbD 1)
      ++ one w.c g.c (w.lu.getLsbD 0) (w.kw.getLsbD 0)
      ++ when (g.bad || decide (w.ns = 3) || (nb && (!g.value || decide (al.kind = .rein)))) .reservedField
      ++ when (decide (op = 0x2CA) && !w.md.getLsbD 0 && !first) .reservedField
      ++ (if nb && g.value && decide (w.ns ≠ 3) && !Code.isV w.a then [fail .badOperandCode w.a] else [])
      ++ when (!f3Runs al.kind op (mdField w.md 1 0)) .illegalOpcode
      ++ when (f3Privileged al op) .privilegedOp
      ++ when ((roleTouch w.d g.d ++ aTouch ++ roleTouch w.b g.b ++ roleTouch w.c g.c).any fun t => pend.any t.meets) .legHazard

/-- The failures of an X word. Bit [35] belongs to A; bit [34] covers every register that the word reads (R24, R25). -/
def xFails (al : Allot) (pend : List Touch) (op : Nat) (w : XW) : List Fail :=
  match xSig op w with
  | none => [{ cause := .illegalOpcode, half := 0, dest := 0xF0, w9 := 0 }]
  | some g =>
    let dest := destOf w.d g.d
    let fail (c : Cause) (k : Code) : Fail := { cause := c, half := 0, dest := dest, w9 := failW9 c k }
    let one (c : Code) (r : Role) (lu : Bool) : List Fail := (roleCauses al c r lu false).map (fail · c)
    let when (b : Bool) (c : Cause) : List Fail := if b then [fail c 0] else []
    let kwOk := (g.a.reads && kwAllowed w.a) || (g.d.reads && kwAllowed w.d)
    one w.d g.d false ++ one w.a g.a w.lu
      ++ (if op = 6 ∧ (mdField w.d 7 4 > 7 ∨ mdField w.d 3 0 > 7) then [fail .reservedField 0] else [])
      ++ when (g.bad || (w.kw && !kwOk) || decide (w.rsv ≠ 0)) .reservedField
      ++ when (!xRuns al.kind op) .illegalOpcode
      ++ when ((roleTouch w.d g.d ++ roleTouch w.a g.a).any fun t => pend.any t.meets) .legHazard

/-- The 8-bit operand code of a 7-bit code (R28). -/
def p2Code (c : BitVec 7) : Code :=
  let n := c.toNat
  if n < 0x78 then BitVec.ofNat 8 n
  else if n < 0x7E then BitVec.ofNat 8 (0xC0 + (n - 0x78))
  else if n = 0x7E then 0xF0 else 0xF2

/-- Whether a P2 op reads A (the register D names). -/
def p2ReadsA : P2Op → Bool
  | .mov | .movi | .nop => false
  | _ => true

/-- Whether a P2 op reads B. -/
def p2ReadsB : P2Op → Bool
  | .movi | .iaddi | .nop => false
  | _ => true

/-- Whether a P2 op is a compare. -/
def p2Compares : P2Op → Bool
  | .icmpeq | .icmplt | .fcmplt => true
  | _ => false

/-- Whether a P2 op writes its register D. -/
def p2Writes (o : P2Op) : Bool := !p2Compares o && decide (o ≠ .nop)

/-- Causes of a 7-bit code (R28), with the allotment. -/
def p2CodeCauses (al : Allot) (c : BitVec 7) (b : Bool) : List Cause :=
  if c.toNat ≤ 0x77 then (if c.toNat ≥ al.vregs then [.regAllot] else [])
  else if c.toNat ≥ 0x7E ∧ !b then [.badOperandCode] else []

/-- The banks of the v registers that a half reads (R29). -/
def p2Banks (o : P2Op) (h : P2H) : List Nat :=
  ((if p2ReadsA o then [h.d.toNat] else []) ++ (if p2ReadsB o then [h.b.toNat] else [])).filterMap fun c =>
    if c ≤ 0x77 then some (c % 4) else none

/-- Whether a half breaks R24 or R29's rules on its unused fields. -/
def p2Reserved (o : P2Op) (h : P2H) : Bool :=
  let kwOk (c : BitVec 7) := decide (c.toNat ≤ 0x77)
  if o = .nop then decide (h.g ≠ 0 ∨ h.d ≠ 0 ∨ h.b ≠ 0 ∨ h.imm ≠ 0) || h.luA || h.luB || h.kw
  else (!p2ReadsB o && (decide (h.b ≠ 0x7E) || h.luB))
    || (h.luA && (decide (o = .mov) || decide (h.d.toNat ≥ 0x7E)))
    || (p2ReadsB o && h.luB && decide (h.b.toNat ≥ 0x7E))
    || (h.kw && !((p2ReadsA o && kwOk h.d) || (p2ReadsB o && kwOk h.b)))
    || (decide (h.imm ≠ 0) && decide (o ≠ .movi ∧ o ≠ .iaddi))

/-- The v registers that a half touches. -/
def p2Touch (o : P2Op) (h : P2H) : List Touch :=
  ((if p2ReadsA o || p2Writes o then [h.d.toNat] else []) ++ (if p2ReadsB o then [h.b.toNat] else [])).filterMap fun c =>
    if c ≤ 0x77 then some (.v c 1) else none

/-- The failures of a P2 word (R27-R29, R38): those of the high half, of the low half, and of the pair. The record gives the
7-bit code of the half, zero-extended, as the destination and in w9. -/
def p2Fails (al : Allot) (pend : List Touch) (hop : P2Op) (w : P2W) : List Fail :=
  let dest (o : P2Op) (h : P2H) : Code := if p2Writes o then h.d.setWidth 8 else 0xF0
  let half (k : Nat) (o : P2Op) (h : P2H) : List Fail :=
    let fail (c : Cause) (x : BitVec 7) : Fail := { cause := c, half := k, dest := dest o h, w9 := failW9 c (x.setWidth 8) }
    (if o = .nop then [] else (p2CodeCauses al h.d false).map (fail · h.d))
      ++ (if p2ReadsB o then (p2CodeCauses al h.b true).map (fail · h.b) else [])
      ++ (if p2Reserved o h then [fail .reservedField 0] else [])
      ++ (if (p2Touch o h).any fun t => pend.any t.meets then [fail .legHazard 0] else [])
  let banks := p2Banks hop w.hi ++ p2Banks w.lop w.lo
  half 0 hop w.hi ++ half 1 w.lop w.lo
    ++ (if p2Writes hop && p2Writes w.lop && decide (w.hi.d = w.lo.d) then
          [{ cause := .badOperandCode, half := 1, dest := dest w.lop w.lo, w9 := w.lo.d.setWidth 32 }] else [])
    ++ (if p2Compares hop && p2Compares w.lop then [{ cause := .reservedField, half := 1, dest := 0xF0, w9 := 0 }] else [])
    ++ (if [0, 1, 2, 3].any fun b => decide (banks.count b > 2) then
          [{ cause := .pairBank, half := 0, dest := dest hop w.hi, w9 := 0 }] else [])

/-- The failures of a trailer (R31-R34, R40, R268). A target or counter code that R34 does not allow names no register, so it meets
no pending one. -/
def tFails (al : Allot) (pend : List Touch) (kind : Nat) (w : TW) : List Fail :=
  let fail (c : Cause) (k : Code) : Fail := { cause := c, half := 0, dest := 0xF0, w9 := failW9 c k }
  let when (b : Bool) (c : Cause) : List Fail := if b then [fail c 0] else []
  let pair : Code := w.target.extractLsb' 16 8
  let await (c : Code) : List Fail :=
    if Code.isV c then (if c.toNat ≥ al.vregs then [fail .regAllot c] else [])
    else if Code.isD c then (if c.toNat - 0xD8 ≥ al.dregs then [fail .dirNotAllotted c] else [])
    else if c = 0xF0 then [] else [fail .badTrailer 0]
  let hazard (t : List Touch) : List Fail := when (t.any fun x => pend.any x.meets) .legHazard
  let indirect : List Fail :=
    when (decide (w.target.toNat % 2 ^ 16 ≠ 0)) .reservedField
      ++ (if !Code.isV pair ∨ pair.toNat % 2 ≠ 0 then [fail .badTrailer 0]
          else (if pair.toNat + 2 > al.vregs then [fail .regAllot pair] else []) ++ hazard (codeTouch pair 2))
  let awaits := await w.a0 ++ await w.a1 ++ await w.a2
  when w.rsv .reservedField ++
  match kind with
  | 0 => when (w.gs || decide (w.gp ≠ 7) || decide (w.target ≠ 0)) .reservedField ++ awaits
  | 1 => awaits
  | 2 => indirect ++ awaits
  | 3 => when (decide (al.kind = .rein)) .badTrailer ++ awaits
  | 4 => when (decide (al.kind = .rein)) .badTrailer ++ indirect ++ awaits
  | 5 => when (decide (al.kind = .rein)) .badTrailer ++ when (decide (w.target ≠ 0)) .reservedField ++ awaits
  | 6 => when (decide (w.target ≠ 0)) .reservedField ++ when (decide (w.a0 ≠ 0xF0 ∨ w.a1 ≠ 0xF0 ∨ w.a2 ≠ 0xF0)) .badTrailer
  | 7 =>
    (if Code.isV w.a0 ∨ Code.isS w.a0 then
        (if Code.isV w.a0 ∧ w.a0.toNat ≥ al.vregs then [fail .regAllot w.a0] else []) ++ hazard (codeTouch w.a0 1)
      else [fail .badTrailer 0]) ++ await w.a1 ++ await w.a2
  | _ => [fail .badTrailer 0]

/-- The failures of an instruction as a word of a leg: `pend` are the registers pending there, `first` says that it is the
first instruction of its leg. A copy command and an event stand in no leg. -/
def instrFails (al : Allot) (pend : List Touch) (first : Bool) (i : Instr) : List Fail :=
  match i.form with
  | .f3 op w => f3Fails al pend first op w
  | .x op w => xFails al pend op w
  | .p2 op w => p2Fails al pend op w
  | .t kind w => tFails al pend kind w
  | .cmd _ _ => []
  | .event => []

/-- The registers that an instruction leaves pending in its leg (R40). -/
def instrPending (i : Instr) : List Touch :=
  match i.form with
  | .f3 op w => match f3Sig op w with | some g => rolePending w.d g.d | none => []
  | .x op w => match xSig op w with | some g => rolePending w.d g.d | none => []
  | _ => []

/-- The failure with the lowest cause code; the first of them when several have it: of the high half before the low one, and of the
fields in the order D, A, B, C (DESIGN CHOICE, log 75: R38 does not say which of several w8 and w9 name). -/
def lowest : List Fail → Option Fail
  | [] => none
  | f :: fs =>
    match lowest fs with
    | none => some f
    | some g => if g.cause.code.toNat < f.cause.code.toNat then some g else some f

/-! ### The leg check -/

/-- Where and how a leg fails its check (R38): the cause, the word index, the instruction index, destination and w9. -/
structure LegFail where
  cause : Cause
  word : Nat
  idx : Nat
  dest : Code
  w9 : Word32
  deriving DecidableEq, Repr

/-- Whether a word is a trailer: bits [63:62] are 0b11 (R15). -/
def isTrailer (w : Word64) : Bool := decide (field w 63 62 = 3)

/-- How many instructions a word counts as (R15). -/
def counts (w : Word64) : Nat := if field w 63 62 = 1 then 2 else 1

/-- Step 5 of R37: each instruction word in address order. -/
def wordsFail (al : Allot) : List Word64 → Nat → Nat → List Touch → Option LegFail
  | [], _, _, _ => none
  | w :: ws, k, idx, pend =>
    match decode w with
    | .error e =>
      let half := match e with | .illegalOpcode h => h | _ => 0
      some { cause := .illegalOpcode, word := k, idx := idx + half, dest := 0xF0, w9 := 0 }
    | .ok i =>
      match lowest (instrFails al pend (decide (idx = 0)) i) with
      | some f => some { cause := f.cause, word := k, idx := idx + f.half, dest := f.dest, w9 := f.w9 }
      | none => wordsFail al ws (k + 1) (idx + counts w) (pend ++ instrPending i)

/-- What is pending after the instructions of a leg. -/
def legPending (ws : List Word64) : List Touch :=
  (ws.map fun w => match decode w with | .ok i => instrPending i | .error _ => []).flatten

/-- The leg check on the words from a leg start, at most 25 of which are looked at (R37): the words of the leg with its
trailer, or the first failure. -/
def legCheck (al : Allot) (ws : List Word64) : Except LegFail (List Word64) :=
  let ws := ws.take 25
  match ws.findIdx? isTrailer with
  | none => .error { cause := .legTooLong, word := 0, idx := 0, dest := 0xF0, w9 := 0 }
  | some 0 => .error { cause := .legTooLong, word := 0, idx := 0, dest := 0xF0, w9 := 0 }
  | some n =>
    let body := ws.take n
    let tr := ws.getD n 0
    let t := unpackT tr
    let cnt := t.count.toNat
    let counted := (body.map counts).sum
    if cnt = 0 ∨ cnt > 24 then .error { cause := .badTrailer, word := n, idx := cnt, dest := 0xF0, w9 := 0 }
    else if counted ≠ cnt then .error { cause := .legTooLong, word := n, idx := cnt, dest := 0xF0, w9 := BitVec.ofNat 32 counted }
    else
      match wordsFail al body 0 0 [] with
      | some f => .error f
      | none =>
        match lowest (tFails al (legPending body) (field tr 61 58) t) with
        | some f => .error { cause := f.cause, word := n, idx := cnt, dest := 0xF0, w9 := f.w9 }
        | none => .ok (ws.take (n + 1))

end Sys2Proof.Machine
end

