-- ==== Sys2Proof/Machine/Ops.lean ====
section
/-! DEFINITION. Named operations: sparse tables, bytes, access to the parts of the state, registers with their full and live
bits, writes that perform at home memory, trap records, taking a trap and returning from one. -/

namespace Sys2Proof.Machine

/-- The outcome of a meaning. -/
abbrev Out := Host.Outcome State Fault Refusal

/-- The occasion of an event. -/
def State.occ (s : State) : Occ := match s.issuer with | .event o => o | _ => .none

/-! ### Sparse tables -/

/-- The value listed under a key. -/
def tget {α : Type} : Tab α → Nat → Option α
  | [], _ => none
  | (k, a) :: t, n => if k = n then some a else tget t n

/-- The table with a value listed under a key; keys stay strictly rising. -/
def tset {α : Type} : Tab α → Nat → α → Tab α
  | [], n, b => [(n, b)]
  | (k, a) :: t, n, b => if n < k then (n, b) :: (k, a) :: t else if n = k then (n, b) :: t else (k, a) :: tset t n b

/-- The table without a key. -/
def tdel {α : Type} : Tab α → Nat → Tab α
  | [], _ => []
  | (k, a) :: t, n => if k = n then t else (k, a) :: tdel t n

/-! ### Bytes -/

/-- The byte at an address of a byte store; an unlisted one is 0 (log 1). -/
def byteAt (m : Memory) (a : Nat) : Byte := (tget m a).getD 0

/-- The store with a byte written; a written 0 leaves the address unlisted. -/
def setByte (m : Memory) (a : Nat) (b : Byte) : Memory := if b = 0 then tdel m a else tset m a b

/-- `n` bytes from an address up. -/
def readBytes (m : Memory) (a : Nat) : Nat → List Byte
  | 0 => []
  | n + 1 => byteAt m a :: readBytes m (a + 1) n

/-- Bytes written from an address up. -/
def writeBytes (m : Memory) (a : Nat) : List Byte → Memory
  | [] => m
  | b :: bs => writeBytes (setByte m a b) (a + 1) bs

/-- The little-endian value of bytes (R7). -/
def ofBytes : List Byte → Nat
  | [] => 0
  | b :: bs => b.toNat + 256 * ofBytes bs

/-- The `n` little-endian bytes of a number. -/
def toBytes : Nat → Nat → List Byte
  | 0, _ => []
  | n + 1, x => BitVec.ofNat 8 x :: toBytes n (x / 256)

/-- 32-bit words as bytes, and bytes as words. -/
def wordsBytes (ws : List Word32) : List Byte := (ws.map fun w => toBytes 4 w.toNat).flatten

def bytesWords (n : Nat) (bs : List Byte) : List Word32 :=
  (List.range n).map fun k => BitVec.ofNat 32 (ofBytes ((bs.drop (4 * k)).take 4))

/-- The memory form: addresses strictly rising, no listed 0. -/
def Memory.wf (m : Memory) : Bool :=
  match m with
  | [] => true
  | (a, b) :: t => decide (b ≠ 0) && (match t with | [] => true | (a', _) :: _ => decide (a < a')) && Memory.wf t

/-! ### Lanes and words -/

/-- The lanes of a mask, ascending. -/
def laneList (m : BitVec 64) : List Nat := (List.range 64).filter fun i => m.getLsbD i

/-- The mask of lanes. -/
def laneMask (l : List Nat) : BitVec 64 := l.foldl (fun m i => m ||| BitVec.twoPow 64 i) 0

/-- The words of a source or result, lowest register first, as one value of 32 or 64 bits. -/
def lo32 (ws : List Word32) : Word32 := ws.getD 0 0
def lo64 (ws : List Word32) : Word64 := ws.getD 1 0 ++ ws.getD 0 0

/-- A 64-bit value as the two words of a pair. -/
def words64 (x : Word64) : List Word32 := [x.setWidth 32, (x >>> 32).setWidth 32]

/-- The low and high 32 bits of a 64-bit value. -/
def low32 (x : Word64) : Word32 := x.setWidth 32
def high32 (x : Word64) : Word32 := (x >>> 32).setWidth 32

/-- List update at an index. -/
def modAt {α : Type} (l : List α) (i : Nat) (f : α → α) : List α :=
  match l, i with
  | [], _ => []
  | a :: t, 0 => f a :: t
  | a :: t, i + 1 => a :: modAt t i f

/-! ### Parts of the state -/

/-- Cores, hitches and dies and their numbers (R4): core die * 96 + y * 12 + x is on hitch die * 24 + (y / 2) * 6 + x / 2. -/
def numCores : Nat := 1536
def dieOf (core : Nat) : Nat := core / 96
def coreX (core : Nat) : Nat := core % 96 % 12
def coreY (core : Nat) : Nat := core % 96 / 12
def hitchOf (core : Nat) : Nat := dieOf core * 24 + coreY core / 2 * 6 + coreX core / 2
/-- The lowest core of a hitch, and its four cores ascending. -/
def hitchCore (h : Nat) : Nat := h / 24 * 96 + h % 24 / 6 * 24 + h % 6 * 2
def hitchCores (h : Nat) : List Nat := [hitchCore h, hitchCore h + 1, hitchCore h + 12, hitchCore h + 13]

def State.core (s : State) (c : Nat) : Core := (tget s.cores c).getD Core.reset
def State.setCore (s : State) (c : Nat) (k : Core) : State := { s with cores := tset s.cores c k }
def State.updCore (s : State) (c : Nat) (f : Core → Core) : State := s.setCore c (f (s.core c))

def State.hitch (s : State) (h : Nat) : Hitch := (tget s.hitches h).getD Hitch.reset
def State.updHitch (s : State) (h : Nat) (f : Hitch → Hitch) : State := { s with hitches := tset s.hitches h (f (s.hitch h)) }

def State.die (s : State) (d : Nat) : Die := (s.dies[d]?).getD (Die.reset d)
def State.updDie (s : State) (d : Nat) (f : Die → Die) : State := { s with dies := modAt s.dies d f }

def State.io (s : State) (i : Nat) : IoDie := (s.ios[i]?).getD (IoDie.reset i)
def State.updIo (s : State) (i : Nat) (f : IoDie → IoDie) : State := { s with ios := modAt s.ios i f }

def State.setTeam (s : State) (key : Nat) (t : Team) : State := { s with teams := tset s.teams key t }
def State.updTeam (s : State) (key : Nat) (f : Team → Team) : State :=
  match tget s.teams key with
  | some t => s.setTeam key (f t)
  | none => s

def State.updBlock (s : State) (b : Nat) (f : Block → Block) : State :=
  match tget s.blocks b with
  | some k => { s with blocks := tset s.blocks b (f k) }
  | none => s

def State.updMgmt (s : State) (f : Mgmt → Mgmt) : State := { s with mgmt := f s.mgmt }

/-- The key of a team slot; 32 is the scalar lane and 33 the rein core (State.lean). -/
def teamKey (core slot : Nat) : Nat := core * 64 + slot
def scalarKey (core : Nat) : Nat := teamKey core 32
def reinKey (hitch : Nat) : Nat := teamKey (hitchCore hitch) 33

/-- The next free value (log 8). -/
def State.takeFree (s : State) : Word64 × State := (Config.freeValue s.free, { s with free := s.free + 1 })

/-! ### Threads of a team -/

/-- The thread on a lane of a team. -/
def Team.thread? (t : Team) (lane : Nat) : Option Thread := t.threads[lane]?

def Team.updThread (t : Team) (lane : Nat) (f : Thread → Thread) : Team := { t with threads := modAt t.threads lane f }

/-- Whether a lane's thread is live (R105). -/
def Team.liveLane (t : Team) (lane : Nat) : Bool :=
  match t.threads[lane]? with
  | some th => decide (th.stat ≠ .exited)
  | none => false

/-- The mask of a team's live lanes. -/
def Team.liveMask (t : Team) : BitVec 64 := laneMask ((List.range 64).filter t.liveLane)

/-! ### v registers (R122-R129) -/

/-- The contents that a read returns: a dead register reads 0 (R127). -/
def VReg.read (r : VReg) : Word32 := if r.live then r.val else 0

/-- Whether a read need not wait: full, or dead (R124, R127). -/
def VReg.ready (r : VReg) : Bool := r.full || !r.live

/-- A write: full, live, with the value (R127). -/
def VReg.write (x : Word32) : VReg := { val := x, full := true, live := true }

/-- Marked empty by a long-latency instruction: stored contents as they stood (R113, R124). -/
def VReg.empty (r : VReg) : VReg := { val := r.read, full := false, live := true }

/-- Marked dead (R127), and full (R129). -/
def VReg.kill (r : VReg) : VReg := { r with full := true, live := false }

def Thread.vreg (t : Thread) (r : Nat) : VReg := (t.v[r]?).getD { val := 0, full := true, live := false }

/-! ### The physical map (R230, R231) -/

/-- The ranges of R230; the windows inside the control range and above it stand in Ctl.lean. -/
inductive Range where
  | hbm | unbacked | cxl | remote | windows
  deriving DecidableEq, Repr

/-- The range of a physical address; an HBM address past the backed frames of its stack is unbacked. -/
def rangeOf (pa : Nat) : Range :=
  if pa < 0x20000000000 then (if pa % 2 ^ 36 / 65536 ≤ 976561 then .hbm else .unbacked)
  else if pa < 0x200000000000 then .unbacked
  else if pa < 0x400000000000 then .cxl
  else if pa < 0x800000000000 then .remote
  else if pa < 0xF00000000000 then .unbacked
  else .windows

/-- The home die and slice of an HBM address (R231). -/
def homeDie (pa : Nat) : Nat := pa / 2 ^ 37
def homeSlice (pa : Nat) : Nat :=
  ((BitVec.ofNat 5 (pa / 2 ^ 7)) ^^^ (BitVec.ofNat 5 (pa / 2 ^ 12)) ^^^ (BitVec.ofNat 5 (pa / 2 ^ 17))).toNat

/-! ### Routes (R384) -/

/-- A die link, its lower end first; 16 and 17 are the I/O dies. -/
def edge (a b : Nat) : Nat × Nat := (min a b, max a b)

/-- The links along a grid column from row `y` to row `z`. -/
def columnRoute (x y z : Nat) : List (Nat × Nat) :=
  (List.range (max y z - min y z)).map fun i => edge (x + 4 * (min y z + i)) (x + 4 * (min y z + i + 1))

/-- The links along a grid row from column `x` to column `z`. -/
def rowRoute (y x z : Nat) : List (Nat × Nat) :=
  (List.range (max x z - min x z)).map fun i => edge (4 * y + (min x z + i)) (4 * y + (min x z + i + 1))

/-- The route between two dies: along the row, then along the column; an I/O die is entered and left in the column of the
compute die, and the I/O dies are joined by column 0 (log 13). -/
def route (a b : Nat) : List (Nat × Nat) :=
  let down (d io : Nat) : List (Nat × Nat) :=
    if io = 16 then edge (d % 4) 16 :: columnRoute (d % 4) (d / 4) 0 else edge (12 + d % 4) 17 :: columnRoute (d % 4) (d / 4) 3
  if a < 16 ∧ b < 16 then rowRoute (a / 4) (a % 4) (b % 4) ++ columnRoute (b % 4) (a / 4) (b / 4)
  else if a < 16 then down a b
  else if b < 16 then down b a
  else if a = b then []
  else edge 0 16 :: edge 12 17 :: columnRoute 0 0 3

/-- Whether a link of the route between two dies has failed. -/
def State.routeBad (s : State) (a b : Nat) : Bool := (route a b).any fun e => s.mgmt.badEdges.contains e

/-! ### Where a physical address leads (R230, R385, R387, R388, R392) -/

inductive Bus where
  | hbm (die : Nat)
  | cxl (io port : Nat)
  | remote (io win : Nat)
  | ctl (die off : Nat)
  | pcie (io link : Nat)
  | flash (off : Nat)
  | hole
  deriving DecidableEq, Repr

def busOf (pa : Nat) : Bus :=
  match rangeOf pa with
  | .hbm => .hbm (homeDie pa)
  | .unbacked => .hole
  | .cxl => let k := (pa - 0x200000000000) / 2 ^ 43
            .cxl (k / 2) (k % 2)
  | .remote => let w := (pa - 0x400000000000) / 2 ^ 34
               .remote (w % 2) w
  | .windows =>
    if pa < 0xF00012000000 then .ctl ((pa - 0xF00000000000) / 2 ^ 24) (pa % 2 ^ 24)
    else if 0xF10000000000 ≤ pa ∧ pa < 0xF30000000000 then
      .pcie ((pa - 0xF10000000000) / 2 ^ 40) (pa % 2 ^ 40 / 2 ^ 36)
    else if 0xF40000000000 ≤ pa ∧ pa < 0xF40020000000 then .flash (pa - 0xF40000000000)
    else .hole

/-- Whether `n` bytes lie in the HBM or in the pool, where a device's own reads and writes perform (R230). -/
def memBacked (pa n : Nat) : Bool :=
  [pa, pa + n - 1].all fun a => decide (rangeOf a = .hbm ∨ rangeOf a = .cxl)

/-! ### Writes that perform at home memory -/

/-- The value of a key slot as key bits, data key in the low half. -/
def KeyVal.bits : KeyVal → BitVec 512
  | .device n => Config.deviceKey n
  | .pair d t => t ++ d

/-- The plaintext of the 16-byte block `n` under a key (R220): its stored bytes, unless another key wrote it. -/
def State.blockUnder (s : State) (n : Nat) (k : KeyVal) : List Byte :=
  let stored := readBytes s.mem (16 * n) 16
  match tget s.blockKey n with
  | none => stored
  | some k' =>
    if k' = k then stored
    else toBytes 16 (ofBytes (xtsBlock k'.bits k.bits (16 * n) stored))

/-- The blocks that `n` bytes at an address touch. -/
def blocksOf (pa n : Nat) : List Nat := if n = 0 then [] else (List.range ((pa + n - 1) / 16 - pa / 16 + 1)).map (pa / 16 + ·)

/-- Whether a block reads as it stands under a key: it was never written, or was written under that key. -/
def State.plainBlock (s : State) (k : KeyVal) (n : Nat) : Bool :=
  match tget s.blockKey n with | none => true | some k' => decide (k' = k)

/-- The key in a slot; an empty slot reads as slot 0 does (no access reaches one, R214). -/
def State.keyOf (s : State) (key : Nat) : KeyVal := (tget s.keys key).getD (.device s.boots)

/-- `n` bytes at a physical address as read under a key slot. -/
def State.homeRead (s : State) (pa n key : Nat) : List Byte :=
  if (blocksOf pa n).all fun b => s.plainBlock (s.keyOf key) b then readBytes s.mem pa n
  else (List.range n).map fun i => (s.blockUnder ((pa + i) / 16) (s.keyOf key)).getD ((pa + i) % 16) 0

/-- A block re-encrypted under a key before it is written in part. -/
def State.rekey (s : State) (k : KeyVal) (n : Nat) : State :=
  if s.plainBlock k n then { s with blockKey := tset s.blockKey n k }
  else { s with mem := writeBytes s.mem (16 * n) (s.blockUnder n k), blockKey := tset s.blockKey n k }

/-- The condition codes of AWAIT and CWAIT on a value of `width` bytes (R257, R304). -/
def condHolds (cond : Nat) (sgn : Bool) (width : Nat) (x y : Word64) : Bool :=
  let n := 8 * width
  let a := x.toNat % 2 ^ n
  let b := y.toNat % 2 ^ n
  let lt := if sgn then decide ((toSigned n a) < toSigned n b) else decide (a < b)
  match cond with
  | 0 => decide (a = b)
  | 1 => decide (a ≠ b)
  | 2 => lt
  | 3 => lt || decide (a = b)
  | 4 => !lt && decide (a ≠ b)
  | _ => !lt

/-- The registrations tested after a write of `n` bytes at `loc` (R257): those whose condition its new value meets are
woken. `now` reads the location after the write. -/
def testWatches (ws : List Watch) (scratch : Bool) (loc n : Nat) (now : Nat → Nat → List Byte) : List Watch :=
  ws.map fun w =>
    if w.registered ∧ w.scratch = scratch ∧ w.loc < loc + n ∧ loc < w.loc + w.width then
      if condHolds w.cond w.sgn w.width (BitVec.ofNat 64 (ofBytes (now w.loc w.width))) w.cmp then { w with woken := true } else w
    else w

/-- Whether a write of `n` bytes covers the whole of a 128-byte line. -/
def wholeLine (pa n line : Nat) : Bool := decide (pa ≤ line * 128 ∧ line * 128 + 128 ≤ pa + n)

/-- What a write of `n` bytes at home memory does beside the bytes (R240, R257, R259, R310): the reservations on their lines and the
poison of a whole line go, with the fault marks of the bytes, and the registrations on the location are tested. -/
def State.wrote (s : State) (pa n key : Nat) : State :=
  let hit (l : Nat) : Bool := decide (l * 128 < pa + n ∧ pa < (l + 1) * 128)
  { s with
    teams := s.teams.map fun e =>
      match e.2.res with
      | some l => if hit l then (e.1, { e.2 with res := none }) else e
      | none => e
    poison := s.poison.filter fun e => !wholeLine pa n e.1
    faultSig := s.faultSig.filter fun e => !decide (pa ≤ e.1 ∧ e.1 < pa + n)
    watches := testWatches s.watches false pa n fun a n => s.homeRead a n key }

/-- A write that performs at the home of a physical address, under a key slot (R220, R245). -/
def State.homeWrite (s : State) (pa : Nat) (bs : List Byte) (key : Nat) : State :=
  let k := s.keyOf key
  let s1 := (blocksOf pa bs.length).foldl (fun s n => s.rekey k n) s
  { s1 with mem := writeBytes s1.mem pa bs }.wrote pa bs.length key

/-- Whether a link on the way from a die to memory has failed, so that no access of the die reaches it (R384). -/
def State.cutOff (s : State) (die pa : Nat) : Bool :=
  match busOf pa with | .hbm d => s.routeBad die d | .cxl io _ => s.routeBad die (16 + io) | _ => false

/-- Whether a device of a die reaches `n` bytes of memory: memory backs them and no link on the way has failed (R230, R384). -/
def State.devReach (s : State) (die pa n : Nat) : Bool := memBacked pa n && !s.cutOff die pa

/-- A write of a device of a die itself, under key slot 0; one that does not reach memory is lost (R230, R384, log 66). -/
def State.devWrite (s : State) (die pa : Nat) (bs : List Byte) : State :=
  if s.devReach die pa bs.length then s.homeWrite pa bs 0 else s

/-- `n` bytes that a device of a die reads; bytes that it does not reach have no stated value (R230, R384, log 66). -/
def State.devRead (s : State) (die pa n : Nat) : List Byte :=
  if s.devReach die pa n then s.homeRead pa n 0 else (List.range n).map fun i => Config.unbackedByte (pa + i)

/-- Words and doublewords read by a device of a die itself, under key slot 0. -/
def State.devWord (s : State) (die pa : Nat) : Word32 := BitVec.ofNat 32 (ofBytes (s.devRead die pa 4))
def State.devDouble (s : State) (die pa : Nat) : Word64 := BitVec.ofNat 64 (ofBytes (s.devRead die pa 8))

/-! ### The trap queue (R348-R352) -/

/-- Capacity C of a core's trap queue; 0 while it has none (R348). -/
def Core.tqCap (k : Core) : Nat := if k.tqBase = 0 then 0 else 2 ^ (k.tqBase.toNat % 64)

/-- Physical address of the ring. -/
def Core.tqAddr (k : Core) : Nat := k.tqBase.toNat % 2 ^ 48 / 64 * 64

/-- Records in the ring, and records not yet handed out, modulo 2^32. -/
def Core.tqUsed (k : Core) : Nat := (k.tqTail - k.tqHead).toNat
def Core.tqUnhanded (k : Core) : Nat := (k.tqTail - k.tqHand).toNat

/-- Latches a bit of int_pending (R357). -/
def Core.latch (k : Core) (i : Nat) : Core := { k with intPending := k.intPending ||| BitVec.twoPow 6 i }

/-- Whether the source of interrupt bit 1 asserts: the batch threshold, a record that waits, or the age of the record at
index hand (R352). -/
def Core.tqAsserts (k : Core) (clock : Nat) : Bool :=
  decide (k.tqUnhanded ≠ 0 ∧ k.tqUnhanded ≥ k.tqBatch.toNat) || !k.tqWait.isEmpty
    || (decide (k.tqAge ≠ 0) &&
        match tget k.tqTimes k.tqHand.toNat with
        | some c => decide (k.tqUnhanded ≠ 0 ∧ clock - c > k.tqAge.toNat)
        | none => false)

/-- Sets word `i` of a record. -/
def setWord (ws : List Word32) (i : Nat) (x : Word32) : List Word32 := modAt ws i fun _ => x

/-- Writes the oldest waiting record of a core into its ring: the record and its detail area, then tail (R348-R350). -/
def State.writeRecord (s : State) (c : Nat) : State :=
  let k := s.core c
  match k.tqWait with
  | [] => s
  | r :: rest =>
    let i := k.tqTail.toNat % k.tqCap
    let det := k.tqAddr + 64 * k.tqCap + 1024 * i
    let ws := setWord r.words 15 k.tqTail
    let ws := if r.detail.isEmpty then ws
      else setWord (setWord ws 12 (BitVec.ofNat 32 det)) 13 (BitVec.ofNat 32 (det / 2 ^ 32))
    let s1 := s.devWrite (dieOf c) (k.tqAddr + 64 * i) (wordsBytes ws)
    let s2 := r.detail.foldl (fun s e => s.devWrite (dieOf c) (det + 16 * e.1) (wordsBytes e.2)) s1
    s2.updCore c fun k => { k with
      tqWait := rest, tqTail := k.tqTail + 1, tqTimes := tset k.tqTimes k.tqTail.toNat s.clock }

/-- Writes waiting records while slots are free, and latches interrupt bit 1 where R352 holds. -/
def State.flushRecords (s : State) (c : Nat) : Nat → State
  | 0 => s
  | n + 1 =>
    let k := s.core c
    if !k.tqWait.isEmpty ∧ k.tqUsed < k.tqCap then (s.writeRecord c).flushRecords c n else s

/-- Latches bit 1 of a core when its source asserts (R352). -/
def State.latchTq (s : State) (c : Nat) : State :=
  s.updCore c fun k => if k.tqAsserts s.clock then k.latch 1 else k

/-- Adds a record to a core's trap queue: written at once when a slot is free, else waiting (R351). -/
def State.pushRecord (s : State) (c : Nat) (r : TrapRec) : State :=
  let s1 := s.updCore c fun k => { k with tqWait := k.tqWait ++ [r] }
  (s1.flushRecords c (s1.core c).tqWait.length).latchTq c

/-- The sequence number that the next record of a core will carry. -/
def Core.nextSeq (k : Core) : Word32 := k.tqTail + BitVec.ofNat 32 k.tqWait.length

/-! ### Region control blocks, as the device reads and counts in them (R325, R326) -/

/-- The region table of a die as its dispatcher block stands now. -/
def State.tabOf (s : State) (die : Nat) : RegionTab :=
  let d := s.die die
  { die := die, base := d.regionBase.toNat, count := d.regionCount.toNat, sup := d.supCore.toNat }

/-- The region table that governs a party of a die which acts for a block: that of the block's packet (R327, R329). -/
def State.tabFor (s : State) (die blk : Nat) : RegionTab :=
  match tget s.blocks blk with
  | some b => b.tab
  | none => s.tabOf die

/-- The region table that governs the commands of a queue: that of the block it is bound to (R289, R327). -/
def State.queueTab (s : State) (die q : Nat) : RegionTab := s.tabFor die ((((s.die die).queues[q]?).bind (·.block)).getD 0)

/-- The physical address of the block of region `h`. -/
def RegionTab.addr (t : RegionTab) (h : Nat) : Nat := t.base + h * 256

/-- Word `i` of a region block at a physical address, as a die reads it. -/
def State.regionWord (s : State) (die at' i : Nat) : Word32 := s.devWord die (at' + 4 * i)

/-- Whether a device of a die can read `n` bytes of memory: it reaches them and no line of them is poisoned (R230, R240, R384). -/
def State.devReadable (s : State) (die pa n : Nat) : Bool :=
  s.devReach die pa n && s.poison.all fun e => decide (pa + n ≤ e.1 * 128 ∨ (e.1 + 1) * 128 ≤ pa)

/-- Whether the fields that R325's table marks reserved are 0: a block with another value in one is invalid, since no reserved value
is silently ignored (R8, log 64). The budget and usage words of the reserved resources 14 and 15 (R326) are words of that table like
the others, and nothing is charged to them. -/
def regionClean (w : Nat → Word32) : Bool :=
  decide ((w 0).toNat / 2 ^ 4 % 16 = 0 ∧ (w 0).toNat / 2 ^ 14 = 0 ∧ (w 1).toNat / 2 ^ 7 = 0)
    && ([11, 12, 13, 14, 15] ++ (List.range 16).map (48 + ·)).all fun i => decide (w i = 0)

/-- Whether a handle names a valid block: below region_count, readable, with valid set. -/
def State.regionOk (s : State) (t : RegionTab) (h : Nat) : Bool :=
  decide (h < t.count) && (s.regionWord t.die (t.addr h) 0).getLsbD 0 && s.devReadable t.die (t.addr h) 256
    && regionClean (s.regionWord t.die (t.addr h))

/-- Adds to word `i` of a region block for a die, as a relaxed AADD.dev. -/
def State.regionAdd (s : State) (die at' i : Nat) (q : Int) : State :=
  s.devWrite die (at' + 4 * i) (toBytes 4 (s.regionWord die at' i + BitVec.ofInt 32 q).toNat)

/-- Counts a refusal or fault reported to a region's domain (R325, R333). -/
def State.regionFault (s : State) (t : RegionTab) (h : Nat) : State := if s.regionOk t h then s.regionAdd t.die (t.addr h) 10 1 else s

/-! ### Interrupts and event rings (R329, R357, R389, R390) -/

/-- Latches interrupt bit `i` at a core's scalar lane (R357). -/
def State.interrupt (s : State) (core i : Nat) : State := s.updCore core fun k => k.latch i

/-- Interrupt bit 2 at the sup_core of a die (R329). -/
def State.supInterrupt (s : State) (die : Nat) : State := s.interrupt (s.tabOf die).sup 2

/-- Entries of an event ring; 0 while there is none. -/
def IoDie.ringSize (d : IoDie) : Nat := if d.cap.toNat % 32 = 0 then 0 else 2 ^ (d.cap.toNat % 32)

/-- Adds an event to an I/O die's ring, or counts it as dropped; interrupt bit 3 latches at its event core. -/
def State.ioEvent (s : State) (i link type : Nat) (vector : BitVec 16) (addr : Word32) : State :=
  let d := s.io i
  let s := s.interrupt d.eventCore.toNat 3
  if (d.tail - d.head).toNat ≥ d.ringSize then
    s.updIo i fun d => { d with overflow := if d.overflow = 0xFFFFFFFF then d.overflow else d.overflow + 1 }
  else
    let w0 := link % 16 + type * 16 + vector.toNat * 2 ^ 16
    let s := s.devWrite (16 + i) (d.ringBase.toNat + d.tail.toNat % d.ringSize * 8) (toBytes 8 (w0 + addr.toNat * 2 ^ 32))
    s.updIo i fun d => { d with tail := d.tail + 1 }

/-- An access to a CXL port at which an error stands: the error is taken, with its event of type 3 (R392). -/
def State.takeCxl (s : State) (io port : Nat) : State × Bool :=
  if (s.io io).cxlErr.contains port then
    ((s.updIo io fun d => { d with cxlErr := d.cxlErr.filter (· ≠ port) }).ioEvent io port 3 0 0, true)
  else (s, false)

/-! ### Taking a trap -/

/-- A fault of one lane: its cause, w9 and address (R350), and the half of a P2 word in which it arises. -/
structure LaneFault where
  lane : Nat
  cause : BitVec 8
  w9 : Word32
  addr : Word64
  half : Nat := 0
  deriving DecidableEq, Repr

/-- A fault with a cause, w9 and address. -/
def laneFault (lane : Nat) (c : Cause) (w9 : Word32) (addr : Word64) : LaneFault :=
  { lane := lane, cause := c.code, w9 := w9, addr := addr }

/-- The w9 of a cause for which no rule states one (log 22). -/
def Cause.openW9 (c : Cause) : Word32 := Config.openDetail c.code

/-- What a record says of the instruction: its word, index, destination code and leg start, and its flags (R349). -/
structure TrapAt where
  word : Word64
  idx : Nat
  dest : Code
  start : Word64
  mid : Bool
  coll : Bool
  fetch : Bool
  /-- whether the record takes a detail area when it covers two or more lanes (R350) -/
  detail : Bool
  /-- addresses of the lanes of a collective record that did not fault (R350) -/
  addrs : List (Nat × Word64)
  deriving DecidableEq, Repr

/-- The detail entry of a faulting lane (R350). -/
def detailWords (f : LaneFault) : List Word32 := [f.cause.setWidth 32 ||| 0x100, f.w9, low32 f.addr, high32 f.addr]

/-- The detail entry of a lane that did not fault, with its address (R350). -/
def cleanWords (a : Word64) : List Word32 := [0, 0, low32 a, high32 a]

/-- The words of a record that covers `lanes` of a team: cause, w9 and address of the lane `lead` reports (R349). -/
def recordWords (t : Team) (gen : BitVec 16) (i : TrapAt) (lanes : BitVec 64) (lead : LaneFault) : List Word32 :=
  let low := ((laneList lanes).head?).getD 0
  let flag (b : Bool) (n : Nat) : Nat := if b then 2 ^ n else 0
  let slot := if t.kind = .rein then 0 else t.slot
  let gen := if t.kind = .rein then 0xFFFF else gen.toNat
  [BitVec.ofNat 32 (lead.cause.toNat + flag i.coll 8 + flag i.mid 9 + flag i.fetch 10 + low * 2 ^ 16),
   BitVec.ofNat 32 (t.core + slot * 2 ^ 11 + gen * 2 ^ 16),
   low32 lanes, high32 lanes, low32 i.start, high32 i.start, low32 i.word, high32 i.word,
   BitVec.ofNat 32 (i.idx % 32 + i.dest.toNat * 2 ^ 8), lead.w9, low32 lead.addr, high32 lead.addr, 0, 0,
   BitVec.ofNat 32 (t.asid.toNat % 2 ^ 16 + t.region.toNat % 2 ^ 16 * 2 ^ 16), 0]

/-- The generation of a team slot (R349). -/
def Core.gen (k : Core) (slot : Nat) : BitVec 16 := k.gens.getD slot 0

/-- Parks lanes of a team at the points given, under a sequence number and cause; their group loses them. -/
def Team.park (t : Team) (lanes : BitVec 64) (seq : Word32) (cause : BitVec 8) (at' : Nat → Point) : Team :=
  { t with
    threads := (laneList lanes).foldl (fun ths l =>
      modAt ths l fun th => { th with stat := .parked t.core seq cause lanes (at' l) }) t.threads
    groups := t.groups.map fun g => { g with lanes := g.lanes &&& ~~~lanes } }

/-- Enters the handler of a core's scalar lane: a trap or interrupt with its leg start, index and value (R358, R361). -/
def State.enterHandler (s : State) (c : Nat) (cause : BitVec 8) (int : Bool) (start : Word64) (idx : Nat) (tval : Word64) :
    State :=
  let k := s.core c
  let sh := match tget s.teams (scalarKey c) with
    | some t => (t.threads.head?.map (·.t)).getD k.shadow
    | none => k.shadow
  let ie := k.intEnable.getLsbD 8
  let enable := (k.intEnable &&& ~~~(0x300 : Word32)) ||| (if ie then 0x200 else 0)
  let code : Nat := cause.toNat + idx % 32 * 2 ^ 8 + (if int then 2 ^ 13 else 0) + (if k.inHandler then 2 ^ 14 else 0)
    + (if idx = 0 then 0 else 2 ^ 15)
  let s1 := s.updCore c fun k => { k with
    tpc := start, cause := BitVec.ofNat 32 code, tval := tval, shadow := sh, intEnable := enable, inHandler := true
    sret := false }
  s1.updTeam (scalarKey c) fun t => { t with
    groups := []
    threads := modAt t.threads 0 fun th => { th with
      stat := .atLeg, pc := k.tvec, awaits := [], resume := 0, readySince := s.clock } }

/-- Counts in a team's region the lanes that have consumed poisoned bytes (R240, R325). -/
def State.countPoison (s : State) (t : Team) (faults : List LaneFault) : State :=
  (faults.filter fun f => decide (f.cause = Cause.deviceError.code ∧ (f.w9 = 1 ∨ f.w9 = 3))).foldl
    (fun s _ => s.regionFault (s.tabFor (dieOf t.core) t.block) t.region.toNat) s

/-- Takes a trap for faulting lanes of a team: the ONE operation by which every thread traps. `all` are the lanes that the
record parks (all lanes of a collective record, else the faulting lanes), `lead` the lane fault that w0, w9 and w10-w11
carry, `at'` where each parked lane stands. A thread of a vector team or rein core is parked with a record in its core's
queue (R349-R351, R270); the scalar lane enters its handler (R358). -/
def State.trap (s : State) (key : Nat) (i : TrapAt) (all : BitVec 64) (faults : List LaneFault) (lead : LaneFault)
    (at' : Nat → Point) : State :=
  match tget s.teams key with
  | none => s
  | some t =>
    if t.kind = .scalar then
      let s := s.countPoison t faults
      match at' 0 with
      | .instr start _ _ n | .taken start _ _ n => s.enterHandler t.core lead.cause false start n lead.addr
      | .leg => s.enterHandler t.core lead.cause false ((t.threads.head?.map (·.pc)).getD i.start) 0 lead.addr
    else
      let k := s.core t.core
      let lanes := laneList all
      let detail :=
        if i.coll || (i.detail && decide (lanes.length ≥ 2)) then
          lanes.map fun l =>
            match faults.find? fun f => decide (f.lane = l) with
            | some f => (l, detailWords f)
            | none => (l, cleanWords ((tget i.addrs l).getD 0))
        else []
      ((s.countPoison t faults).setTeam key (t.park all k.nextSeq lead.cause at')).pushRecord t.core
        { words := recordWords t (k.gen t.slot) i all lead, detail := detail }

/-! ### Resuming and unparking -/

/-- Whether a point is at an instruction inside a leg, not at a leg start or a trailer (R349). -/
def Point.mid (p : Point) : Bool := match p with | .instr _ ws pos _ => decide (pos + 1 < ws.length) | _ => false

/-- A thread standing at the leg start in its pc: held there when its meeting register names it (R107). -/
def Thread.atStart (th : Thread) (clock : Nat) : Thread :=
  { th with stat := if th.mt ≠ 0 ∧ th.mt = th.pc then .meet else .atLeg, readySince := clock }

/-- Lanes that run in a group of their own. -/
def Team.resumeIn (t : Team) (lanes : BitVec 64) (g : Group) : Team :=
  { t with
    threads := (laneList lanes).foldl (fun ths l => modAt ths l fun th => { th with stat := .running }) t.threads
    groups := t.groups ++ [g] }

/-- Puts lanes of a team back at a point: at their leg start, or as one new group inside the leg (R355, R366). -/
def Team.resumeAt (t : Team) (lanes : BitVec 64) (p : Point) (clock : Nat) : Team :=
  match p with
  | .leg =>
    { t with threads := (laneList lanes).foldl (fun ths l => modAt ths l fun th => th.atStart clock) t.threads }
  | .instr start leg pos idx => t.resumeIn lanes { lanes := lanes, start := start, leg := leg, pos := pos, idx := idx, hold := .none, since := clock }
  | .taken start leg pos idx => t.resumeIn lanes { lanes := lanes, start := start, leg := leg, pos := pos, idx := idx, hold := .dest, since := clock }

/-- The lanes of a team parked by the record `seq`, among `mask`. -/
def Team.parkedBy (t : Team) (seq : Word32) (mask : BitVec 64) : List (Nat × BitVec 8 × Point) :=
  (laneList mask).filterMap fun l =>
    match t.threads[l]? with
    | some th =>
      match th.stat with
      | .parked _ q c _ p => if q = seq then some (l, c, p) else none
      | _ => none
    | none => none

/-- The distinct points of parked lanes, each with its lanes. -/
def groupPoints (l : List (Nat × BitVec 8 × Point)) : List (Point × BitVec 64) :=
  l.foldl (fun acc e =>
    match acc.findIdx? fun a => decide (a.1 = e.2.2) with
    | some i => modAt acc i fun a => (a.1, a.2 ||| BitVec.twoPow 64 e.1)
    | none => acc ++ [(e.2.2, BitVec.twoPow 64 e.1)]) []

/-- Resumes parked lanes of a team, those of one point as one group (R355). -/
def Team.unpark (t : Team) (l : List (Nat × BitVec 8 × Point)) (clock : Nat) : Team :=
  (groupPoints l).foldl (fun t e => t.resumeAt e.2 e.1 clock) t

/-- The return of the scalar lane from its handler, at the trailer of the leg that holds an SRET: t0-t5 from the shadow set,
IE := PIE, and the lane stands at sys.tpc, to continue at the index when mid is 1; the trailer's awaits hold it (R359). -/
def State.returnFromHandler (s : State) (c : Nat) (awaits : List Code) : State :=
  let k := s.core c
  let pie := k.intEnable.getLsbD 9
  let enable := (k.intEnable &&& ~~~(0x100 : Word32)) ||| (if pie then 0x100 else 0)
  let idx := if k.cause.getLsbD 15 then k.cause.toNat / 2 ^ 8 % 32 else 0
  (s.updCore c fun k => { k with intEnable := enable, inHandler := false, sret := false }).updTeam (scalarKey c) fun t =>
    { t with
      groups := []
      threads := modAt t.threads 0 fun th => { th with
        stat := .atLeg, pc := k.tpc, t := k.shadow, awaits := awaits, resume := idx, readySince := s.clock } }

end Sys2Proof.Machine
end

