-- ==== Sys2Proof/Machine/Mem.lean ====
section
/-! DEFINITION. Translation of virtual addresses through object records and granules (R205-R219), home slices and L2
occupancy (R230-R237), and the L1 of a core (R245-R251). -/

namespace Sys2Proof.Machine

/-! ### Object records (R207, R208) -/

def Record.dw (r : Record) (i : Nat) : Word64 := r.d.getD i 0
def Record.fld (r : Record) (i hi lo : Nat) : Nat := field (r.dw i) hi lo
def Record.kind (r : Record) : Nat := r.fld 0 3 1
def Record.keyIdx (r : Record) : Nat := r.fld 0 24 12
def Record.gen (r : Record) : BitVec 16 := bits (r.dw 0) 32 16
def Record.cls (r : Record) : Nat := r.fld 0 11 10
def Record.part (r : Record) : Nat := r.fld 0 63 48
def Record.table (r : Record) : Nat := r.fld 1 47 0
def Record.elemFmt (r : Record) : Nat := r.fld 1 55 48
def Record.rank (r : Record) : Nat := r.fld 1 59 56
def Record.extent (r : Record) : Nat := r.fld 2 39 0
/-- Extent e_k in elements. -/
def Record.ext (r : Record) (k : Nat) : Nat :=
  match k with | 0 => r.fld 3 31 0 | 1 => r.fld 3 63 32 | 2 => r.fld 4 31 0 | 3 => r.fld 4 63 32 | _ => r.fld 5 31 0
/-- Log2 of the granule tile in dimension k. -/
def Record.tile (r : Record) (k : Nat) : Nat :=
  match k with | 0 => r.fld 5 39 32 | 1 => r.fld 5 47 40 | 2 => r.fld 5 55 48 | _ => 0
/-- Stride s_k in elements, s_0 = 1. -/
def Record.stride (r : Record) (k : Nat) : Nat :=
  match k with | 0 => 1 | 1 => r.fld 6 31 0 | 2 => r.fld 6 63 32 | 3 => r.fld 7 31 0 | _ => r.fld 7 63 32
/-- Bits of an element; 0 for a reserved code. -/
def Record.elemBits (r : Record) : Nat := if r.elemFmt > 15 then 0 else fmtBits r.elemFmt

/-- The checks of a tensor record (R208). -/
def Record.tensorOk (r : Record) : Bool :=
  let n := r.rank
  let dims := [0, 1, 2, 3, 4]
  decide (1 ≤ n ∧ n ≤ 5) && decide (r.elemBits ≠ 0)
    && dims.all (fun k => if k < n then decide (r.ext k ≠ 0) else decide (r.ext k = 1))
    && dims.all (fun k => decide (k = 0 ∨ k < n ∨ r.stride k = 0))
    && dims.all (fun k => decide (k = 0 ∨ k ≥ n ∨ r.stride k ≥ r.ext (k - 1) * r.stride (k - 1)))
    && [0, 1, 2].all (fun k => decide (k < n ∨ r.tile k = 0))
    && decide (2 ^ (r.tile 0 + r.tile 1 + r.tile 2) * r.elemBits = 65536 * 8)
    && (decide (r.elemBits ≠ 4) || (decide (r.tile 0 ≠ 0) && [1, 2, 3, 4].all fun k => decide (r.stride k % 2 = 0)))

/-- Whether a record passes R208, which an access by byte offset needs too: a reserved element format fails it, though R71 says that
such an access does not read the field (log 74). -/
def Record.ok (r : Record) : Bool :=
  decide (r.fld 0 0 0 = 1) && decide (r.fld 0 31 25 = 0) && decide (r.fld 2 63 40 = 0)
    && decide (r.kind ≤ 5) && decide (r.fld 1 63 60 = 0) && decide (r.table % 8 = 0)
    && (if r.kind = 1 then decide (r.fld 5 63 56 = 0) && r.tensorOk
        else decide (r.rank = 0 ∧ r.elemFmt = 0 ∧ r.dw 3 = 0 ∧ r.dw 4 = 0 ∧ r.dw 5 = 0 ∧ r.dw 6 = 0 ∧ r.dw 7 = 0))

/-- Tiles of a tensor's grid in dimension k (R212). -/
def Record.grid (r : Record) (k : Nat) : Nat :=
  if k < 3 then (r.ext k + 2 ^ r.tile k - 1) / 2 ^ r.tile k else r.ext k

/-- The granule of an element and the first bit of it in the frame (R212). -/
def Record.place (r : Record) (x : Nat → Nat) : Nat × Nat :=
  let c (k : Nat) := if k < 3 then x k / 2 ^ r.tile k else x k
  let y (k : Nat) := x k % 2 ^ r.tile k
  let gran := c 0 + r.grid 0 * (c 1 + r.grid 1 * (c 2 + r.grid 2 * (c 3 + r.grid 3 * c 4)))
  let pos := y 0 + 2 ^ r.tile 0 * (y 1 + 2 ^ r.tile 1 * y 2)
  (gran, pos * r.elemBits)

/-- The coordinates of a logical index (R213): from dimension rank − 1 down to 1 by division, the rest is x_0. -/
def Record.coords (r : Record) (l : Nat) : List Nat :=
  let step := fun (st : Nat × List Nat) (k : Nat) =>
    if k < r.rank ∧ r.stride k ≠ 0 then (st.1 % r.stride k, (st.1 / r.stride k) :: st.2) else (st.1, 0 :: st.2)
  let (rem, xs) := [4, 3, 2, 1].foldl step (l, [])
  rem :: xs

/-! ### Translation caches (R215) -/

/-- Whose translation cache an access uses. -/
inductive TlbAt where
  | core (c : Nat)
  | rein (h : Nat)
  | engine
  deriving DecidableEq, Repr

/-- Who makes an access: its caches, die, translation context, and whether it is bound by the rules for U teams and threads. -/
structure Agent where
  tlb : TlbAt
  die : Nat
  ctx : Ctx
  /-- a vector thread in mode U, which supervisor-only objects refuse (R209) -/
  user : Bool
  /-- a copy engine, which engine-only objects let in -/
  engine : Bool
  /-- the scalar lane while its sys.ort_size is 0 (R344) -/
  bare : Bool
  deriving DecidableEq, Repr

def State.tlbOf (s : State) : TlbAt → Tlb
  | .core c => (s.core c).tlb
  | .rein h => (s.hitch h).tlb
  | .engine => { recs := [], grans := [] }

def State.setTlb (s : State) (a : TlbAt) (t : Tlb) : State :=
  match a with
  | .core c => s.updCore c fun k => { k with tlb := t }
  | .rein h => s.updHitch h fun k => { k with tlb := t }
  | .engine => s

def Tlb.rec? (t : Tlb) (asid : Word32) (h : Nat) : Option RecEntry :=
  t.recs.find? fun e => decide (e.asid = asid ∧ e.handle = h)

def Tlb.gran? (t : Tlb) (asid : Word32) (h : Nat) (gen : BitVec 16) (g : Nat) : Option GranEntry :=
  t.grans.find? fun e => decide (e.asid = asid ∧ e.handle = h ∧ e.gen = gen ∧ e.gran = g)

/-- Entries are added in front; the oldest leave when the cache is full (log 10). -/
def Tlb.addRec (t : Tlb) (e : RecEntry) (n : Nat) : Tlb := { t with recs := (e :: t.recs).take n }
def Tlb.addGran (t : Tlb) (e : GranEntry) (n : Nat) : Tlb := { t with grans := (e :: t.grans).take n }

/-- A die's cache after an entry was added: records and granules share its 4,096 entries, and the oldest of the longer list leaves
when they are full (R215, log 10). -/
def Tlb.fitDie (t : Tlb) : Tlb :=
  if t.recs.length + t.grans.length ≤ 4096 then t
  else if t.grans.length < t.recs.length then { t with recs := t.recs.dropLast }
  else { t with grans := t.grans.dropLast }

/-- Caches a record in an agent's cache and its die's. The spec gives no number of entries for the caches of a rein core; the model
gives them those of a core, 32 records and 256 granules (R215, R229; DESIGN CHOICE, log 76). -/
def State.cacheRec (s : State) (a : Agent) (e : RecEntry) : State :=
  (s.setTlb a.tlb ((s.tlbOf a.tlb).addRec e 32)).updDie a.die fun d => { d with tlb := (d.tlb.addRec e 4096).fitDie }

def State.cacheGran (s : State) (a : Agent) (e : GranEntry) : State :=
  (s.setTlb a.tlb ((s.tlbOf a.tlb).addGran e 256)).updDie a.die fun d => { d with tlb := (d.tlb.addGran e 4096).fitDie }

/-- The entries of a cache that pass a test. -/
def Tlb.keep (t : Tlb) (r : RecEntry → Bool) (g : GranEntry → Bool) : Tlb := { recs := t.recs.filter r, grans := t.grans.filter g }

/-- Drops the stale entries of a handle in the caches of a scope (R229). -/
def State.shoot (s : State) (hitch : Option Nat) (f : Tlb → Tlb) : State :=
  match hitch with
  | some h => ((hitchCores h).foldl (fun s c => s.updCore c fun k => { k with tlb := f k.tlb }) s).updHitch h fun k => { k with tlb := f k.tlb }
  | none =>
    { s with
      cores := s.cores.map fun e => (e.1, { e.2 with tlb := f e.2.tlb })
      hitches := s.hitches.map fun e => (e.1, { e.2 with tlb := f e.2.tlb })
      dies := s.dies.map fun d => { d with tlb := f d.tlb } }

/-- Drops the cached entries of a granule whose hold has ended: the held write is translated by the entry in memory, and no access
of its thread may still read the old frame (R219; a cache may drop an entry at any time, R215). -/
def State.forgetGranule (s : State) (asid : Word32) (h gran : Nat) : State :=
  s.shoot none fun t => t.keep (fun _ => true) fun e => !decide (e.asid = asid ∧ e.handle = h ∧ e.gran = gran)

/-- A failed translation: cause and w9 (R214). -/
structure XFault where
  cause : Cause
  w9 : Word32
  deriving DecidableEq, Repr

/-! ### What stands in the way of an access to memory -/

/-- DEVICE_ERROR with its detail (R241, R384, R388). -/
def devErr (w9 : Nat) : XFault := { cause := .deviceError, w9 := BitVec.ofNat 32 w9 }

/-- A consumer of the bytes of the lines that `n` bytes touch: DEVICE_ERROR when one is poisoned (R240). -/
def State.consume (s : State) (pa n : Nat) : State × Option XFault :=
  match s.poison.find? fun e => decide (e.1 * 128 < pa + n ∧ pa < (e.1 + 1) * 128) with
  | some (l, used) => ({ s with poison := tset s.poison l true }, some (devErr (if used then 3 else 1)))
  | none => (s, none)

/-- Reads `n` bytes of a table or record of the device for a party of a die: an error where nothing backs them, over a failed link, at
a CXL port with an error, or of a poisoned line (R206, R230, R240, R384, R392). Whether the device's own reads and writes and CZERO's
touch an L2 line is not said; the model's touch none (DESIGN CHOICE, log 76). -/
def State.walkRead (s : State) (die pa n : Nat) : State × Except XFault (List Byte) :=
  let bytes (s : State) : State × Except XFault (List Byte) :=
    match s.consume pa n with
    | (s, some f) => (s, .error f)
    | (s, none) => (s, .ok (s.homeRead pa n 0))
  if !memBacked pa 1 then (s, .error (devErr 2))
  else if s.cutOff die pa then (s, .error (devErr 5))
  else match busOf pa with
    | .cxl io port =>
      match s.takeCxl io port with
      | (s, true) => (s, .error (devErr 4))
      | (s, false) => bytes s
    | _ => bytes s

/-- The record of a handle, from a cache or from memory (R206, R208, R215). -/
def State.findRecord (s : State) (a : Agent) (h : Nat) : State × Except XFault Record :=
  if h = 0 then (s, .error { cause := .nullObject, w9 := 0 })
  else if h ≥ a.ctx.ortSize.toNat then (s, .error { cause := .badHandle, w9 := 0 })
  else
    match (s.tlbOf a.tlb).rec? a.ctx.asid h with
    | some e => (s, .ok e.record)
    | none =>
      match (s.die a.die).tlb.rec? a.ctx.asid h with
      | some e => (s.setTlb a.tlb ((s.tlbOf a.tlb).addRec e 32), .ok e.record)
      | none =>
        let base := a.ctx.ortBase.toNat + h * 64
        match s.walkRead a.die base 64 with
        | (s, .error f) => (s, .error f)
        | (s, .ok bs) =>
          let r : Record := { d := (List.range 8).map fun i => BitVec.ofNat 64 (ofBytes ((bs.drop (8 * i)).take 8)) }
          if r.ok then
            (s.cacheRec a { asid := a.ctx.asid, handle := h, gen := r.gen, record := r }, .ok r)
          else (s, .error { cause := .badHandle, w9 := 0 })

/-- What an access does, for the permission check (R209): `kind` is the object kind that the use demands. -/
structure Use where
  read : Bool
  write : Bool
  exec : Bool
  atomic : Bool
  kind : Option Nat
  deriving DecidableEq, Repr

def Use.load : Use := { read := true, write := false, exec := false, atomic := false, kind := none }
def Use.store : Use := { read := false, write := true, exec := false, atomic := false, kind := none }
def Use.fetch : Use := { read := false, write := false, exec := true, atomic := false, kind := some 2 }

/-- The w9 of a PERMISSION fault, in the order of R209; none when the use is allowed. -/
def Record.refuses (r : Record) (a : Agent) (u : Use) : Option Word32 :=
  let bit (i : Nat) : Bool := decide (r.fld 0 i i = 1)
  if bit 8 && !a.engine then some 8
  else if bit 9 && a.user then some 9
  else if (match u.kind with | some k => decide (r.kind ≠ k) | none => false) then some 0
  else if u.read && !bit 4 then some 4
  else if u.write && !bit 5 then some 5
  else if u.exec && !bit 6 then some 6
  else if u.atomic && !bit 7 then some 7
  else none

/-- A translated access: physical address, key index, partition, class, kind, the granule with the address of its entry and whether
it is moving, and whether a party in mode U makes it (R9). -/
structure Xl where
  pa : Nat
  key : Nat
  part : Nat
  cls : Nat
  kind : Nat
  gran : Nat
  entryAt : Nat
  moving : Bool
  user : Bool := false
  deriving DecidableEq, Repr

/-- The state of a granule entry: 0 absent, 1 resident, 2 moving; an entry with reserved bits or state 3 is absent (R210). -/
def granState (e : Word64) : Nat :=
  if field e 63 48 ≠ 0 ∨ field e 15 2 ≠ 0 ∨ field e 1 0 = 3 then 0 else field e 1 0

/-- Steps 7 and 8 of R214: the key slot and the granule. -/
def State.findGranule (s : State) (a : Agent) (h : Nat) (r : Record) (gran byte : Nat) : State × Except XFault Xl :=
  if (tget s.keys r.keyIdx).isNone then (s, .error { cause := .keyInvalid, w9 := BitVec.ofNat 32 r.keyIdx })
  else
    let at' := r.table + 8 * gran
    let xl (e : Word64) : Xl := { pa := field e 47 16 * 65536 + byte, key := r.keyIdx, part := r.part, cls := r.cls, kind := r.kind,
                                  gran := gran, entryAt := at', moving := decide (field e 1 0 = 2), user := decide (a.ctx.mode = .u) }
    match (s.tlbOf a.tlb).gran? a.ctx.asid h r.gen gran with
    | some e => (s, .ok (xl e.entry))
    | none =>
      match (s.die a.die).tlb.gran? a.ctx.asid h r.gen gran with
      | some e => (s.setTlb a.tlb ((s.tlbOf a.tlb).addGran e 256), .ok (xl e.entry))
      | none =>
        match s.walkRead a.die at' 8 with
        | (s, .error f) => (s, .error f)
        | (s, .ok bs) =>
          let e := BitVec.ofNat 64 (ofBytes bs)
          if granState e = 0 then (s, .error { cause := .residency, w9 := BitVec.ofNat 32 gran })
          else (s.cacheGran a { asid := a.ctx.asid, handle := h, gen := r.gen, gran := gran, entry := e }, .ok (xl e))

/-- Step 6 of R214: the granule and frame byte of `n` bytes at an offset of an object (R211, R213). Only the element of the first
byte can be OUT_OF_SHAPE; a later byte that does not follow it in the frame is MISALIGNED. Where several coordinates lie at or above
their extents, w9 is the lowest of them (DESIGN CHOICE, log 76). -/
def Record.locate (r : Record) (off n : Nat) : Except XFault (Nat × Nat) :=
  if r.kind ≠ 1 then .ok (off / 65536, off % 65536)
  else
    let at' (o : Nat) : Except XFault (Nat × Nat) :=
      let l := if r.elemBits = 4 then 2 * o else o / (r.elemBits / 8)
      let xs := r.coords l
      match [0, 1, 2, 3, 4].find? fun k => decide (xs.getD k 0 ≥ r.ext k) with
      | some k => .error { cause := .outOfShape, w9 := BitVec.ofNat 32 k }
      | none =>
        let (g, bit) := r.place fun k => xs.getD k 0
        .ok (g, bit / 8 + (if r.elemBits = 4 then 0 else o % (r.elemBits / 8)))
    match at' off with
    | .error e => .error e
    | .ok (g, b) =>
      match (List.range n).findSome? fun i =>
          match at' (off + i) with
          | .ok p => if p = (g, b + i) then none else some { cause := .misaligned, w9 := 0 }
          | .error _ => some { cause := .misaligned, w9 := 0 } with
      | some e => .error e
      | none => .ok (g, b)

/-- Steps 4 to 8 of R214 for `n` bytes at an offset, aligned to `al`. -/
def State.xlBytes (s : State) (a : Agent) (h : Nat) (r : Record) (off n al : Nat) : State × Except XFault Xl :=
  if off + n > r.extent then (s, .error { cause := .outOfExtent, w9 := 0 })
  else if off % al ≠ 0 then (s, .error { cause := .misaligned, w9 := 0 })
  else
    match r.locate off n with
    | .error e => (s, .error e)
    | .ok (g, b) => s.findGranule a h r g b

/-- Translates an access of `n` bytes at a virtual address that must be a multiple of `al` (R214). The scalar lane in bare
mode takes bits [47:0] as the physical address (R344); a line that an access without an object record fills, this one or one from
outside, carries partition 0 and class 1 (R235; DESIGN CHOICE, log 76). -/
def State.translate (s : State) (a : Agent) (va : Word64) (n al : Nat) (u : Use) : State × Except XFault Xl :=
  if a.bare then
    if field va 63 48 ≠ 0 then (s, .error { cause := .badHandle, w9 := 0 })
    else if va.toNat % al ≠ 0 then (s, .error { cause := .misaligned, w9 := 0 })
    else (s, .ok { pa := field va 47 0, key := 0, part := 0, cls := 1, kind := 0, gran := 0, entryAt := 0, moving := false })
  else
    match s.findRecord a (field va 63 40) with
    | (s, .error e) => (s, .error e)
    | (s, .ok r) =>
      match r.refuses a u with
      | some w9 => (s, .error { cause := .permission, w9 := w9 })
      | none => s.xlBytes a (field va 63 40) r (field va 39 0) n al

/-! ### L2 occupancy (R232, R235) -/

/-- Sets and ways of a slice (log 9). -/
def l2Sets : Nat := 1536
def l2Set (pa : Nat) : Nat := pa / 4096 % l2Sets

/-- The partition that a fill uses: partition 0 when the number is not valid, with the fallback counted (R232). -/
def Die.partOf (d : Die) (p : Nat) : Nat × Bool :=
  match tget d.parts p with
  | some e => if e.w0.getLsbD 16 then (p, false) else (0, true)
  | none => (0, true)

def Die.partEntry (d : Die) (p : Nat) : Part :=
  (tget d.parts p).getD { w0 := 0, w1 := 0, w2 := 0, refused := false, sweeping := false }

/-- Pinned lines of a partition in a slice. -/
def Die.pinned (d : Die) (p slice : Nat) : Nat := (d.l2.filter fun l => decide (l.part = p ∧ l.slice = slice) && l.pinned).length

/-- Whether a pinned line is a victim as a preferred one: its partition stands above its quota in the slice, or is no longer valid
(R235, R236). -/
def Die.loosePin (d : Die) (l : L2Line) : Bool :=
  let e := d.partEntry l.part
  !e.w0.getLsbD 16 || decide (d.pinned l.part l.slice > e.w1.toNat % 65536)

/-- The least recently used of some lines. -/
def lruLine (ls : List L2Line) : Option L2Line :=
  ls.foldl (fun best l => match best with | some b => if l.used < b.used then some l else best | none => some l) none

/-- The way that an allocation takes: a free way of the mask, else the victim of R235; none when every way is pinned. -/
def Die.victim (d : Die) (mask : BitVec 16) (slice set : Nat) : Option Nat :=
  let ways := (List.range 16).filter fun w => mask.getLsbD w
  let held := d.l2.filter fun l => decide (l.slice = slice ∧ l.set = set)
  let find (w : Nat) := held.find? fun l => decide (l.way = w)
  match ways.find? fun w => (find w).isNone with
  | some w => some w
  | none =>
    let here := ways.filterMap find
    match lruLine (here.filter fun l => decide (l.cls ≤ 1)) with
    | some l => some l.way
    | none => (lruLine (here.filter fun l => !l.pinned || d.loosePin l)).map (·.way)

/-- Removes the L2 lines of a die that a test selects; each takes its scope record with it (R252). -/
def State.dropL2 (s : State) (dn : Nat) (p : L2Line → Bool) : State :=
  let out := (s.die dn).l2.filter p
  ({ s with scopes := out.foldl (fun t (l : L2Line) => tdel t l.line) s.scopes }).updDie dn fun d =>
    { d with l2 := d.l2.filter fun l => !p l }

/-- Allocates a line of the home slice under a partition and class (R235): a pinned fill above the quota is preferred, a stream line
goes in as the least recently used of its set, and the fill allocates nothing when every way holds a pinned line. -/
def State.allocL2 (s : State) (pa p cls key : Nat) : State :=
  let dn := homeDie pa
  let d := s.die dn
  let slice := homeSlice pa
  let set := l2Set pa
  let e := d.partEntry p
  let pin := decide (cls = 3 ∧ d.pinned p slice + 1 ≤ e.w1.toNat % 65536)
  match d.victim (e.w0.setWidth 16) slice set with
  | none => s
  | some w =>
    let here (l : L2Line) : Bool := decide (l.slice = slice ∧ l.set = set)
    let used : Int :=
      if cls = 0 then ((lruLine (d.l2.filter here)).map fun l => min l.used 0 - 1).getD 0 else (s.clock : Int) + 1
    let new : L2Line := { slice := slice, set := set, way := w, line := pa / 128, part := p, cls := if pin then 3 else min cls 2, key := key,
                          pinned := pin, used := used }
    (s.dropL2 dn fun l => here l && decide (l.way = w)).updDie dn fun d => { d with l2 := new :: d.l2 }

/-- Records that an access fills or hits a line of the home slice under a partition and class (R232, R235). A hit becomes the most
recently used of its set; a line that stands under another key index is written back under that one and filled again (R220, R239,
log 65). The context-store partition takes no fill (R237). -/
def State.touchL2 (s : State) (pa part cls key : Nat) : State :=
  let dn := homeDie pa
  let line := pa / 128
  if (s.die dn).l2.any fun l => decide (l.line = line ∧ l.key = key) then
    s.updDie dn fun d => { d with l2 := d.l2.map fun (l : L2Line) => if l.line = line then { l with used := (s.clock : Int) + 1 } else l }
  else
    let s := s.dropL2 dn fun l => decide (l.line = line)
    let (p, fb) := (s.die dn).partOf part
    let s := s.updDie dn fun d => if fb then { d with fallback := d.fallback + 1 } else d
    if ((s.die dn).partEntry p).w0.getLsbD 17 then s else s.allocL2 pa p cls key

/-- Makes the line of an address the least recently used of its set (R225). -/
def State.leastL2 (s : State) (pa : Nat) : State :=
  let here (l : L2Line) : Bool := decide (l.slice = homeSlice pa ∧ l.set = l2Set pa)
  s.updDie (homeDie pa) fun d =>
    let low : Int := ((lruLine (d.l2.filter here)).map fun l => min l.used 0 - 1).getD 0
    { d with l2 := d.l2.map fun (l : L2Line) => if l.line = pa / 128 then { l with used := low } else l }

/-! ### Wait registrations and the units that hold lines (R243, R244, R257) -/

/-- The registration entry that a waiting thread or queue shares: its group and location. -/
def State.watchSlot (s : State) (w : Watch) : Bool × Nat × Nat × Bool × Nat :=
  let g := match tget s.teams w.key with
    | some t => (t.groups.findIdx? fun g => g.lanes.getLsbD w.lane).getD 0
    | none => 0
  (w.engine, w.key, (if w.engine then 0 else g), w.scratch, w.loc)

/-- The registrations after one of them has moved to a location and to the unit that now executes there; it waits unregistered when
that unit has no entry free (R257). -/
def State.moveWatch (s : State) (ws : List Watch) (w : Watch) (loc unit cap : Nat) : List Watch :=
  let w' : Watch := { w with loc := loc, unit := unit }
  let here := ((ws.filter fun v => v.registered && decide (v.unit = unit ∧ v ≠ w)).map s.watchSlot).eraseDups
  let free := here.contains (s.watchSlot w') || decide (here.length < cap)
  ws.map fun y => if y = w then { w' with registered := w.registered && (decide (w.unit = unit) || free) } else y

/-- The unit numbers of registrations: hitches from 0, home slices from 1000, fabric ports from 2000, scratchpads from 3000. -/
def homeUnit (pa : Nat) : Nat := 1000 + homeDie pa * 32 + homeSlice pa

/-- A line comes to the unit that executes an access, recalled from any other: the registrations on its locations move there, and a
hitch atomic unit holds it from then on (R244, R257). -/
def State.claimLine (s : State) (line unit cap : Nat) : State :=
  let goes (w : Watch) : Bool := w.registered && !w.scratch && decide (w.loc / 128 = line ∧ w.unit ≠ unit)
  { s with
    watches := (s.watches.filter goes).foldl (fun ws w => s.moveWatch ws w w.loc unit cap) s.watches
    hitches := (s.hitches.map fun e => (e.1, { e.2 with granted := e.2.granted.filter fun l => decide (l ≠ line ∨ e.1 = unit) })) }

/-- An access that performs at the home slice of an address claims its line there. -/
def State.claimHome (s : State) (pa : Nat) : State := s.claimLine (pa / 128) (homeUnit pa) 1024

/-! ### L1 of a core (R192, R245, R247, R251) -/

/-- The lines of a core's L1 that are the line of an address. -/
def Core.l1Line (k : Core) (line : Nat) : Option L1Line := k.l1.find? fun l => decide (l.line = line)

def Core.l1Drop (k : Core) (line : Nat) : Core := { k with l1 := k.l1.filter fun x => !decide (x.line = line) }

/-- Byte `i` of a line. -/
def L1Line.byte (l : L1Line) (i : Nat) : Byte := l.data.extractLsb' (8 * i) 8

/-- A line with byte `i` set. -/
def setLineByte (d : BitVec 1024) (i : Nat) (b : Byte) : BitVec 1024 :=
  (d &&& ~~~((0xFF : BitVec 1024) <<< (8 * i))) ||| (b.setWidth 1024 <<< (8 * i))

/-- The runs of set bits of a mask of 128, as (first, length), ascending. -/
def maskRuns (m : BitVec 128) : List (Nat × Nat) :=
  (List.range 128).foldl (fun acc i =>
    if m.getLsbD i then
      match acc with
      | (a, n) :: t => if a + n = i then (a, n + 1) :: t else (i, 1) :: acc
      | [] => [(i, 1)]
    else acc) [] |>.reverse

/-- Writes the dirty bytes of a line of a die's core to their home, where the access hits or fills the line in its slice (R231, R235).
Over a failed link they do not arrive (R384, log 66). -/
def State.writeBack (s : State) (die : Nat) (l : L1Line) : State :=
  let pa := l.line * 128
  if l.dirty = 0 ∨ s.cutOff die pa then s
  else (maskRuns l.dirty).foldl (fun s r => s.homeWrite (pa + r.1) ((List.range r.2).map fun i => l.byte (r.1 + i)) l.key)
    ((s.claimHome pa).touchL2 pa l.part l.cls l.key)

/-- Writes back the dirty bytes of the lines of a core that `p` selects; the lines stay, clean. -/
def State.cleanLines (s : State) (c : Nat) (p : L1Line → Bool) : State :=
  let out := (s.core c).l1.filter fun l => p l && decide (l.dirty ≠ 0)
  let s := out.foldl (fun s l => s.writeBack (dieOf c) l) s
  s.updCore c fun k => { k with l1 := k.l1.map fun l => if p l then { l with dirty := 0, tag := .clean } else l }

/-- Whether a line is tagged with a team, or multi (R247, R251). -/
def L1Line.ofTeam (l : L1Line) (key : Nat) : Bool :=
  match l.tag with | .team k _ => decide (k = key) | .multi => true | .clean => false

/-- Whether a line is tagged with a team and task tag, or multi (R323). -/
def L1Line.ofTask (l : L1Line) (key : Nat) (tag : BitVec 16) : Bool :=
  match l.tag with | .team k t => decide (k = key ∧ t = tag) | .multi => true | .clean => false

/-- The L1 action of a release at hitch scope or wider: the team's dirty lines and every multi line (R247); `inRange` limits a
FENCER (R261). -/
def State.releaseL1 (s : State) (c key : Nat) (inRange : Nat → Bool) : State :=
  s.cleanLines c fun l => l.ofTeam key && inRange l.line

/-- The L1 action of an acquire at hitch scope or wider: clean bytes are dropped, dirty bytes stay (R247, R251). -/
def State.acquireL1 (s : State) (c : Nat) (inRange : Nat → Bool) : State :=
  s.updCore c fun k => { k with l1 := (k.l1.map fun l =>
    if inRange l.line then { l with present := l.dirty } else l).filter fun l => decide (l.present ≠ 0) }

/-- A core's line written back and invalidated, before an access that performs at its home (R243). -/
def State.evictLine (s : State) (c line : Nat) : State :=
  match (s.core c).l1Line line with
  | some l => (s.writeBack (dieOf c) l).updCore c fun k => k.l1Drop line
  | none => s

/-- The lowest way that takes L1 fills: the ways above the scratchpad, and while it grows above the ways it will have (R193). -/
def Core.l1Low (k : Core) : Nat := if k.splitMoving then k.splitTarget else k.splitCurrent

/-- The way in which a core's L1 allocates a line, with the line that stands there: a free way of its set, else the way of the least
recently used line, one that policy 2 keeps only when every line is kept (R192, R222; log 10). -/
def Core.l1Victim (k : Core) (line : Nat) : Nat × Option L1Line :=
  let set := k.l1.filter fun l => decide (l.line % 1024 = line % 1024 ∧ k.l1Low ≤ l.way)
  match ((List.range 8).filter fun w => decide (k.l1Low ≤ w)).find? fun w => set.all fun l => decide (l.way ≠ w) with
  | some w => (w, none)
  | none =>
    match (set.filter fun l => !l.keep).getLast? with
    | some l => (l.way, some l)
    | none => ((set.getLast?.map (·.way)).getD 7, set.getLast?)

/-- The line of a core's L1 through which an access under a key index goes: the line that stands there, or an empty one in the place
of a victim, under the partition and class of the access's record. A line that carries another key index is written back under it first
(R239), and so is one in a moving way that would need a fill (R193). -/
def State.l1Open (s : State) (c line key part cls : Nat) (fill : Bool) : State × L1Line :=
  let stays (l : L1Line) : Bool := decide (l.key = key) && (!fill || decide ((s.core c).l1Low ≤ l.way))
  match (s.core c).l1.find? fun l => decide (l.line = line) && stays l with
  | some l => (s, l)
  | none =>
    let s := s.evictLine c line
    let v := (s.core c).l1Victim line
    (match v.2 with | some l => s.evictLine c l.line | none => s,
     { line := line, way := v.1, data := 0, present := 0, dirty := 0, tag := .clean, key := key, part := part, cls := cls
       keep := false })

/-- Puts a line that an access of a policy has used in front; with policy 1 a new line goes last (R222). A line that the access has
just filled is not used a second time. -/
def Core.l1Use (k : Core) (l : L1Line) (pol : Nat) : Core :=
  let rest := k.l1.filter fun x => !decide (x.line = l.line)
  let l := { l with keep := l.keep || decide (pol = 2) }
  { k with l1 := if pol = 1 ∧ (k.l1Line l.line).isNone then rest ++ [l] else l :: rest }

/-- Fills the bytes of a line that are not present from the home slice (R251). -/
def State.fillLine (s : State) (c line key part cls pol : Nat) : State :=
  let (s, old) := (s.claimHome (line * 128)).l1Open c line key part cls true
  let home := s.homeRead (line * 128) 128 key
  let data := (List.range 128).foldl (fun d i => if old.present.getLsbD i then d else setLineByte d i (home.getD i 0)) old.data
  (s.touchL2 (line * 128) part cls key).updCore c fun k => k.l1Use { old with data := data, present := BitVec.allOnes 128 } pol

/-- Whether a line of a core's L1 holds `n` bytes at an address under a key index. -/
def Core.l1Holds (k : Core) (pa n key : Nat) : Bool :=
  match k.l1Line (pa / 128) with
  | some l => decide (l.key = key) && (List.range n).all fun i => l.present.getLsbD (pa % 128 + i)
  | none => false

/-- Reads `n` bytes of one line through a core's L1; policy 3 reads the home slice, after a write-back (R222, R243). -/
def State.l1Read (s : State) (c : Nat) (x : Xl) (n pol : Nat) : State × List Byte :=
  let line := x.pa / 128
  if pol = 3 then
    let s := ((s.evictLine c line).claimHome x.pa).touchL2 x.pa x.part x.cls x.key
    (s, s.homeRead x.pa n x.key)
  else
    let holds := (s.core c).l1Holds x.pa n x.key
    let s := if holds then s else s.fillLine c line x.key x.part x.cls pol
    match (s.core c).l1Line line with
    | some l => (if holds then s.updCore c fun k => k.l1Use l pol else s, (List.range n).map fun i => l.byte (x.pa % 128 + i))
    | none => (s, s.homeRead x.pa n x.key)

/-- The tag of a line after team `key` with a task tag dirties it (R251, R323). -/
def LTag.join (t : LTag) (key : Nat) (tag : BitVec 16) : LTag :=
  match t with
  | .clean => .team key tag
  | .team k g => if k = key ∧ g = tag then .team key tag else .multi
  | .multi => .multi

/-- Writes bytes of one line: into the L1 as dirty bytes, or with policy 3 at the home slice (R222, R245). -/
def State.l1Write (s : State) (c key : Nat) (tag : BitVec 16) (x : Xl) (bs : List Byte) (pol : Nat) : State :=
  let line := x.pa / 128
  if pol = 3 then
    (((s.evictLine c line).claimHome x.pa).touchL2 x.pa x.part x.cls x.key).homeWrite x.pa bs x.key
  else
    let (s, old) := s.l1Open c line x.key x.part x.cls false
    let is := (List.range bs.length).map fun i => (x.pa % 128 + i, bs.getD i 0)
    let data := is.foldl (fun d e => setLineByte d e.1 e.2) old.data
    let m := is.foldl (fun m e => m ||| BitVec.twoPow 128 e.1) (0 : BitVec 128)
    s.updCore c fun k =>
      k.l1Use { old with data := data, present := old.present ||| m, dirty := old.dirty ||| m, tag := old.tag.join key tag } pol

/-- An access of at most 128 bytes by the lines that it touches: (address, bytes) (R222). -/
def linePieces (pa n : Nat) : List (Nat × Nat) :=
  if pa % 128 + n ≤ 128 then [(pa, n)] else [(pa, 128 - pa % 128), (pa / 128 * 128 + 128, pa % 128 + n - 128)]

/-- Records that an access of `n` bytes touches its lines of the home slices. -/
def State.touchLines (s : State) (x : Xl) (n : Nat) : State :=
  (linePieces x.pa n).foldl (fun s p => s.touchL2 p.1 x.part x.cls x.key) s

end Sys2Proof.Machine
end

