-- ==== Sys2Proof/Machine/Operands.lean ====
section
/-! DEFINITION. Every operand form: guards, operand codes, index registers, full and empty registers, neighbour reads, writes of
results, and the two ways in which a word issues for its group (R17, R20-R24, R113, R120-R141, R170-R173). -/

namespace Sys2Proof.Machine

/-! ### The issuing group -/

/-- The group that a step issues: team key, index of the group, team, group, and the word at its position. -/
structure Act where
  key : Nat
  g : Nat
  team : Team
  grp : Group
  word : Word64
  deriving DecidableEq, Repr

/-- The running group that the issuer names. -/
def State.act (s : State) : Option Act :=
  match s.issuer with
  | .group key g =>
    match tget s.teams key with
    | some t =>
      match t.groups[g]? with
      | some gr => some { key := key, g := g, team := t, grp := gr, word := gr.leg.getD gr.pos 0 }
      | none => none
    | none => none
  | _ => none

/-- A meaning that acts for the issuing group. -/
def State.asGroup (s : State) (f : Act → State) : Host.Outcome State Fault Refusal :=
  match s.act with
  | some a => .next (f a)
  | none => .fault .noIssuer

/-! ### Predicates and guards (R17, R143) -/

/-- A predicate of a thread; p7 is true. -/
def Thread.pred (t : Thread) (n : Nat) : Bool := decide (n = 7) || t.p.getLsbD n

/-- The value of guard predicate `gp` under sense `gs` (R17). -/
def Thread.guard (t : Thread) (gs : Bool) (gp : BitVec 3) : Bool := xor (t.pred gp.toNat) gs

/-- The guard of a P2 half: none, p0, p1, not p0 (R27). -/
def Thread.guardP2 (t : Thread) (g : BitVec 2) : Bool :=
  match g.toNat with
  | 0 => true
  | 1 => t.pred 0
  | 2 => t.pred 1
  | _ => !t.pred 0

/-- Writes a predicate; a write to p7 is discarded (R143). -/
def setPred (p : BitVec 7) (n : Nat) (b : Bool) : BitVec 7 :=
  if n ≥ 7 then p else if b then p ||| BitVec.twoPow 7 n else p &&& ~~~(BitVec.twoPow 7 n)

/-! ### Index registers (R137, R138) -/

def ixBase (x : Word32) : Nat := x.toNat % 256
def ixBound (x : Word32) : Nat := x.toNat / 2 ^ 8 % 256
def ixCursor (x : Word32) : Nat := x.toNat / 2 ^ 16 % 256
def ixStep (x : Word32) : Int := toSigned 5 (x.toNat / 2 ^ 24 % 32)
def ixMode (x : Word32) : Nat := x.toNat / 2 ^ 29 % 4
def setCursor (x : Word32) (c : Nat) : Word32 := (x &&& ~~~(0xFF0000 : Word32)) ||| BitVec.ofNat 32 (c % 256 * 2 ^ 16)

/-- The register that an indirect access of `w` registers reaches (R138). -/
def ixAccess (x : Word32) (w : Nat) : Except Cause Nat :=
  let c := ixCursor x
  let n := ixBound x
  if n = 0 ∨ (ixMode x = 0 ∧ c ≥ n) then .error .indexBound
  else
    let e := if ixMode x = 0 then c else if ixMode x = 1 then c % n else min c (n - 1)
    let r := ixBase x + e
    if e + w > n then .error .indexBound
    else if r % w ≠ 0 ∧ w > 1 then .error .badOperandCode
    else .ok r

/-- The cursor moved by `k` (R138). -/
def ixAdvance (x : Word32) (k : Int) : Nat :=
  let y : Int := (ixCursor x : Int) + k
  if ixMode x = 0 then (y % 256).toNat
  else if ixMode x = 1 then (y % (ixBound x : Int)).toNat
  else (max 0 (min y ((ixBound x : Int) - 1))).toNat

/-! ### Operand codes -/

/-- Where an operand stands for one lane. -/
inductive Loc where
  | v (r : Nat)
  | t (r : Nat)
  | s (r : Nat)
  | d (r : Nat)
  | zero
  | spec (k : Nat)
  /-- a neighbour's register; `gone` when the read returns 0 because no such thread lives there (R121) -/
  | near (key lane r : Nat)
  | nearNone (gone : Bool)
  deriving DecidableEq, Repr

/-- Whether a location is a team register, written once for the group (R133). -/
def Loc.isS : Loc → Bool
  | .s _ => true
  | _ => false

/-- One access of an operand: code, registers, keep-wait, last-use, neighbour select, written or read, and whether it names a
direction of `n` registers. -/
structure Acc where
  code : Code
  n : Nat
  kw : Bool
  lu : Bool
  nb : Nat
  write : Bool
  deriving DecidableEq, Repr

/-- The access of a field with a role; none for a field that names no register. -/
def roleAcc (c : Code) (lu kw : Bool) (nb : Nat) : Role → Option Acc
  | .src n | .vsrc n _ | .dirSrc n => some { code := c, n := n, kw := kw, lu := lu, nb := nb, write := false }
  | .dst n _ | .vdst n _ _ | .dirDst n _ => some { code := c, n := n, kw := true, lu := false, nb := 0, write := true }
  | .high => some { code := c + 1, n := 1, kw := true, lu := false, nb := 0, write := true }
  | _ => none

/-- The location of a direct or indirect code for a thread, with the index registers after the access (R20, R138). A fault
carries the index register as the accesses of the word before it have left it: its cursor is stepped, though the word steps no
cursor of a lane that faults (DESIGN CHOICE, log 58: R139 does not say which value w10 holds then). -/
def locate (ix : List Word32) (c : Code) (n : Nat) : Except (Cause × Word32) (Loc × List Word32) :=
  let k := c.toNat
  if k < 0xC0 then .ok (.v k, ix)
  else if k < 0xC6 then .ok (.t (k - 0xC0), ix)
  else if 0xC8 ≤ k ∧ k < 0xD8 then
    let i := k % 8
    let x := ix.getD i 0
    match ixAccess x n with
    | .error e => .error (e, x)
    | .ok r => .ok (.v r, if k ≥ 0xD0 then modAt ix i fun x => setCursor x (ixAdvance x (ixStep x)) else ix)
  else if 0xD8 ≤ k ∧ k < 0xE0 then .ok (.d (k - 0xD8), ix)
  else if 0xE0 ≤ k ∧ k < 0xF0 then .ok (.s (k - 0xE0), ix)
  else if k = 0xF0 then .ok (.zero, ix)
  else .ok (.spec (k - 0xF0), ix)

/-- The left (1) or right (2) neighbour of a lane of a team slot: core, slot and lane (R120). -/
def neighbour (core slot lane sel : Nat) : Option (Nat × Nat × Nat) :=
  if sel = 1 then
    if lane > 0 then some (core, slot, lane - 1)
    else if slot > 0 then some (core, slot - 1, 63)
    else if core % 12 > 0 then some (core - 1, 31, 63)
    else none
  else
    if lane < 63 then some (core, slot, lane + 1)
    else if slot < 31 then some (core, slot + 1, 0)
    else if core % 12 < 11 then some (core + 1, 0, 0)
    else none

/-- The launch of a team: its queue and packet (R121). -/
def State.launchOf (s : State) (t : Team) : Option (Nat × Nat) := (tget s.blocks t.block).map fun b => (b.qcb, b.packet)

/-- The neighbour's register that a tandem read reaches (R120, R121). A lane without a team slot has no neighbour. -/
def State.nearLoc (s : State) (t : Team) (lane sel r : Nat) : Loc :=
  if t.kind ≠ .vector then .nearNone false
  else
    match neighbour t.core t.slot lane sel with
    | none => .nearNone false
    | some (c, sl, l) =>
      match tget s.teams (teamKey c sl) with
      | none => .nearNone true
      | some t' =>
        if !t'.liveLane l then .nearNone true
        else if t'.asid ≠ t.asid ∨ s.launchOf t' ≠ s.launchOf t then .nearNone false
        else .near (teamKey c sl) l r

/-- The lanes of a stalled group whose neighbour read reaches a thread that `ends` selects, by team key and lane (R121). -/
def State.losing (s : State) (t : Team) (g : Group) (lanes : BitVec 64) (ends : Nat → Nat → Bool) : BitVec 64 :=
  let sel := (unpackF3 (g.leg.getD g.pos 0)).ns.toNat
  laneMask ((laneList lanes).filter fun l => match s.nearLoc t l sel 0 with | .near k j _ => ends k j | _ => false)

/-- Threads are about to exit, to be saved or to be discarded: those that wait for a register of one trap when they issue again
(R121). -/
def State.endTandem (s : State) (ends : Nat → Nat → Bool) : State :=
  { s with teams := s.teams.map fun e => (e.1, { e.2 with groups := e.2.groups.map fun g =>
      match g.hold with
      | .tandem lanes gone => { g with hold := .tandem lanes (gone ||| s.losing e.2 g lanes ends) }
      | _ => g }) }

/-! ### Reading -/

/-- The value of special operand `k` (R22). -/
def specValue (s : State) (t : Team) (lane k : Nat) : Word32 :=
  match k with
  | 1 => BitVec.ofNat 32 (match t.threads[lane]? with | some th => th.tid | none => 0)
  | 2 => BitVec.ofNat 32 lane
  | 3 => BitVec.ofNat 32 t.tix
  | 4 => if t.kind = .vector then BitVec.ofNat 32 (match tget s.blocks t.block with | some b => b.blk | none => 0) else 0
  | 5 => BitVec.ofNat 32 t.core
  | 6 => if t.kind = .vector then BitVec.ofNat 32 (match tget s.blocks t.block with | some b => b.nblk.getD 0 | none => 0) else 0
  | 7 => BitVec.ofNat 32 (hitchOf t.core)
  | _ => 0

/-- A direction register of a thread. -/
def Thread.dreg (t : Thread) (r : Nat) : DReg := (t.d[r]?).getD { comps := 0, norm := 0x8000, cfull := true, nfull := true }

/-- The eight words of 16 components. -/
def compWords (c : BitVec 256) : List Word32 := (List.range 8).map fun i => c.extractLsb' (32 * i) 32

/-- Whether a location is ready for a read or write of `n` registers (R124-R126, R134, R173). -/
def State.locReady (s : State) (t : Team) (th : Thread) (n : Nat) : Loc → Bool
  | .v r => (List.range n).all fun i => (th.vreg (r + i)).ready
  | .s r => (List.range n).all fun i => match t.s[r + i]? with | some x => x.full | none => true
  | .d r => (List.range n).all fun i => let x := th.dreg (r + i); x.cfull && x.nfull
  | .near key l r =>
    match tget s.teams key with
    | some t' => match t'.threads[l]? with
      | some u => (List.range n).all fun i => (u.vreg (r + i)).ready
      | none => true
    | none => true
  | _ => true

/-- The words that a read of `n` registers returns: for a direction its 8n component words and then the norm code. -/
def State.locRead (s : State) (t : Team) (th : Thread) (lane n : Nat) : Loc → List Word32
  | .v r => (List.range n).map fun i => (th.vreg (r + i)).read
  | .t r => (List.range n).map fun i => th.t.getD (r + i) 0
  | .s r => (List.range n).map fun i => match t.s[r + i]? with | some x => x.val | none => 0
  | .d r => ((List.range n).map fun i => compWords (th.dreg (r + i)).comps).flatten ++ [(th.dreg r).norm.setWidth 32]
  | .zero | .nearNone _ => List.replicate n 0
  | .spec k => List.replicate n (specValue s t lane k)
  | .near key l r =>
    match tget s.teams key with
    | some t' => match t'.threads[l]? with
      | some u => (List.range n).map fun i => (u.vreg (r + i)).read
      | none => List.replicate n 0
    | none => List.replicate n 0

/-! ### Gathering the operands of a lane -/

/-- What a lane has read: the words of each field that is read, the destinations, the index registers after its accesses, and
the registers that its last-use bits kill. -/
structure LaneIn where
  lane : Nat
  vals : List (List Word32)
  dst : List (Loc × Nat)
  ix : List Word32
  kills : List (Loc × Nat)
  deriving DecidableEq, Repr

/-- The outcome of gathering for a lane. -/
inductive Got where
  /-- its guard fails, or the lane has completed the instruction -/
  | skip
  | fault (f : LaneFault)
  /-- it waits, with what it has gathered; on a neighbour's register when `near` -/
  | wait (near : Bool) (i : LaneIn)
  | ok (i : LaneIn)
  deriving DecidableEq, Repr

/-- The lanes of the issuing group whose neighbour has exited, was saved or was discarded while they waited for it (R121). -/
def Act.gone (a : Act) : BitVec 64 := match a.grp.hold with | .tandem _ gone => gone | _ => 0

/-- What a lane has gathered, when it waits (for a neighbour under `some true`) and when it does not. -/
def LaneIn.got (i : LaneIn) : Option Bool → Got
  | some near => .wait near i
  | none => .ok i

/-- One access of a lane, from the index registers that the access before it has left (R125, R126, R138, R139). -/
def State.gatherAcc (s : State) (a : Act) (th : Thread) (lane : Nat) (x : Acc) (i : LaneIn) (waits : Option Bool) : Got :=
  let near := decide (x.nb ≠ 0)
  let place : Except (Cause × Word32) (Loc × List Word32) :=
    if near then .ok (s.nearLoc a.team lane x.nb x.code.toNat, i.ix) else locate i.ix x.code x.n
  match place with
  | .error (c, v) => .fault (laneFault lane c (x.code.setWidth 32) (v.setWidth 64))
  | .ok (l, ix) =>
    let ready := s.locReady a.team th x.n l
    if (near && a.gone.getLsbD lane) || (!ready && !x.kw && !l.isS) then .fault (laneFault lane .emptySource (x.code.setWidth 32) 0)
    else
      let waits := if ready then waits else some (near || decide (waits = some true))
      if x.write then { i with dst := i.dst ++ [(l, x.n)], ix := ix }.got waits
      else
        { i with
          vals := i.vals ++ [s.locRead a.team th lane x.n l], ix := ix
          kills := if x.lu then i.kills ++ [(l, x.n)] else i.kills }.got waits

/-- One access added to what a lane has gathered. A lane that waits goes on to its later fields: the first of them that finds an
empty register without keep-wait traps, and w9 names that field (DESIGN CHOICE, log 59: R125 does not say whether an earlier
empty field with keep-wait counts as the first). -/
def State.gatherOne (s : State) (a : Act) (th : Thread) (lane : Nat) (x : Acc) (got : Got) : Got :=
  match got with
  | .ok i => s.gatherAcc a th lane x i none
  | .wait near i => s.gatherAcc a th lane x i (some near)
  | g => g

/-- The operands of a lane, fields in the order A, B, C, D (R138). -/
def State.gather (s : State) (a : Act) (lane : Nat) (pass : Bool) (acc : List Acc) : Got :=
  match a.team.threads[lane]? with
  | none => .skip
  | some th =>
    if pass then acc.foldl (fun g x => s.gatherOne a th lane x g) (.ok { lane := lane, vals := [], dst := [], ix := th.ix, kills := [] })
    else .skip

/-! ### Writing -/

/-- Writes words to registers of one lane, or of the team (R127, R133). -/
def Team.writeLoc (t : Team) (lane : Nat) (l : Loc) (ws : List Word32) : Team :=
  match l with
  | .v r => t.updThread lane fun th =>
      { th with v := (List.range ws.length).foldl (fun v i => modAt v (r + i) fun _ => VReg.write (ws.getD i 0)) th.v }
  | .t r => t.updThread lane fun th =>
      { th with t := (List.range ws.length).foldl (fun v i => modAt v (r + i) fun _ => ws.getD i 0) th.t }
  | .s r => { t with s := (List.range ws.length).foldl (fun v i => modAt v (r + i) fun _ => { val := ws.getD i 0, full := true }) t.s }
  | _ => t

/-- Marks the registers of a long-latency destination empty (R124, R134, R173). -/
def Team.emptyLoc (t : Team) (lane n : Nat) (l : Loc) : Team :=
  match l with
  | .v r => t.updThread lane fun th =>
      { th with v := (List.range n).foldl (fun v i => modAt v (r + i) VReg.empty) th.v }
  | .s r => { t with s := (List.range n).foldl (fun v i => modAt v (r + i) fun x => { x with full := false }) t.s }
  | .d r => t.updThread lane fun th =>
      { th with d := (List.range n).foldl (fun v i => modAt v (r + i) fun x => { x with cfull := false, nfull := false }) th.d }
  | _ => t

/-- Kills v registers of a lane (R127). -/
def Team.killLoc (t : Team) (lane n : Nat) (l : Loc) : Team :=
  match l with
  | .v r => t.updThread lane fun th => { th with v := (List.range n).foldl (fun v i => modAt v (r + i) VReg.kill) th.v }
  | _ => t

/-- Kills the registers of one last-use field, a neighbour's among them (R121, R127). -/
def State.killOne (s : State) (key lane : Nat) (e : Loc × Nat) : State :=
  match e.1 with
  | .near k l r => s.updTeam k fun t => t.killLoc l e.2 (.v r)
  | l => s.updTeam key fun t => t.killLoc lane e.2 l

/-- Index registers and last-use kills of a lane that performs its word, after every read of the word (R24, R138). -/
def State.commitLane (s : State) (key : Nat) (i : LaneIn) : State :=
  let s := s.updTeam key fun t => t.updThread i.lane fun th => { th with ix := i.ix }
  i.kills.foldl (fun s e => s.killOne key i.lane e) s

/-- Writes a result to a destination of a lane; a team register takes the value of the group's lowest lane alone (R133). -/
def State.writeDst (s : State) (key lane : Nat) (lead : Bool) (l : Loc) (ws : List Word32) : State :=
  if l.isS && !lead then s else s.updTeam key fun t => t.writeLoc lane l ws

/-- Where a pending result goes, for a location of `n` registers. -/
def Loc.dest (n : Nat) : Loc → Dest
  | .v r => .v r n
  | .s r => .s r n
  | .d r => .dirc r n
  | _ => .none

/-- Issues a long-latency result: the destination is empty until RESULT_WRITEBACK writes it (R40, R124, R134). A destination
0xF0 marks nothing; another lane's result for a team register is discarded. -/
def State.pendDst (s : State) (key lane : Nat) (lead : Bool) (l : Loc) (n : Nat) (ws : List Word32) (w : Wait) : State :=
  let d := if l.isS && !lead then .none else l.dest n
  if d = .none ∧ w = .ready then s
  else
    { s.updTeam key fun t => { (if d = .none then t else t.emptyLoc lane n l) with
        pend := t.pend ++ [{ lane := lane, dest := d, words := ws, killed := [], newer := [], wait := w, order := s.nextId }] } with
      nextId := s.nextId + 1 }

/-! ### The group after an instruction -/

/-- Updates the issuing group. -/
def State.updGroup (s : State) (key g : Nat) (f : Group → Group) : State :=
  s.updTeam key fun t => { t with groups := modAt t.groups g f }

/-- The group moves past the word it has performed; a group without lanes is gone. -/
def State.advance (s : State) (a : Act) : State :=
  s.updTeam a.key fun t =>
    match t.groups[a.g]? with
    | some g =>
      if g.lanes = 0 then { t with groups := t.groups.eraseIdx a.g }
      else { t with groups := modAt t.groups a.g fun g =>
              { g with pos := g.pos + 1, idx := g.idx + counts a.word, hold := .none } }
    | none => t

/-- The group stays at its word; a group without lanes is gone. -/
def State.holdAt (s : State) (a : Act) (h : Hold) : State :=
  s.updTeam a.key fun t =>
    match t.groups[a.g]? with
    | some g =>
      if g.lanes = 0 then { t with groups := t.groups.eraseIdx a.g }
      else { t with groups := modAt t.groups a.g fun g =>
              { g with hold := h, since := if g.hold = .none then s.clock else g.since } }
    | none => t

/-- The point of the issuing group, and the point after its word. -/
def Act.here (a : Act) : Point := .instr a.grp.start a.grp.leg a.grp.pos a.grp.idx
def Act.after (a : Act) : Point := .instr a.grp.start a.grp.leg (a.grp.pos + 1) (a.grp.idx + counts a.word)

/-- What a record of a fault inside the leg says of the issuing word (R349). -/
def Act.trapAt (a : Act) (dest : Code) : TrapAt where
  word := a.word
  idx := a.grp.idx
  dest := dest
  start := a.grp.start
  mid := true
  coll := false
  fetch := false
  detail := true
  addrs := []

/-- One record for the faulting lanes of the group (R351): the lead lane's fault stands in w0, w9 and w10-w11. -/
def State.faultLanes (s : State) (a : Act) (dest : Code) (fs : List LaneFault) : State :=
  match fs with
  | [] => s
  | f :: _ => s.trap a.key (a.trapAt dest) (laneMask (fs.map (·.lane))) fs f fun _ => a.here

/-- One collective record for every lane of `all`, reporting the lowest faulting lane (R115, R224, R275, R349). -/
def State.faultAll (s : State) (a : Act) (dest : Code) (all : List Nat) (fs : List LaneFault) (lead : LaneFault)
    (addrs : List (Nat × Word64)) : State :=
  s.trap a.key { a.trapAt dest with coll := true, addrs := addrs } (laneMask all) fs lead fun _ => a.here

/-! ### How a word issues -/

/-- The effect of one value operation on one thread. -/
inductive Eff where
  /-- D := words -/
  | write (ws : List Word32)
  /-- D := words, written when the result arrives (R40) -/
  | long (ws : List Word32)
  /-- predicates p0-p6 -/
  | preds (p : BitVec 7)
  /-- index register `n` -/
  | ix (n : Nat) (x : Word32)
  /-- the meeting register -/
  | mt (x : Word64)
  /-- a direction: components and norm entry of D, written now -/
  | dir (comps : List Word32) (norm : BitVec 16)
  /-- as `dir`, written when the result arrives -/
  | dirLong (comps : List Word32) (norm : BitVec 16)
  /-- the norm entry of D alone -/
  | norm (n : BitVec 16)
  /-- DIRRANGE of the team (R175) -/
  | dirRange
  /-- the lane joins or leaves a mask (R110) -/
  | join (m : Nat)
  | leave (m : Nat)
  /-- the mask takes the group's value (R110) -/
  | mask (m : Nat) (x : Word64)
  /-- registers `first` to `first + n - 1` dead and full, their pending results discarded (R129) -/
  | kill (first n : Nat)
  deriving DecidableEq, Repr

/-- The member code of a cross-lane word (R112). -/
def memberCode (w : Word64) : Nat := w.toNat % 16

/-- Writes a mask: bits of lanes that are not live stay 0 (R109), and the threads that leave it leave the rendezvous that are
held on it (R112). -/
def Team.setMask (t : Team) (n : Nat) (x : BitVec 64) : Team :=
  let x := x &&& t.liveMask
  let gone := t.m.getD n 0 &&& ~~~x
  { t with
    m := modAt t.m n fun _ => x
    groups := t.groups.map fun g =>
      match g.hold with
      | .cross snap left => if memberCode (g.leg.getD g.pos 0) = n then { g with hold := .cross snap (left ||| gone) } else g
      | _ => g }

/-- What the effect of a value operation may read: the state, the team, the thread and the gathered words. -/
structure Env where
  s : State
  team : Team
  lane : Nat
  th : Thread
  /-- the index registers after the accesses of the word -/
  ix : List Word32
  vals : List (List Word32)

/-- The words of the `i`-th read field. -/
def Env.val (e : Env) (i : Nat) : List Word32 := e.vals.getD i []

/-- One operation of a word: an F3 or X word is one, a P2 word two (R30). -/
structure Micro where
  guard : Thread → Bool
  acc : List Acc
  /-- the effects, or a trap with its w9 and address -/
  eff : Env → Except (Cause × Word32 × Word64) (List Eff)
  /-- the effects on a thread whose guard fails (R144) -/
  els : Thread → List Eff

/-- The 16 components of a direction register from its eight words. -/
def wordsComps (ws : List Word32) : BitVec 256 := BitVec.ofNat 256 (ofBytes (wordsBytes (ws.take 8)))

/-- Writes a direction of `n` registers: components, the norm entry of the first and 0x8000 in the later ones (R172). -/
def writeDir (d : List DReg) (r n : Nat) (comps : Option (List Word32)) (norm : Option (BitVec 16)) : List DReg :=
  (List.range n).foldl (fun d i => modAt d (r + i) fun x =>
    let x := match comps with
      | some ws => { x with comps := wordsComps (ws.drop (8 * i)), cfull := true }
      | none => x
    match norm with
    | some v => { x with norm := if i = 0 then v else 0x8000, nfull := true }
    | none => x) d

/-- Applies one effect for a lane. -/
def State.applyEff (s : State) (key lane : Nat) (lead : Bool) (dst : Loc × Nat) (e : Eff) : State :=
  match e with
  | .write ws => s.writeDst key lane lead dst.1 ws
  | .long ws => s.pendDst key lane lead dst.1 dst.2 ws .ready
  | .preds p => s.updTeam key fun t => t.updThread lane fun th => { th with p := p }
  | .ix n x => s.updTeam key fun t => t.updThread lane fun th => { th with ix := modAt th.ix n fun _ => x }
  | .mt x => s.updTeam key fun t => t.updThread lane fun th => { th with mt := x }
  | .dir c n =>
    match dst.1 with
    | .d r => s.updTeam key fun t => t.updThread lane fun th => { th with d := writeDir th.d r dst.2 (some c) (some n) }
    | _ => s
  | .norm n =>
    match dst.1 with
    | .d r => s.updTeam key fun t => t.updThread lane fun th => { th with d := writeDir th.d r dst.2 none (some n) }
    | _ => s
  | .dirLong c n =>
    match dst.1 with
    | .d r =>
      let p (d : Dest) (ws : List Word32) (o : Nat) : Pend := { lane := lane, dest := d, words := ws, killed := [], newer := [], wait := .ready, order := o }
      { s.updTeam key fun t => { t.emptyLoc lane dst.2 dst.1 with
          pend := t.pend ++ [p (.dirc r dst.2) c s.nextId, p (.dirn r dst.2) [n.setWidth 32] (s.nextId + 1)] } with
        nextId := s.nextId + 2 }
    | _ => s
  | .dirRange => s.updTeam key fun t => { t with dirRange := true }
  | .join m => s.updTeam key fun t => t.setMask m (t.m.getD m 0 ||| BitVec.twoPow 64 lane)
  | .leave m => s.updTeam key fun t => t.setMask m (t.m.getD m 0 &&& ~~~(BitVec.twoPow 64 lane))
  | .mask m x => if lead then s.updTeam key fun t => t.setMask m x else s
  | .kill first n =>
    s.updTeam key fun t =>
      let t := t.killLoc lane n (.v first)
      { t with pend := t.pend.map fun p =>
          match p.dest with
          | .v r k =>
            if p.lane = lane then
              { p with killed := p.killed ++ ((List.range k).map (r + ·)).filter fun x => decide (first ≤ x ∧ x < first + n) }
            else p
          | _ => p }

/-- A lane of a group with what its operations gathered. -/
structure LaneOps where
  lane : Nat
  got : List Got
  deriving DecidableEq, Repr

def Got.fault? : Got → Option LaneFault
  | .fault f => some f
  | _ => none

def Got.waits : Got → Bool
  | .wait .. => true
  | _ => false

def Got.waitsNear : Got → Bool
  | .wait b _ => b
  | _ => false

/-- Gathers every operation of a word for every lane of the group. -/
def State.gatherAll (s : State) (a : Act) (ms : List Micro) : List LaneOps :=
  (laneList a.grp.lanes).map fun l =>
    { lane := l
      got := ms.map fun m => s.gather a l (match a.team.threads[l]? with | some th => m.guard th | none => false) m.acc }

/-- The effects of one operation for one lane, or its fault. -/
def State.effsOf (s : State) (a : Act) (m : Micro) (lane : Nat) (g : Got) : Except LaneFault (List Eff) :=
  match a.team.threads[lane]? with
  | none => .ok []
  | some th =>
    match g with
    | .ok i =>
      match m.eff { s := s, team := a.team, lane := lane, th := th, ix := i.ix, vals := i.vals } with
      | .ok es => .ok es
      | .error (c, w9, ad) => .error (laneFault lane c w9 ad)
    | .skip => .ok (m.els th)
    | .fault f => .error f
    | .wait .. => .ok []

/-- The lowest lane of the group that performs operation `k` (R133). -/
def leadOf (ls : List LaneOps) (k : Nat) : Option Nat :=
  (ls.find? fun l => match l.got.getD k .skip with | .ok _ => true | _ => false).map (·.lane)

/-- The fault of a lane in gathering, with its half; the high half's when both fault. -/
def LaneOps.fault? (l : LaneOps) : Option LaneFault :=
  l.got.zipIdx.findSome? fun e => e.1.fault?.map fun f => { f with half := e.2 }

/-- The fault among the effects of a lane's operations, with its half. -/
def effFault (l : List (Except LaneFault (List Eff))) : Option LaneFault :=
  l.zipIdx.findSome? fun e => match e.1 with | .error f => some { f with half := e.2 } | .ok _ => none

/-- One record for the faulting lanes of a word of value operations: it names the half in which the lead lane faults, with its
destination (R349, R351). -/
def State.faultValue (s : State) (a : Act) (dests : List Code) (fs : List LaneFault) : State :=
  match fs with
  | [] => s
  | f :: _ => s.trap a.key { a.trapAt (dests.getD f.half 0xF0) with idx := a.grp.idx + f.half } (laneMask (fs.map (·.lane))) fs f fun _ => a.here

/-- Issues a word of value operations for its group: every read, then the last-use kills, then every write (R24, R30). Faulting
lanes are parked with one record; while another lane waits the word does not issue, and the group stalls in place (R125,
R139). -/
def State.issueValue (s : State) (a : Act) (dests : List Code) (ms : List Micro) : State :=
  let ls := s.gatherAll a ms
  let fine := ls.filter fun l => l.fault?.isNone
  if fine.any fun l => l.got.any Got.waits then
    let near := laneMask ((fine.filter fun l => l.got.any Got.waitsNear).map (·.lane))
    (s.faultValue a dests (ls.filterMap LaneOps.fault?)).holdAt a (if near = 0 then .stall else .tandem near a.gone)
  else
    let effs := fine.map fun l => (l, (ms.zip l.got).map fun p => s.effsOf a p.1 l.lane p.2)
    let go := effs.filter fun e => (effFault e.2).isNone
    let faults := ls.filterMap fun l =>
      match l.fault? with
      | some f => some f
      | none => (effs.find? fun e => decide (e.1.lane = l.lane)).bind fun e => effFault e.2
    let s1 := go.foldl (fun s e => e.1.got.foldl (fun s g =>
      match g with | .ok i => s.commitLane a.key i | _ => s) s) s
    let ops := go.map (·.1)
    let s2 := go.foldl (fun s e =>
      (List.range ms.length).foldl (fun s k =>
        let dst := match e.1.got.getD k .skip with | .ok i => i.dst.getD 0 (.zero, 0) | _ => (.zero, 0)
        match e.2.getD k (.ok []) with
        | .ok es => es.foldl (fun s x => s.applyEff a.key e.1.lane (decide (leadOf ops k = some e.1.lane)) dst x) s
        | .error _ => s) s) s1
    (s2.faultValue a dests faults).advance a

/-- The outcome of a lane of an instruction that performs lane by lane. -/
inductive LaneRes where
  | done (s : State)
  /-- it traps with no effect on the lane -/
  | fault (s : State) (f : LaneFault)
  /-- it waits, its reads not committed -/
  | wait (s : State)
  /-- it has performed, and traps after the instruction (R311) -/
  | late (s : State) (f : LaneFault)

/-- The lanes that have completed the held instruction. -/
def Act.done (a : Act) : BitVec 64 := match a.grp.hold with | .wait d => d | _ => 0

/-- The lanes for which the group issues an instruction: those whose guard passes, with the ones that have completed it, ascending. -/
def Act.issued (a : Act) (guard : Thread → Bool) : List Nat :=
  (laneList (a.grp.lanes ||| a.done)).filter fun l => match a.team.threads[l]? with | some th => guard th | none => false

/-- The lanes of the group in ascending order with the operands of one operation; a lane that has completed a held
instruction is skipped. -/
def State.gatherOp (s : State) (a : Act) (guard : Thread → Bool) (acc : List Acc) : List LaneOps :=
  (laneList (a.grp.lanes &&& ~~~a.done)).map fun l =>
    { lane := l, got := [s.gather a l (match a.team.threads[l]? with | some th => guard th | none => false) acc] }

/-- What the lanes of a group have come to: the state, faults, faults after performing, lanes that wait and lanes that are
done. -/
structure LaneRun where
  s : State
  faults : List LaneFault
  late : List LaneFault
  waits : List Nat
  done : BitVec 64

/-- The lane whose value a team register takes: the lowest lane for which the instruction issues, but for those that have
faulted (R133). Where that lane waits and faults after a higher lane has completed, no lane writes the register: the higher one has
performed without it (DESIGN CHOICE, log 35). -/
def LaneRun.lead (r : LaneRun) (issued : List Nat) : Option Nat :=
  issued.find? fun l => !(r.faults.any fun f => decide (f.lane = l))

/-- One lane of an instruction that performs lane by lane, for the lanes `issued`. -/
def LaneRun.lane (r : LaneRun) (inOrder : Bool) (issued : List Nat) (body : LaneIn → Bool → State → LaneRes) (l : LaneOps) :
    LaneRun :=
  match l.got.getD 0 .skip with
  | .ok i =>
    if inOrder && !r.waits.isEmpty then { r with waits := r.waits ++ [l.lane] }
    else
      match body i (decide (r.lead issued = some l.lane)) r.s with
      | .done s => { r with s := s, done := r.done ||| BitVec.twoPow 64 l.lane }
      | .fault s f => { r with s := s, faults := r.faults ++ [f] }
      | .wait s => { r with s := s, waits := r.waits ++ [l.lane] }
      | .late s f => { r with s := s, late := r.late ++ [f], done := r.done ||| BitVec.twoPow 64 l.lane }
  | .fault f => { r with faults := r.faults ++ [f] }
  | _ => { r with done := r.done ||| BitVec.twoPow 64 l.lane }

/-- Parks lanes that have performed their instruction, after it. -/
def State.faultAfter (s : State) (a : Act) (dest : Code) (fs : List LaneFault) : State :=
  match fs with
  | [] => s
  | f :: _ => s.trap a.key (a.trapAt dest) (laneMask (fs.map (·.lane))) fs f fun _ => a.after

/-- Issues an instruction that performs lane by lane, in ascending lane order: a faulting lane has no effect, and a lane that
waits holds the group until it completes; with `inOrder` the lanes after it wait for it. The body of a lane commits the
lane's reads (`commitLane`) once it neither faults nor waits. `ops` may name the fault of a lane's sources more closely. -/
def State.issueLanes (s : State) (a : Act) (dest : Code) (guard : Thread → Bool) (acc : List Acc) (inOrder : Bool)
    (body : LaneIn → Bool → State → LaneRes) (ops : LaneOps → LaneOps := id) : State :=
  let ls := (s.gatherOp a guard acc).map ops
  let fine := ls.filter fun l => (l.got.findSome? Got.fault?).isNone
  if fine.any fun l => l.got.any Got.waits then
    (s.faultLanes a dest (ls.filterMap fun l => l.got.findSome? Got.fault?)).holdAt a
      (match a.grp.hold with | .wait d => .wait d | _ => .stall)
  else
    let r := ls.foldl (fun r l => LaneRun.lane r inOrder (a.issued guard) body l)
      { s := s, faults := [], late := [], waits := [], done := a.done }
    let s1 := (r.s.faultLanes a dest r.faults).faultAfter a dest r.late
    if r.waits.isEmpty then s1.advance a else s1.holdAt a (.wait r.done)

/-- Issues a collective instruction: when any lane whose guard passes faults, none has an effect and one record parks them all
(R224, R275), at once when a source of one is empty without keep-wait (R125); `held` says whether a lane's access waits behind a held
write, `check` the fault of a lane and its address, `body` its effect. -/
def State.issueAll (s : State) (a : Act) (dest : Code) (guard : Thread → Bool) (acc : List Acc) (held : LaneIn → Bool)
    (check : LaneIn → State → State × Option LaneFault × Word64) (body : LaneIn → Bool → State → State) : State :=
  let ls := s.gatherOp a guard acc
  let inG := ls.filter fun l => !(match l.got.getD 0 .skip with | .skip => true | _ => false)
  let waits (l : LaneOps) : Bool := match l.got.getD 0 .skip with | .ok i => held i | g => g.waits
  if ls.all (fun l => (l.got.findSome? Got.fault?).isNone) && ls.any waits then s.holdAt a .stall
  else
    let r := ls.foldl (fun (st : State × List LaneFault × List (Nat × Word64)) l =>
      match l.got.getD 0 .skip with
      | .ok i =>
        match check i st.1 with
        | (s, some f, ad) => (s, st.2.1 ++ [f], st.2.2 ++ [(l.lane, ad)])
        | (s, none, ad) => (s, st.2.1, st.2.2 ++ [(l.lane, ad)])
      | .fault f => (st.1, st.2.1 ++ [f], st.2.2)
      | _ => st) (s, [], [])
    match r.2.1 with
    | lead :: _ => (r.1.faultAll a dest (inG.map (·.lane)) r.2.1 lead r.2.2).advance a
    | [] =>
      (ls.foldl (fun s l =>
        match l.got.getD 0 .skip with
        | .ok i => body i (decide ((a.issued guard).head? = some l.lane)) s
        | _ => s) r.1).advance a

/-! ### Operations of the word classes -/

/-- The accesses of an F3 word in the order A, B, C, D (R138), from its form. -/
def f3Acc (op : Nat) (w : F3) : List Acc :=
  match f3Sig op w with
  | none => []
  | some g =>
    [roleAcc w.a (w.lu.getLsbD 2) (w.kw.getLsbD 2) w.ns.toNat g.a,
     roleAcc w.b (w.lu.getLsbD 1) (w.kw.getLsbD 1) 0 g.b,
     roleAcc w.c (w.lu.getLsbD 0) (w.kw.getLsbD 0) 0 g.c,
     roleAcc w.d false false 0 g.d].filterMap id

/-- The accesses of an X word: A, then D. -/
def xAcc (op : Nat) (w : XW) : List Acc :=
  match xSig op w with
  | none => []
  | some g => [roleAcc w.a w.lu w.kw 0 g.a, roleAcc w.d false w.kw 0 g.d].filterMap id

/-- The destination code of an F3 or X word in a record (R349). -/
def f3Dest (op : Nat) (w : F3) : Code := match f3Sig op w with | some g => destOf w.d g.d | none => 0xF0
def xDest (op : Nat) (w : XW) : Code := match xSig op w with | some g => destOf w.d g.d | none => 0xF0

/-- A value F3 word as one operation with a result. -/
def f3Micro (op : Nat) (w : F3) (eff : Env → Except (Cause × Word32 × Word64) (List Eff)) : Micro where
  guard := fun th => th.guard w.gs w.gp
  acc := f3Acc op w
  eff := eff
  els := fun _ => []

/-- An F3 word that writes a result computed from the words it reads. -/
def State.f3Value (s : State) (op : Nat) (w : F3) (f : List (List Word32) → List Word32) :
    Host.Outcome State Fault Refusal :=
  s.asGroup fun a => s.issueValue a [f3Dest op w] [f3Micro op w fun e => .ok [.write (f e.vals)]]

/-- As `f3Value` for a long-latency instruction (R40). -/
def State.f3Long (s : State) (op : Nat) (w : F3) (f : List (List Word32) → List Word32) :
    Host.Outcome State Fault Refusal :=
  s.asGroup fun a => s.issueValue a [f3Dest op w] [f3Micro op w fun e => .ok [.long (f e.vals)]]

/-- An F3 word with effects of its own. -/
def State.f3Effect (s : State) (op : Nat) (w : F3) (eff : Env → Except (Cause × Word32 × Word64) (List Eff)) :
    Host.Outcome State Fault Refusal :=
  s.asGroup fun a => s.issueValue a [f3Dest op w] [f3Micro op w eff]

/-- An X word with effects of its own. -/
def State.xEffect (s : State) (op : Nat) (w : XW) (eff : Env → Except (Cause × Word32 × Word64) (List Eff))
    (els : Thread → List Eff := fun _ => []) : Host.Outcome State Fault Refusal :=
  s.asGroup fun a => s.issueValue a [xDest op w]
    [{ guard := fun th => th.guard w.gs w.gp, acc := xAcc op w, eff := eff, els := els }]

/-- The accesses of a P2 half: A, B, then D (R30). -/
def p2Acc (o : P2Op) (h : P2H) : List Acc :=
  (if p2ReadsA o then [{ code := p2Code h.d, n := 1, kw := h.kw, lu := h.luA, nb := 0, write := false : Acc }] else [])
    ++ (if p2ReadsB o then [{ code := p2Code h.b, n := 1, kw := h.kw, lu := h.luB, nb := 0, write := false : Acc }] else [])
    ++ (if p2Writes o then [{ code := p2Code h.d, n := 1, kw := true, lu := false, nb := 0, write := true : Acc }] else [])

/-! ### Lanes that wait at an AWAIT (R257) -/

/-- The registration of a lane of the issuing team. -/
def State.watchOf (s : State) (key lane : Nat) : Option Watch :=
  s.watches.find? fun w => !w.engine && decide (w.key = key ∧ w.lane = lane)

/-- A destination register that its waiting AWAIT.ret had marked empty, as it stood before (R40, R257). -/
def Team.refill (t : Team) (lane : Nat) (d : Dest) : Team :=
  match d with
  | .v r n => t.updThread lane fun th => { th with v := (List.range n).foldl (fun v i => modAt v (r + i) fun x => { x with full := true }) th.v }
  | .s r n => { t with s := (List.range n).foldl (fun v i => modAt v (r + i) fun x => { x with full := true }) t.s }
  | _ => t

/-- Withdraws the registration of a lane; its destination is full again. -/
def State.dropWatch (s : State) (key lane : Nat) : State :=
  let s := match s.watchOf key lane with | some w => s.updTeam key fun t => t.refill lane w.dest | none => s
  { s with watches := s.watches.filter fun w => w.engine || !decide (w.key = key ∧ w.lane = lane) }

/-- Marks the destination of a waiting AWAIT.ret empty (R40, R257). -/
def State.emptyDest (s : State) (key lane : Nat) (d : Dest) : State :=
  match d with
  | .v r n => s.updTeam key fun t => t.emptyLoc lane n (.v r)
  | .s r n => s.updTeam key fun t => t.emptyLoc lane n (.s r)
  | _ => s

/-- The destinations that the waiting lanes of the issuing group have marked empty, full again. -/
def State.refillGroup (s : State) : State :=
  match s.issuer with
  | .group key g =>
    match (tget s.teams key).bind fun t => t.groups[g]? with
    | some gr => (laneList gr.lanes).foldl (fun s l =>
        match s.watchOf key l with | some w => s.updTeam key fun t => t.refill l w.dest | none => s) s
    | none => s
  | _ => s

end Sys2Proof.Machine
end

