-- ==== Sys2Proof/Machine/Flags.lean ====
section
/-! DEFINITION. Every predicate computation: the conditions of the compares, the combining types, PLOP and PMOV (R143-R149). -/

namespace Sys2Proof.Machine

/-- An integer condition code on two values of `n` bits (R145). -/
def intCond (cond : Nat) (sgn : Bool) (n : Nat) (a b : Nat) : Bool :=
  let lt := if sgn then decide (toSigned n a < toSigned n b) else decide (a < b)
  let eq := decide (a = b)
  match cond with
  | 0 => eq
  | 1 => !eq
  | 2 => lt
  | 3 => lt || eq
  | 4 => !lt && !eq
  | _ => !lt

/-- Whether a numeric value is below another, −0 equal to +0 (R146). -/
def fpLess (a b : FVal) : Bool := !(a.isZero && b.isZero) && a.below b

/-- An FP32 condition code (R146): codes 0 to 6 are false and 7 to 13 true of unordered sources. -/
def fpCond (cond : Nat) (fz : Bool) (a b : Word32) : Bool :=
  let x := fp32.flushIn fz (fp32.read a.toNat)
  let y := fp32.flushIn fz (fp32.read b.toNat)
  let nan := x.isNan || y.isNan
  let lt := fpLess x y
  let gt := fpLess y x
  let eq := !lt && !gt
  match cond with
  | 0 => !nan && eq
  | 1 => !nan && !eq
  | 2 => !nan && lt
  | 3 => !nan && (lt || eq)
  | 4 => !nan && gt
  | 5 => !nan && (gt || eq)
  | 6 => !nan
  | 7 => nan
  | 8 => nan || eq
  | 9 => nan || !eq
  | 10 => nan || lt
  | 11 => nan || lt || eq
  | 12 => nan || gt
  | _ => nan || gt || eq

/-- Both predicates of a compare with result `c` under a combining type: both old values are read first, the first predicate is
written first (R144). -/
def combine (p : BitVec 7) (old : Nat → Bool) (p1 p2 ty : Nat) (c : Bool) : BitVec 7 :=
  let q := xor c (decide (ty % 2 = 1))
  let (x1, x2) :=
    match ty / 2 with
    | 0 => (c, !c)
    | 1 => (old p1 && q, old p2 && q)
    | 2 => (old p1 || q, old p2 || q)
    | _ => (old p1 && q, old p2 || q)
  setPred (setPred p p1 x1) p2 x2

/-- A compare's predicates on a thread whose guard passes. -/
def Thread.combine (t : Thread) (p1 p2 ty : Nat) (c : Bool) : BitVec 7 := Machine.combine t.p t.pred p1 p2 ty c

/-- The effect of a compare on a thread whose guard fails: .setz clears both predicates (R144). -/
def setzElse (p1 p2 ty : Nat) (t : Thread) : List Eff :=
  if ty = 1 then [.preds (setPred (setPred t.p p1 false) p2 false)] else []

/-- PLOP: the truth table's bit at the three predicates, and its inverse (R148). -/
def plopPreds (t : Thread) (p1 p2 : Nat) (a b c : Nat) (table : BitVec 8) : BitVec 7 :=
  let f := table.getLsbD (4 * (t.pred a).toNat + 2 * (t.pred b).toNat + (t.pred c).toNat)
  setPred (setPred t.p p1 f) p2 (!f)

/-- PMOV.get: p6 to p0 in [6:0] and 1 in [7] (R149). -/
def predWord (t : Thread) : Word32 := (t.p.setWidth 32) ||| 0x80

/-- PMOV.set: the predicates of the mask from a word (R149). -/
def predSet (t : Thread) (mask : BitVec 7) (x : Word32) : BitVec 7 := (t.p &&& ~~~mask) ||| (x.setWidth 7 &&& mask)

end Sys2Proof.Machine
end

