-- ==== Sys2Proof/Machine/Int.lean ====
section
/-! DEFINITION. The integer, move and compare instructions: G0, G1 and the X immediates
(spec/06_arithmetic_pipes.md R153-R157, R168; spec/05_register_files.md R135, R136, R145-R149). -/

namespace Sys2Proof.Machine

/-! ### Exact integer results on `n` bits -/

/-- A number as the words of a result of 32 or 64 bits. -/
def natWords (n : Nat) (x : Nat) : List Word32 :=
  if n = 64 then words64 (BitVec.ofNat 64 x) else [BitVec.ofNat 32 x]

/-- The unsigned value of a source of `n` bits. -/
def srcNat (n : Nat) (ws : List Word32) : Nat := if n = 64 then (lo64 ws).toNat else (lo32 ws).toNat

/-- The signed value of a source of `n` bits. -/
def srcInt (n : Nat) (ws : List Word32) : Int := toSigned n (srcNat n ws)

/-- An exact integer modulo 2^n. -/
def wrapInt (n : Nat) (x : Int) : Nat := ofSigned n x

/-- IADD and ISUB (R153): wrap, .sat clamps to the signed range, .usat reads unsigned sources and clamps to 0 to 2^n − 1. -/
def addSub (md : BitVec 8) (sub : Bool) (a b : List Word32) : List Word32 :=
  let n := if md.getLsbD 0 then 64 else 32
  let top : Int := 2 ^ (n - 1)
  match mdField md 2 1 with
  | 1 =>
    let x := if sub then srcInt n a - srcInt n b else srcInt n a + srcInt n b
    natWords n (wrapInt n (max (-top) (min x (top - 1))))
  | 2 =>
    let x : Int := if sub then (srcNat n a : Int) - srcNat n b else srcNat n a + srcNat n b
    natWords n (max 0 (min x (2 * top - 1))).toNat
  | _ => natWords n (wrapInt n (if sub then (srcNat n a : Int) - srcNat n b else srcNat n a + srcNat n b))

/-- The width that modifier bit 0 (.64) selects. -/
def width0 (md : BitVec 8) : Nat := if md.getLsbD 0 then 64 else 32

/-- IMAD (R153). -/
def mulAdd (md : BitVec 8) (a b c : List Word32) : List Word32 :=
  if md.getLsbD 1 then
    let x := if md.getLsbD 2 then ((srcNat 32 a * srcNat 32 b : Nat) : Int) else srcInt 32 a * srcInt 32 b
    natWords 64 (wrapInt 64 (x + srcNat 64 c))
  else
    let n := width0 md
    natWords n ((srcNat n a * srcNat n b + srcNat n c) % 2 ^ n)

/-- IMULH: the high half of the exact product (R153). -/
def mulHigh (md : BitVec 8) (a b : List Word32) : List Word32 :=
  let n := width0 md
  let x : Int := if md.getLsbD 2 then ((srcNat n a * srcNat n b : Nat) : Int) else srcInt n a * srcInt n b
  natWords n (wrapInt (2 * n) x / 2 ^ n)

/-- IMIN and IMAX (R153). -/
def minMax (md : BitVec 8) (mx : Bool) (a b : List Word32) : List Word32 :=
  let n := width0 md
  let le := if md.getLsbD 2 then decide (srcNat n a ≤ srcNat n b) else decide (srcInt n a ≤ srcInt n b)
  natWords n (srcNat n (if le = !mx then a else b))

/-- IABS (R153). -/
def absVal (md : BitVec 8) (a : List Word32) : List Word32 :=
  let n := width0 md
  let x := (srcInt n a).natAbs
  natWords n (if md.getLsbD 1 && decide (x = 2 ^ (n - 1)) then 2 ^ (n - 1) - 1 else x)

/-- The bitwise operations (R153). -/
def bitOp (md : BitVec 8) (f : Word64 → Word64 → Word64) (a b : List Word32) : List Word32 :=
  let n := width0 md
  natWords n ((f (BitVec.ofNat 64 (srcNat n a)) (BitVec.ofNat 64 (srcNat n b))).toNat % 2 ^ n)

/-- The amount of a shift: B modulo the width with .mask (R154). -/
def shiftAmount (md : BitVec 8) (b : List Word32) : Nat :=
  if md.getLsbD 1 then (lo32 b).toNat % width0 md else (lo32 b).toNat

def shiftLeft (md : BitVec 8) (a b : List Word32) : List Word32 :=
  let n := width0 md
  let k := shiftAmount md b
  natWords n (if k ≥ n then 0 else srcNat n a * 2 ^ k % 2 ^ n)

def shiftRight (md : BitVec 8) (a b : List Word32) : List Word32 :=
  let n := width0 md
  let k := shiftAmount md b
  natWords n (if k ≥ n then 0 else srcNat n a / 2 ^ k)

/-- SAR: an amount of the width or more gives copies of the sign bit (R154). -/
def shiftSign (md : BitVec 8) (a b : List Word32) : List Word32 :=
  let n := width0 md
  let k := min (shiftAmount md b) n
  natWords n (wrapInt n (srcInt n a / 2 ^ k))

/-- ROT (R153). -/
def rotate (md : BitVec 8) (a b : List Word32) : List Word32 :=
  let n := width0 md
  let k := (lo32 b).toNat % n
  let k := if md.getLsbD 1 then (n - k) % n else k
  let x := srcNat n a
  natWords n (x * 2 ^ k % 2 ^ n + x / 2 ^ (n - k))

def bitCount (md : BitVec 8) (a : List Word32) : List Word32 :=
  let n := width0 md
  [BitVec.ofNat 32 ((List.range n).filter fun i => (srcNat n a).testBit i).length]

def leadZeros (md : BitVec 8) (a : List Word32) : List Word32 :=
  let n := width0 md
  let x := srcNat n a
  [BitVec.ofNat 32 (if x = 0 then n else n - 1 - Nat.log2 x)]

def bitReverse (md : BitVec 8) (a : List Word32) : List Word32 :=
  let n := width0 md
  let x := srcNat n a
  natWords n ((List.range n).foldl (fun r i => 2 * r + (if x.testBit i then 1 else 0)) 0)

/-- BFE (R155). -/
def fieldExtract (md : BitVec 8) (a b : List Word32) : List Word32 :=
  let q := min ((lo32 b).toNat % 256) 32
  let n := min ((lo32 b).toNat / 256 % 256) 32
  let f := (lo32 a).toNat / 2 ^ q % 2 ^ n
  [BitVec.ofInt 32 (if md.getLsbD 2 && decide (n > 0) && f.testBit (n - 1) then (f : Int) - 2 ^ n else f)]

/-- BFI (R155). -/
def fieldInsert (a b c : List Word32) : List Word32 :=
  let q := min ((lo32 c).toNat % 256) 32
  let n := min ((lo32 c).toNat / 256 % 256) 32
  let m : Word32 := BitVec.ofNat 32 ((2 ^ n - 1) * 2 ^ q)
  [(lo32 a &&& ~~~m) ||| (BitVec.ofNat 32 ((lo32 b).toNat * 2 ^ q) &&& m)]

/-- LEA (R156). -/
def leaSum (md : BitVec 8) (a b : List Word32) : List Word32 :=
  let idx : Int := if md.getLsbD 3 then (lo32 b).toNat else srcInt 32 b
  let sh := idx * 2 ^ mdField md 2 0
  let x := lo64 a
  if md.getLsbD 4 then
    let off := ofSigned 40 ((field x 39 0 : Int) + sh)
    words64 (BitVec.ofNat 64 (field x 63 40 * 2 ^ 40 + off))
  else words64 (BitVec.ofNat 64 (ofSigned 64 ((x.toNat : Int) + sh)))

/-- IDIV (R157): all ones for a zero divisor. -/
def divQuot (md : BitVec 8) (a b : List Word32) : List Word32 :=
  let n := width0 md
  if srcNat n b = 0 then natWords n (2 ^ n - 1)
  else if md.getLsbD 2 then natWords n (srcNat n a / srcNat n b)
  else natWords n (wrapInt n (Int.tdiv (srcInt n a) (srcInt n b)))

/-- IREM (R157): A for a zero divisor. -/
def divRem (md : BitVec 8) (a b : List Word32) : List Word32 :=
  let n := width0 md
  if srcNat n b = 0 then natWords n (srcNat n a)
  else if md.getLsbD 2 then natWords n (srcNat n a % srcNat n b)
  else natWords n (wrapInt n (Int.tmod (srcInt n a) (srcInt n b)))

/-- The `i`-th source among the words read. -/
def arg (vs : List (List Word32)) (i : Nat) : List Word32 := vs.getD i []

/-! ### G0 -/

def execIadd (w : F3) (s : State) : Out := s.f3Value 0x000 w fun v => addSub w.md false (arg v 0) (arg v 1)
def execIsub (w : F3) (s : State) : Out := s.f3Value 0x001 w fun v => addSub w.md true (arg v 0) (arg v 1)
def execImul (w : F3) (s : State) : Out :=
  s.f3Value 0x002 w fun v => natWords (width0 w.md) (srcNat (width0 w.md) (arg v 0) * srcNat (width0 w.md) (arg v 1) % 2 ^ width0 w.md)
def execImad (w : F3) (s : State) : Out := s.f3Value 0x003 w fun v => mulAdd w.md (arg v 0) (arg v 1) (arg v 2)
def execImulh (w : F3) (s : State) : Out := s.f3Value 0x004 w fun v => mulHigh w.md (arg v 0) (arg v 1)
def execImin (w : F3) (s : State) : Out := s.f3Value 0x005 w fun v => minMax w.md false (arg v 0) (arg v 1)
def execImax (w : F3) (s : State) : Out := s.f3Value 0x006 w fun v => minMax w.md true (arg v 0) (arg v 1)
def execIabs (w : F3) (s : State) : Out := s.f3Value 0x007 w fun v => absVal w.md (arg v 0)
def execAnd (w : F3) (s : State) : Out := s.f3Value 0x008 w fun v => bitOp w.md (· &&& ·) (arg v 0) (arg v 1)
def execOr (w : F3) (s : State) : Out := s.f3Value 0x009 w fun v => bitOp w.md (· ||| ·) (arg v 0) (arg v 1)
def execXor (w : F3) (s : State) : Out := s.f3Value 0x00A w fun v => bitOp w.md (· ^^^ ·) (arg v 0) (arg v 1)
def execAndn (w : F3) (s : State) : Out := s.f3Value 0x00B w fun v => bitOp w.md (fun a b => a &&& ~~~b) (arg v 0) (arg v 1)
def execShl (w : F3) (s : State) : Out := s.f3Value 0x00C w fun v => shiftLeft w.md (arg v 0) (arg v 1)
def execShr (w : F3) (s : State) : Out := s.f3Value 0x00D w fun v => shiftRight w.md (arg v 0) (arg v 1)
def execSar (w : F3) (s : State) : Out := s.f3Value 0x00E w fun v => shiftSign w.md (arg v 0) (arg v 1)
def execRot (w : F3) (s : State) : Out := s.f3Value 0x00F w fun v => rotate w.md (arg v 0) (arg v 1)
def execPopc (w : F3) (s : State) : Out := s.f3Value 0x010 w fun v => bitCount w.md (arg v 0)
def execClz (w : F3) (s : State) : Out := s.f3Value 0x011 w fun v => leadZeros w.md (arg v 0)
def execBrev (w : F3) (s : State) : Out := s.f3Value 0x012 w fun v => bitReverse w.md (arg v 0)
def execBfe (w : F3) (s : State) : Out := s.f3Value 0x013 w fun v => fieldExtract w.md (arg v 0) (arg v 1)
def execBfi (w : F3) (s : State) : Out := s.f3Value 0x014 w fun v => fieldInsert (arg v 0) (arg v 1) (arg v 2)

/-- SEL reads both sources whatever the predicate holds (R135). -/
def execSel (w : F3) (s : State) : Out :=
  s.f3Effect 0x015 w fun e =>
    .ok [.write (if xor (e.th.pred (mdField w.md 2 0)) (w.md.getLsbD 3) then e.val 0 else e.val 1)]

def execMov (w : F3) (s : State) : Out := s.f3Value 0x016 w fun v => arg v 0
def execIadd3 (w : F3) (s : State) : Out :=
  s.f3Value 0x017 w fun v =>
    let n := width0 w.md
    natWords n ((srcNat n (arg v 0) + srcNat n (arg v 1) + srcNat n (arg v 2)) % 2 ^ n)
def execLea (w : F3) (s : State) : Out := s.f3Value 0x018 w fun v => leaSum w.md (arg v 0) (arg v 1)
def execIdiv (w : F3) (s : State) : Out := s.f3Long 0x019 w fun v => divQuot w.md (arg v 0) (arg v 1)
def execIrem (w : F3) (s : State) : Out := s.f3Long 0x01A w fun v => divRem w.md (arg v 0) (arg v 1)

/-! ### G1 -/

/-- A compare of an F3 word: the predicates of D under the combining type of modifier [2:0] (R144, R145). -/
def State.f3Compare (s : State) (op : Nat) (w : F3) (c : List (List Word32) → Bool) : Out :=
  let p1 := mdField w.d 7 4
  let p2 := mdField w.d 3 0
  let ty := mdField w.md 2 0
  s.asGroup fun a => s.issueValue a [0xF0]
    [{ guard := fun th => th.guard w.gs w.gp
       acc := f3Acc op w
       eff := fun e => .ok [.preds (e.th.combine p1 p2 ty (c e.vals))]
       els := setzElse p1 p2 ty }]

def execIcmp (w : F3) (s : State) : Out :=
  let n := if w.md.getLsbD 7 then 64 else 32
  s.f3Compare 0x040 w fun v => intCond (mdField w.md 6 3) true n (srcNat n (arg v 0)) (srcNat n (arg v 1))
def execUcmp (w : F3) (s : State) : Out :=
  let n := if w.md.getLsbD 7 then 64 else 32
  s.f3Compare 0x041 w fun v => intCond (mdField w.md 6 3) false n (srcNat n (arg v 0)) (srcNat n (arg v 1))
def execFcmp (w : F3) (s : State) : Out :=
  s.f3Compare 0x042 w fun v => fpCond (mdField w.md 6 3) (w.md.getLsbD 7) (lo32 (arg v 0)) (lo32 (arg v 1))
def execPlop (w : F3) (s : State) : Out :=
  s.f3Effect 0x043 w fun e =>
    .ok [.preds (plopPreds e.th (mdField w.d 7 4) (mdField w.d 3 0) w.a.toNat w.b.toNat w.c.toNat w.md)]
def execPmovGet (w : F3) (s : State) : Out := s.f3Effect 0x044 w fun e => .ok [.write [predWord e.th]]
def execPmovSet (w : F3) (s : State) : Out :=
  s.f3Effect 0x044 w fun e => .ok [.preds (predSet e.th (w.md.extractLsb' 1 7) (lo32 (e.val 0)))]

/-! ### X immediates -/

def execMovi (w : XW) (s : State) : Out := s.xEffect 0 w fun _ => .ok [.write [w.imm]]
/-- MOVH writes the high register of the pair alone (R136). -/
def execMovh (w : XW) (s : State) : Out := s.xEffect 1 w fun _ => .ok [.write [w.imm]]
def execIaddi (w : XW) (s : State) : Out := s.xEffect 2 w fun e => .ok [.write [lo32 (e.val 0) + w.imm]]
def execAndi (w : XW) (s : State) : Out := s.xEffect 3 w fun e => .ok [.write [lo32 (e.val 0) &&& w.imm]]
def execOri (w : XW) (s : State) : Out := s.xEffect 4 w fun e => .ok [.write [lo32 (e.val 0) ||| w.imm]]
def execXori (w : XW) (s : State) : Out := s.xEffect 5 w fun e => .ok [.write [lo32 (e.val 0) ^^^ w.imm]]
/-- ICMPI compares with the sign-extended 20-bit immediate (R147). -/
def execIcmpi (w : XW) (s : State) : Out :=
  let p1 := mdField w.d 7 4
  let p2 := mdField w.d 3 0
  let ty := w.imm.toNat / 2 ^ 4 % 8
  let imm := ofSigned 32 (toSigned 20 (w.imm.toNat / 2 ^ 12))
  s.xEffect 6 w
    (fun e => .ok [.preds (e.th.combine p1 p2 ty
      (intCond (w.imm.toNat / 2 ^ 7 % 16) (!w.imm.getLsbD 11) 32 (lo32 (e.val 0)).toNat imm))])
    (setzElse p1 p2 ty)
/-- FADDI adds in FP32 under RN and keeps subnormals (R168). -/
def execFaddi (w : XW) (s : State) : Out :=
  s.xEffect 7 w fun e =>
    .ok [.write [BitVec.ofNat 32 (fp32.add .rn false (fp32.read (lo32 (e.val 0)).toNat) (fp32.read w.imm.toNat))]]

end Sys2Proof.Machine
end

