-- ==== Sys2Proof/Machine/Masks.lean ====
section
/-! DEFINITION. Lane masks, MWAIT and meeting: G7, and the tests that release held threads of a team
(spec/04_issue_and_lanes.md R107-R111). -/

namespace Sys2Proof.Machine

/-- The mask that a mask instruction names. -/
def maskNum (w : F3) : Nat := mdField w.md 3 0

/-- The lanes of a group whose guard passes at its word, an F3 word. -/
def Team.passing (t : Team) (g : Group) : BitVec 64 :=
  let w := unpackF3 (g.leg.getD g.pos 0)
  laneMask ((laneList g.lanes).filter fun l => match t.threads[l]? with | some th => th.guard w.gs w.gp | none => false)

/-- Releases the groups held at MWAIT on mask `n` when every member of the mask waits on it (R111). -/
def Team.releaseMwait (t : Team) (n : Nat) : Team :=
  let at' := t.groups.filter fun g => decide (g.hold = .mwait n)
  let waiting := at'.foldl (fun m g => m ||| t.passing g) (0 : BitVec 64)
  if at'.isEmpty || decide (t.m.getD n 0 &&& ~~~waiting ≠ 0) then t
  else { t with groups := t.groups.map fun (g : Group) =>
          if g.hold = .mwait n then { g with pos := g.pos + 1, idx := g.idx + 1, hold := .none } else g }

/-- Releases the threads held at meeting address `x` when every other thread of the team whose mt is `x` is held there (R107). -/
def Team.releaseMeet (t : Team) (x : Word64) (clock : Nat) : Team :=
  if t.threads.all fun (th : Thread) => !(decide (th.mt = x) && decide (th.stat ≠ .exited)) || decide (th.stat = .meet) then
    { t with threads := t.threads.map fun (th : Thread) =>
        if th.stat = .meet ∧ th.mt = x then { th with stat := .atLeg, mt := 0, readySince := clock } else th }
  else t

/-- Every test of the team's MWAITs and meeting holds. -/
def Team.settle (t : Team) (clock : Nat) : Team :=
  let t := (List.range 12).foldl Team.releaseMwait t
  let held := (t.threads.filter fun (th : Thread) => decide (th.stat = .meet)).map (·.mt)
  held.foldl (fun t x => t.releaseMeet x clock) t

def State.settleTeam (s : State) (key : Nat) : State := s.updTeam key fun t => t.settle s.clock

/-- A mask or meeting instruction: its effects, then the tests of its team. -/
def State.maskEffect (s : State) (op : Nat) (w : F3) (eff : Env → Except (Cause × Word32 × Word64) (List Eff)) : Out :=
  s.asGroup fun a => (s.issueValue a [f3Dest op w] [f3Micro op w eff]).settleTeam a.key

def execMjoin (w : F3) (s : State) : Out := s.maskEffect 0x1C0 w fun _ => .ok [.join (maskNum w)]
def execMleave (w : F3) (s : State) : Out := s.maskEffect 0x1C1 w fun _ => .ok [.leave (maskNum w)]
/-- MWAIT (R111): the group is held while a thread of it waits; the tests release it. -/
def execMwait (w : F3) (s : State) : Out :=
  s.asGroup fun a =>
    if a.team.passing a.grp = 0 then s.advance a
    else (s.holdAt a (.mwait (maskNum w))).settleTeam a.key
def execMset (w : F3) (s : State) : Out :=
  s.maskEffect 0x1C3 w fun e => .ok [.mask (maskNum w) (lo64 (e.val 0))]
def execMget (w : F3) (s : State) : Out :=
  s.f3Effect 0x1C4 w fun e => .ok [.write (words64 (e.team.m.getD (maskNum w) 0))]
/-- MEET (R108): a misaligned address traps before it is written. -/
def execMeet (w : F3) (s : State) : Out :=
  s.maskEffect 0x1C5 w fun e =>
    let x := lo64 (e.val 0)
    if x.toNat % 8 ≠ 0 then .error (.misaligned, Cause.misaligned.openW9, x) else .ok [.mt x]
/-- MEETR (R108): the word after the trailer of the leg, plus the signed offset of fields B and C. -/
def execMeetr (w : F3) (s : State) : Out :=
  s.asGroup fun a =>
    let next := a.grp.start + BitVec.ofNat 64 (8 * a.grp.leg.length)
    let off : Word64 := ((w.b ++ w.c : BitVec 16).signExtend 64) <<< 3
    (s.issueValue a [0xF0] [f3Micro 0x1C6 w fun _ => .ok [.mt (next + off)]]).settleTeam a.key

end Sys2Proof.Machine
end

