-- ==== Sys2Proof/Machine/Cross.lean ====
section
/-! DEFINITION. Cross-lane instructions: the rendezvous, the folds of R90 and R91, G6 and its time limit
(spec/04_issue_and_lanes.md R112-R119). -/

namespace Sys2Proof.Machine

/-! ### Folds (R90, R91, R119) -/

/-- One floating-point operation on the elements of a word, each of `f`'s width; a NaN result is canonical. -/
def foldElems (f : Ieee) (op : FVal → FVal → Nat) (a b : Word32) : Word32 :=
  let el (k : Nat) : Nat := op (f.read (a.toNat / 2 ^ (k * f.w) % 2 ^ f.w)) (f.read (b.toNat / 2 ^ (k * f.w) % 2 ^ f.w)) * 2 ^ (k * f.w)
  BitVec.ofNat 32 ((List.range (32 / f.w)).foldl (fun x k => x + el k) 0)

/-- The combination of two values under an operation code. -/
def foldOp (op : Nat) (a b : Word32) : Word32 :=
  match op with
  | 0 => a + b
  | 1 => if a.toInt ≤ b.toInt then a else b
  | 2 => if a.toInt ≤ b.toInt then b else a
  | 3 => if a.toNat ≤ b.toNat then a else b
  | 4 => if a.toNat ≤ b.toNat then b else a
  | 5 => a &&& b
  | 6 => a ||| b
  | 7 => a ^^^ b
  | 8 => foldElems fp32 (fp32.add .rn false) a b
  | 9 => foldElems fp16 (fp16.add .rn false) a b
  | 10 => foldElems bf16 (bf16.add .rn false) a b
  | 11 => foldElems fp32 (fp32.minmax false) a b
  | _ => foldElems fp32 (fp32.minmax true) a b

/-- The identity of an operation code. -/
def foldIdentity (op : Nat) : Word32 :=
  match op with
  | 1 => 0x7FFFFFFF
  | 2 => 0x80000000
  | 3 | 5 => 0xFFFFFFFF
  | 11 => 0x7F800000
  | 12 => 0xFF800000
  | _ => 0

/-- NaN elements made canonical, every other element as it is (R73, R90). -/
def canonElems (f : Ieee) (a : Word32) : Word32 :=
  let el (k : Nat) : Nat :=
    let x := a.toNat / 2 ^ (k * f.w) % 2 ^ f.w
    (if (f.read x).isNan then f.nan else x) * 2 ^ (k * f.w)
  BitVec.ofNat 32 ((List.range (32 / f.w)).foldl (fun x k => x + el k) 0)

def foldCanon (op : Nat) (a : Word32) : Word32 :=
  match op with
  | 8 | 11 | 12 => canonElems fp32 a
  | 9 => canonElems fp16 a
  | 10 => canonElems bf16 a
  | _ => a

/-- A tree node of two children, either of which may be missing (R90). -/
def foldNode (op : Nat) : Option Word32 → Option Word32 → Option Word32
  | none, b => b
  | a, none => a
  | some a, some b => some (foldOp op a b)

/-- One level of the tree. -/
def foldLevel (op : Nat) : List (Option Word32) → List (Option Word32)
  | a :: b :: t => foldNode op a b :: foldLevel op t
  | l => l

/-- The root of the tree over 64 lanes. -/
def foldTree (op : Nat) (l : List (Option Word32)) : Option Word32 :=
  ((List.range 6).foldl (fun l _ => foldLevel op l) l).headD none

/-- The fold of the lanes of a list in ascending order. -/
def foldAsc (op : Nat) (l : List (Option Word32)) : Option Word32 := l.foldl (foldNode op) none

/-! ### The rendezvous -/

/-- The address of a group's word. -/
def Group.at (g : Group) : Word64 := g.start + BitVec.ofNat 64 (8 * g.pos)

/-- The groups of a team that are held at a cross-lane instruction at an address, by index. -/
def Team.heldAt (t : Team) (addr : Word64) : List Nat :=
  (List.range t.groups.length).filter fun i =>
    match t.groups[i]? with
    | some g => (match g.hold with | .cross _ _ => decide (g.at = addr) | _ => false)
    | none => false

/-- The snapshot that a group arriving at an address takes: that of a group already held there, or a new one (R112). -/
def Team.snapshot (t : Team) (addr : Word64) (code : Nat) : BitVec 64 × BitVec 64 :=
  match (t.heldAt addr).head? with
  | some i =>
    match t.groups[i]? with
    | some g => (match g.hold with | .cross s l => (s, l) | _ => (0, 0))
    | none => (0, 0)
  | none => (if code = 12 then t.liveMask else t.m.getD code 0, 0)

/-- The threads that must arrive: L (R112). -/
def Team.mustArrive (t : Team) (snap left : BitVec 64) : BitVec 64 :=
  laneMask ((laneList (snap &&& ~~~left)).filter fun l =>
    match t.threads[l]? with
    | some th => (match th.stat with | .exited => false | .parked .. => false | _ => true)
    | none => false)

/-- The lanes of the groups with these indices. -/
def Team.lanesOf (t : Team) (gs : List Nat) : BitVec 64 :=
  gs.foldl (fun m i => match t.groups[i]? with | some g => m ||| g.lanes | none => m) 0

/-- The issuing group `g` of the team `key`. -/
def State.actOf (s : State) (key g : Nat) : Option Act :=
  match tget s.teams key with
  | some t =>
    match t.groups[g]? with
    | some gr => some { key := key, g := g, team := t, grp := gr, word := gr.leg.getD gr.pos 0 }
    | none => none
  | none => none

/-- Groups without lanes are gone. -/
def Team.dropEmpty (t : Team) : Team := { t with groups := t.groups.filter fun g => decide (g.lanes ≠ 0) }

/-- What a lane of P receives: the word for D and the word for B (LSCAN). -/
structure CrossRes where
  d : List Word32
  b : Option (List Word32)
  deriving DecidableEq, Repr

/-- The result of a cross-lane instruction for lane `i` (R117-R119): `snap` is S, `present` lists the present members with the
words of A, `own` the words that the lane itself gathered, B last, `stored` reads the stored contents of A in a lane. -/
def crossResult (op : Nat) (w : F3) (snap : BitVec 64) (present : Tab (List Word32)) (stored : Nat → List Word32) (i : Nat)
    (own : List (List Word32)) : CrossRes :=
  let ballot : BitVec 64 := laneMask ((present.filter fun e => decide (lo32 e.2 ≠ 0)).map (·.1))
  let vals : List (Option Word32) := (List.range 64).map fun l => (tget present l).map fun ws => foldCanon (mdField w.md 7 4) (lo32 ws)
  let fop := mdField w.md 7 4
  let mode := mdField w.md 5 4
  match op with
  | 0x180 =>
    let b : Int := (lo32 (own.getLastD [])).toNat
    let s : Int := match mode with
      | 0 => b
      | 1 => i - b
      | 2 => i + b
      | _ => (Nat.xor i b.toNat : Nat)
    let src := if s < 0 ∨ s > 63 then i else s.toNat
    { d := (tget present src).getD (stored src), b := none }
  | 0x181 =>
    { d := match mode with
        | 0 => [if ballot ≠ 0 then 1 else 0]
        | 1 => [if snap &&& ~~~ballot = 0 then 1 else 0]
        | 2 => [BitVec.ofNat 32 (laneList ballot).length]
        | _ => words64 ballot
      b := none }
  | 0x182 =>
    let r := if 8 ≤ fop ∧ fop ≤ 10 then foldTree fop vals else foldAsc fop vals
    { d := [r.getD (foldIdentity fop)], b := none }
  | _ =>
    { d := [(foldAsc fop (vals.take (i + 1))).getD (foldIdentity fop)]
      b := some [(foldAsc fop (vals.take i)).getD (foldIdentity fop)] }

/-- A guard-passing lane of P: its group index, lane, and what it gathered. -/
structure CrossLane where
  g : Nat
  lane : Nat
  got : Got
  deriving DecidableEq, Repr

/-- What every lane of the groups `gs` gathers for the instruction. A is read, with its waits and its last-use bit, by the lanes of
`must` alone: a lane that is no present member neither waits for its own A nor changes it (R113, R117). -/
def State.crossGather (s : State) (key : Nat) (op : Nat) (w : F3) (gs : List Nat) (must : BitVec 64) : List CrossLane :=
  (gs.map fun g =>
    match s.actOf key g with
    | some a =>
      (laneList a.grp.lanes).map fun l =>
        ({ g := g, lane := l
           got := s.gather a l (match a.team.threads[l]? with | some th => th.guard w.gs w.gp | none => false)
             (if must.getLsbD l then f3Acc op w else (f3Acc op w).drop 1) } : CrossLane)
    | none => []).flatten

/-- The address that a cross-lane instruction gives lanes that did not fault: none. -/
def noAddrs : List (Nat × Word64) := []

/-- Performs a cross-lane instruction for the groups `gs` of a team, whose members that must arrive are `must` (R112, R115).
While a lane of P waits for an operand, it stays held. A lane that is no present member is read at the perform clock (DESIGN
CHOICE, log 60: R113 allows any clock from the snapshot on). When B and D of an LSCAN name one register, B's exclusive value is
written last (DESIGN CHOICE, log 61: R119 gives no order of the two writes). -/
def State.crossPerform (s : State) (key op : Nat) (w : F3) (gs : List Nat) (snap must : BitVec 64) : State :=
  let ls := s.crossGather key op w gs must
  if ls.any fun l => l.got.waits then s else
  let faults := ls.filterMap fun l => l.got.fault?
  let lowestFault := faults.foldl (fun (b : Option LaneFault) f =>
    match b with | some x => if f.lane < x.lane then some f else some x | none => some f) none
  match lowestFault, tget s.teams key with
  | some lead, _ =>
    (gs.foldl (fun s g =>
      match s.actOf key g with
      | some a =>
        let mine := faults.filter fun f => a.grp.lanes.getLsbD f.lane
        s.faultAll a (f3Dest op w) (laneList a.grp.lanes) mine lead noAddrs
      | none => s) s).updTeam key Team.dropEmpty
  | none, some t =>
    let n := match f3Acc op w with | x :: _ => x.n | [] => 1
    let present : Tab (List Word32) := ls.foldl (fun p l =>
      match l.got with
      | .ok i => if must.getLsbD l.lane then tset p l.lane (i.vals.getD 0 []) else p
      | _ => p) []
    let stored (l : Nat) : List Word32 :=
      match t.threads[l]? with
      | some th => (List.range n).map fun k => (th.vreg (w.a.toNat + k)).read
      | none => List.replicate n 0
    let s1 := ls.foldl (fun s l => match l.got with | .ok i => s.commitLane key i | _ => s) s
    let leadIn (g lane : Nat) : Bool :=
      decide ((ls.find? fun l => decide (l.g = g) && (match l.got with | .ok _ => true | _ => false)).map (·.lane) = some lane)
    let s2 := ls.foldl (fun s l =>
      match l.got with
      | .ok i =>
        let r := crossResult op w snap present stored l.lane i.vals
        let dD := (i.dst.getLast?).getD (.zero, 0)
        let s := s.writeDst key l.lane (leadIn l.g l.lane) dD.1 r.d
        match r.b, i.dst with
        | some b, dB :: _ :: _ => s.writeDst key l.lane (leadIn l.g l.lane) dB.1 b
        | _, _ => s
      | _ => s) s1
    gs.foldl (fun s g => s.updGroup key g fun gr => { gr with pos := gr.pos + 1, idx := gr.idx + 1, hold := .none }) s2
  | none, none => s

/-- Performs the rendezvous at an address when every thread of L has arrived (R112). -/
def State.crossTry (s : State) (key op : Nat) (w : F3) (addr : Word64) : State :=
  match tget s.teams key with
  | some t =>
    let gs := t.heldAt addr
    let (snap, left) := t.snapshot addr 12
    let must := t.mustArrive snap left
    if must &&& ~~~(t.lanesOf gs) = 0 then s.crossPerform key op w gs snap must else s
  | none => s

/-- A cross-lane instruction issues (R112): the group stalls while a source it must wait for is empty, then is held with the
snapshot, and the rendezvous is tested; %grp performs at once. -/
def State.crossIssue (s : State) (op : Nat) (w : F3) : Out :=
  s.asGroup fun a =>
    match a.grp.hold with
    | .cross _ _ => s.crossTry a.key op w a.grp.at
    | _ =>
      let grp := decide (mdField w.md 3 0 = 13)
      let (snap, left) := if grp then (a.grp.lanes, 0) else a.team.snapshot a.grp.at (mdField w.md 3 0)
      let must := a.team.mustArrive snap left
      if (s.crossGather a.key op w [a.g] must).any fun l => l.got.waits then s.holdAt a .stall
      else if grp then s.crossPerform a.key op w [a.g] snap must
      else
        (s.updGroup a.key a.g fun g => { g with hold := .cross snap left, since := s.clock }).crossTry a.key op w a.grp.at

def execShfl (w : F3) (s : State) : Out := s.crossIssue 0x180 w
def execVote (w : F3) (s : State) : Out := s.crossIssue 0x181 w
def execLred (w : F3) (s : State) : Out := s.crossIssue 0x182 w
def execLscan (w : F3) (s : State) : Out := s.crossIssue 0x183 w

/-- The rendezvous of a team that are complete after a mask change, an exit or a trap: each held group's instruction is tested
again (R112). -/
def State.settleCross (s : State) (key : Nat) : Nat → State
  | 0 => s
  | n + 1 =>
    let s1 := s.settleCross key n
    match s1.actOf key n with
    | some a =>
      match a.grp.hold with
      | .cross _ _ =>
        match decode a.word with
        | .ok (.shfl w) => s1.crossTry key 0x180 w a.grp.at
        | .ok (.vote w) => s1.crossTry key 0x181 w a.grp.at
        | .ok (.lred w) => s1.crossTry key 0x182 w a.grp.at
        | .ok (.lscan w) => s1.crossTry key 0x183 w a.grp.at
        | _ => s1
      | _ => s1
    | none => s1

/-- CROSSLANE_TIMEOUT (R114): a held group past the limit traps, with the number of threads of L that had not arrived. -/
def execCrosslaneTimeout (s : State) : Out :=
  match s.occ with
  | .group key g =>
    match s.actOf key g with
    | some a =>
      match a.grp.hold with
      | .cross snap left =>
        let must := a.team.mustArrive snap left
        let missing := (laneList (must &&& ~~~(a.team.lanesOf (a.team.heldAt a.grp.at)))).length
        if a.team.xltLimit = 0 ∨ s.clock - a.grp.since ≤ a.team.xltLimit.toNat then .next s
        else
          let lanes := laneList a.grp.lanes
          let fs := lanes.map fun l => laneFault l .crosslaneTimeout (BitVec.ofNat 32 missing) 0
          let op := (unpackF3 a.word)
          match fs.head? with
          | some f => .next ((s.faultAll a op.d lanes fs f noAddrs).updTeam key Team.dropEmpty)
          | none => .next s
      | _ => .next s
    | none => .next s
  | _ => .fault .noIssuer

end Sys2Proof.Machine
end

