-- ==== Sys2Proof/Machine/Region.lean ====
section
/-! DEFINITION. Region control blocks: paths, effective values, charges and reports (spec/14_relay_queues_and_launch.md
R325-R328). A path is the list of the physical addresses of its region blocks, from the region up to the root; the die whose device reads
and counts in them stands beside it. -/

namespace Sys2Proof.Machine

/-- The blocks from a region up to the root; none when the path is deeper than 8 nodes or reaches an invalid block (R326). -/
def State.regionPath (s : State) (t : RegionTab) : Nat → Nat → Option (List Nat)
  | 0, _ => none
  | fuel + 1, h =>
    if !s.regionOk t h then none
    else if h = 0 then some [t.addr 0]
    else (s.regionPath t fuel ((s.regionWord t.die (t.addr h) 2).toNat % 2 ^ 24)).map (t.addr h :: ·)

def State.path (s : State) (t : RegionTab) (h : Nat) : Option (List Nat) := s.regionPath t 8 h

/-- The block whose own value of field `bit` is effective on a path: the first that overrides it, else the root (R327). -/
def State.owner (s : State) (die bit : Nat) : List Nat → Nat
  | [] => 0
  | [h] => h
  | h :: t => if (s.regionWord die h 1).getLsbD bit then h else s.owner die bit t

/-- The effective values on a path (R325, R327). -/
def State.effective (s : State) (die : Nat) (path : List Nat) : RegionEff :=
  let w (bit i : Nat) : Word32 := s.regionWord die (s.owner die bit path) i
  { degrade := (w 0 0).getLsbD 1
    skipLate := (w 1 0).getLsbD 2
    sup := (w 2 0).getLsbD 3
    ceiling := (w 3 0).toNat / 2 ^ 8 % 64
    ageing := (w 4 3).toNat
    domain := (w 5 4).toNat % 2 ^ 24
    asid := BitVec.ofNat 32 ((w 6 5).toNat % 2 ^ 16)
    ortBase := BitVec.ofNat 64 ((w 6 6).toNat + (w 6 7).toNat * 2 ^ 32)
    ortSize := BitVec.ofNat 32 ((w 6 8).toNat % 2 ^ 25) }

/-- The blocks from a region up, as far as 8 nodes and without regard to validity: where a failed path takes its values from
(log 38). -/
def State.loosePath (s : State) (t : RegionTab) : Nat → Nat → List Nat
  | 0, _ => []
  | fuel + 1, h =>
    if h = 0 then [t.addr 0] else t.addr h :: s.loosePath t fuel ((s.regionWord t.die (t.addr h) 2).toNat % 2 ^ 24)

/-- The effective values of a region along its path, or along what there is of it. -/
def State.effOf (s : State) (t : RegionTab) (h : Nat) : RegionEff := s.effective t.die ((s.path t h).getD (s.loosePath t 8 h))

/-! ### Charges (R326) -/

/-- Whether charges, as (resource, amount), fit every block of a path. -/
def State.chargeFits (s : State) (die : Nat) (path : List Nat) (qs : List (Nat × Nat)) : Bool :=
  path.all fun h => (List.range 16).all fun k =>
    let q := ((qs.filter fun e => decide (e.1 = k)).map (·.2)).sum
    let b := s.regionWord die h (16 + k)
    decide (q = 0 ∨ b = 0xFFFFFFFF) || decide ((s.regionWord die h (32 + k)).toNat + q ≤ b.toNat)

/-- Adds charges along a path, or with sign −1 takes them back. -/
def State.charge (s : State) (die : Nat) (path : List Nat) (qs : List (Nat × Nat)) (sign : Int) : State :=
  path.foldl (fun s h => qs.foldl (fun s e => if e.2 = 0 then s else s.regionAdd die h (32 + e.1) (sign * e.2)) s) s

/-- Takes charges back along the path that they were made on. -/
def State.reclaim (s : State) (die : Nat) (path : List Nat) (qs : List (Nat × Nat)) : State := s.charge die path qs (-1)

/-- A running party's charge: done along a path, not yet possible, or a failed path. -/
inductive Charged where
  | ok (s : State) (path : List Nat)
  | wait
  | failed (s : State)

/-- Charges for a running party of a region; a failed path raises the region's fault count. -/
def State.tryCharge (s : State) (t : RegionTab) (h : Nat) (qs : List (Nat × Nat)) : Charged :=
  match s.path t h with
  | none => .failed (s.regionFault t h)
  | some p => if s.chargeFits t.die p qs then .ok (s.charge t.die p qs 1) p else .wait

end Sys2Proof.Machine
end

