-- ==== Sys2Proof/Machine/Paths.lean ====
section
/-! DEFINITION. The way of an access to everything but a die's control window: links, ports and their errors, and reads
and writes that perform at HBM, the pool, PCIe, remote modules and the flash window (spec/10_l2_slices_and_hbm.md R230, R240, R241;
spec/17_package_links_boot.md R384-R392); and the scope records of lines (spec/11_atomic_units_and_ordering.md R252, R253). -/

namespace Sys2Proof.Machine

/-! ### What stands in the way of an access -/

def IoDie.remwin (d : IoDie) (n : Nat) : RemWin := (tget d.remwins n).getD { words := List.replicate 8 0, refused := false }

/-- The I/O die through which a party of a die reaches the flash, which both reach (R396, log 13). -/
def flashIo (die : Nat) : Nat := if die = 17 then 17 else 16

/-- The fault of an access of `n` bytes from a die to anything but a control window, before its bytes are reached; a control window is
no place for these accesses (log 66). -/
def State.linkFault (s : State) (die : Nat) (x : Xl) (n : Nat) (write : Bool) : State × Option XFault :=
  let pa := x.pa
  let far (d : Nat) : Option XFault := if s.routeBad die d then some (devErr 5) else none
  match busOf pa with
  | .hole => (s, some (devErr 2))
  | .hbm d => (s, far d)
  | .cxl io port =>
    if s.routeBad die (16 + io) then (s, some (devErr 5))
    else match s.takeCxl io port with
      | (s, true) => (s, some (devErr 4))
      | (s, false) => (s, none)
  | .remote io w =>
    if s.routeBad die (16 + io) then (s, some (devErr 5))
    else if !(((s.io io).remwin (w / 2)).words.getD 0 0).getLsbD 0 then (s, some (devErr 4))
    else (s, none)
  | .ctl .. => (s, some (devErr 2))
  | .pcie io link =>
    if ! [1, 2, 4, 8].contains n ∨ pa % n ≠ 0 then (s, some { cause := .misaligned, w9 := 0 })
    else if s.routeBad die (16 + io) then (s, some (devErr 5))
    else if (s.io io).pcieErr.contains link || (s.io io).down.contains link then
      ((s.updIo io fun d => { d with pcieErr := d.pcieErr.filter (· ≠ link) }).ioEvent io link 2 0 0, some (devErr 6))
    else (s, none)
  | .flash _ =>
    (s, if s.routeBad die (flashIo die) then some (devErr 5) else if write then some (devErr 2) else none)

/-- `n` free bytes: what another module or a PCIe device answers (log 11). -/
def State.freeBytes (s : State) (n : Nat) : State × List Byte :=
  ({ s with free := s.free + n }, (List.range n).map fun i => (Config.freeValue (s.free + i)).setWidth 8)

/-! ### Accesses that perform at their home -/

/-- The fault of a read of `n` bytes of a location that no link fault bars: poison, which it consumes (R240). -/
def State.readFault (s : State) (x : Xl) (n : Nat) : State × Option XFault :=
  match busOf x.pa with | .hbm _ => s.consume x.pa n | _ => (s, none)

/-- An access of `n` bytes that performs at the home slices of its lines claims them there (R244). -/
def State.recall (s : State) (x : Xl) (n : Nat) (home : Bool) : State :=
  if home then (linePieces x.pa n).foldl (fun s p => s.claimHome p.1) s else s

/-- Reads `n` bytes at their home, for a party of a die: a line that a hitch atomic unit holds is recalled first, unless the access
is that of the unit which holds it (R244). -/
def State.plainRead (s : State) (die : Nat) (x : Xl) (n : Nat) (home : Bool := true) : State × Except XFault (List Byte) :=
  match s.linkFault die x n false with
  | (s, some f) => (s, .error f)
  | (s, none) =>
    match busOf x.pa with
    | .hbm _ =>
      match s.consume x.pa n with
      | (s, some f) => (s, .error f)
      | (s, none) => ((s.recall x n home).touchLines x n, .ok (s.homeRead x.pa n x.key))
    | .cxl .. => (s, .ok (s.homeRead x.pa n x.key))
    | .flash off => (s, .ok (readBytes s.mgmt.flash off n))
    | _ => let r := s.freeBytes n
           (r.1, .ok r.2)

/-- Writes bytes at their home, as `plainRead` reads them, for a party of a die. Bytes for a remote module or a PCIe device leave the module (log 11). -/
def State.plainWrite (s : State) (die : Nat) (x : Xl) (bs : List Byte) (home : Bool := true) : State × Option XFault :=
  match s.linkFault die x bs.length true with
  | (s, some f) => (s, some f)
  | (s, none) =>
    match busOf x.pa with
    | .hbm _ => (((s.recall x bs.length home).touchLines x bs.length).homeWrite x.pa bs x.key, none)
    | .cxl .. => (s.homeWrite x.pa bs x.key, none)
    | _ => (s, none)

/-! ### The scope checker (R252, R253) -/

/-- The effective scope of an access to a translated location. -/
def effScope (x : Xl) (scope : Nat) : Nat :=
  let shared := decide (x.kind = 5) || (match busOf x.pa with | .cxl .. | .remote .. => true | _ => false)
  if shared then (if scope = 4 then 4 else 3) else max 2 scope

/-- Whether a new access of an effective scope and a hitch mismatches a recorded one. -/
def scopeMismatch (eff hitch eff' hitch' : Nat) : Bool := decide ((eff = 2 ∨ eff' = 2) ∧ hitch ≠ hitch')

/-- The outcome of the check of a synchronising access: it matches and is recorded, it performs without its acquire and release,
or it traps with a w9. -/
inductive SyncRes where
  | ok (s : State)
  | degraded (s : State)
  | trap (w9 : Nat)

/-- The check of an access of a party of a hitch under a policy, DEGRADE or TRAP. The access touches its line in L2 first: a line that
has to be filled again has left L2 and has no record. -/
def State.syncAt (s : State) (degrade : Bool) (hitch : Nat) (x : Xl) (eff order : Nat) : SyncRes :=
  match busOf x.pa with
  | .hbm _ =>
    if order = 0 then .ok s
    else
      let line := x.pa / 128
      let s := s.touchL2 x.pa x.part x.cls x.key
      match tget s.scopes line with
      | some (e, h) =>
        if scopeMismatch eff hitch e h then
          if degrade then .degraded s else .trap (e + (if e = 2 then h * 8 else 0))
        else .ok { s with scopes := tset s.scopes line (eff, hitch) }
      | none => .ok { s with scopes := tset s.scopes line (eff, hitch) }
  | _ => .ok s

/-- What stands before an atomic or synchronising access of `n` bytes performs, in the order of R256: SCOPE_MISMATCH, then an error on its
way, given by `way`, and then poison that it reads; a faulting access leaves no record. Else the record is made, and the answer is
whether the acquire and release effects stand (R253). -/
def State.admitAt (s : State) (degrade : Bool) (hitch : Nat) (x : Xl) (n eff order : Nat) (read : Bool)
    (way : State → State × Option XFault) : State × Except XFault Bool :=
  let mismatch (w9 : Nat) : XFault := { cause := .scopeMismatch, w9 := BitVec.ofNat 32 w9 }
  match s.syncAt degrade hitch x eff order with
  | .trap w9 => (s, .error (mismatch w9))
  | _ =>
    match way s with
    | (s, some f) => (s, .error f)
    | (s, none) =>
      match (if read then s.readFault x n else (s, none)) with
      | (s, some f) => (s, .error f)
      | (s, none) =>
        match s.syncAt degrade hitch x eff order with
        | .ok s => (s, .ok true)
        | .degraded s => (s, .ok false)
        | .trap w9 => (s, .error (mismatch w9))

end Sys2Proof.Machine
end

