-- ==== Sys2Proof/Machine/Blocks.lean ====
section
/-! DEFINITION. Blocks and what they hold: scratchpad windows, bound copy queues, forks and their parties, and the freeing of a
block (R194, R195, R269, R273, R283, R289, R312, R315, R317). -/

namespace Sys2Proof.Machine

/-! ### Scratchpad windows (R194, R195) -/

/-- Bytes of a block's window. -/
def Block.window (b : Block) : Nat := b.scratchKiB * 1024

/-- The block and offset that `n` bytes at window offset `e` of a block name; none beyond the limit (R195). -/
def State.window (s : State) (blk : Nat) (e n : Nat) : Option (Nat × Nat) :=
  match tget s.blocks blk with
  | none => none
  | some b =>
    if e < 2 ^ 31 then (if e + n ≤ b.window then some (blk, e) else none)
    else
      match b.nblk, tget s.nbhds b.nbhd with
      | some _, some nb =>
        let o := e - 2 ^ 31
        if o + n ≤ nb.count * nb.sb ∧ nb.sb ≠ 0 then (nb.blocks[o / nb.sb]?).map fun k => (k, o % nb.sb) else none
      | _, _ => none

/-- The limit of the window that an offset names. -/
def State.windowLimit (s : State) (blk e : Nat) : Nat :=
  match tget s.blocks blk with
  | none => 0
  | some b =>
    if e < 2 ^ 31 then b.window
    else match b.nblk, tget s.nbhds b.nbhd with
      | some _, some nb => nb.count * nb.sb
      | _, _ => 0

/-- `n` bytes of a block's scratchpad; a block that is gone has none, and its bytes read as free values (log 16). -/
def State.scratchRead (s : State) (blk off n : Nat) : State × List Byte :=
  match tget s.blocks blk with
  | some b => (s, readBytes b.scratch off n)
  | none => ({ s with free := s.free + n }, (List.range n).map fun i => (Config.freeValue (s.free + i)).setWidth 8)

/-- The number of a scratchpad line as a reservation names it (R259). -/
def scratchLine (blk off : Nat) : Nat := 2 ^ 60 + (blk * 2 ^ 32 + off) / 128

/-- A write that performs at a scratchpad's banks, with the reservations and the registrations there (R198, R257, R259). -/
def State.scratchWrite (s : State) (blk off : Nat) (bs : List Byte) : State :=
  match tget s.blocks blk with
  | none => s
  | some b =>
    let m := writeBytes b.scratch off bs
    let s := s.updBlock blk fun b => { b with scratch := m }
    { s with
      teams := s.teams.map fun e =>
        match e.2.res with
        | some l => if scratchLine blk off ≤ l ∧ l ≤ scratchLine blk (off + bs.length - 1) then (e.1, { e.2 with res := none }) else e
        | none => e
      watches := testWatches s.watches true (blk * 2 ^ 32 + off) bs.length fun a n => readBytes m (a - blk * 2 ^ 32) n }

/-- A word of a block's scratchpad, read by the device. -/
def State.scratchWord (s : State) (blk off : Nat) : Word32 := BitVec.ofNat 32 (ofBytes (s.scratchRead blk off 4).2)

/-! ### Queues -/

def State.queue (s : State) (die q : Nat) : Queue := ((s.die die).queues[q]?).getD Queue.reset
def State.updQueue (s : State) (die q : Nat) (f : Queue → Queue) : State :=
  s.updDie die fun d => { d with queues := modAt d.queues q f }

/-- Whether any queue of the module is bound to a block. -/
def State.queueBound (s : State) (blk : Nat) : Bool :=
  s.dies.any fun d => d.queues.any fun q => decide (q.block = some blk)

/-- The rows of an accumulator descriptor, as bank * 256 + row (R278). -/
def accRows (d : Word32) : List Nat :=
  (List.range (d.toNat / 2 ^ 16 % 256 + 1)).map fun i => d.toNat / 2 ^ 8 % 2 * 256 + (d.toNat % 256 + i)

/-- Takes back the locks of a drain: a row that another drain has locked too stays locked (R283). -/
def State.unlockRows (s : State) (hitch : Nat) (d : Word32) : State :=
  s.updHitch hitch fun h => { h with locked := (accRows d).foldl List.erase h.locked }

/-- Unlocks the rows of the drains that entries carry and that have not unlocked them. -/
def State.unlockDrains (s : State) (es : List Entry) : State :=
  es.foldl (fun s e => match e.drain with
    | some (d, _) => if e.unlocked then s else s.unlockRows e.hitch d
    | none => s) s

/-- Withdraws the held write and the registration of a queue: its element is not performed (R219, R304, R312). -/
def State.withdrawQueue (s : State) (die q : Nat) : State :=
  { s with
    held := s.held.filter fun h => decide (h.engine ≠ some (die, q))
    watches := s.watches.filter fun w => !w.engine || decide (w.key ≠ die * 32 + q) }

/-- A queue emptied and idle (R312). -/
def Queue.cleared (q : Queue) : Queue := { Queue.reset with owner := q.owner, enabled := q.enabled, refused := q.refused }

/-- Empties a queue and returns it to idle, unbound; the rows of its drains are unlocked without a write (R312). -/
def State.emptyQueue (s : State) (die q : Nat) : State :=
  let k := s.queue die q
  ((s.unlockDrains (k.fifo ++ k.cur.toList)).withdrawQueue die q).updQueue die q Queue.cleared

/-! ### Forks (R314-R317) -/

/-- Expected parties of a fork: bit 0 the rein core, bits 1 to 3 its queues. -/
def Fork.expected (f : Fork) : BitVec 4 :=
  (if f.rein then 1 else 0) ||| BitVec.ofNat 4 (2 * (2 ^ f.queues.length - 1))

/-- The party bit of a die-local queue of a fork. -/
def Fork.partyOf (f : Fork) (q : Nat) : Option Nat := (f.queues.findIdx? (· = q)).map (· + 1)

/-- Changes word `i` of a rendezvous object. -/
def State.updRdv (s : State) (blk off i : Nat) (f : Word32 → Word32) : State :=
  s.scratchWrite blk (off + 4 * i) (toBytes 4 (f (s.scratchWord blk (off + 4 * i))).toNat)

/-- Slots that an array operation reads (R278, R280, R281). -/
def ArrOp.slots : ArrOp → List Nat
  | .ldw wd sd =>
    [wd.toNat % 256, wd.toNat % 256 + 1] ++ (if sd.getLsbD 14 then [] else [sd.toNat % 256])
  | .stream st sd _ =>
    let from_ := st.toNat % 256 * 16384 + st.toNat / 2 ^ 8 % 256 * 128
    let to_ := from_ + (st.toNat / 2 ^ 16 % 256 + 1) * 128
    ((List.range 128).filter fun k => decide (k * 16384 < to_ ∧ from_ < (k + 1) * 16384))
      ++ (if sd.getLsbD 14 then [] else [sd.toNat % 256])
  | _ => []

/-- Frees the released runs of a hitch that no queued operation reads, with their slot charges (R273, R326). -/
def State.freeRuns (s : State) (hitch : Nat) : State :=
  let h := s.hitch hitch
  let busy (r : Run) : Bool := h.arrayQ.any fun o => o.slots.any fun k => decide (r.first ≤ k ∧ k < r.first + r.n)
  let gone := h.runs.filter fun r => r.released && !busy r
  gone.foldl (fun s r => s.reclaim (hitch / 24) r.path [(8, r.n)])
    (s.updHitch hitch fun h => { h with runs := h.runs.filter fun r => !(r.released && !busy r) })

/-- Marks every run of a hitch released (R273). -/
def State.releaseRuns (s : State) (hitch : Nat) : State :=
  (s.updHitch hitch fun h => { h with runs := h.runs.map fun r => { r with released := true } }).freeRuns hitch

/-- The end of party `bit` of a fork: its bit in the object and, after the last party, the fork is gone with its charge. -/
def State.partyEnd (s : State) (blk off bit : Nat) : State :=
  match (tget s.blocks blk).bind fun b => b.forks.find? fun f => decide (f.off = off) with
  | none => s
  | some f =>
    let s := s.updRdv blk off 0 fun w => w ||| BitVec.twoPow 32 (4 + bit)
    let f' := { f with ended := f.ended ||| BitVec.twoPow 4 bit }
    if f'.ended = f.expected then
      let s := s.updBlock blk fun b => { b with forks := b.forks.filter fun g => decide (g.off ≠ off) }
      if f.rein then (s.updHitch f.hitch fun h => { h with fork := none }).reclaim f.die f.path [(7, 1)] else s
    else s.updBlock blk fun b => { b with forks := b.forks.map fun g => if g.off = off then f' else g }

/-- The end of a queue as a party of a fork of its block. -/
def State.queueEnd (s : State) (blk q : Nat) : State :=
  match (tget s.blocks blk).bind fun b => b.forks.find? fun f => f.queues.contains q && !(match f.partyOf q with
      | some i => f.ended.getLsbD i | none => true) with
  | some f => match f.partyOf q with | some i => s.partyEnd blk f.off i | none => s
  | none => s

/-- The end of a hitch's rein core program, once its thread has exited, its array queue is empty, its drains are handed over
and its runs are released (R269). -/
def State.reinEnd (s : State) (hitch : Nat) : State :=
  let h := s.hitch hitch
  match h.fork with
  | none => s
  | some (blk, off) =>
    let exited := match tget s.teams (reinKey hitch) with
      | some t => t.threads.all fun (th : Thread) => decide (th.stat = .exited)
      | none => true
    if exited && h.arrayQ.isEmpty && h.runs.isEmpty then
      ({ s with teams := tdel s.teams (reinKey hitch) }).partyEnd blk off 0
    else s

/-- Discards a hitch's rein core program: its runs are released and its accumulators are +0 (R287, R317). -/
def State.discardRein (s : State) (hitch : Nat) : State :=
  (s.hitch hitch).runs.foldl (fun (s : State) (r : Run) => s.reclaim (hitch / 24) r.path [(8, r.n)])
    (({ s with teams := tdel s.teams (reinKey hitch) } : State).updHitch hitch fun h => { h with arrayQ := [], acc := [], runs := [] })

/-- Aborts a fork: every party that has not ended stops, and aborted is set (R317). -/
def State.abortFork (s : State) (blk off : Nat) : State :=
  match (tget s.blocks blk).bind fun b => b.forks.find? fun f => decide (f.off = off) with
  | none => s
  | some f =>
    let s := f.queues.foldl (fun s q =>
      match f.partyOf q with
      | some i => if f.ended.getLsbD i then s else s.emptyQueue f.die q
      | none => s) s
    let s := if f.rein && !f.ended.getLsbD 0 then s.discardRein f.hitch else s
    let s := s.updRdv blk off 0 fun w => w ||| 0x100
    let s := s.updBlock blk fun b => { b with forks := b.forks.filter fun g => decide (g.off ≠ off) }
    if f.rein then (s.updHitch f.hitch fun h => { h with fork := none }).reclaim f.die f.path [(7, 1)] else s

/-- Discards a queue: a fork of which it is an unended party is aborted (R312). -/
def State.discardQueue (s : State) (die q : Nat) : State :=
  let k := s.queue die q
  if k.state = .idle then s
  else
    let s := s.emptyQueue die q
    match k.block.bind fun b => (tget s.blocks b).bind fun x =>
        (x.forks.find? fun f => f.queues.contains q && !(match f.partyOf q with | some i => f.ended.getLsbD i | none => true)).map
          fun f => (b, f.off) with
    | some (b, off) => s.abortFork b off
    | none => s

/-! ### The end of a block -/

/-- The keys of the teams of a block. -/
def State.teamsOf (s : State) (blk : Nat) : List Nat :=
  (s.teams.filter fun e => decide (e.2.block = blk) && decide (e.2.kind = .vector)).map (·.1)

/-- Whether a block is on cores. -/
def State.seated (s : State) (blk : Nat) : Bool :=
  match tget s.blocks blk with
  | some b => decide (b.stat = .placed ∨ b.stat = .saving)
  | none => false

/-- Takes back the charge of a neighbourhood's four barriers, for its die, once none of its blocks on cores has a thread left (R244,
R326). -/
def State.freeNbhd (s : State) (die nid : Nat) : State :=
  match tget s.nbhds nid with
  | some n =>
    if n.blocks.any fun k => s.seated k && !(s.teamsOf k).isEmpty then s
    else { s.reclaim die n.path [(6, 4)] with nbhds := tset s.nbhds nid { n with path := [] } }
  | none => s

/-- The barriers of a block whose last thread has exited are freed, though a queue is still bound to it or a fork of it runs (R244). -/
def State.freeBars (s : State) (blk : Nat) : State :=
  match tget s.blocks blk with
  | none => s
  | some b =>
    ((s.reclaim b.die b.path (b.charges.filter fun e => decide (e.1 = 6))).updBlock blk fun b => { b with
      bars := [], nbars := 0, charges := b.charges.filter fun e => decide (e.1 ≠ 6) }).freeNbhd b.die b.nbhd

/-! ### Slots and their pre-emption requests (R331, R341) -/

def State.slot (s : State) (die i : Nat) : Slot := ((s.die die).slots[i]?).getD Slot.reset
def State.updSlot (s : State) (die i : Nat) (f : Slot → Slot) : State := s.updDie die fun d => { d with slots := modAt d.slots i f }

def Slot.qcbAt (t : Slot) : Nat := t.qcb.toNat

/-- Ends the request of a slot whose blocks have all stopped (R341). -/
def State.endRequest (s : State) (die i : Nat) : State :=
  let t := s.slot die i
  if t.preempting && !s.blocks.any fun e => decide (e.2.die = die ∧ e.2.qcb = t.qcbAt ∧ e.2.stat = .saving) then
    s.updSlot die i fun t => { t with preempting := false, result := 1 }
  else s

/-- The end of the requests of a die's slots, after a block has stopped or is gone. -/
def State.endRequests (s : State) (die : Nat) : State := (List.range 16).foldl (fun s i => s.endRequest die i) s

/-- Removes a block, with its charges, and so the last block that a request waits for; a neighbourhood goes with its last block. -/
def State.removeBlock (s : State) (blk : Nat) : State :=
  match tget s.blocks blk with
  | none => s
  | some b =>
    let s := ((({ s with blocks := tdel s.blocks blk } : State).reclaim b.die b.path b.charges).freeNbhd b.die b.nbhd).endRequests b.die
    match tget s.nbhds b.nbhd with
    | some n => if b.nblk.isSome && n.blocks.all fun k => (tget s.blocks k).isNone then { s with nbhds := tdel s.nbhds b.nbhd } else s
    | none => s

/-- Frees a placed block, or one that is being saved, once its last thread has exited, no queue is bound to it and its forks have ended;
until then its barriers alone are freed (R244). A stopped queue bound to it is discarded when its last thread has exited (R289). -/
def State.settleBlock (s : State) (blk : Nat) : State :=
  match tget s.blocks blk with
  | none => s
  | some b =>
    if (b.stat ≠ .placed ∧ b.stat ≠ .saving) ∨ !(s.teamsOf blk).isEmpty then s
    else
      let s := (List.range 32).foldl (fun s q =>
        let k := s.queue b.die q
        if k.block = some blk ∧ k.state = .stopped then s.discardQueue b.die q else s) s
      match tget s.blocks blk with
      | some b => if !s.queueBound blk && b.forks.isEmpty then s.removeBlock blk else s.freeBars blk
      | none => s

/-- A queue that holds nothing more is unbound, and its end counts for its fork (R289, R308). -/
def State.settleQueue (s : State) (die q : Nat) : State :=
  let k := s.queue die q
  if k.state = .bound ∧ k.fifo.isEmpty ∧ k.prog.isNone ∧ k.cur.isNone then
    let s := s.updQueue die q fun k => { k with state := .idle, block := none }
    match k.block with
    | some b => (s.queueEnd b q).settleBlock b
    | none => s
  else s

end Sys2Proof.Machine
end

