-- ==== Sys2Proof/Machine/Place.lean ====
section
/-! DEFINITION. Placement: core counts, fitting cores, new teams and threads, and the placing of blocks
(spec/14_relay_queues_and_launch.md R335, R336; spec/05_register_files.md R123; spec/04_issue_and_lanes.md R96). -/

namespace Sys2Proof.Machine

/-! ### What a block needs (R335) -/

/-- The resources of a block of a launch. -/
structure Need where
  threads : Nat
  vregs : Nat
  dregs : Nat
  bagBytes : Nat
  scratchKiB : Nat
  nbars : Nat
  deriving DecidableEq, Repr

def ceilDiv (a b : Nat) : Nat := (a + b - 1) / b

def Need.teams (n : Need) : Nat := ceilDiv n.threads 64

/-- Whether one empty core holds the block's teams when it takes `c` cores. -/
def Need.fitsEmpty (n : Need) (c : Nat) : Bool :=
  let u := ceilDiv n.teams c
  decide (u ≤ 32 ∧ ceilDiv u 4 ≤ 8 ∧ u * n.vregs * 256 ≤ 512 * 1024 ∧ u * n.dregs * 2 ≤ 256
    ∧ ceilDiv u 4 * 2 * n.bagBytes ≤ 8192 ∧ ceilDiv n.scratchKiB c ≤ 896)

/-- The core count of a block: the smallest of 1, 2 and 4 that holds it. -/
def Need.cores (n : Need) : Option Nat := [1, 2, 4].find? n.fitsEmpty

/-- What each of a block's teams holds, and frees when it exits (R96, R122, R170, R187): threads, v registers, direction file and
saddlebags. -/
def Need.teamCharges (n : Need) : List (Nat × Nat) :=
  [(1, 64), (2, n.vregs * 64 * 4 / 1024), (3, n.dregs * 2), (4, 64 * n.bagBytes / 1024)]

/-- The charges of a block (R326): those of its teams, its scratchpad and its barriers. -/
def Need.charges (n : Need) : List (Nat × Nat) :=
  (n.teamCharges.map fun e => (e.1, n.teams * e.2)) ++ [(5, n.scratchKiB), (6, n.nbars)]

def Block.need (b : Block) : Need where
  threads := b.threads
  vregs := b.vregs
  dregs := b.dregs
  bagBytes := b.bagBytes
  scratchKiB := b.scratchKiB
  nbars := b.nbars

/-! ### What a core has free -/

/-- The resident vector teams of a core, with what their block allots them: (slot, v, d, saddlebag bytes). -/
def State.residents (s : State) (core : Nat) : List (Nat × Nat × Nat × Nat) :=
  (List.range 32).filterMap fun sl =>
    (tget s.teams (teamKey core sl)).bind fun t => (tget s.blocks t.block).map fun b => (sl, b.vregs, b.dregs, b.bagBytes)

/-- The lowest free run of `p` KiB of a core's scratchpad (R194). -/
def State.scratchFree (s : State) (core p : Nat) : Option Nat :=
  let limit := (s.core core).splitCurrent * 128
  let used := (s.blocks.map fun e =>
    (e.2.parts.filter fun x => decide (x.1 = core)).map fun x => (x.2, x.2 + ceilDiv e.2.scratchKiB e.2.cores.length)).flatten
  let starts := 0 :: used.map (·.2)
  let ok (a : Nat) : Bool := decide (a + p ≤ limit) && used.all fun u => decide (a + p ≤ u.1 ∨ u.2 ≤ a)
  (starts.filter ok).foldl (fun b a => match b with | some x => some (min x a) | none => some a) none

/-- How many of some teams of a block, given by their indices, go to a lane block of its `k`-th core. -/
def teamsAt (ts : List Nat) (c k lb : Nat) : Nat := (ts.filter fun t => decide (t % c = k ∧ t / c % 4 = lb)).length

/-- Whether a core has room for the teams `ts` of a block that go to it as the `k`-th of `c` cores. -/
def State.coreFits (s : State) (n : Need) (ts : List Nat) (c k core : Nat) : Bool :=
  let rs := s.residents core
  let per (lb : Nat) := teamsAt ts c k lb
  let u := per 0 + per 1 + per 2 + per 3
  let sum (f : Nat × Nat × Nat × Nat → Nat) : Nat := (rs.map f).sum
  let p := ceilDiv n.scratchKiB c
  !(s.core core).halted
    && [0, 1, 2, 3].all (fun lb =>
        let here := rs.filter fun r => decide (r.1 / 8 = lb)
        decide (here.length + per lb ≤ 8) && decide ((here.map fun r => 2 * r.2.2.2).sum + per lb * 2 * n.bagBytes ≤ 8192))
    && decide (sum (fun r => r.2.1) * 256 + u * n.vregs * 256 ≤ 512 * 1024)
    && decide (sum (fun r => r.2.2.1) * 2 + u * n.dregs * 2 ≤ 256)
    && (decide (p = 0) || (s.scratchFree core p).isSome)

/-- The hitch whose atomic unit holds the barriers of a seated block: that of its lowest core. -/
def State.barHitch (s : State) (blk : Nat) : Option Nat :=
  if s.seated blk then (tget s.blocks blk).bind fun b => b.cores.head?.map hitchOf else none

/-- Barriers allotted at a hitch's atomic unit: those of the blocks there, and the 4 of each neighbourhood that holds its own
and whose first seated block is there (R244, log 38). -/
def State.barsAt (s : State) (hitch : Nat) : Nat :=
  (s.blocks.map fun e => if s.barHitch e.1 = some hitch then e.2.nbars else 0).sum
    + (s.nbhds.map fun e => if !e.2.path.isEmpty && decide ((e.2.blocks.find? s.seated).bind s.barHitch = some hitch) then 4 else 0).sum

/-- Whether a set of cores has room for the teams `ts` of a block. -/
def State.setFits (s : State) (n : Need) (ts : List Nat) (cores : List Nat) : Bool :=
  (List.range cores.length).all fun k => s.coreFits n ts cores.length k (cores.getD k 0)

/-- Whether the atomic units have room for the barriers of blocks on core sets, and for 4 more, when they are asked for, at the first
of these (R244). -/
def State.barsFit (s : State) (blocks : List (Nat × List Nat)) (shared : Bool) : Bool :=
  let at' (h : Nat) : Nat := ((blocks.filter fun e => decide (hitchOf (e.2.headD 0) = h)).map (·.1)).sum
  let first := (blocks.head?.map fun e => hitchOf (e.2.headD 0))
  blocks.all fun e =>
    let h := hitchOf (e.2.headD 0)
    decide (s.barsAt h + at' h + (if shared ∧ first = some h then 4 else 0) ≤ 512)

/-- The candidate core sets of a die for a block of `c` cores, in ascending order of the lowest core (R335). -/
def coreSets (die c : Nat) : List (List Nat) :=
  match c with
  | 1 => (List.range 96).map fun i => [die * 96 + i]
  | 2 => ((List.range 96).filter fun i => decide (i % 2 = 0)).map fun i => [die * 96 + i, die * 96 + i + 1]
  | _ => (List.range 24).map fun h => hitchCores (die * 24 + h)

/-! ### New threads and teams -/

/-- A thread at its start (R123, R130, R137, R143, R170, R189). -/
def newThread (need : Need) (tid : Nat) (entry arg pkt : Word64) (clock : Nat) : Thread where
  stat := .atLeg
  pc := entry
  awaits := []
  readySince := clock
  v := (List.range need.vregs).map fun i =>
    { val := if i < 2 then (words64 arg).getD i 0 else if i < 4 then (words64 pkt).getD (i - 2) 0 else 0, full := true, live := decide (i < 4) }
  t := List.replicate 6 0
  ix := List.replicate 8 0
  p := 0
  mt := 0
  d := List.replicate need.dregs { comps := 0, norm := 0x8000, cfull := true, nfull := true }
  bag := []
  bagBytes := need.bagBytes
  bsp := BitVec.ofNat 32 need.bagBytes
  taskTag := 0
  idem := false
  sect := 0
  tid := tid
  resume := 0

/-- A team at its start in a slot (R109, R134, R346). -/
def newTeam (core slot : Nat) (gen : BitVec 16) (b : Block) (id tix clock : Nat) (threads : List Thread) : Team where
  kind := .vector
  core := core
  slot := slot
  gen := gen
  block := id
  tix := tix
  mode := b.mode
  region := b.region
  ortBase := b.ortBase
  ortSize := b.ortSize
  asid := b.asid
  ortNext := []
  dirRange := false
  scopeMis := false
  step := false
  xltLimit := 0x100000
  relocLimit := 0x1000000
  rdvLimit := 0x10000000
  m := laneMask ((List.range threads.length).filter fun l =>
        match threads[l]? with | some th => decide (th.stat ≠ .exited) | none => false) :: List.replicate 11 0
  s := List.replicate 16 { val := 0, full := true }
  res := none
  active := false
  legs := 0
  waitSince := clock
  threads := threads
  groups := []
  pend := []
  drops := []

/-- A barrier at its allotment for `n` threads (R263). -/
def newBarrier (n : Nat) : Barrier := { n := n, strict := false, p := 0, a := 0, arrived := [], carried := [] }

/-- The next generation of a team slot: 0xFFFF is skipped (R349). -/
def nextGen (g : BitVec 16) : BitVec 16 := if g + 1 = 0xFFFF then 0 else g + 1

/-- Gives a team of a placed block its slot: core t mod c, lane block (t div c) mod 4, the lowest free slot there, under a new
generation (R335, R349). `mk` makes the team from core, slot and generation. -/
def State.seatTeam (s : State) (cores : List Nat) (tix : Nat) (mk : Nat → Nat → BitVec 16 → Team) : State :=
  let c := cores.length
  let core := cores.getD (tix % c) 0
  let lb := tix / c % 4
  match (List.range 8).find? fun i => (tget s.teams (teamKey core (8 * lb + i))).isNone with
  | none => s
  | some i =>
    let slot := 8 * lb + i
    let gen := nextGen ((s.core core).gen slot)
    (s.updCore core fun k => { k with gens := modAt k.gens slot fun _ => gen }).setTeam (teamKey core slot) (mk core slot gen)

/-- Puts a block on cores, with its charges along a path and its scratchpad parts, before its teams are seated. -/
def State.seatBlock (s : State) (id : Nat) (b : Block) (cores : List Nat) (path : List Nat) : State :=
  let p := ceilDiv b.scratchKiB cores.length
  let parts := if p = 0 then [] else cores.map fun c => (c, (s.scratchFree c p).getD 0)
  { s.charge b.die path b.charges 1 with
    blocks := tset s.blocks id { b with stat := .placed, cores := cores, parts := parts, path := path } }

/-- Takes back what one team of a block holds, when it exits. -/
def State.freeShare (s : State) (blk : Nat) : State :=
  match tget s.blocks blk with
  | none => s
  | some b =>
    let part := b.need.teamCharges.filter fun e => b.charges.any fun c => decide (c.1 = e.1 ∧ e.2 ≤ c.2)
    (s.reclaim b.die b.path part).updBlock blk fun b => { b with
      charges := b.charges.map fun c => (c.1, c.2 - ((part.filter fun e => decide (e.1 = c.1)).map (·.2)).sum) }

/-- The new threads of team `t` of a block: those of its thread identities; `live` says which start, and at which entry. -/
def newThreads (b : Block) (t clock : Nat) (entryOf : Nat → Option Word64) : List Thread :=
  (List.range (min 64 (b.threads - 64 * t))).map fun i =>
    let tid := 64 * t + i
    match entryOf tid with
    | some e => newThread b.need tid e b.arg b.pktAddr clock
    | none => { newThread b.need tid b.entry b.arg b.pktAddr clock with stat := .exited }

/-- Seats the new teams of a block. -/
def State.seatNew (s : State) (id : Nat) (entryOf : Nat → Option Word64) : State :=
  match tget s.blocks id with
  | none => s
  | some b =>
    (List.range b.need.teams).foldl (fun s t =>
      let ths := newThreads b t s.clock entryOf
      if ths.all fun (th : Thread) => decide (th.stat = .exited) then s
      else s.seatTeam b.cores t fun core slot gen => newTeam core slot gen b id t s.clock ths) s

end Sys2Proof.Machine
end

