-- ==== Sys2Proof/Machine/Launch.lean ====
section
/-! DEFINITION. The dispatcher: slots, launch packets, placement by level, completion and phases
(spec/14_relay_queues_and_launch.md R329-R342). -/

namespace Sys2Proof.Machine

/-! ### Writes of the device through an address space -/

/-- The agent of a die's device parties in an address space. -/
def dieAgent (die : Nat) (c : Ctx) (engine : Bool) : Agent where
  tlb := .engine
  die := die
  ctx := c
  user := false
  engine := engine
  bare := false

/-- The permission of an atomic that writes (R209, R256). -/
def Use.atom : Use := { read := true, write := true, exec := false, atomic := true, kind := none }

/-- The party that the dispatcher of a die is to the scope checker: in no hitch (R252, log 69). -/
def dieParty (die : Nat) : Nat := 384 + die

/-- The completion signal of a packet of a die's dispatcher at a translated location, as AEXCH.dev.rel under the policy `degrade`: checked
and recorded like one, at its home, where it consumes the old word (R240, R252, R253, R334); or held when the granule is moving, and then
checked when it performs (R219). A fault that comes after a hold counts in the packet's region table. -/
def State.performAt (s : State) (die : Nat) (tab : RegionTab) (degrade : Bool) (c : Ctx) (va : Word64) (x : Xl) (bs : List Byte) :
    State × Option XFault :=
  match s.admitAt degrade (dieParty die) x bs.length (effScope x 3) (if x.moving then 0 else 2) (!x.moving)
      fun s => s.linkFault die x bs.length true with
  | (s, .error f) => (s, some f)
  | (s, .ok _) =>
    if x.moving then
      ({ s with
        held := s.held ++ [{ id := s.nextId, asid := c.asid, ortBase := c.ortBase, ortSize := c.ortSize, va := va, pa := x.pa,
                             entryAt := x.entryAt, op := .exch, plain := true, bytes := bs, width := bs.length, signed := false, data := 0,
                             cmp := 0, dev := true, key := die * 32, lane := 0, engine := none, dest := .none, start := 0, word := 0,
                             w8 := 0, gran := x.gran, since := s.clock, limit := 0, keySlot := x.key, live := false, acq := false
                             scope := 3, order := 2, hitch := dieParty die, degrade := degrade, coord := none
                             owner := (0, c.region.toNat), launch := none, mode := c.mode, vector := false, byEngine := false, tab := tab }]
        nextId := s.nextId + 1 }, none)
    else s.plainWrite die x bs

/-! ### QCBs and packets -/

def State.qcbWord (s : State) (die qcb i : Nat) : Word32 := s.devWord die (qcb + 4 * i)
def State.setQcb (s : State) (die qcb i : Nat) (x : Word32) : State := s.devWrite die (qcb + 4 * i) (toBytes 4 x.toNat)

/-- Word `i` of a packet. -/
def Packet.w (p : Packet) (i : Nat) : Word32 := p.words.getD i 0
def Packet.kind (p : Packet) : Nat := (p.w 0).toNat % 16
def Packet.phase (p : Packet) : Nat := (p.w 0).toNat / 2 ^ 16
def Packet.perNbhd (p : Packet) : Nat := (p.w 1).toNat / 2 ^ 16
def Packet.pair (p : Packet) (i : Nat) : Word64 := p.w (i + 1) ++ p.w i
def Packet.region (p : Packet) : Nat := (p.w 13).toNat % 2 ^ 24
/-- The mode of the teams of a packet (R325). -/
def Packet.mode (p : Packet) : Mode := if p.eff.sup then .s else .u
def Packet.deadline (p : Packet) : Nat := if (p.w 13).getLsbD 24 then (p.pair 11).toNat else 2 ^ 64 - 1

def packetNeed (w : Nat → Word32) : Need where
  threads := (w 1).toNat % 2 ^ 13
  vregs := (w 3).toNat % 256
  dregs := (w 3).toNat / 2 ^ 8 % 16
  bagBytes := 64 * ((w 4).toNat % 2 ^ 16)
  scratchKiB := (w 3).toNat / 2 ^ 16
  nbars := let b := (w 3).toNat / 2 ^ 12 % 16
           if b = 15 then 16 else b

/-- The words charged with a failed check of a packet (R333); `nbhdOk` says that the die has neighbourhood launches enabled (R380). -/
def packetFaults (w : Nat → Word32) (qcbRegion : Nat) (pathOk nbhdOk : Bool) : List Nat :=
  let kind := (w 0).toNat % 16
  let need := packetNeed w
  let m := (w 1).toNat / 2 ^ 16
  let W := (w 4).toNat / 2 ^ 16 % 256
  let H := (w 4).toNat / 2 ^ 24
  let blocks := (w 2).toNat
  let when (b : Bool) (i : Nat) : List Nat := if b then [i] else []
  when (decide ((w 0).toNat / 2 ^ 5 % 2 ^ 11 ≠ 0)) 0 ++ when (decide ((w 1).toNat / 2 ^ 13 % 8 ≠ 0)) 1
    ++ when (decide ((w 13).toNat / 2 ^ 25 ≠ 0)) 13 ++ when (decide (w 14 ≠ 0)) 14 ++ when (decide (w 15 ≠ 0)) 15
    ++ when (decide (kind ≥ 4) || (decide (kind = 1) && !nbhdOk)) 0
    ++ when (decide ((w 13).toNat % 2 ^ 24 ≠ qcbRegion) || !pathOk) 13
    ++ when (!(w 13).getLsbD 24 && decide (w 11 ≠ 0 ∨ w 12 ≠ 0)) 13
    ++ (if kind ≤ 1 then
          when (decide (need.threads = 0 ∨ need.threads > 4096)) 1 ++ when (decide (blocks = 0)) 2
            ++ when (decide (need.vregs = 0 ∨ need.vregs % 8 ≠ 0 ∨ need.vregs > 192)) 3
            ++ when (! [0, 1, 2, 4, 8].contains need.dregs) 3
            ++ when (decide (need.bagBytes > 4096)) 4
            ++ when need.cores.isNone 3
            ++ (if kind = 0 then when (decide (m ≠ 0)) 1 ++ when (decide (W ≠ 0 ∨ H ≠ 0)) 4
                else
                  when (decide (m = 0 ∨ m > 24)) 1 ++ when (decide (m ≠ 0 ∧ blocks % m ≠ 0)) 2
                    ++ (match need.cores with
                        | some c => when (decide (W * H ≠ m * c) || decide (c ≥ 2 ∧ W % 2 ≠ 0) || decide (c = 4 ∧ H % 2 ≠ 0)) 4
                        | none => []))
        else [])

/-- The context in which a packet of a region is read and signalled (R327, R330, R334). -/
def RegionEff.ctx (e : RegionEff) (region : Nat) : Ctx where
  asid := e.asid
  ortBase := e.ortBase
  ortSize := e.ortSize
  mode := if e.sup then .s else .u
  region := BitVec.ofNat 24 region
  reloc := 0

/-! ### Completion -/

/-- A signal of a packet that cannot be written: the fault count of its region rises and bit 2 latches at sup_core (R334). -/
def State.signalFault (s : State) (t : RegionTab) (region : Nat) : State := (s.regionFault t region).interrupt t.sup 2

/-- Writes the completion signal of a packet that has one (R334). -/
def State.signalPacket (s : State) (die : Nat) (p : Packet) (status : Nat) : State :=
  let va := p.pair 9
  if va = 0 then s
  else
    let c := p.eff.ctx p.region
    match s.translate (dieAgent die c false) va 8 8 Use.atom with
    | (s, .error _) => s.signalFault p.tab p.region
    | (s, .ok x) =>
      match s.performAt die p.tab p.eff.degrade c va x (toBytes 8 status) with
      | (s, none) => s
      | (s, some _) => s.signalFault p.tab p.region

/-- Advances the read index of a queue past its completed packets, and drops them (R330). -/
def State.retire (s : State) (die qcb : Nat) : Nat → State
  | 0 => s
  | fuel + 1 =>
    let mine := (s.die die).packets.filter fun p => decide (p.qcb = qcb)
    match mine.head? with
    | some p =>
      if p.done then
        let s := s.updDie die fun d => { d with packets := d.packets.filter fun q => !decide (q.qcb = qcb ∧ q.n = p.n) }
        (s.setQcb die qcb 5 (s.qcbWord die qcb 5 + 1)).retire die qcb fuel
      else s
    | none => if s.qcbWord die qcb 10 = 1 then s.setQcb die qcb 10 0 else s

/-- Completes a packet: its signal is written, and the read index moves (R330, R334). -/
def State.completePacket (s : State) (die : Nat) (p : Packet) (status : Nat) : State :=
  let s := s.signalPacket die p (status + if p.late && decide (status = 0) then 2 ^ 8 else 0)
  let s := s.updDie die fun d => { d with
    packets := d.packets.map fun q => if q.qcb = p.qcb ∧ q.n = p.n then { q with done := true } else q }
  s.retire die p.qcb 65536

/-- Cleans a core's L1: dirty bytes written back; every line dropped when `drop` (R334, R340). -/
def State.flushL1 (s : State) (core : Nat) (drop : Bool) : State :=
  let s := s.cleanLines core fun _ => true
  if drop then s.updCore core fun k => { k with l1 := [] } else s

/-! ### Readiness and level (R337, R338) -/

/-- The taken packets of a slot's queue, oldest first. -/
def State.packetsOf (s : State) (die qcb : Nat) : List Packet := (s.die die).packets.filter fun p => decide (p.qcb = qcb)

/-- Whether a result in flight has arrived, or is a request that the restore issues again (R365). -/
def Pend.settled (p : Pend) : Bool := match p.wait with | .ring .. | .relay .. => true | _ => false

/-- Whether a kept block may be placed again: it carries no waiting mark, and no result is still to arrive (R365, R368). -/
def Block.back (b : Block) : Bool :=
  decide (b.stat = .saved ∨ b.stat = .discarded) && b.waiting.isNone
    && (b.savedTeams ++ b.savedRein.toList).all fun (t : Team) => t.pend.all Pend.settled

/-- The saved and discarded blocks of a queue that may be placed again, oldest first. A neighbourhood comes back whole: a block of it
waits for every other that has left its cores or is leaving them (R367). -/
def State.keptBlocks (s : State) (die qcb : Nat) : List (Nat × Block) :=
  s.blocks.filter fun e =>
    decide (e.2.die = die ∧ e.2.qcb = qcb) && e.2.back
      && (e.2.nblk.isNone || s.blocks.all fun f => decide (f.2.nbhd ≠ e.2.nbhd ∨ f.2.stat = .placed) || f.2.back)

/-- The packet of a queue whose blocks are next to be placed: every earlier one is placed, and no phase change is due. -/
def State.nextToPlace (s : State) (die qcb : Nat) : Option Packet :=
  match (s.packetsOf die qcb).find? fun p => !p.done && decide (p.nextBlk < p.total ∨ p.total = 0) with
  | some p => if p.total ≠ 0 ∧ p.phase = (s.qcbWord die qcb 8).toNat % 2 ^ 16 then some p else none
  | none => none

/-- The ring address of packet `n` of a queue (R330). -/
def State.packetAddr (s : State) (die qcb n : Nat) : Word64 :=
  (s.qcbWord die qcb 3 ++ s.qcbWord die qcb 2) + BitVec.ofNat 64 (n % 2 ^ ((s.qcbWord die qcb 4).toNat % 32) * 64)

/-- Reads packet `n` of a queue from its ring: a link, a port or poison in the way is a fault of the read (R330). -/
def State.readPacket (s : State) (die qcb n : Nat) (e : RegionEff) (region : Nat) : State × Except XFault (List Word32) :=
  match s.translate (dieAgent die (e.ctx region) false) (s.packetAddr die qcb n) 64 64 Use.load with
  | (s, .error f) => (s, .error f)
  | (s, .ok x) =>
    match s.plainRead die x 64 with
    | (s, .error f) => (s, .error f)
    | (s, .ok bs) => (s, .ok (bytesWords 16 bs))

/-- Whether the packet to take of a queue may be taken now: the wait bit and kind 3 wait for every earlier packet (R337); a
packet that cannot be read holds nothing. -/
def State.mayTake (s : State) (die qcb : Nat) : Bool :=
  let region := (s.qcbWord die qcb 1).toNat % 2 ^ 24
  match (s.readPacket die qcb (s.qcbWord die qcb 9).toNat (s.effOf (s.tabOf die) region) region).2 with
  | .ok ws =>
    let w0 := ws.getD 0 0
    !(w0.getLsbD 4 || decide (w0.toNat % 16 = 3)) || (s.packetsOf die qcb).isEmpty
  | .error _ => true

/-- Whether a queue is stopped: its slot takes no packet of it (R330). -/
def State.qcbStopped (s : State) (die qcb : Nat) : Bool := decide ((s.qcbWord die qcb 10).toNat % 4 = 2)

/-- Whether a slot is ready (R337): blocks are to be placed, or a packet to be taken. -/
def State.slotReady (s : State) (die i : Nat) : Bool :=
  let t := s.slot die i
  t.valid && ((s.nextToPlace die t.qcbAt).isSome || !(s.keptBlocks die t.qcbAt).isEmpty
    || (!s.qcbStopped die t.qcbAt && t.known && s.mayTake die t.qcbAt))

/-- Keeps ready and since of a die's slots: since is set when a slot becomes ready (R337). -/
def State.refreshSlots (s : State) (die : Nat) : State :=
  (List.range 16).foldl (fun s i =>
    let r := s.slotReady die i
    s.updSlot die i fun t => { t with ready := r, since := if r && !t.ready then s.clock else t.since }) s

/-- The head packet of a slot: that of its oldest kept block, else the taken packet whose blocks are next to be placed. -/
def State.headPacket (s : State) (die i : Nat) : Option Packet :=
  let qcb := (s.slot die i).qcbAt
  match s.keptBlocks die qcb with
  | (_, b) :: _ => (s.packetsOf die qcb).find? fun p => decide (p.n = b.packet)
  | [] => s.nextToPlace die qcb

/-- The effective level of a slot, under the values of its head packet's take (R327, R338). -/
def State.slotLevel (s : State) (die i : Nat) : Nat :=
  let t := s.slot die i
  let e := match s.headPacket die i with
    | some p => p.eff
    | none => s.effOf (s.tabOf die) ((s.qcbWord die t.qcbAt 1).toNat % 2 ^ 24)
  let P := (s.qcbWord die t.qcbAt 0).toNat / 2 ^ 8 % 64
  let age := if e.ageing = 0 then 0 else (s.clock - t.since) / e.ageing
  min e.ceiling (min P e.ceiling + age)

/-! ### Placement -/

/-- What a slot would place next. -/
inductive Next where
  /-- kept blocks, with their core sets: one block, or a neighbourhood whole (R367) -/
  | restore (bs : List (Nat × List Nat))
  /-- a block of a packet, with its cores -/
  | block (p : Packet) (cores : List Nat)
  /-- a neighbourhood of a packet, with the cores of each of its blocks -/
  | nbhd (p : Packet) (units : List (List Nat))
  deriving DecidableEq, Repr

/-- The first core set of a die that holds the teams `ts` of a block and passes a test (R335). -/
def State.fitBlock (s : State) (die : Nat) (n : Need) (ts : List Nat) (more : List Nat → Bool) : Option (List Nat) :=
  match n.cores with
  | some c => (coreSets die c).find? fun cs => s.setFits n ts cs && s.barsFit [(n.nbars, cs)] false && more cs
  | none => none

/-- The units of a W × H rectangle at an origin, row-major: single cores, row pairs or hitches (R336). -/
def rectUnits (die c W H x0 y0 : Nat) : List (List Nat) :=
  let dx := if c = 1 then 1 else 2
  let dy := if c = 4 then 2 else 1
  ((List.range (H / dy)).map fun j => (List.range (W / dx)).map fun i =>
    let b := die * 96 + (y0 + j * dy) * 12 + x0 + i * dx
    if c = 1 then [b] else if c = 2 then [b, b + 1] else [b, b + 1, b + 12, b + 13]).flatten

/-- The first origin at which a neighbourhood fits whole (R336): `ts` gives the teams of each of its blocks that is to be placed, and
`shared` says that its own barriers are to be allotted. -/
def State.fitNbhd (s : State) (die : Nat) (n : Need) (W H : Nat) (ts : Nat → Option (List Nat)) (shared : Bool) :
    Option (List (List Nat)) :=
  match n.cores with
  | none => none
  | some c =>
    let xs := (List.range 12).filter fun x => decide ((c = 1 ∨ x % 2 = 0) ∧ x + W ≤ 12)
    let ys := (List.range 8).filter fun y => decide ((c ≠ 4 ∨ y % 2 = 0) ∧ y + H ≤ 8)
    ys.findSome? fun y => xs.findSome? fun x =>
      let us := rectUnits die c W H x y
      let blocks := (List.range us.length).filterMap fun i => (ts i).map fun l => (l, us.getD i [])
      if (blocks.all fun e => s.setFits n e.1 e.2) && s.barsFit (blocks.map fun e => (n.nbars, e.2)) shared then some us else none

/-- Whether a kept block's queues and hitch are free on its die (R287, R318). -/
def State.keptFits (s : State) (b : Block) (cores : List Nat) : Bool :=
  b.savedQueues.all (fun e => let q := s.queue b.die e.1
                              decide (q.state = .idle) && decide (q.owner = b.region))
    && (b.savedHitch.isNone || (s.hitch (hitchOf (cores.headD 0))).fork.isNone)

/-- The teams of a kept block that come back: those that were live, by their index in the block (R364). -/
def Block.backTeams (b : Block) : List Nat :=
  if b.stat = .discarded then (b.reentry.map fun e => e.1 / 64).eraseDups else b.savedTeams.map (·.tix)

/-- The slots that a saved hitch holds. -/
def Hitch.heldSlots (h : Hitch) : Nat := (h.runs.map (·.n)).sum

/-- The charges that a kept block takes again, with those of its fork (R326, R364). -/
def Block.backCharges (b : Block) : List (Nat × Nat) :=
  b.charges ++ match b.savedHitch with | some h => [(7, 1), (8, h.heldSlots)] | none => []

/-- Whether charges of a region fit along its path. -/
def State.regionFits (s : State) (t : RegionTab) (h : Nat) (qs : List (Nat × Nat)) : Bool :=
  match s.path t h with | some p => s.chargeFits t.die p qs | none => false

/-- Whether the blocks of a neighbourhood can come back side by side: no two need the same queue, or a hitch for a fork of each (R318,
R367). -/
def matesApart (mates : List (Nat × Block)) (us : List (List Nat)) : Bool :=
  let queues := (mates.map fun e => e.2.savedQueues.map (·.1)).flatten
  let hitches := (mates.filter fun e => e.2.savedHitch.isSome).map fun e => hitchOf ((us.getD (e.2.nblk.getD 0) []).headD 0)
  decide (queues.eraseDups.length = queues.length ∧ hitches.eraseDups.length = hitches.length)

/-- Where a kept block, or its neighbourhood whole, would be placed (R367). -/
def State.nextBack (s : State) (die id : Nat) (b : Block) (rest : List (Nat × Block)) : Option Next :=
  match b.nblk with
  | none =>
    match s.fitBlock die b.need b.backTeams (s.keptFits b) with
    | some cs => if s.regionFits b.tab b.region.toNat b.backCharges then some (.restore [(id, cs)]) else none
    | none => none
  | some _ =>
    let mates := (id, b) :: rest.filter fun e => decide (e.2.nbhd = b.nbhd)
    let nb := tget s.nbhds b.nbhd
    let shared := match nb with | some n => n.path.isEmpty && mates.any (fun e => !e.2.backTeams.isEmpty) | none => false
    let ts (u : Nat) : Option (List Nat) := (mates.find? fun e => decide (e.2.nblk = some u)).map fun e => e.2.backTeams
    match s.fitNbhd die b.need ((nb.map (·.width)).getD 0) ((nb.map (·.height)).getD 0) ts shared with
    | some us =>
      let l := mates.map fun e => (e.1, us.getD (e.2.nblk.getD 0) [])
      let qs := (mates.map fun e => e.2.backCharges).flatten ++ if shared then [(6, 4)] else []
      if (mates.all fun e => s.keptFits e.2 (us.getD (e.2.nblk.getD 0) [])) && matesApart mates us && s.regionFits b.tab b.region.toNat qs then
        some (.restore l)
      else none
    | none => none

/-- Where the next block or neighbourhood of a packet would be placed (R335, R336). -/
def State.nextFresh (s : State) (die : Nat) (p : Packet) : Option Next :=
  let n := packetNeed p.w
  let all := List.range n.teams
  if p.kind = 0 then
    match s.fitBlock die n all fun _ => true with
    | some cs => if s.regionFits p.tab p.region n.charges then some (.block p cs) else none
    | none => none
  else
    match s.fitNbhd die n ((p.w 4).toNat / 2 ^ 16 % 256) ((p.w 4).toNat / 2 ^ 24) (fun _ => some all) true with
    | some us =>
      if s.regionFits p.tab p.region ((List.replicate p.perNbhd n.charges).flatten ++ [(6, 4)]) then some (.nbhd p us) else none
    | none => none

/-- What the slot `i` of a die would place next, when it fits: a kept block before any other (R335-R338, R367). -/
def State.nextOf (s : State) (die i : Nat) : Option Next :=
  match s.keptBlocks die (s.slot die i).qcbAt with
  | (id, b) :: rest => s.nextBack die id b rest
  | [] => (s.nextToPlace die (s.slot die i).qcbAt).bind (s.nextFresh die)

/-- The deadline of a slot's head packet. -/
def State.slotDeadline (s : State) (die i : Nat) : Nat :=
  match s.headPacket die i with | some p => p.deadline | none => 2 ^ 64 - 1

/-- Whether slot `i` goes before slot `j` (R338). -/
def State.slotBefore (s : State) (die i j : Nat) : Bool :=
  let li := s.slotLevel die i
  let lj := s.slotLevel die j
  let di := s.slotDeadline die i
  let dj := s.slotDeadline die j
  let last := (s.die die).lastPick
  let key (k : Nat) : Nat := (k + 15 - last) % 16
  decide (lj < li) || (decide (li = lj) && (decide (di < dj) || (decide (di = dj) && decide (key i < key j))))

/-- The slot that the dispatcher picks, with what it places: the first in order whose next placement fits (R338). -/
def State.arbitrate (s : State) (die : Nat) : Option (Nat × Next) :=
  if (s.die die).seqError ≠ 0 then none
  else
    ((List.range 16).filter fun i => (s.slot die i).ready).foldl (fun (best : Option (Nat × Next)) i =>
      match s.nextOf die i with
      | none => best
      | some n =>
        match best with
        | some (j, m) => if s.slotBefore die i j then some (i, n) else some (j, m)
        | none => some (i, n)) none

/-- Updates a packet of a die. -/
def State.updPacket (s : State) (die : Nat) (p : Packet) (f : Packet → Packet) : State :=
  s.updDie die fun d => { d with packets := d.packets.map fun q => if q.qcb = p.qcb ∧ q.n = p.n then f q else q }

/-- The lateness test of a packet at its first pick: the packet after it, and whether it is skipped (R339). -/
def State.judge (s : State) (die : Nat) (p : Packet) : State × Packet × Bool :=
  if p.judged then (s, p, false)
  else
    let late := decide (p.deadline < s.clock)
    let s := if late then s.regionAdd p.tab.die (p.tab.addr p.region) 9 1 else s
    let q := { p with judged := true, late := late }
    (s.updPacket die p fun _ => q, q, late && p.eff.skipLate)

/-- A block of a packet, before it is placed. -/
def packetBlock (die : Nat) (p : Packet) (pkt : Word64) (blk : Nat) (nblk : Option Nat) (nbhd : Nat) : Block :=
  let n := packetNeed p.w
  { die := die, slot := p.slot, qcb := p.qcb, packet := p.n, stat := .placed, cores := [], threads := n.threads, vregs := n.vregs
    dregs := n.dregs, nbars := n.nbars, scratchKiB := n.scratchKiB, bagBytes := n.bagBytes, blk := blk, nblk := nblk, nbhd := nbhd
    entry := p.pair 5, arg := p.pair 7, pktAddr := pkt, region := BitVec.ofNat 24 p.region, policy := p.eff.degrade, mode := p.mode
    asid := p.eff.asid, ortBase := p.eff.ortBase, ortSize := p.eff.ortSize, tab := p.tab, charges := n.charges, path := []
    scratch := [], parts := []
    bars := List.replicate n.nbars (newBarrier n.threads), forks := [], savedTeams := [], savedQueues := [], savedHitch := none
    savedRein := none, reentry := [], waiting := none, frames := 0 }

/-- Places one block of a packet on its cores, and its threads (R335). -/
def State.placeBlock (s : State) (die : Nat) (p : Packet) (cores : List Nat) (blk : Nat) (nblk : Option Nat) (nbhd : Nat) : State :=
  let id := s.nextId
  let b := packetBlock die p (s.packetAddr die p.qcb p.n) blk nblk nbhd
  let s := ({ s with nextId := s.nextId + 1 }).seatBlock id b cores ((s.path p.tab p.region).getD [])
  let s := s.seatNew id fun _ => some b.entry
  s.updDie die fun d => { d with ran := tset d.ran p.qcb ((((tget d.ran p.qcb).getD []) ++ cores).eraseDups) }

/-- A pick of slot `i` (R338). -/
def State.picked (s : State) (die i : Nat) : State := s.updDie die fun d => { d with lastPick := i }

/-- A placement from slot `i`, which was picked: its wait begins again (R337). -/
def State.placedFrom (s : State) (die i : Nat) : State := (s.picked die i).updSlot die i fun t => { t with since := s.clock }

/-! ### The events of the dispatcher -/

/-- Stops a queue whose packet cannot be read (R330). -/
def State.stopQcb (s : State) (die qcb : Nat) (c : Cause) : State :=
  (s.setQcb die qcb 10 (BitVec.ofNat 32 (2 + c.code.toNat * 2 ^ 8))).supInterrupt die

/-- Takes the next packet of a slot's queue and checks it (R333). -/
def State.takePacket (s : State) (die i : Nat) : State :=
  let t := s.slot die i
  let qcb := t.qcbAt
  let region := (s.qcbWord die qcb 1).toNat % 2 ^ 24
  if !t.valid ∨ !t.known ∨ (s.die die).seqError ≠ 0 ∨ s.qcbStopped die qcb ∨ !s.mayTake die qcb then s
  else if !s.regionOk (s.tabOf die) region then s.stopQcb die qcb .permission
  else
    let tab := s.tabOf die
    let e := s.effOf tab region
    let n := (s.qcbWord die qcb 9).toNat
    match s.readPacket die qcb n e region with
    | (s, .error f) => s.stopQcb die qcb f.cause
    | (s, .ok ws) =>
      let w (k : Nat) : Word32 := ws.getD k 0
      let bad := packetFaults w region (s.path tab region).isSome ((s.die die).featEnabled.getLsbD 1)
      let p : Packet :=
        { qcb := qcb, slot := i, n := n, words := ws, nextBlk := 0, total := if (w 0).toNat % 16 ≤ 1 then (w 2).toNat else 0
          late := false, done := false, judged := false, tab := tab, eff := e }
      let s := (s.setQcb die qcb 9 (BitVec.ofNat 32 (n + 1))).setQcb die qcb 10 1
      let s := s.updSlot die i fun t => { t with known := decide (s.qcbWord die qcb 9 ≠ s.qcbWord die qcb 6) }
      let s := s.updDie die fun d => { d with packets := d.packets ++ [p] }
      match bad with
      | [] => s
      | b :: bs => (s.regionFault tab region).completePacket die p (2 + (bs.foldl min b) * 2 ^ 16)

/-- PACKET_TAKE (R333). -/
def execPacketTake (s : State) : Out :=
  match s.occ with
  | .slot die i => .next ((s.takePacket die i).refreshSlots die)
  | _ => .fault .noIssuer

/-- BLOCK_PLACE (R335): the dispatcher picks a block and places it, or skips its packet when that is late. -/
def execBlockPlace (s : State) : Out :=
  match s.occ with
  | .die die =>
    match s.arbitrate die with
    | some (i, .block p cores) =>
      let (s, p, skip) := s.judge die p
      let s := if skip then (s.completePacket die p 1).picked die i
        else (((s.placeBlock die p cores p.nextBlk none 0).updPacket die p fun q => { q with nextBlk := q.nextBlk + 1 })).placedFrom die i
      .next (s.refreshSlots die)
    | _ => .next s
  | _ => .fault .noIssuer

/-- NEIGHBOURHOOD_PLACE (R336): every block of a neighbourhood in one clock. -/
def execNeighbourhoodPlace (s : State) : Out :=
  match s.occ with
  | .die die =>
    match s.arbitrate die with
    | some (i, .nbhd p units) =>
      let (s, p, skip) := s.judge die p
      if skip then .next (((s.completePacket die p 1).picked die i).refreshSlots die)
      else
        let m := p.perNbhd
        let n := packetNeed p.w
        let nid := s.nextId
        let path := (s.path p.tab p.region).getD []
        let s := { s.charge die path [(6, 4)] 1 with nextId := nid + 1 }
        let r := (List.range m).foldl (fun (st : State × List Nat) b =>
          (st.1.placeBlock die p (units.getD b []) (p.nextBlk + b) (some b) nid, st.2 ++ [st.1.nextId])) (s, [])
        let nb : Nbhd := { blocks := r.2, count := m, threads := m * n.threads, sb := n.scratchKiB * 1024
                           bars := List.replicate 4 (newBarrier (m * n.threads))
                           width := (p.w 4).toNat / 2 ^ 16 % 256, height := (p.w 4).toNat / 2 ^ 24, path := path }
        let s := { r.1 with nbhds := tset r.1.nbhds nid nb }
        .next (((s.updPacket die p fun q => { q with nextBlk := q.nextBlk + m }).placedFrom die i).refreshSlots die)
    | _ => .next s
  | _ => .fault .noIssuer

/-- The first packet that slot `i` took, has not completed, and for which something is due, when every earlier packet of its
queue has completed. A packet keeps its slot when the slot is unmapped (R331). -/
def State.oldest (s : State) (die i : Nat) (due : Packet → Bool) : Option Packet :=
  (s.die die).packets.find? fun p =>
    !p.done && decide (p.slot = i) && due p && (s.packetsOf die p.qcb).all fun q => q.done || decide (p.n ≤ q.n)

/-- Whether a change of phase is due at a packet: it is a phase marker, or no block of it has been placed and its phase is not that of
the QCB (R340). -/
def State.phaseDue (s : State) (die : Nat) (p : Packet) : Bool :=
  decide (p.kind = 2 ∨ (p.nextBlk = 0 ∧ p.phase ≠ (s.qcbWord die p.qcb 8).toNat % 2 ^ 16))

/-- Whether a signal-only packet may write its signal: no change of phase is due at it (R337, R340). -/
def State.signalDue (s : State) (die : Nat) (p : Packet) : Bool := decide (p.kind = 3) && !s.phaseDue die p

/-- PHASE_CHANGE (R340): the L1 of each core that ran a block of an earlier packet of the queue is cleaned and the QCB takes the phase; a
phase marker then completes. -/
def execPhaseChange (s : State) : Out :=
  match s.occ with
  | .slot die i =>
    match s.oldest die i (s.phaseDue die) with
    | some p =>
      let cores := (tget (s.die die).ran p.qcb).getD []
      let s := cores.foldl (fun s c => s.flushL1 c true) s
      let s := s.setQcb die p.qcb 8 (BitVec.ofNat 32 p.phase)
      .next ((if p.kind = 2 then s.completePacket die p 0 else s).refreshSlots die)
    | none => .next s
  | _ => .fault .noIssuer

/-- SIGNAL_ONLY_PACKET (R337). -/
def execSignalOnlyPacket (s : State) : Out :=
  match s.occ with
  | .slot die i =>
    match s.oldest die i (s.signalDue die) with
    | some p => .next ((s.completePacket die p 0).refreshSlots die)
    | none => .next s
  | _ => .fault .noIssuer

/-- Whether a packet's blocks have all been placed and have all gone, and their writes have performed (R334). -/
def State.packetRan (s : State) (p : Packet) (die : Nat) : Bool :=
  decide (p.kind ≤ 1 ∧ p.total ≠ 0 ∧ p.nextBlk ≥ p.total) && !p.done
    && !(s.blocks.any fun e => decide (e.2.die = die ∧ e.2.qcb = p.qcb ∧ e.2.packet = p.n))
    && !(s.held.any fun h => decide (h.launch = some (p.qcb, p.n)))

/-- PACKET_COMPLETE (R334): the dirty lines of the cores that ran the packet are written back, then the signal is written. -/
def execPacketComplete (s : State) : Out :=
  match s.occ with
  | .slot die i =>
    match (s.die die).packets.find? fun p => decide (p.slot = i) && s.packetRan p die with
    | some p =>
      let cores := (tget (s.die die).ran p.qcb).getD []
      let s := cores.foldl (fun s c => s.flushL1 c false) s
      .next ((s.completePacket die p 0).refreshSlots die)
    | none => .next s
  | _ => .fault .noIssuer

/-- SEQUENCER_ERROR (R342). -/
def execSequencerError (s : State) : Out :=
  match s.occ with
  | .seqError die code =>
    .next (if code = 0 then s else (s.updDie die fun d => { d with seqError := code }).supInterrupt die)
  | _ => .fault .noIssuer

/-! ### Stores to the slot table, kick words and the pending map -/

/-- Whether the reserved fields of a QCB are 0 (R330): one with another value in them is not mapped, since no reserved value is
silently ignored (R8, log 64). -/
def qcbClean (w : Nat → Word32) : Bool :=
  decide ((w 0).toNat / 2 % 2 ^ 7 = 0 ∧ (w 0).toNat / 2 ^ 14 = 0 ∧ (w 1).toNat / 2 ^ 24 = 0 ∧ (w 4).toNat / 2 ^ 5 = 0
    ∧ (w 7).toNat / 2 ^ 12 = 0 ∧ (w 8).toNat / 2 ^ 16 = 0 ∧ (w 10).toNat / 2 ^ 2 % 2 ^ 6 = 0 ∧ (w 10).toNat / 2 ^ 16 = 0)
    && (List.range 21).all fun i => decide (w (11 + i) = 0)

/-- Maps a slot that a store has set valid (R331): charge and comparison of indices. The packets that the queue left under an
earlier slot are this slot's from now on. -/
def State.mapSlot (s : State) (die i : Nat) : Option State :=
  let t := s.slot die i
  match s.path (s.tabOf die) ((s.qcbWord die t.qcbAt 1).toNat % 2 ^ 24) with
  | none => none
  | some p =>
    if qcbClean (s.qcbWord die t.qcbAt) && s.chargeFits die p [(0, 1)] then
      let s := s.charge die p [(0, 1)] 1
      let s := s.updDie die fun d => { d with packets := d.packets.map fun p => if p.qcb = t.qcbAt then { p with slot := i } else p }
      some ((s.updSlot die i fun t => { t with
        known := decide (s.qcbWord die t.qcbAt 9 ≠ s.qcbWord die t.qcbAt 6), path := p }).refreshSlots die)
    else none

/-- Unmaps a slot (R331): its charge is taken back, and its pending bit is set when packets remain untaken. -/
def State.unmapSlot (s : State) (die i : Nat) (old : Slot) : State :=
  let s := (s.reclaim die old.path [(0, 1)]).updSlot die i fun t => { t with known := false, ready := false, path := [] }
  if s.qcbWord die old.qcbAt 9 ≠ s.qcbWord die old.qcbAt 6 then
    s.updDie die fun d => { d with pending := (d.pending ++ [old.doorbell.toNat]).eraseDups }
  else s

/-- A kick of doorbell `n` (R332). -/
def State.kickDoorbell (s : State) (die n : Nat) : State :=
  match (List.range 16).find? fun i => (s.slot die i).valid && decide ((s.slot die i).doorbell.toNat = n) with
  | some i =>
    (s.updSlot die i fun t => { t with known := decide (s.qcbWord die t.qcbAt 9 ≠ s.qcbWord die t.qcbAt 6) }).refreshSlots die
  | none => (s.updDie die fun d => { d with pending := (d.pending ++ [n]).eraseDups }).supInterrupt die

end Sys2Proof.Machine
end

