-- ==== Sys2Proof/Machine/Preempt.lean ====
section
/-! DEFINITION. Pre-emption: saving, discarding and restoring blocks (spec/15_privilege_and_traps.md R362-R368;
spec/14_relay_queues_and_launch.md R341; spec/12_hitch_matrix.md R287; spec/13_copy_engines.md R318). -/

namespace Sys2Proof.Machine

/-! ### Records of saved and discarded threads -/

/-- The records that park threads of a team: (core, sequence, lane mask of the record). -/
def Team.recordsOf (t : Team) : List (Nat × Word32 × BitVec 64) :=
  (t.threads.filterMap fun (th : Thread) => match th.stat with | .parked c q _ m _ => some (c, q, m) | _ => none).eraseDups

/-- Cancels the records of a team that is saved or discarded: a PREEMPT record for each (R366). -/
def State.cancelRecords (s : State) (t : Team) : State :=
  t.recordsOf.foldl (fun s r =>
    let i : TrapAt := { word := 0, idx := 0, dest := 0, start := 0, mid := false, coll := false, fetch := false, detail := false, addrs := [] }
    let lead : LaneFault := { lane := 0, cause := Cause.preempt.code, w9 := r.2.1, addr := 0 }
    let t0 : Team := { t with core := r.1 }
    s.pushRecord r.1 { words := recordWords t0 t.gen i r.2.2 lead, detail := [] }) s

/-- A team as it is saved: its parked threads stand at the points where they trapped, and its reservation is gone (R259, R366). -/
def Team.unparked (t : Team) : Team :=
  let pts := groupPoints ((List.range t.threads.length).filterMap fun l =>
    match t.threads[l]? with
    | some th => (match th.stat with | .parked _ _ c _ p => some (l, c, p) | _ => none)
    | none => none)
  let t := pts.foldl (fun t e => t.resumeAt e.2 e.1 0) t
  { t with res := none, active := false, legs := 0 }

/-- Whether a group can be saved where it stands: held, or stalled past the grace (R364). A rein core that stalls on a full array
queue runs on to its leg boundary (R276). -/
def Group.savable (g : Group) : Bool :=
  match g.hold with
  | .none | .stall | .tandem .. => false
  | .wait _ => match decode (g.leg.getD g.pos 0) with
    | .ok (.mldw _) | .ok (.mstream _) | .ok (.mzero _) | .ok (.mdrain _) => false
    | _ => true
  | _ => true

/-- The team of a block's rein core program, with its hitch. -/
def State.reinOf (s : State) (blk : Nat) : Option (Nat × Team) :=
  (tget s.blocks blk).bind fun b =>
    (b.forks.find? fun f => f.rein).bind fun f => (tget s.teams (reinKey f.hitch)).map fun t => (f.hitch, t)

/-- Every team that acts for a block. -/
def State.partyTeams (s : State) (blk : Nat) : List (Nat × Team) :=
  s.teams.filter fun e => decide (e.2.block = blk) && decide (e.2.kind ≠ .scalar)

/-- Removes teams, with the registrations of their threads; their held writes lose their limit (R219, R257), and the reads that wait
for their registers trap (R121). -/
def State.dropTeams (s : State) (keys : List Nat) : State :=
  let s := s.endTandem fun k _ => keys.contains k
  { s with
    teams := keys.foldl tdel s.teams
    watches := s.watches.filter fun w => w.engine || !keys.contains w.key
    held := s.held.map fun h => if h.engine.isNone && keys.contains h.key then { h with live := false } else h }

/-- The queues bound to a block, by die-local number. -/
def State.boundQueues (s : State) (blk : Nat) : Tab Queue :=
  match tget s.blocks blk with
  | none => []
  | some b =>
    (List.range 32).foldl (fun t q => let k := s.queue b.die q
                                      if k.block = some blk then tset t q k else t) []

/-! ### Discarding (R364) -/

/-- A barrier without the arrivals of the threads that `gone` selects. -/
def Barrier.without (b : Barrier) (gone : Nat → Bool) : Barrier :=
  { b with a := b.a - (b.arrived.filter gone).length, arrived := b.arrived.filter fun t => !gone t, carried := b.carried.filter fun t => !gone t }

/-- The barriers of a neighbourhood after one of its blocks has been discarded: in the state of allotment once every block of it is;
while others are kept or run, they lose that block's arrivals (R267, log 71). -/
def State.discardBars (s : State) (blk nid : Nat) : State :=
  match tget s.nbhds nid with
  | none => s
  | some n =>
    let all := n.blocks.all fun k => match tget s.blocks k with | some b => decide (b.stat = .discarded) | none => true
    let bars := if all then List.replicate 4 (newBarrier n.threads) else n.bars.map fun b => b.without fun t => decide (t / 4096 = blk)
    { s with nbhds := tset s.nbhds nid { n with bars := bars } }

/-- Discards a placed block: nothing is kept but each thread's identity and section entry. -/
def State.discardBlock (s : State) (blk : Nat) : State :=
  match tget s.blocks blk with
  | none => s
  | some b =>
    let ts := s.partyTeams blk
    let s := ts.foldl (fun s e => s.cancelRecords e.2) s
    let re := ((ts.filter fun e => decide (e.2.kind = .vector)).map fun e =>
      e.2.threads.filterMap fun (th : Thread) => if th.stat = .exited then none else some (th.tid, th.sect)).flatten
    let s := s.dropTeams (ts.map (·.1))
    let s := (s.boundQueues blk).foldl (fun s e => s.emptyQueue b.die e.1) s
    let s := b.forks.foldl (fun (s : State) f =>
      if f.rein then
        ((s.discardRein f.hitch).updHitch f.hitch fun h => { h with fork := none }).reclaim b.die f.path [(7, 1)]
      else s) s
    let s := (s.reclaim b.die b.path b.charges).updBlock blk fun b => { b with
      stat := .discarded, forks := [], parts := [], scratch := [], reentry := re
      bars := List.replicate b.nbars (newBarrier b.threads) }
    (s.discardBars blk b.nbhd).freeNbhd b.die b.nbhd

/-! ### Saving (R364-R366) -/

/-- Frames of the context store that a block's image takes (log 17). -/
def Block.image (b : Block) (teams : Nat) (hitch : Bool) : Nat :=
  ceilDiv (teams * (b.vregs * 256 + b.dregs * 2176 + 64 * b.bagBytes + 4096) + b.scratchKiB * 1024 + (if hitch then 2 ^ 21 + 2 ^ 20 else 0) + 4096) 65536

/-- Whether every part of a block that is being saved has stopped (R287, R318, R364). -/
def State.quiet (s : State) (blk : Nat) : Bool :=
  ((s.partyTeams blk).all fun e => e.2.groups.all Group.savable)
    && (match (tget s.blocks blk).bind fun b => b.forks.find? fun f => f.rein with
        | some f => (s.hitch f.hitch).arrayQ.isEmpty
        | none => true)

/-- The L2 lines of an image of `n` frames from frame `first` of the context store: pinned, under the entry that holds ctx_store
(R237). A line that already stands there is hit, and one under another entry leaves. -/
def State.cacheImage (s : State) (die first n : Nat) : State :=
  match (s.die die).parts.find? fun e => e.2.w0.getLsbD 16 && e.2.w0.getLsbD 17 with
  | some (p, _) =>
    (List.range (n * 512)).foldl (fun s i =>
      let pa := (s.die die).ctxBase.toNat + first * 65536 + i * 128
      let here (l : L2Line) : Bool := decide (l.line = pa / 128)
      if (s.die (homeDie pa)).l2.any fun l => here l && decide (l.part = p ∧ l.key = 0) then s.touchL2 pa p 3 0
      else (s.dropL2 (homeDie pa) here).allocL2 pa p 3 0) s
  | none => s

/-- The waits of threads of some teams withdrawn, with the registers that they had marked empty full again (R257, R364). -/
def State.withdrawWaits (s : State) (keys : List Nat) : State :=
  (s.watches.filter fun w => !w.engine && keys.contains w.key).foldl (fun s w => s.dropWatch w.key w.lane) s

/-- The locks of a hitch's rows that the drains of some queues hold. -/
def drainLocks (hitch : Nat) (qs : Tab Queue) : List Nat :=
  (qs.map fun q => (q.2.fifo ++ q.2.cur.toList).flatMap fun e => match e.drain with
    | some (d, _) => if e.unlocked ∨ e.hitch ≠ hitch then [] else accRows d
    | none => []).flatten

/-- Takes the fork of a block that is being saved out of its hitch, with what it holds there (R287): the hitch as it is saved. -/
def State.takeHitch (s : State) (b : Block) (qs : Tab Queue) : State × Option Hitch :=
  match b.forks.find? fun f => f.rein with
  | none => (s, none)
  | some f =>
    let h := s.hitch f.hitch
    let mine := drainLocks f.hitch qs
    let s := s.updHitch f.hitch fun k => { Hitch.reset with
      tlb := k.tlb, icache := k.icache, asid := k.asid, granted := k.granted, locked := mine.foldl List.erase k.locked }
    (h.runs.foldl (fun (s : State) (r : Run) => s.reclaim b.die r.path [(8, r.n)]) (s.reclaim b.die f.path [(7, 1)]), some { h with locked := mine })

/-- Moves a stopped block into the context store of its die. -/
def State.saveBlock (s : State) (blk : Nat) : State :=
  match tget s.blocks blk with
  | none => s
  | some b =>
    let keys := (s.partyTeams blk).map (·.1)
    let frames := b.image keys.length (b.forks.any (·.rein))
    let d := s.die b.die
    if b.stat ≠ .saving ∨ !s.quiet blk ∨ d.ctxUsed.toNat + frames > d.ctxFrames.toNat then s
    else
      -- the threads read what they have read and written wherever they resume (R245)
      let s := (b.cores.foldl (fun s c => s.cleanLines c fun _ => true) s).withdrawWaits keys
      let ts := s.partyTeams blk
      let s := ts.foldl (fun s e => s.cancelRecords e.2) s
      let rein := s.reinOf blk
      let qs := s.boundQueues blk
      let s := s.dropTeams keys
      let s := qs.foldl (fun (s : State) e => (s.withdrawQueue b.die e.1).updQueue b.die e.1 Queue.cleared) s
      let (s, hk) := s.takeHitch b qs
      let s := (s.reclaim b.die b.path b.charges).updBlock blk fun b => { b with
        stat := .saved, parts := [], savedTeams := (ts.filter fun e => decide (e.2.kind = .vector)).map fun e => e.2.unparked
        savedQueues := qs.map fun e => (e.1, { e.2 with ringWait := none })
        savedHitch := hk, savedRein := rein.map fun r => r.2.unparked, frames := frames }
      let s := ((s.freeNbhd b.die b.nbhd).cacheImage b.die d.ctxUsed.toNat frames).updDie b.die fun d => { d with
        ctxUsed := d.ctxUsed + BitVec.ofNat 32 frames }
      (s.endRequests b.die).refreshSlots b.die

/-- A pre-emption request to a slot (R341, R364): `idem` discards the blocks whose live threads are all in their sections. -/
def State.preempt (s : State) (die i : Nat) (idem : Bool) : State :=
  let t := s.slot die i
  if t.preempting then s.updSlot die i fun t => { t with result := 3 }
  else
    let blocks := s.blocks.filter fun e => decide (e.2.die = die ∧ e.2.qcb = t.qcbAt ∧ e.2.stat = .placed)
    if !t.valid ∨ blocks.isEmpty then s.updSlot die i fun t => { t with result := 2 }
    else
      let s := s.updSlot die i fun t => { t with preempting := true, result := 0 }
      let s := blocks.foldl (fun s e =>
        let inside := (s.teamsOf e.1).all fun k => match tget s.teams k with
          | some t => t.threads.all fun (th : Thread) => decide (th.stat = .exited) || th.idem
          | none => true
        if idem && inside then s.discardBlock e.1 else s.updBlock e.1 fun b => { b with stat := .saving }) s
      (s.endRequest die i).refreshSlots die

/-- PRE_GRACE_EXPIRY (R364): a group of a block being saved, stalled longer than sys.pre_grace, is saved where it stands. -/
def execPreGraceExpiry (s : State) : Out :=
  match s.occ with
  | .group key g =>
    match tget s.teams key with
    | some t =>
      let saving := match tget s.blocks t.block with | some b => decide (b.stat = .saving) && decide (t.kind ≠ .scalar) | none => false
      match t.groups[g]? with
      | some gr =>
        let stalled := match gr.hold with | .stall | .tandem .. => true | _ => false
        if saving && stalled && decide (s.clock - gr.since > (s.core t.core).preGrace.toNat) then
          .next (s.updTeam key fun t => { t with groups := modAt t.groups g fun g => { g with hold := .graced } })
        else .next s
      | none => .next s
    | none => .next s
  | _ => .fault .noIssuer

/-- SAVE_COMPLETE (R364). -/
def execSaveComplete (s : State) : Out :=
  match s.occ with
  | .block blk => .next (s.saveBlock blk)
  | _ => .fault .noIssuer

/-! ### Results that arrive after a save (R365) -/

/-- The word that register `k` takes when a result arrives: one that has been written to it since replaces word `i` of the result
(R126). -/
def Pend.word (p : Pend) (k i : Nat) : Word32 := (tget p.newer k).getD (p.words.getD i 0)

/-- Writes a result into the registers of a thread and marks them full, leaving out v registers that RKILL has killed (R124,
R126, R129, R173). -/
def Team.arrive (t : Team) (p : Pend) : Team :=
  match p.dest with
  | .v r n => t.updThread p.lane fun th =>
      { th with v := (List.range n).foldl (fun v i =>
          if p.killed.contains (r + i) then v else modAt v (r + i) fun _ => VReg.write (p.word (r + i) i)) th.v }
  | .s r n => { t with s := (List.range n).foldl (fun v i => modAt v (r + i) fun _ => { val := p.word (r + i) i, full := true }) t.s }
  | .dirc r w => t.updThread p.lane fun th =>
      { th with d := (List.range w).foldl (fun d i => modAt d (r + i) fun x =>
          { x with comps := BitVec.ofNat 256 (ofBytes (wordsBytes ((p.words.drop (8 * i)).take 8))), cfull := true }) th.d }
  | .dirn r w => t.updThread p.lane fun th =>
      { th with d := (List.range w).foldl (fun d i => modAt d (r + i) fun x =>
          { x with norm := if i = 0 then (p.words.getD 0 0).setWidth 16 else 0x8000, nfull := true }) th.d }
  | .none => t

/-- Whether a pending result needs nothing more but to be written. -/
def Pend.ready (p : Pend) : Bool := decide (p.wait = .ready)

/-- The teams of a saved image: the vector teams and then the rein core. -/
def Block.imageTeams (b : Block) : List Team := b.savedTeams ++ b.savedRein.toList

/-- Changes the `i`-th team of a saved image. -/
def Block.updImage (b : Block) (i : Nat) (f : Team → Team) : Block :=
  if i < b.savedTeams.length then { b with savedTeams := modAt b.savedTeams i f } else { b with savedRein := b.savedRein.map f }

/-- SAVED_RESULT_ARRIVAL (R365): the `n`-th pending result of the saved image, over its teams in order; the block may be placed again
after its last one (R337). -/
def execSavedResultArrival (s : State) : Out :=
  match s.occ with
  | .saved blk n =>
    match tget s.blocks blk with
    | some b =>
      let all := (b.imageTeams.zipIdx.map fun e => e.1.pend.map fun p => (e.2, p)).flatten
      match all[n]? with
      | some (i, p) =>
        match p.wait with
        | .ready =>
          .next <| (s.updBlock blk fun b => b.updImage i fun t =>
            let t' := t.arrive p
            { t' with pend := t'.pend.erase p }).refreshSlots b.die
        | .writeback core slot tag =>
          let s := s.cleanLines core fun l => l.ofTask (teamKey core slot) tag
          .next <| (s.updBlock blk fun b => b.updImage i fun t =>
            let t' := (t.arrive p).updThread p.lane fun th => { th with taskTag := (p.words.getD 7 0).setWidth 16 }
            { t' with pend := t'.pend.erase p }).refreshSlots b.die
        | _ => .next s
      | none => .next s
    | none => .next s
  | _ => .fault .noIssuer

/-! ### Restoring (R367) -/

/-- The requests of a restored team go to the tail of their waiters (R202, R322). -/
def Team.requeue (t : Team) (order : Nat) : Team :=
  { t with pend := t.pend.zipIdx.map fun e => { e.1 with order := order + e.2 } }

/-- Charges the barriers of a neighbourhood that comes back with threads (R244). -/
def State.chargeNbhd (s : State) (die nid : Nat) (path : List Nat) : State :=
  match tget s.nbhds nid with
  | some n => if n.path.isEmpty then { s.charge die path [(6, 4)] 1 with nbhds := tset s.nbhds nid { n with path := path } } else s
  | none => s

/-- Puts a saved hitch into the hitch on which its block comes back: every slot, accumulator and weight of the fork (R287). -/
def State.putHitch (s : State) (hitch : Nat) (saved : Option Hitch) (path : List Nat) : State :=
  match saved with
  | some h => (s.charge (hitch / 24) path [(7, 1), (8, h.heldSlots)] 1).updHitch hitch fun k => { h with
      tlb := k.tlb, icache := k.icache, granted := k.granted, locked := k.locked ++ h.locked
      runs := h.runs.map fun r => { r with path := path } }
  | none => s

/-- Puts a kept block on cores of its die, with every part of it (R364, R367). A held group keeps the clock at which it was first held:
the spec does not say whether the clocks in the context store count for the limit of R114, and here they do (log 72). -/
def State.restoreBlock (s : State) (blk : Nat) (cores : List Nat) : State :=
  match tget s.blocks blk with
  | none => s
  | some b =>
    let path := (s.path b.tab b.region.toNat).getD []
    let hitch := hitchOf (cores.headD 0)
    let s := (if b.backTeams.isEmpty then s.seatBlock blk b cores path else (s.seatBlock blk b cores path).chargeNbhd b.die b.nbhd path).putHitch hitch b.savedHitch path
    let s := cores.foldl (fun s c => s.acquireL1 c fun _ => true) s
    let s :=
      if b.stat = .discarded then
        s.seatNew blk fun tid => (b.reentry.find? fun e => decide (e.1 = tid)).map (·.2)
      else
        b.savedTeams.foldl (fun s t =>
          let n := s.nextId
          ({ s with nextId := n + t.pend.length }).seatTeam cores t.tix fun core slot gen =>
            { (t.requeue n) with
              core := core, slot := slot, gen := gen, waitSince := s.clock
              threads := t.threads.map fun (th : Thread) => if th.stat = TStat.atLeg then { th with readySince := s.clock } else th }) s
    let re (e : Entry) : Entry := if b.savedHitch.isSome then { e with hitch := hitch } else e
    let s := b.savedQueues.foldl (fun (s : State) e => s.updQueue b.die e.1 fun q =>
      { e.2 with owner := q.owner, enabled := q.enabled, refused := q.refused, fifo := e.2.fifo.map re, cur := e.2.cur.map re }) s
    let s := match b.savedRein with
      | some t =>
        let n := s.nextId
        ({ s with nextId := n + t.pend.length }).setTeam (reinKey hitch) { t.requeue n with core := hitchCore hitch, waitSince := s.clock }
      | none => s
    let s := s.updDie b.die fun d => { d with
      ctxUsed := d.ctxUsed - BitVec.ofNat 32 b.frames, ran := tset d.ran b.qcb ((((tget d.ran b.qcb).getD []) ++ cores).eraseDups) }
    s.updBlock blk fun k => { k with
      stat := .placed, savedTeams := [], savedQueues := [], savedHitch := none, savedRein := none, reentry := [], frames := 0
      forks := k.forks.map fun f => { f with hitch := hitch, path := if f.rein then path else [] } }

/-- BLOCK_RESTORE (R367): the dispatcher picks the slot and places its oldest kept block, or its neighbourhood whole. -/
def execBlockRestore (s : State) : Out :=
  match s.occ with
  | .slot die i =>
    match s.arbitrate die with
    | some (j, .restore bs) =>
      if i ≠ j then .next s
      else .next (((bs.foldl (fun s e => s.restoreBlock e.1 e.2) s).placedFrom die i).refreshSlots die)
    | _ => .next s
  | _ => .fault .noIssuer

end Sys2Proof.Machine
end

