-- ==== Sys2Proof/Machine/Shake.lean ====
section
/-! DEFINITION. SHAKE256 with an output of 256 bits, which R396, R397 and R399 name and FIPS 202 defines (log 7). The standard
stands outside the spec. -/

namespace Sys2Proof.Machine

/-- The shift register that yields the bits of the round constants: eight bits, taken `n` times modulo x^8 + x^6 + x^5 + x^4 + 1. -/
def keccakShift : Nat → Nat
  | 0 => 1
  | n + 1 => (fun r => if r < 256 then r else r ^^^ 0x171) (2 * keccakShift n)

/-- The constant of a round: its bit 2^j - 1 is the register's low bit after j + 7 * round shifts, for j from 0 to 6. -/
def keccakConstant (round : Nat) : BitVec 64 :=
  (List.range 7).foldl (fun c j => if keccakShift (j + 7 * round) % 2 = 1 then c ||| BitVec.twoPow 64 (2 ^ j - 1) else c) 0

/-- Lane x, y of a state: it stands at x + 5y. -/
def keccakLane (st : List (BitVec 64)) (x y : Nat) : BitVec 64 := st.getD (x % 5 + 5 * (y % 5)) 0

/-- The steps rho and pi in one walk over the lanes but the first: from 1, 0 the lane at x, y goes to y, 2x + 3y, rotated by the next
triangular number. -/
def keccakWalk (st : List (BitVec 64)) : List (BitVec 64) :=
  ((List.range 24).foldl (fun (p : (Nat × Nat) × List (BitVec 64)) t =>
    let next := (p.1.2, (2 * p.1.1 + 3 * p.1.2) % 5)
    (next, p.2.set (next.1 + 5 * next.2) ((keccakLane st p.1.1 p.1.2).rotateLeft ((t + 1) * (t + 2) / 2 % 64)))) ((1, 0), st)).2

/-- One round on the 25 lanes of a state. -/
def keccakRound (st : List (BitVec 64)) (round : Nat) : List (BitVec 64) :=
  let col := (List.range 5).map fun x => (List.range 5).foldl (fun c y => c ^^^ keccakLane st x y) 0
  let mixed := keccakWalk (st.mapIdx fun i l => l ^^^ keccakLane col (i + 4) 0 ^^^ (keccakLane col (i + 1) 0).rotateLeft 1)
  mixed.mapIdx fun i l => l ^^^ (keccakLane mixed (i + 2) (i / 5) &&& ~~~(keccakLane mixed (i + 1) (i / 5)))
    ^^^ if i = 0 then keccakConstant round else 0

/-- Absorbs the blocks of 136 bytes of a padded message. -/
def keccakAbsorb (st : List (BitVec 64)) : List Nat → List (BitVec 64)
  | [] => st
  | b :: bs =>
    keccakAbsorb ((List.range 24).foldl keccakRound (st.mapIdx fun i l => l ^^^ BitVec.ofNat 64 (b >>> (64 * i)))) bs

/-- The little-endian number of some bytes. -/
def leNat : List Byte → Nat
  | [] => 0
  | b :: bs => b.toNat + 256 * leNat bs

/-- The blocks of a message with the padding of SHAKE256: its `n` whole blocks, then the last. -/
def shakeBlocks (msg : List Byte) : List Nat :=
  let n := msg.length / 136
  (List.range (n + 1)).map fun i =>
    let b := (msg.drop (136 * i)).take 136
    leNat b + (if i = n then 0x1F <<< (8 * b.length) ^^^ 0x80 <<< 1080 else 0)

/-- The first 256 bits of SHAKE256, as the little-endian number of the 32 bytes. -/
def shake256 (msg : List Byte) : BitVec 256 :=
  let st := keccakAbsorb (List.replicate 25 0) (shakeBlocks msg)
  st.getD 3 0 ++ st.getD 2 0 ++ st.getD 1 0 ++ st.getD 0 0

end Sys2Proof.Machine
end

