-- ==== Sys2Proof/Machine/Ctl.lean ====
section
/-! DEFINITION. The control windows of the dies: every register as it reads, and the effect of a store to each block
(spec/10_l2_slices_and_hbm.md R232, R233, R236, R241; 13 R291, R312; 14 R329, R331, R332, R341; 15 R367; 16 R380, R381;
17 R387, R390, R391, R394, R395, R399). -/

namespace Sys2Proof.Machine

/-! ### The words of a store (R233) -/

/-- What a store gives the word at an offset. -/
def CtlStore.at? (c : CtlStore) (o : Nat) : Option Word32 :=
  if o = c.off then some (low32 c.data) else if c.wide ∧ o = c.off + 4 then some (high32 c.data) else none

/-- The word at an offset after the store, and a pair of words. -/
def CtlStore.new (c : CtlStore) (o : Nat) (old : Word32) : Word32 := (c.at? o).getD old
def CtlStore.pair (c : CtlStore) (o : Nat) (old : Word64) : Word64 := c.new (o + 4) (high32 old) ++ c.new o (low32 old)

/-- Whether the store covers a word of the `n` bytes at an offset. -/
def CtlStore.touches (c : CtlStore) (o n : Nat) : Bool :=
  (List.range (n / 4)).any fun i => (c.at? (o + 4 * i)).isSome

/-- A flag as a bit of a word. -/
def flagBit (b : Bool) (i : Nat) : Nat := if b then 2 ^ i else 0

/-- Word `i` of a wider value. -/
def wordOf {w : Nat} (x : BitVec w) (i : Nat) : Word32 := x.extractLsb' (32 * i) 32

/-! ### Partition tables (R232, R233, R236) -/

/-- Lines of a partition that stand outside its mask in a die's slices. -/
def Die.outside (d : Die) (p : Nat) (e : Part) : List L2Line :=
  d.l2.filter fun l => decide (l.part = p) && !e.w0.getLsbD l.way

/-- Whether lines of a partition remain to be swept out of the ways that its mask lost (R236). -/
def Die.sweeps (d : Die) (p : Nat) (e : Part) : Bool := e.sweeping && !(d.outside p e).isEmpty

/-- Pinned lines of a partition in the fullest slice. -/
def Die.fullest (d : Die) (p : Nat) : Nat := (List.range 32).foldl (fun m sl => max m (d.pinned p sl)) 0

def Die.partWord (d : Die) (p i : Nat) : Word32 :=
  let e := d.partEntry p
  match i with
  | 0 => e.w0
  | 1 => e.w1
  | 2 => e.w2
  | _ => BitVec.ofNat 32 (d.fullest p * 2 ^ 16 + flagBit e.refused 1 + flagBit (d.sweeps p e) 0)

/-- Whether the words of a partition entry are refused (R233). -/
def Die.partBad (d : Die) (p : Nat) (w0 w1 w2 : Word32) : Bool :=
  let valid := w0.getLsbD 16
  decide (w0.toNat / 2 ^ 18 ≠ 0 ∨ w1.toNat / 2 ^ 16 ≠ 0 ∨ w2.toNat / 2 ^ 24 ≠ 0)
    || (valid && decide (w0.toNat % 2 ^ 16 = 0)) || decide (w1.toNat > 24576)
    || (w0.getLsbD 17 && d.parts.any fun e => decide (e.1 ≠ p) && e.2.w0.getLsbD 16 && e.2.w0.getLsbD 17)
    || (decide (p = 0) && !valid)

def State.storePartition (s : State) (c : CtlStore) : State :=
  let p := c.off / 16
  let b := 16 * p
  let d := s.die c.die
  let e := d.partEntry p
  if !c.touches b 12 then s
  else
    let w0 := c.new b e.w0
    let w1 := c.new (b + 4) e.w1
    let w2 := c.new (b + 8) e.w2
    let e' : Part :=
      if d.partBad p w0 w1 w2 then { e with refused := true }
      else
        let n : Part := { w0 := w0, w1 := w1, w2 := w2, refused := false, sweeping := false }
        { n with sweeping := w0.getLsbD 16 && (d.sweeps p e || decide (w0.toNat % 2 ^ 16 ≠ e.w0.toNat % 2 ^ 16)) && !(d.outside p n).isEmpty }
    s.updDie c.die fun d => { d with parts := tset d.parts p e' }

/-! ### Stack blocks (R241) -/

def Stack.word (k : Stack) (i : Nat) : Word32 :=
  match i with
  | 0 => k.corrected
  | 1 => k.uncorrected
  | 2 => low32 k.lastAddr
  | 3 => high32 k.lastAddr
  | _ => BitVec.ofNat 32 (flagBit k.fresh 0)

def State.updStack (s : State) (die k : Nat) (f : Stack → Stack) : State :=
  s.updDie die fun d => { d with hbmStacks := modAt d.hbmStacks k f }

/-- Stores to the counters of a stack block: any write sets a counter to 0. -/
def State.storeStackCounter (s : State) (c : CtlStore) : State :=
  let b := c.off / 256 * 256
  s.updStack c.die ((c.off - 0x1000) / 256) fun k =>
    { k with corrected := if (c.at? b).isSome then 0 else k.corrected
             uncorrected := if (c.at? (b + 4)).isSome then 0 else k.uncorrected }

/-- Stores to the new bit of a stack block. -/
def State.storeStackNew (s : State) (c : CtlStore) : State :=
  let b := c.off / 256 * 256
  s.updStack c.die ((c.off - 0x1000) / 256) fun k => { k with fresh := k.fresh && !(c.new (b + 16) 0).getLsbD 0 }

/-! ### The queue table (R291, R312) -/

def Queue.stateCode (q : Queue) : Nat := match q.state with | .idle => 0 | .bound => 1 | .stopped => 2

def Queue.word (q : Queue) (i : Nat) : Word32 :=
  match i with
  | 0 => BitVec.ofNat 32 (q.owner.toNat + flagBit q.enabled 24)
  | 1 => BitVec.ofNat 32 (q.fifo.length * 2 ^ 16 + flagBit q.refused 5 + flagBit q.prog.isSome 2 + q.stateCode)
  | 2 => q.progress
  | 3 => q.detail ++ q.cause
  | 4 => low32 q.addr
  | 5 => high32 q.addr
  | 6 => low32 q.command
  | _ => high32 q.command

/-- The queue that an offset of the queue table lies in. -/
def slotOfQueue (off : Nat) : Nat := (off - 0x2000) / 32

/-- A store to the owner word of a queue. -/
def State.storeQueueOwner (s : State) (c : CtlStore) : State :=
  let q := (c.off - 0x2000) / 32
  let k := s.queue c.die q
  let w := c.new (0x2000 + 32 * q) (k.word 0)
  if w.toNat / 2 ^ 25 ≠ 0 ∨ (k.block.isSome ∧ w.setWidth 24 ≠ k.owner) then s.updQueue c.die q fun k => { k with refused := true }
  else s.updQueue c.die q fun k => { k with owner := w.setWidth 24, enabled := w.getLsbD 24, refused := false }

/-- A stopped queue goes on at its first unperformed element. -/
def Queue.restarted (q : Queue) : Queue :=
  if q.state = .stopped then { q with state := .bound, cause := 0, detail := 0, addr := 0, command := 0 } else q

/-- A store to w1 of a queue: discard, else restart. -/
def State.restartQueue (s : State) (c : CtlStore) : State :=
  s.updQueue c.die ((c.off - 0x2000) / 32) Queue.restarted
def State.discardQueueAt (s : State) (c : CtlStore) : State :=
  let q := (c.off - 0x2000) / 32
  match (s.queue c.die q).block with
  | some b => (s.discardQueue c.die q).settleBlock b
  | none => s.discardQueue c.die q

/-! ### The dispatcher block (R329) and the context-store block (R367) -/

def State.dispWord (s : State) (die i : Nat) : Word32 :=
  let d := s.die die
  match i with
  | 0 => low32 d.regionBase
  | 1 => high32 d.regionBase
  | 2 => d.regionCount
  | 3 => d.supCore
  | 4 => low32 (BitVec.ofNat 64 s.clock)
  | 5 => high32 (BitVec.ofNat 64 s.clock)
  | 6 => BitVec.ofNat 32 (d.patches % 128 + flagBit d.verified 7 + d.patchVer.toNat * 2 ^ 16)
  | _ => BitVec.ofNat 32 (d.seqError.toNat + flagBit d.dispRefused 8)

def State.storeDispatcher (s : State) (c : CtlStore) : State :=
  let d := s.die c.die
  if !c.touches 0x3000 16 then s
  else
    let base := c.pair 0x3000 d.regionBase
    let count := c.new 0x3008 d.regionCount
    let sup := c.new 0x300C d.supCore
    s.updDie c.die fun d =>
      if base.toNat / 2 ^ 48 ≠ 0 ∨ base.toNat % 2 ^ 8 ≠ 0 ∨ count.toNat > 2 ^ 24 ∨ sup.toNat > 1535 then { d with dispRefused := true }
      else { d with regionBase := base, regionCount := count, supCore := sup, dispRefused := false }

def Die.ctxWord (d : Die) (i : Nat) : Word32 :=
  match i with
  | 0 => low32 d.ctxBase
  | 1 => high32 d.ctxBase
  | 2 => d.ctxFrames
  | 3 => d.ctxUsed
  | _ => BitVec.ofNat 32 (flagBit d.ctxRefused 0)

def State.storeContext (s : State) (c : CtlStore) : State :=
  if !c.touches 0x3040 12 then s
  else
    s.updDie c.die fun d =>
      let base := c.pair 0x3040 d.ctxBase
      if base.toNat / 2 ^ 48 ≠ 0 ∨ base.toNat % 2 ^ 16 ≠ 0 then { d with ctxRefused := true }
      else { d with ctxBase := base, ctxFrames := c.new 0x3048 d.ctxFrames, ctxRefused := false }

/-! ### The feature block (R380, R381) -/

/-- The features that the silicon of a die provides, and those that its microcode supports: bits 0 to 3, of which the base set,
bit 0, is always enabled. -/
def fusedOf (die : Nat) : BitVec 128 := Config.fused die &&& 0xF ||| 1
def Die.micro (d : Die) : BitVec 128 := if d.verified then d.microcode &&& 0xF else 1

def State.featWord (s : State) (die i : Nat) : Word32 :=
  let d := s.die die
  if i < 4 then wordOf (fusedOf die) i
  else if i < 8 then wordOf d.micro (i - 4)
  else if i < 12 then wordOf d.featEnabled (i - 8)
  else BitVec.ofNat 32 (flagBit d.featRefused 9 + flagBit d.featLocked 8 + 1)

def State.storeFeatures (s : State) (c : CtlStore) : State :=
  if !c.touches 0x30A0 16 then s
  else
    s.updDie c.die fun d =>
      let w (i : Nat) : Word32 := c.new (0x30A0 + 4 * i) (wordOf d.featEnabled i)
      let x : BitVec 128 := w 3 ++ w 2 ++ w 1 ++ w 0
      let first := (c.at? 0x30A0).isSome
      if x &&& ~~~(fusedOf c.die &&& d.micro) ≠ 0 ∨ !x.getLsbD 0 ∨ d.featLocked then { d with featRefused := true }
      else { d with featEnabled := x, featLocked := d.featLocked || first, featRefused := false }

/-! ### Slots, kick words and the pending map (R331, R332, R341) -/

def State.slotWord (s : State) (die k i : Nat) : Word32 :=
  let t := s.slot die k
  match i with
  | 0 => BitVec.ofNat 32 (flagBit t.valid 0)
  | 1 => t.doorbell.setWidth 32
  | 2 => low32 t.qcb
  | 3 => high32 t.qcb
  | 4 => low32 (BitVec.ofNat 64 t.since)
  | 5 => high32 (BitVec.ofNat 64 t.since)
  | 6 => BitVec.ofNat 32 ((if t.valid then s.slotLevel die k else 0) + flagBit t.ready 8 + flagBit t.refused 9)
  | _ => BitVec.ofNat 32 (t.result.toNat * 2 ^ 8)

/-- The slot that an offset of the slot table lies in, and the base of its entry. -/
def slotOfOff (off : Nat) : Nat := (off - 0x8400) / 32
def slotBase (off : Nat) : Nat := 0x8400 + 32 * slotOfOff off

/-- A store to w0-w3 of a slot: maps it, unmaps it, or changes its fields. -/
def State.storeSlot (s : State) (c : CtlStore) : State :=
  let k := slotOfOff c.off
  let b := slotBase c.off
  let t := s.slot c.die k
  if !c.touches b 16 then s
  else
    let w0 := c.new b (s.slotWord c.die k 0)
    let w1 := c.new (b + 4) (s.slotWord c.die k 1)
    let qcb := c.pair (b + 8) t.qcb
    let refuse := s.updSlot c.die k fun t => { t with refused := true }
    if w0.toNat / 2 ≠ 0 ∨ w1.toNat / 2 ^ 12 ≠ 0 ∨ qcb.toNat / 2 ^ 48 ≠ 0 ∨ qcb.toNat % 128 ≠ 0 then refuse
    else
      let valid := w0.getLsbD 0
      let s1 := s.updSlot c.die k fun t => { t with valid := valid, doorbell := w1.setWidth 12, qcb := qcb, refused := false }
      if valid && !t.valid then (s1.mapSlot c.die k).getD refuse
      else if !valid && t.valid then s1.unmapSlot c.die k t
      else s1

/-- A store to the command field of a slot. -/
def State.storeCommand (s : State) (c : CtlStore) : State :=
  let k := slotOfOff c.off
  match (c.new (slotBase c.off + 28) 0).toNat % 4 with
  | 1 => s.preempt c.die k false
  | 2 => s.preempt c.die k true
  | _ => s

/-- A store to kick words. -/
def State.storeKick (s : State) (c : CtlStore) : State :=
  let n := (c.off - 0x4000) / 4
  let s := s.kickDoorbell c.die n
  if c.wide then s.kickDoorbell c.die (n + 1) else s

/-- Word `i` of the pending map. -/
def Die.pendingWord (d : Die) (i : Nat) : Word32 :=
  BitVec.ofNat 32 ((List.range 32).foldl (fun x k => x + flagBit (d.pending.contains (32 * i + k)) k) 0)

def State.storePending (s : State) (c : CtlStore) : State :=
  s.updDie c.die fun d => { d with pending := d.pending.filter fun n =>
    !(c.new (0x8000 + n / 32 * 4) 0).getLsbD (n % 32) }

/-! ### Event blocks (R390) -/

def IoDie.eventWord (d : IoDie) (i k : Nat) : Word32 :=
  match k with
  | 0 => d.eventCore
  | 2 => BitVec.ofNat 32 ((0x10000500 + i * 0x1000000) % 2 ^ 32)
  | 3 => 0xF000
  | 4 => low32 d.ringBase
  | 5 => high32 d.ringBase
  | 6 => d.cap
  | 7 => d.head
  | 8 => d.tail
  | 9 => d.overflow
  | 10 => BitVec.ofNat 32 (flagBit d.refused 0)
  | _ => 0

/-- Whether the words of an event block are refused: `moved` says that the store changes w4 to w6. -/
def IoDie.eventBad (d : IoDie) (core : Word32) (base : Word64) (cap head : Word32) (moved : Bool) : Bool :=
  let size := if cap = 0 then 0 else 2 ^ (cap.toNat % 32)
  decide (core.toNat / 2 ^ 11 ≠ 0 ∨ cap.toNat / 2 ^ 5 ≠ 0 ∨ base.toNat / 2 ^ 48 ≠ 0 ∨ base.toNat % 8 ≠ 0)
    || decide (cap ≠ 0 ∧ (cap.toNat < 4 ∨ cap.toNat > 16)) || decide (size ≠ 0 ∧ base.toNat % (8 * size) ≠ 0)
    || (moved && decide (d.tail ≠ d.head)) || decide ((d.tail - head).toNat > size)

/-- A store to an event block (R390); while events wait, the source asserts at its event core (R357). -/
def State.storeEvents (s : State) (c : CtlStore) : State :=
  let i := c.die - 16
  let d := s.io i
  let core := c.new 0x400 d.eventCore
  let base := c.pair 0x410 d.ringBase
  let cap := c.new 0x418 d.cap
  let head := c.new 0x41C d.head
  let moved := decide (base ≠ d.ringBase ∨ cap ≠ d.cap)
  let s := if (c.at? 0x424).isSome then s.updIo i fun d => { d with overflow := 0 } else s
  if !c.touches 0x400 32 then s
  else if d.eventBad core base cap head moved then s.updIo i fun d => { d with refused := true }
  else
    let s := s.updIo i fun d => { d with eventCore := core, ringBase := base, cap := cap, head := head, refused := false }
    if d.tail = head then s else s.interrupt core.toNat 3

/-! ### Inbound and remote windows (R387, R391) -/

def IoDie.inwin (d : IoDie) (n : Nat) : InWin := (tget d.inwins n).getD { w01 := 0, size := 0, key := 0, refused := false }

def InWin.word (w : InWin) (i : Nat) : Word32 :=
  match i with
  | 0 => low32 w.w01
  | 1 => high32 w.w01
  | 2 => w.size
  | _ => BitVec.ofNat 32 (w.key.toNat + flagBit w.refused 31)

/-- Whether `n` frames from a frame lie in the backed frames of one HBM stack window, or in the pool. -/
def backedFrames (base n : Nat) : Bool :=
  let last := base + n - 1
  decide (base / 2 ^ 20 = last / 2 ^ 20 ∧ base / 2 ^ 20 < 32 ∧ last % 2 ^ 20 ≤ 976561) || decide (0x20000000 ≤ base ∧ last < 0x40000000)

/-- Whether the fields of an inbound window are refused. -/
def inwinBad (w01 : Word64) (size key : Word32) : Bool :=
  decide (w01.toNat / 2 ^ 48 ≠ 0 ∨ w01.toNat / 4 % 2 ^ 14 ≠ 0 ∨ key.toNat % 2 ^ 31 / 2 ^ 13 ≠ 0)
    || (w01.getLsbD 0 && decide (size = 0)) || (decide (size ≠ 0) && !backedFrames (field w01 47 16) size.toNat)

def State.storeInbound (s : State) (c : CtlStore) : State :=
  let n := (c.off - 0x10000) / 16
  let b := 0x10000 + 16 * n
  s.updIo (c.die - 16) fun d =>
    let w := d.inwin n
    let w01 := c.pair b w.w01
    let size := c.new (b + 8) w.size
    let key := c.new (b + 12) w.key
    let w' : InWin := if inwinBad w01 size key then { w with refused := true }
      else { w01 := w01, size := size, key := key &&& 0x1FFF, refused := false }
    { d with inwins := tset d.inwins n w' }

def RemWin.word (w : RemWin) (i : Nat) : Word32 :=
  if i = 1 then BitVec.ofNat 32 ((w.words.getD 1 0).toNat % 2 ^ 31 + flagBit w.refused 31) else w.words.getD i 0

def State.storeRemote (s : State) (c : CtlStore) : State :=
  let n := (c.off - 0x100000) / 32
  let b := 0x100000 + 32 * n
  s.updIo (c.die - 16) fun d =>
    let w := d.remwin n
    let x (i : Nat) : Word32 := c.new (b + 4 * i) (w.words.getD i 0)
    let bad := decide ((x 0).toNat / 16 ≠ 0 ∨ (x 1).toNat % 2 ^ 31 / 2 ^ 24 ≠ 0 ∨ x 2 ≠ 0 ∨ (x 3).toNat % 4 ≠ 0 ∨ (x 3).toNat / 2 ^ 16 ≠ 0)
    let w' : RemWin := if bad then { w with refused := true }
      else { words := (List.range 8).map fun i => if i = 1 then x 1 &&& 0xFFFFFF else x i, refused := false }
    { d with remwins := tset d.remwins n w' }

/-! ### CTLSEM, the mailbox and the measurements (R394, R395, R399) -/

def Mgmt.semWord (m : Mgmt) : Word32 := BitVec.ofNat 32 (m.grants.toNat * 2 ^ 8 + m.last * 4 + m.holder)

/-- A grant to a holder. -/
def Mgmt.grant (m : Mgmt) (h : Nat) : Mgmt := { m with holder := h, grants := m.grants + 1 }

/-- The semaphore freed. -/
def Mgmt.free (m : Mgmt) : Mgmt := { m with last := m.holder, holder := 0 }

def Mgmt.supTake (m : Mgmt) : Mgmt := if m.holder = 0 then m.grant 3 else m
def Mgmt.supGive (m : Mgmt) : Mgmt := if m.holder = 3 then m.free else m

/-- The value that a store writes to holder, when it covers the word. -/
def CtlStore.holder (c : CtlStore) : Option Nat := (c.at? 0x100).map fun w => w.toNat % 4

def Mgmt.statusWord (m : Mgmt) : Word32 :=
  BitVec.ofNat 32 (flagBit m.reportDone 5 + flagBit m.reportBusy 4 + m.inPort * 4 + flagBit m.outFull 1 + flagBit m.inFull 0)

/-- A store to the status word: report_done and in_full are W1C, out_full is written. -/
def Mgmt.storeStatus (m : Mgmt) (w : Word32) : Mgmt :=
  { m with reportDone := m.reportDone && !w.getLsbD 5, inFull := m.inFull && !w.getLsbD 0, outFull := w.getLsbD 1 }

/-- A store of 1 to request while no report is being made. -/
def Mgmt.request (m : Mgmt) : Mgmt :=
  if m.reportBusy then m else { m with reportBusy := true, asked := readBytes m.nonce 0 32 }

/-- The bytes of a 256-bit value. -/
def bytes256 (x : BitVec 256) : List Byte := toBytes 32 x.toNat

/-- A store to the extend word: the digest's bytes are collected, and the store that covers its last word extends M3 (log 18). -/
def Mgmt.extend (m : Mgmt) (c : CtlStore) : Mgmt :=
  let bs := toBytes (if c.wide then 8 else 4) c.data.toNat
  let dg := writeBytes m.digest (c.off - 0x280) bs
  if (c.at? 0x29C).isSome then
    { m with digest := [], m := modAt m.m 3 fun x => shake256 (bytes256 x ++ readBytes dg 0 32) }
  else { m with digest := dg }

/-- Byte `i` of the report area: the report, then its signature. -/
def Mgmt.reportByte (m : Mgmt) (i : Nat) : Byte :=
  if i < 192 then m.report.getD i 0 else if m.report.isEmpty then 0 else Config.signature m.report (i - 192)

/-- A word of four bytes. -/
def wordBytes (f : Nat → Byte) (i : Nat) : Word32 := f (i + 3) ++ f (i + 2) ++ f (i + 1) ++ f i

/-! ### The windows as they read -/

/-- A word of a compute die's window; none at a hole. -/
def State.dieWord (s : State) (die off : Nat) : Option Word32 :=
  let d := s.die die
  if off < 0x1000 then some (d.partWord (off / 16) (off % 16 / 4))
  else if off < 0x1014 then some (((d.hbmStacks[0]?).map fun k => k.word ((off - 0x1000) / 4)).getD 0)
  else if 0x1100 ≤ off ∧ off < 0x1114 then some (((d.hbmStacks[1]?).map fun k => k.word ((off - 0x1100) / 4)).getD 0)
  else if off = 0x1800 then some d.fallback
  else if 0x2000 ≤ off ∧ off < 0x2400 then some ((s.queue die ((off - 0x2000) / 32)).word (off % 32 / 4))
  else if 0x3000 ≤ off ∧ off < 0x3020 then some (s.dispWord die ((off - 0x3000) / 4))
  else if 0x3040 ≤ off ∧ off < 0x3054 then some (d.ctxWord ((off - 0x3040) / 4))
  else if 0x3080 ≤ off ∧ off < 0x30B4 then some (s.featWord die ((off - 0x3080) / 4))
  else if 0x4000 ≤ off ∧ off < 0x8000 then some 0
  else if 0x8000 ≤ off ∧ off < 0x8200 then some (d.pendingWord ((off - 0x8000) / 4))
  else if 0x8400 ≤ off ∧ off < 0x8600 then some (s.slotWord die (slotOfOff off) (off % 32 / 4))
  else none

/-- A word of an I/O die's window; none at a hole. The mailbox and the measurements are those of IO0. -/
def State.ioWord (s : State) (i off : Nat) : Option Word32 :=
  let d := s.io i
  let m := s.mgmt
  let main := decide (i = 0)
  if off = 0x100 then some m.semWord
  else if main ∧ 0x200 ≤ off ∧ off < 0x280 then some (wordOf (m.m.getD ((off - 0x200) / 32) 0) (off % 32 / 4))
  else if main ∧ 0x280 ≤ off ∧ off < 0x2A0 then some 0
  else if 0x400 ≤ off ∧ off < 0x42C then some (d.eventWord i ((off - 0x400) / 4))
  else if main ∧ 0x800 ≤ off ∧ off < 0x900 then some (wordBytes (byteAt m.inbox) (off - 0x800))
  else if main ∧ 0x900 ≤ off ∧ off < 0xA00 then some (wordBytes (byteAt m.outbox) (off - 0x900))
  else if main ∧ off = 0xA00 then some m.statusWord
  else if main ∧ 0xA20 ≤ off ∧ off < 0xA40 then some (wordBytes (byteAt m.nonce) (off - 0xA20))
  else if main ∧ off = 0xA40 then some 0
  else if main ∧ 0x1000 ≤ off ∧ off < 0x1000 + 29984 then some (wordBytes m.reportByte (off - 0x1000))
  else if 0x10000 ≤ off ∧ off < 0x11000 then some ((d.inwin ((off - 0x10000) / 16)).word (off % 16 / 4))
  else if 0x100000 ≤ off ∧ off < 0x110000 then some ((d.remwin ((off - 0x100000) / 32)).word (off % 32 / 4))
  else none

def State.ctlWord (s : State) (die off : Nat) : Option Word32 := if die < 16 then s.dieWord die off else s.ioWord (die - 16) off

/-- Whether a word of a die's control window has access code S-RW, which mode U may neither read nor write (R9); a remote window's
entry, for which no code is stated, has it too (log 67). -/
def supWord (die off : Nat) : Bool :=
  if die < 16 then
    decide (off < 0x1000 ∧ off % 16 < 12) || decide (0x1000 ≤ off ∧ off < 0x1200 ∧ off % 256 < 8)
      || decide (0x2000 ≤ off ∧ off < 0x2400 ∧ off % 32 = 0) || decide (0x3000 ≤ off ∧ off < 0x3010)
      || decide (0x3040 ≤ off ∧ off < 0x304C) || decide (0x30A0 ≤ off ∧ off < 0x30B0)
      || decide (0x8400 ≤ off ∧ off < 0x8600 ∧ off % 32 < 16)
  else
    decide ((off = 0x100 ∧ die = 16) ∨ (0x280 ≤ off ∧ off < 0x2A0) ∨ off = 0x400 ∨ (0x410 ≤ off ∧ off < 0x420) ∨ off = 0x424)
      || decide ((0x900 ≤ off ∧ off < 0xA00) ∨ off = 0xA00 ∨ (0xA20 ≤ off ∧ off < 0xA40))
      || decide ((0x10000 ≤ off ∧ off < 0x11000) ∨ (0x100000 ≤ off ∧ off < 0x110000))

/-! ### Stores -/

/-- A store to a compute die's window; stores to words without an effect of their own change nothing. -/
def State.dieStore (s : State) (c : CtlStore) : State :=
  let o := c.off
  let any (p : Nat → Bool) : Bool := p o || (c.wide && p (o + 4))
  if o < 0x1000 then s.storePartition c
  else if o < 0x1200 then
    let s := if any fun x => decide (x % 256 < 8) then s.storeStackCounter c else s
    if any fun x => decide (x % 256 = 16) then s.storeStackNew c else s
  else if 0x2000 ≤ o ∧ o < 0x2400 then
    let b := o / 32 * 32
    let w1 := c.new (b + 4) 0
    let s := if (c.at? b).isSome then s.storeQueueOwner c else s
    if (c.at? b).isSome && (s.queue c.die (slotOfQueue o)).refused then s
    else if w1.getLsbD 4 then s.discardQueueAt c else if w1.getLsbD 3 then s.restartQueue c else s
  else if 0x3000 ≤ o ∧ o < 0x3020 then s.storeDispatcher c
  else if 0x3040 ≤ o ∧ o < 0x3058 then s.storeContext c
  else if 0x3080 ≤ o ∧ o < 0x30B8 then s.storeFeatures c
  else if 0x4000 ≤ o ∧ o < 0x8000 then s.storeKick c
  else if 0x8000 ≤ o ∧ o < 0x8200 then s.storePending c
  else if 0x8400 ≤ o ∧ o < 0x8600 then (s.storeSlot c).storeCommand c
  else s

/-- A store to an I/O die's window. -/
def State.ioStore (s : State) (c : CtlStore) : State :=
  let o := c.off
  let main := decide (c.die = 16)
  let bs := toBytes (if c.wide then 8 else 4) c.data.toNat
  if 0x400 ≤ o ∧ o < 0x430 then s.storeEvents c
  else if 0x10000 ≤ o ∧ o < 0x11000 then s.storeInbound c
  else if 0x100000 ≤ o ∧ o < 0x110000 then s.storeRemote c
  else if !main then s
  else if 0x280 ≤ o ∧ o < 0x2A0 then s.updMgmt fun m => m.extend c
  else if 0x900 ≤ o ∧ o < 0xA00 then s.updMgmt fun m => { m with outbox := writeBytes m.outbox (o - 0x900) bs }
  else if 0xA20 ≤ o ∧ o < 0xA40 then s.updMgmt fun m => { m with nonce := writeBytes m.nonce (o - 0xA20) bs }
  else if (c.at? 0xA00).isSome then s.updMgmt fun m => m.storeStatus (c.new 0xA00 0)
  else if c.at? 0xA40 = some 1 then s.updMgmt Mgmt.request
  else match c.holder with
    | some 3 => s.updMgmt Mgmt.supTake
    | some 0 => s.updMgmt Mgmt.supGive
    | _ => s

/-- A store that performs at a die control (R233); none when a word of it is a hole (R230). -/
def State.ctlStore (s : State) (c : CtlStore) : Option State :=
  if (s.ctlWord c.die c.off).isNone || (c.wide && (s.ctlWord c.die (c.off + 4)).isNone) then none
  else some (if c.die < 16 then s.dieStore c else s.ioStore c)

/-! ### The stores of the table -/

/-- A store of the table, when it is one of the kind `p`. -/
def State.ctlRow (s : State) (p : CtlStore → Bool) (f : State → CtlStore → State) : Out :=
  match s.occ with
  | .ctl c => .next (if p c then f s c else s)
  | _ => .fault .noIssuer

/-- Whether a store lies in a range of a compute die's window. -/
def CtlStore.inDie (c : CtlStore) (lo hi : Nat) : Bool := decide (c.die < 16 ∧ lo ≤ c.off ∧ c.off < hi)

/-- Whether a store lies in a range of an I/O die's window, or of IO0's. -/
def CtlStore.inIo (c : CtlStore) (lo hi : Nat) : Bool := decide ((c.die = 16 ∨ c.die = 17) ∧ lo ≤ c.off ∧ c.off < hi)
def CtlStore.inMain (c : CtlStore) (lo hi : Nat) : Bool := decide (c.die = 16 ∧ lo ≤ c.off ∧ c.off < hi)

def execPartitionEntryWrite (s : State) : Out := s.ctlRow (·.inDie 0 0x1000) State.storePartition
def execStackCounterReset (s : State) : Out :=
  s.ctlRow (fun c => c.inDie 0x1000 0x1008 || c.inDie 0x1100 0x1108) State.storeStackCounter
def execStackNewClear (s : State) : Out :=
  s.ctlRow (fun c => c.inDie 0x1000 0x1014 || c.inDie 0x1100 0x1114) State.storeStackNew
def execQueueOwnerWrite (s : State) : Out :=
  s.ctlRow (fun c => c.inDie 0x2000 0x2400 && decide (c.off % 32 = 0)) State.storeQueueOwner
/-- The store that reaches w1 of a queue with restart, and not discard. -/
def execQueueRestart (s : State) : Out :=
  s.ctlRow (fun c => c.inDie 0x2000 0x2400 && (c.new (c.off / 32 * 32 + 4) 0).getLsbD 3 && !(c.new (c.off / 32 * 32 + 4) 0).getLsbD 4)
    State.restartQueue
def execQueueDiscard (s : State) : Out :=
  s.ctlRow (fun c => c.inDie 0x2000 0x2400 && (c.new (c.off / 32 * 32 + 4) 0).getLsbD 4) State.discardQueueAt
def execDispatcherBlockWrite (s : State) : Out := s.ctlRow (·.inDie 0x3000 0x3010) State.storeDispatcher
/-- A store that sets valid of a slot that is not mapped. -/
def execSlotMap (s : State) : Out :=
  s.ctlRow (fun c => c.inDie 0x8400 0x8600 && (c.new (slotBase c.off) 0).getLsbD 0 && !(s.slot c.die (slotOfOff c.off)).valid) State.storeSlot
/-- A store that clears valid of a mapped slot. -/
def execSlotUnmap (s : State) : Out :=
  s.ctlRow (fun c => c.inDie 0x8400 0x8600 && !(c.new (slotBase c.off) 1).getLsbD 0 && (s.slot c.die (slotOfOff c.off)).valid) State.storeSlot
/-- PREEMPT_SAVE (R364): command 1 of a slot. -/
def execPreemptSave (s : State) : Out :=
  s.ctlRow (fun c => c.inDie 0x8400 0x8600 && decide ((c.new (slotBase c.off + 28) 0).toNat % 4 = 1)) fun s c =>
    s.preempt c.die (slotOfOff c.off) false
/-- PREEMPT_IDEM (R364): command 2 of a slot. -/
def execPreemptIdem (s : State) : Out :=
  s.ctlRow (fun c => c.inDie 0x8400 0x8600 && decide ((c.new (slotBase c.off + 28) 0).toNat % 4 = 2)) fun s c =>
    s.preempt c.die (slotOfOff c.off) true
def execKick (s : State) : Out := s.ctlRow (·.inDie 0x4000 0x8000) State.storeKick
def execPendingMapClear (s : State) : Out := s.ctlRow (·.inDie 0x8000 0x8200) State.storePending
def execContextStoreWrite (s : State) : Out := s.ctlRow (·.inDie 0x3040 0x304C) State.storeContext
def execFeatureEnableWrite (s : State) : Out := s.ctlRow (·.inDie 0x3080 0x30B4) State.storeFeatures
def execEventBlockWrite (s : State) : Out := s.ctlRow (·.inIo 0x400 0x42C) State.storeEvents
def execInboundWindowWrite (s : State) : Out := s.ctlRow (·.inIo 0x10000 0x11000) State.storeInbound
def execRemoteWindowWrite (s : State) : Out := s.ctlRow (·.inIo 0x100000 0x110000) State.storeRemote
def execCtlsemSupervisorTake (s : State) : Out :=
  s.ctlRow (fun c => decide (c.die = 16) && decide (c.holder = some 3)) fun s _ => s.updMgmt Mgmt.supTake
def execCtlsemSupervisorGive (s : State) : Out :=
  s.ctlRow (fun c => decide (c.die = 16) && decide (c.holder = some 0)) fun s _ => s.updMgmt Mgmt.supGive
def execMailboxStatusClear (s : State) : Out :=
  s.ctlRow (fun c => decide (c.die = 16) && (c.at? 0xA00).isSome) fun s c => s.updMgmt fun m => m.storeStatus (c.new 0xA00 0)
def execReportRequest (s : State) : Out :=
  s.ctlRow (fun c => decide (c.die = 16) && decide (c.at? 0xA40 = some 1)) fun s _ => s.updMgmt Mgmt.request
def execMeasurementExtend (s : State) : Out :=
  s.ctlRow (·.inMain 0x280 0x2A0) fun s c => s.updMgmt fun m => m.extend c
/-- REGISTER_WRITE (R233): any store, by the access codes of its words. -/
def execRegisterWrite (s : State) : Out := s.ctlRow (fun _ => true) fun s c => (s.ctlStore c).getD s

/-- Whether the sweeper of a slice may take lines: it has not in this period of 1,000 clocks (R236). Where a period begins is not said;
the model's begin at the multiples of 1,000 clocks (DESIGN CHOICE, log 76). -/
def State.maySweep (s : State) (die sl : Nat) : Bool :=
  match tget (s.die die).swept sl with | some t => decide (t / 1000 < s.clock / 1000) | none => true

/-- SWEEP_PERIOD (R236): a slice writes back and drops at most 16 lines, in a period of 1,000 clocks, that stand outside their
partition's mask. -/
def execSweepPeriod (s : State) : Out :=
  match s.occ with
  | .slice die sl =>
    let d := s.die die
    if !s.maySweep die sl then .next s
    else
      let out := (d.l2.filter fun l =>
        decide (l.slice = sl) && d.sweeps l.part (d.partEntry l.part) && !(d.partEntry l.part).w0.getLsbD l.way).take 16
      .next ((s.dropL2 die out.contains).updDie die fun d => { d with
        swept := tset d.swept sl s.clock
        parts := d.parts.map fun e => (e.1, { e.2 with sweeping := d.sweeps e.1 e.2 }) })
  | _ => .fault .noIssuer

end Sys2Proof.Machine
end

