-- ==== Sys2Proof/Machine/Lane.lean ====
section
/-! DEFINITION. Scalar lanes: their start, the sources of interrupts, the taking of interrupts and the watchdog
(spec/15_privilege_and_traps.md R344, R352, R357, R358, R361). -/

namespace Sys2Proof.Machine

/-- A scalar lane at its start: v0-v63 are 0 and full but for the pair `v01` (R344, R361, R398). -/
def newLane (core : Nat) (entry v01 : Word64) (clock : Nat) : Team where
  kind := .scalar
  core := core
  slot := 32
  gen := 0
  block := 0
  tix := 0
  mode := .s
  region := 0
  ortBase := 0
  ortSize := 0
  asid := 0
  ortNext := []
  dirRange := false
  scopeMis := false
  step := false
  xltLimit := 0
  relocLimit := 0
  rdvLimit := 0
  m := List.replicate 12 0
  s := List.replicate 16 { val := 0, full := true }
  res := none
  active := true
  legs := 0
  waitSince := clock
  threads := [{
    stat := .atLeg, pc := entry, awaits := [], readySince := clock
    v := (List.range 64).map fun i => VReg.write (if i < 2 then (words64 v01).getD i 0 else 0)
    t := List.replicate 6 0, ix := List.replicate 8 0, p := 0, mt := 0, d := [], bag := [], bagBytes := 8192, bsp := 8192
    taskTag := 0, idem := false, sect := 0, tid := 0, resume := 0 }]
  groups := []
  pend := []
  drops := []

/-- Starts the scalar lane of a core at an entry, when it has not yet been started: its sys.tvec is the entry and IE is 0 (R361,
R398). -/
def State.startLane (s : State) (core : Nat) (entry v01 : Word64) : State :=
  if (s.core core).started then s
  else (s.updCore core fun k => { k with started := true, tvec := entry, intEnable := k.intEnable &&& ~~~(0x100 : Word32) }).setTeam
    (scalarKey core) (newLane core entry v01 s.clock)

/-! ### Interrupt sources (R352, R357) -/

/-- sys.timer of a core. -/
def Core.timer (k : Core) (clock : Nat) : Word64 := BitVec.ofNat 64 clock + k.timerOff

/-- Whether the timer of a core has reached its compare value. -/
def Core.timerDue (k : Core) (clock : Nat) : Bool := decide (k.timer clock ≥ k.timerCmp)

/-- Whether an I/O die with events to take names a core (R390). -/
def State.eventsFor (s : State) (core : Nat) : Bool :=
  s.ios.any fun d => decide (d.eventCore.toNat = core ∧ d.tail ≠ d.head)

/-- The sources of a core that assert as levels. -/
def State.asserting (s : State) (core : Nat) : BitVec 6 :=
  let k := s.core core
  BitVec.ofNat 6 (flagBit (k.timerDue s.clock) 0 + flagBit (k.tqAsserts s.clock) 1 + flagBit (s.eventsFor core) 3)

/-- Clears pending bits; a source that still asserts latches its bit again (R357). -/
def State.clearPending (s : State) (core : Nat) (bits : BitVec 6) : State :=
  s.updCore core fun k => { k with intPending := (k.intPending &&& ~~~bits) ||| s.asserting core }

/-- Pending bits that sys.int_enable enables. -/
def Core.enabledPending (k : Core) : BitVec 6 := k.intPending &&& k.intEnable.setWidth 6

/-! ### Where the scalar lane stands -/

/-- Whether an access of an instruction names registers of a destination. -/
def Acc.names (x : Acc) (d : Dest) : Bool :=
  match d with
  | .v r n => if Code.isIx x.code then true else Code.isV x.code && decide (x.code.toNat < r + n ∧ r < x.code.toNat + x.n)
  | .s r n => Code.isS x.code && decide (x.code.toNat - 0xE0 < r + n ∧ r < x.code.toNat - 0xE0 + x.n)
  | .dirc r n | .dirn r n => Code.isD x.code && decide (x.code.toNat - 0xD8 < r + n ∧ r < x.code.toNat - 0xD8 + x.n)
  | .none => false

/-- The accesses of a word. -/
def wordAcc (w : Word64) : List Acc :=
  match decode w with
  | .ok i =>
    match i.form with
    | .f3 op f => f3Acc op f
    | .x op x => xAcc op x
    | .p2 op p => p2Acc op p.hi ++ p2Acc p.lop p.lo
    | _ => []
  | .error _ => []

/-- Whether a pending result waits for a grant of another party (R101). -/
def Pend.ungranted (p : Pend) : Bool := match p.wait with | .ring .. | .relay .. => true | _ => false

/-- Whether a group is held at a blocking instruction of R101, or at WFI (R358): a scalar lane's `wait` is one at AWAIT and WFI alone,
since at any other instruction it waits on its own operation or on the hardware. -/
def Team.blockedAt (t : Team) (g : Group) : Bool :=
  match g.hold with
  | .mwait _ | .cross .. | .barrier _ => true
  | .wait _ => match decode (g.leg.getD g.pos 0) with | .ok (.await _) | .ok (.wfi _) => true | _ => false
  | .stall => t.pend.any fun p => p.ungranted && (wordAcc (g.leg.getD g.pos 0)).any fun x => x.names p.dest
  | _ => false

/-- The point of the scalar lane at which an interrupt may enter: leg start and index (R358). -/
def Team.interruptPoint (t : Team) : Option (Word64 × Nat) :=
  match t.threads.head?, t.groups.head? with
  | some _, some g => if t.blockedAt g then some (g.start, g.idx) else none
  | some th, none => if th.resume = 0 ∧ (th.stat = .atLeg ∨ th.stat = .meet) then some (th.pc, 0) else none
  | none, _ => none

/-- The point at which the watchdog enters, wherever the lane stands (R361). -/
def Team.anyPoint (t : Team) : Option (Word64 × Nat) :=
  match t.threads.head?, t.groups.head? with
  | some _, some g => some (g.start, g.idx)
  | some th, none => if th.stat = .exited then none else some (th.pc, th.resume)
  | none, _ => none

/-- Drops the registrations of a core's scalar lane: its held instruction is withdrawn (R358). -/
def State.withdraw (s : State) (core : Nat) : State :=
  s.dropWatch (scalarKey core) 0

/-- Whether an interrupt can be taken on a core, and where. -/
def State.interruptAt (s : State) (core : Nat) : Option (Word64 × Nat) :=
  let k := s.core core
  if k.started && k.intEnable.getLsbD 8 && decide (k.enabledPending ≠ 0) then
    (tget s.teams (scalarKey core)).bind Team.interruptPoint
  else none

/-- TIMER_COMPARE_MATCH (R357). -/
def execTimerCompareMatch (s : State) : Out :=
  match s.occ with
  | .core c => .next (if (s.core c).timerDue s.clock then s.interrupt c 0 else s)
  | _ => .fault .noIssuer

/-- TQ_AGE_EXPIRY (R352). -/
def execTqAgeExpiry (s : State) : Out :=
  match s.occ with
  | .core c => .next (s.latchTq c)
  | _ => .fault .noIssuer

/-- INTERRUPT_TAKE (R358). -/
def execInterruptTake (s : State) : Out :=
  match s.occ with
  | .core c =>
    match s.interruptAt c with
    | some (start, idx) =>
      let e := (s.core c).enabledPending
      let cause := if e.getLsbD 0 then Cause.timer.code else Cause.interrupt.code
      .next ((s.withdraw c).enterHandler c cause true start idx (e.setWidth 64))
    | none => .next s
  | _ => .fault .noIssuer

/-- Whether the watchdog of a core reaches 0 by a clock. -/
def Core.wdtDue (k : Core) (clock : Nat) : Bool := decide (k.wdt ≠ 0 ∧ clock ≥ k.wdtSet + k.wdt.toNat)

/-- WATCHDOG_EXPIRY (R361). -/
def execWatchdogExpiry (s : State) : Out :=
  match s.occ with
  | .core c =>
    if (s.core c).wdtDue s.clock then
      let s := s.updCore c fun k => { k with wdt := 0 }
      match (tget s.teams (scalarKey c)).bind Team.anyPoint with
      | some (start, idx) => .next ((s.withdraw c).enterHandler c Cause.watchdog.code false start idx 0)
      | none => .next s
    else .next s
  | _ => .fault .noIssuer

end Sys2Proof.Machine
end

