-- ==== Sys2Proof/Machine/Bus.lean ====
section
/-! DEFINITION. Accesses by physical address: the faults, reads and writes of every range, with the control windows, and accesses
through a core's L1 (spec/10_l2_slices_and_hbm.md R230, R233, R240; spec/09_objects_and_translation.md R222). -/

namespace Sys2Proof.Machine

/-! ### What stands in the way of an access -/

/-- The fault of an access of `n` bytes from a die, before its bytes are reached: at a control window its size and alignment, the link
to its die, a hole, and an S-RW word in mode U (R9, R230, R233). -/
def State.busFault (s : State) (die : Nat) (x : Xl) (n : Nat) (write : Bool) : State × Option XFault :=
  match busOf x.pa with
  | .ctl d off =>
    if (n ≠ 4 ∧ n ≠ 8) ∨ x.pa % n ≠ 0 then (s, some { cause := .misaligned, w9 := 0 })
    else if s.routeBad die d then (s, some (devErr 5))
    else if (s.ctlWord d off).isNone || (decide (n = 8) && (s.ctlWord d (off + 4)).isNone) then (s, some (devErr 2))
    else if x.user && (supWord d off || (decide (n = 8) && supWord d (off + 4))) then
      (s, some { cause := .privilegedOp, w9 := Cause.privilegedOp.openW9 })
    else (s, none)
  | _ => s.linkFault die x n write

/-! ### Accesses that perform at their home -/

/-- Reads `n` bytes at their home, or with `home` false at the hitch atomic unit that holds their line, for a party of a die. -/
def State.busRead (s : State) (die : Nat) (x : Xl) (n : Nat) (home : Bool := true) : State × Except XFault (List Byte) :=
  match busOf x.pa with
  | .ctl d off =>
    match s.busFault die x n false with
    | (s, some f) => (s, .error f)
    | (s, none) =>
      let w (o : Nat) : Nat := ((s.ctlWord d o).getD 0).toNat
      (s, .ok (toBytes n (w off + w (off + 4) * 2 ^ 32)))
  | _ => s.plainRead die x n home

/-- Writes bytes at their home, or at the hitch atomic unit that holds their line, for a party of a die. -/
def State.busWrite (s : State) (die : Nat) (x : Xl) (bs : List Byte) (home : Bool := true) : State × Option XFault :=
  match busOf x.pa with
  | .ctl d off =>
    match s.busFault die x bs.length true with
    | (s, some f) => (s, some f)
    | (s, none) =>
      ((s.ctlStore { die := d, off := off, wide := decide (bs.length = 8), data := BitVec.ofNat 64 (ofBytes bs) }).getD s, none)
  | _ => s.plainWrite die x bs home

/-! ### Accesses through a core's L1 -/

/-- Reads `n` bytes of one HBM line through a core's L1; the bytes come from the home slice, and can be poisoned, unless the L1 holds
them (R222, R240). -/
def State.coreLine (s : State) (c : Nat) (x : Xl) (n pol : Nat) : State × Except XFault (List Byte) :=
  let s := if pol = 3 then s.evictLine c (x.pa / 128) else s
  match (if pol ≠ 3 ∧ (s.core c).l1Holds x.pa n x.key then (s, none) else s.consume x.pa n) with
  | (s, some f) => (s, .error f)
  | (s, none) => let r := s.l1Read c x n pol
                 (r.1, .ok r.2)

/-- Reads `n` bytes: HBM line by line through the L1 of a core (R222, R251), everything else at its home. -/
def State.coreRead (s : State) (core : Option Nat) (die : Nat) (x : Xl) (n pol : Nat) : State × Except XFault (List Byte) :=
  match core, busOf x.pa with
  | some c, .hbm _ =>
    match s.busFault die x n false with
    | (s, some f) => (s, .error f)
    | (s, none) =>
      (linePieces x.pa n).foldl (fun (r : State × Except XFault (List Byte)) p =>
        match r.2 with
        | .error _ => r
        | .ok bs =>
          match r.1.coreLine c { x with pa := p.1 } p.2 pol with
          | (s, .error f) => (s, .error f)
          | (s, .ok more) => (s, .ok (bs ++ more))) (s, .ok [])
  | _, _ => s.busRead die x n

/-- Writes bytes for a thread of a team with its task tag, HBM line by line (R222, R251). -/
def State.coreWrite (s : State) (core : Option Nat) (key : Nat) (tag : BitVec 16) (die : Nat) (x : Xl) (bs : List Byte)
    (pol : Nat) : State × Option XFault :=
  match core, busOf x.pa with
  | some c, .hbm _ =>
    match s.busFault die x bs.length true with
    | (s, some f) => (s, some f)
    | (s, none) =>
      ((linePieces x.pa bs.length).foldl (fun s p =>
        s.l1Write c key tag { x with pa := p.1 } ((bs.drop (p.1 - x.pa)).take p.2) pol) s, none)
  | _, _ => s.busWrite die x bs

end Sys2Proof.Machine
end

