-- ==== Sys2Proof/Machine/Boot.lean ====
section
/-! DEFINITION. Control ports, CTLSEM, flash and markers, the boot, attestation, power and temperature, and the errors and
messages that reach the module from outside (spec/10_l2_slices_and_hbm.md R240, R241; spec/17_package_links_boot.md R384-R400). -/

namespace Sys2Proof.Machine

/-! ### The module (R393, R397, R398) -/

/-- The module after a reset: what a boot finds. Memory, poison, flash, failed links and the counters of boots and of free
values stay; everything else is as at reset. -/
def State.resetModule (s : State) (keepMem : Bool) (boot : Boot) : State :=
  { State.reset with
    agenda := s.agenda, free := s.free, boots := s.boots
    mem := if keepMem then s.mem else [], blockKey := if keepMem then s.blockKey else []
    poison := if keepMem then s.poison else [], keys := [(0, .device s.boots)]
    mgmt := { Mgmt.reset with flash := s.mgmt.flash, badEdges := s.mgmt.badEdges, boot := boot, reply := s.mgmt.reply } }

/-! ### Markers (R397) -/

/-- A marker copy: its sequence and its slot, when it is valid. -/
def Mgmt.marker (m : Mgmt) (k : Nat) : Option (Nat × Bool) :=
  let bs := readBytes m.flash (4096 * k) 64
  let w (i : Nat) : Nat := ofBytes ((bs.drop (4 * i)).take 4)
  if w 0 = 0x4B52414D ∧ bs.drop 32 = bytes256 (shake256 (bs.take 32)) then
    some (w 2 + w 3 * 2 ^ 32, decide (w 1 % 2 = 1))
  else none

/-- The copy that decides: the valid one with the higher sequence. -/
def Mgmt.decider (m : Mgmt) : Option (Nat × Nat × Bool) :=
  match m.marker 0, m.marker 1 with
  | some (a, x), some (b, y) => if a ≥ b then some (0, a, x) else some (1, b, y)
  | some (a, x), none => some (0, a, x)
  | none, some (b, y) => some (1, b, y)
  | none, none => none

/-- The slot that the marker names: slot A when no copy is valid. -/
def Mgmt.markerSlotB (m : Mgmt) : Bool := match m.decider with | some (_, _, b) => b | none => false

/-- Writes bytes to the flash, keeping what they replace (R397). -/
def State.flashWrite (s : State) (off : Nat) (bs : List Byte) : State :=
  s.updMgmt fun m => { m with
    flashUndo := some (s.clock + 1, off, readBytes m.flash off bs.length), flash := writeBytes m.flash off bs }

/-- The bytes of a new marker copy. -/
def markerBytes (seq : Nat) (slotB : Bool) : List Byte :=
  let head := toBytes 4 0x4B52414D ++ toBytes 4 (if slotB then 1 else 0) ++ toBytes 8 seq ++ List.replicate 16 0
  head ++ bytes256 (shake256 head)

/-- Writes the marker copy that is not the decider. -/
def State.setMarker (s : State) (slotB : Bool) : State :=
  match s.mgmt.decider with
  | some (k, seq, _) => s.flashWrite (4096 * (1 - k)) (markerBytes (seq + 1) slotB)
  | none => s.flashWrite 0 (markerBytes 1 slotB)

/-! ### The boot (R398) -/

/-- The listed bytes of a flash slot. -/
def Mgmt.slotBytes (m : Mgmt) (slotB : Bool) : List (Nat × Byte) :=
  let base := if slotB then 0x08100000 else 0x00100000
  (m.flash.filter fun e => decide (base ≤ e.1 ∧ e.1 < base + 0x8000000)).map fun e => (e.1 - base, e.2)

/-- A flash slot that verifies (R396): the digest of its public key is the fused one, its signature over the manifest verifies, both
component digests match, and its version is at least the fused floor. -/
def Mgmt.slotImage (m : Mgmt) (slotB : Bool) : Option Config.SlotImage :=
  let bs := m.slotBytes slotB
  match Config.manifest bs with
  | none => none
  | some f =>
    let patch := readBytes bs f.patchAt.1 f.patchAt.2
    let image := readBytes bs f.imageAt.1 f.imageAt.2
    if shake256 f.publicKey = Config.firmwareKey
        ∧ Config.verifies f.publicKey (readBytes bs 0 f.bytes) (readBytes bs f.bytes 29792)
        ∧ shake256 patch = f.patchDigest ∧ shake256 image = f.imageDigest
        ∧ Config.versionFloor.toNat ≤ f.version.toNat then
      some { version := f.version, patchSet := patch, image := image, load := f.load, entry := f.entry }
    else none

/-- The slot that verifies: the marker's, else the other; with its letter and whether the marker's failed. -/
def Mgmt.bootSlot (m : Mgmt) : Option (Config.SlotImage × Bool × Bool) :=
  let b := m.markerSlotB
  match m.slotImage b with
  | some i => some (i, b, false)
  | none => (m.slotImage !b).map fun i => (i, !b, true)

/-- The measurements M0-M3 as bytes. -/
def Mgmt.measures (m : Mgmt) : List Byte := (m.m.map bytes256).flatten

/-- The boot block (R398). -/
def Mgmt.bootBlock (m : Mgmt) (slotB failed : Bool) : List Byte :=
  let head := toBytes 4 0x544F4F42 ++ toBytes 4 (flagBit slotB 0 + flagBit failed 1) ++ toBytes 8 m.secVersion.toNat ++ m.measures
  head ++ List.replicate (4096 - head.length) 0

/-- The boot by the ROM of an I/O die. -/
def State.bootBy (s : State) (io : Nat) : State :=
  let s := { s with boots := s.boots + 1, keys := [(0, .device (s.boots + 1))] }
  let s := s.updMgmt fun m => { m with bootIo := io, m := [Config.romDigest, 0, 0, 0] }
  match s.mgmt.bootSlot with
  | none => s.updMgmt fun m => { m with boot := .noSlot }
  | some (img, slotB, failed) =>
    let s :=
      match Config.patchFields img.patchSet with
      | some (n, v, mc) => { s with dies := s.dies.map fun (d : Die) => { d with patches := n, verified := true, patchVer := v, microcode := mc } }
      | none => { s with dies := s.dies.map fun (d : Die) => { d with patches := 0, verified := false, microcode := 1 } }
    let s := s.updMgmt fun m => { m with
      m := [Config.romDigest, shake256 img.patchSet, shake256 img.image, 0], secVersion := img.version
      boot := .ran slotB failed }
    let s := s.devWrite (16 + io) img.load img.image
    let s := s.devWrite (16 + io) 0 (s.mgmt.bootBlock slotB failed)
    (List.range 16).foldl (fun s d => s.startLane (d * 96) img.entry 0) s

/-- Clocks in 2 s (R10). -/
def twoSeconds : Nat := 3800000000

/-- POWER_ON_BOOT: the ROM of IO0 boots a module that is not up. -/
def execPowerOnBoot (s : State) : Out := .next (if s.mgmt.boot = .off then s.bootBy 0 else s)

/-- BOOT_TAKEOVER: the ROM of IO1, when IO0 has not reported within 2 s. -/
def execBootTakeover (s : State) : Out := .next (if s.mgmt.boot = .off ∧ s.clock ≥ twoSeconds then s.bootBy 1 else s)

/-! ### Attestation (R399) -/

def Mgmt.slotBooted (m : Mgmt) : Nat := match m.boot with | .ran b _ => flagBit b 0 | _ => 0

/-- The 192 bytes of a report over a nonce. -/
def Mgmt.reportOf (m : Mgmt) (nonce : List Byte) : List Byte :=
  toBytes 4 0x54535441 ++ toBytes 4 1 ++ (nonce ++ List.replicate 32 0).take 32 ++ m.measures ++ toBytes 8 m.secVersion.toNat
    ++ toBytes 4 m.slotBooted ++ List.replicate 12 0

/-- REPORT_DONE (R395). -/
def execReportDone (s : State) : Out :=
  .next (if s.mgmt.reportBusy then
    (s.updMgmt fun m => { m with report := m.reportOf m.asked, reportBusy := false, reportDone := true }).interrupt 0 5
  else s)

/-! ### Control ports (R393-R395) -/

def Port.code : Port → Nat | .a => 1 | .b => 2

/-- A port answers. -/
def State.answer (s : State) (r : Reply) : State := s.updMgmt fun m => { m with reply := r }

/-- A mutating command of a port: it must hold CTLSEM, and its hold is renewed. -/
def State.mutating (s : State) (p : Port) (ok : Bool) (f : State → State) : State :=
  if s.mgmt.holder ≠ p.code then s.answer .notOwner
  else
    let s := s.updMgmt fun m => { m with lastCmd := s.clock }
    if ok then (f s).answer .ok else s.answer .refused

/-- Whether the ports take every command: not after a boot that found no slot (R398). -/
def State.portsOpen (s : State) : Bool := decide (s.mgmt.boot ≠ .noSlot)

/-- GET_STATUS. -/
def execGetStatus (s : State) : Out :=
  match s.occ with
  | .port _ =>
    let r := s.takeFree
    .next (r.2.answer (.status s.mgmt.boot s.mgmt.holder (s.dies.map (·.temp)) r.1))
  | _ => .fault .noIssuer

/-- GET_REPORT. -/
def execGetReport (s : State) : Out :=
  match s.occ with
  | .portBytes _ _ nonce => .next (s.answer (if s.portsOpen then .report (s.mgmt.reportOf nonce) else .refused))
  | _ => .fault .noIssuer

/-- The party to which a free CTLSEM goes of those whose requests reach it in one clock (R394): one that did not hold it most recently
goes first, then A, B and the supervisor in this order. -/
def Mgmt.winner (m : Mgmt) (rs : List Nat) : Option Nat :=
  match [1, 2, 3].find? fun r => rs.contains r && decide (r ≠ m.last) with
  | some r => some r
  | none => [1, 2, 3].find? rs.contains

/-- TAKE (R394), of a port alone or of several parties in one clock. -/
def execTake (s : State) : Out :=
  match s.occ with
  | .takers rs =>
    let m := s.mgmt
    match (if m.holder = 0 then m.winner rs else none) with
    | some r => .next ((s.updMgmt fun m => { m.grant r with lastCmd := s.clock }).answer (.granted r))
    | none => .next ((s.updMgmt fun m => { m with lastCmd := if rs.contains m.holder ∧ m.holder ≠ 3 then s.clock else m.lastCmd }).answer
        (.granted m.holder))
  | .port p =>
    if s.mgmt.holder = 0 then .next ((s.updMgmt fun m => { m.grant p.code with lastCmd := s.clock }).answer .ok)
    else if s.mgmt.holder = p.code then .next ((s.updMgmt fun m => { m with lastCmd := s.clock }).answer .ok)
    else .next (s.answer .notOwner)
  | _ => .fault .noIssuer

/-- GIVE (R394). -/
def execGive (s : State) : Out :=
  match s.occ with
  | .port p => .next (if s.mgmt.holder = p.code then (s.updMgmt Mgmt.free).answer .ok else s.answer .notOwner)
  | _ => .fault .noIssuer

/-- FLASH_WRITE: up to 4 KiB at an offset outside the marker copies. -/
def execFlashWrite (s : State) : Out :=
  match s.occ with
  | .portBytes p off bs =>
    .next (s.mutating p (decide (bs.length ≤ 4096 ∧ 0x2000 ≤ off ∧ off + bs.length ≤ 0x20000000)) fun s => s.flashWrite off bs)
  | _ => .fault .noIssuer

/-- MARKER_SET (R397). -/
def execMarkerSet (s : State) : Out :=
  match s.occ with
  | .marker p b => .next (s.mutating p true fun s => s.setMarker b)
  | _ => .fault .noIssuer

/-- POWER_LIMIT: 2-15 kW. -/
def execPowerLimit (s : State) : Out :=
  match s.occ with
  | .portBytes p kw _ =>
    .next (if s.portsOpen then s.mutating p (decide (2 ≤ kw ∧ kw ≤ 15)) fun s => s.updMgmt fun m => { m with powerKw := kw }
           else s.answer .refused)
  | _ => .fault .noIssuer

/-- RESET: the module is reset, and the boot begins again. -/
def execReset (s : State) : Out :=
  match s.occ with
  | .port p => .next (if s.mgmt.holder ≠ p.code then s.answer .notOwner else (s.resetModule true .off).answer .ok)
  | _ => .fault .noIssuer

/-- MAILBOX (R395). -/
def execMailbox (s : State) : Out :=
  match s.occ with
  | .portBytes p _ bs =>
    if !s.portsOpen then .next (s.answer .refused)
    else if s.mgmt.inFull then .next (s.answer .busy)
    else
      let out : Reply := if s.mgmt.outFull then .data (readBytes s.mgmt.outbox 0 256) else .ok
      .next ((s.updMgmt fun m => { m with
        inbox := writeBytes [] 0 ((bs ++ List.replicate 256 0).take 256), inPort := p.code, inFull := true, outFull := false, reply := out }).interrupt 0 5)
  | _ => .fault .noIssuer

/-- CTLSEM_LAPSE (R394). -/
def execCtlsemLapse (s : State) : Out :=
  let m := s.mgmt
  .next (if (m.holder = 1 ∨ m.holder = 2) ∧ s.clock ≥ m.lastCmd + twoSeconds then (s.updMgmt Mgmt.free).interrupt 0 5 else s)

/-! ### Power and temperature (R397, R400) -/

/-- POWER_LOSS: all activity ends; a flash write that was in progress may have reached only its first `n` bytes. -/
def execPowerLoss (s : State) : Out :=
  match s.occ with
  | .torn n =>
    let s := match s.mgmt.flashUndo with
      | some (c, off, old) =>
        if c = s.clock then s.updMgmt fun m => { m with flash := writeBytes m.flash (off + n) (old.drop n) } else s
      | none => s
    .next (s.resetModule false .off)
  | _ => .fault .noIssuer

def execThermalThrottle (s : State) : Out :=
  match s.occ with
  | .temp die t => .next (s.updDie die fun d => { d with temp := t, throttled := true })
  | _ => .fault .noIssuer

def execThrottleEnd (s : State) : Out :=
  match s.occ with
  | .temp die t => .next (if t < 105 then s.updDie die fun d => { d with temp := t, throttled := false } else s)
  | _ => .fault .noIssuer

/-- THERMAL_SHUTDOWN: at 115 degrees the module stops and latches its cause. -/
def execThermalShutdown (s : State) : Out :=
  match s.occ with
  | .temp die t =>
    .next (if t ≥ 115 then (s.resetModule true .thermal).updDie die fun d => { d with temp := t } else s)
  | _ => .fault .noIssuer

/-! ### Die links and HBM errors (R240, R241, R384) -/

/-- The edges of the package. -/
def edges : List (Nat × Nat) :=
  ((List.range 16).map fun d =>
    (if d % 4 < 3 then [(d, d + 1)] else []) ++ (if d < 12 then [(d, d + 4)] else []) ++ (if d < 4 then [(d, 16)] else [])
      ++ (if d ≥ 12 then [(d, 17)] else [])).flatten

/-- DIE_LINK_FAILURE (R384): bit 3 latches at core die * 96 of each compute die at its ends. -/
def execDieLinkFailure (s : State) : Out :=
  match s.occ with
  | .link a b =>
    let e := edge a b
    if !edges.contains e then .next s
    else
      let s := s.updMgmt fun m => { m with badEdges := (m.badEdges ++ [e]).eraseDups }
      .next (([e.1, e.2].filter (· < 16)).foldl (fun s d => s.interrupt (d * 96) 3) s)
  | _ => .fault .noIssuer

/-- A counter that saturates. -/
def satInc (x : Word32) : Word32 := if x = 0xFFFFFFFF then x else x + 1

/-- The die and stack of an HBM address. -/
def stackOf (pa : Nat) : Nat × Nat := (homeDie pa, pa / 2 ^ 36 % 2)

def State.hbmCorrected (s : State) (pa : Nat) : State :=
  s.updStack (stackOf pa).1 (stackOf pa).2 fun k => { k with corrected := satInc k.corrected }

/-- An uncorrectable error: the line is poisoned, the stack block records it, and bit 3 latches at sup_core. R241 does not say whether
the bit also stays asserted while new is 1; the model latches it once for each error (DESIGN CHOICE, log 76). -/
def State.hbmUncorrected (s : State) (pa : Nat) : State :=
  let (die, st) := stackOf pa
  let s := { s with poison := tset s.poison (pa / 128) false }
  let s := s.updStack die st fun k => { k with uncorrected := satInc k.uncorrected, lastAddr := BitVec.ofNat 64 pa, fresh := true }
  s.interrupt (s.die die).supCore.toNat 3

def execHbmUncorrectableError (s : State) : Out :=
  match s.occ with
  | .phys pa => .next (if rangeOf pa = .hbm then s.hbmUncorrected pa else s)
  | _ => .fault .noIssuer

def execHbmCorrectableError (s : State) : Out :=
  match s.occ with
  | .phys pa => .next (if rangeOf pa = .hbm then s.hbmCorrected pa else s)
  | _ => .fault .noIssuer

/-- PATROL_SCRUB (R240): the scrubber reads a line of a stack, and what it finds counts like any other access. -/
def execPatrolScrub (s : State) : Out :=
  match s.occ with
  | .scrub die stack line found =>
    let pa := (2 * die + stack % 2) * 2 ^ 36 + line * 128
    .next (if rangeOf pa ≠ .hbm ∨ homeDie pa ≠ die then s
      else match found with
        | .clean => s
        | .corrected => s.hbmCorrected pa
        | .uncorrectable => s.hbmUncorrected pa)
  | _ => .fault .noIssuer

/-! ### PCIe and CXL (R388-R392) -/

/-- PCIE_COMPLETION_TIMEOUT: the next access over the link traps, with its event. -/
def execPcieCompletionTimeout (s : State) : Out :=
  match s.occ with
  | .io i link => .next (s.updIo i fun d => { d with pcieErr := (d.pcieErr ++ [link]).eraseDups })
  | _ => .fault .noIssuer

/-- CXL_ERROR: the next access to the port's frames traps, with its event. -/
def execCxlError (s : State) : Out :=
  match s.occ with
  | .io i port => .next (s.updIo i fun d => { d with cxlErr := (d.cxlErr ++ [port]).eraseDups })
  | _ => .fault .noIssuer

/-- PCIE_LINK_DOWN: a link is down after failed retraining. -/
def execPcieLinkDown (s : State) : Out :=
  match s.occ with
  | .io i link => .next ((s.updIo i fun d => { d with down := (d.down ++ [link]).eraseDups }).ioEvent i link 4 0 0)
  | _ => .fault .noIssuer

/-- MSIX_MESSAGE: an inbound write to msg_addr; its vector is data [15:0]. -/
def execMsixMessage (s : State) : Out :=
  match s.occ with
  | .msix i link v => .next (s.ioEvent i link 0 v 0)
  | _ => .fault .noIssuer

/-- msg_addr of an I/O die. -/
def msgAddr (i : Nat) : Nat := 0xF00010000500 + i * 0x1000000

/-- The lowest-numbered valid window of a link that serves a bus address. -/
def IoDie.serving (d : IoDie) (link addr : Nat) : Option InWin :=
  ((List.range 16).map fun k => d.inwin (link * 16 + k)).find? fun w =>
    w.w01.getLsbD 0 && decide (field w.w01 47 16 * 65536 ≤ addr ∧ addr < (field w.w01 47 16 + w.size.toNat) * 65536)

/-- INBOUND_REQUEST (R389, R391): a request that no window serves, or that its window refuses, completes as Unsupported Request with an
event of type 1; one that meets an error in memory completes as Completer Abort with an event of type 2 (log 70). -/
def execInboundRequest (s : State) : Out :=
  match s.occ with
  | .inbound r =>
    let n := if r.write then r.data.length else r.len
    let refuse : State := (s.ioEvent r.io r.link 1 0 (BitVec.ofNat 32 (r.addr % 2 ^ 48 / 2 ^ 16))).answer .unsupported
    if r.addr = msgAddr r.io ∧ r.write ∧ r.data.length = 4 then
      .next ((s.ioEvent r.io r.link 0 (BitVec.ofNat 16 (ofBytes (r.data.take 2))) 0).answer .ok)
    else
      match (s.io r.io).serving r.link r.addr with
      | none => .next refuse
      | some w =>
        let key := w.key.toNat % 2 ^ 13
        if (r.write && !w.w01.getLsbD 1) || (tget s.keys key).isNone then .next refuse
        else
          let x : Xl := { pa := r.addr, key := key, part := 0, cls := 1, kind := 0, gran := 0, entryAt := 0, moving := false }
          if r.write then
            match s.busWrite (16 + r.io) x r.data with
            | (s, none) => .next (s.answer .ok)
            | (s, some _) => .next ((s.ioEvent r.io r.link 2 0 0).answer .aborted)
          else
            match s.busRead (16 + r.io) x n with
            | (s, .ok bs) => .next (s.answer (.data bs))
            | (s, .error _) => .next ((s.ioEvent r.io r.link 2 0 0).answer .aborted)
  | _ => .fault .noIssuer

end Sys2Proof.Machine
end

