-- ==== Sys2Proof/Machine/Fp.lean ====
section
/-! DEFINITION. The floating-point, conversion and packed instructions, G2 and G3, and the P2 halves
(spec/06_arithmetic_pipes.md R158-R169). -/

namespace Sys2Proof.Machine

/-! ### G2 -/

/-- The format of modifier [1:0], and how many elements a word holds of it (R158). -/
def g2Fmt (md : BitVec 8) : Ieee := fmtIeee (mdField md 1 0)
def g2Elems (md : BitVec 8) : Nat := if mdField md 1 0 = 0 then 1 else 2

/-- The rounding mode of modifier [3:2]. -/
def mdRnd (md : BitVec 8) : Rnd := Rnd.ofBits (md.extractLsb' 2 2)

/-- Element `k` of a source as a value: negated by its modifier bit, then flushed (R159). -/
def g2Src (md : BitVec 8) (neg : Nat) (k : Nat) (ws : List Word32) : FVal :=
  let f := g2Fmt md
  let x := f.read ((lo32 ws).toNat / 2 ^ (k * f.w) % 2 ^ f.w)
  f.flushIn (md.getLsbD 4) (if md.getLsbD neg then x.neg else x)

/-- A word of element results. -/
def g2Word (md : BitVec 8) (r : Nat → Nat) : List Word32 :=
  [BitVec.ofNat 32 ((List.range (g2Elems md)).foldl (fun x k => x + r k * 2 ^ (k * (g2Fmt md).w)) 0)]

/-- A G2 instruction of one source: each element computed alone (R158, R159). -/
def g2One (md : BitVec 8) (f : Ieee → Rnd → Bool → FVal → Nat) (v : List (List Word32)) : List Word32 :=
  g2Word md fun k => f (g2Fmt md) (mdRnd md) (md.getLsbD 4) (g2Src md 5 k (arg v 0))

/-- A G2 instruction of two sources. -/
def g2Two (md : BitVec 8) (f : Ieee → Rnd → Bool → FVal → FVal → Nat) (v : List (List Word32)) : List Word32 :=
  g2Word md fun k => f (g2Fmt md) (mdRnd md) (md.getLsbD 4) (g2Src md 5 k (arg v 0)) (g2Src md 6 k (arg v 1))

def execFadd (w : F3) (s : State) : Out := s.f3Value 0x080 w (g2Two w.md Ieee.add)
def execFsub (w : F3) (s : State) : Out := s.f3Value 0x081 w (g2Two w.md fun f r z a b => f.add r z a b.neg)
def execFmul (w : F3) (s : State) : Out := s.f3Value 0x082 w (g2Two w.md Ieee.mul)
def execFfma (w : F3) (s : State) : Out :=
  s.f3Value 0x083 w fun v => g2Word w.md fun k =>
    (g2Fmt w.md).fma (mdRnd w.md) (w.md.getLsbD 4) (g2Src w.md 5 k (arg v 0)) (g2Src w.md 6 k (arg v 1)) (g2Src w.md 7 k (arg v 2))
def execFmin (w : F3) (s : State) : Out := s.f3Value 0x084 w (g2Two w.md fun f _ _ a b => f.minmax false a b)
def execFmax (w : F3) (s : State) : Out := s.f3Value 0x085 w (g2Two w.md fun f _ _ a b => f.minmax true a b)
def execFrcp (w : F3) (s : State) : Out := s.f3Long 0x086 w (g2One w.md fun f _ z a => f.rcp z a)
def execFrsq (w : F3) (s : State) : Out := s.f3Long 0x087 w (g2One w.md fun f _ z a => f.rsq z a)
def execFsqrt (w : F3) (s : State) : Out := s.f3Long 0x088 w (g2One w.md Ieee.sqrt)
def execFex2 (w : F3) (s : State) : Out := s.f3Long 0x089 w (g2One w.md fun f _ z a => f.ex2 z a)
def execFlg2 (w : F3) (s : State) : Out := s.f3Long 0x08A w (g2One w.md fun f _ z a => f.lg2 z a)
def execFsin (w : F3) (s : State) : Out := s.f3Long 0x08B w (g2One w.md fun f _ z a => f.sin z a)
def execFcos (w : F3) (s : State) : Out := s.f3Long 0x08C w (g2One w.md fun f _ z a => f.cos z a)
def execFrnd (w : F3) (s : State) : Out := s.f3Value 0x08D w (g2One w.md Ieee.rint)
def execFdiv (w : F3) (s : State) : Out := s.f3Long 0x08E w (g2Two w.md Ieee.div)
/-- FCLS reads the raw bits of each element (R162). -/
def execFcls (w : F3) (s : State) : Out :=
  s.f3Value 0x08F w fun v =>
    let f := g2Fmt w.md
    g2Word w.md fun k => f.classMask ((lo32 (arg v 0)).toNat / 2 ^ (k * f.w) % 2 ^ f.w)

/-! ### G3 -/

/-- CVT (R163): element k of the source converted, or wrapped between integer formats, and placed. -/
def cvtWord (w : F3) (a : List Word32) : List Word32 :=
  let dst := mdField w.md 3 0
  let src := mdField w.md 7 4
  let k := mdField w.c 6 4
  let fz := w.c.getLsbD 2
  let x := readElem src (elemCode src k (lo32 a).toNat)
  let x := if src ≤ 2 then (fmtIeee src).flushIn fz x else x
  let y := if w.c.getLsbD 3 then ofSigned (fmtBits dst) (toSigned (fmtBits src) (elemCode src k (lo32 a).toNat))
    else cvt dst (Rnd.ofBits (w.c.extractLsb' 0 2)) fz x
  [BitVec.ofNat 32 (placeElem dst y)]

def execCvt (w : F3) (s : State) : Out := s.f3Value 0x0C0 w fun v => cvtWord w (arg v 0)

/-- PACK (R164). -/
def packWord (md : BitVec 8) (a b : List Word32) : List Word32 :=
  let n := fmtBits (mdField md 3 0)
  let k := mdField md 6 4
  let m : Word32 := BitVec.ofNat 32 ((2 ^ n - 1) * 2 ^ (k * n))
  [(lo32 b &&& ~~~m) ||| (BitVec.ofNat 32 ((lo32 a).toNat % 2 ^ n * 2 ^ (k * n)) &&& m)]

/-- UNPK (R164): the code with .raw, else the exact value as FP32 or I32. -/
def unpackWord (md : BitVec 8) (a : List Word32) : List Word32 :=
  let c := mdField md 3 0
  let code := elemCode c (mdField md 6 4) (lo32 a).toNat
  if md.getLsbD 7 then [BitVec.ofNat 32 code]
  else if c ≤ 5 ∨ c = 11 then [BitVec.ofNat 32 (cvt 0 .rn false (readElem c code))]
  else [BitVec.ofNat 32 (cvt 8 .rn false (readElem c code))]

def execPack (w : F3) (s : State) : Out := s.f3Value 0x0C1 w fun v => packWord w.md (arg v 0) (arg v 1)
def execUnpk (w : F3) (s : State) : Out := s.f3Value 0x0C2 w fun v => unpackWord w.md (arg v 0)

/-- The integer value of an element. -/
def elemInt (c k : Nat) (ws : List Word32) : Int := (readElem c (elemCode c k (lo32 ws).toNat)).dyad.toInt .rz

/-- DP4I and DP8I (R89, R167): the exact sum, wrapped or saturated. -/
def dotInt (ca cb n : Nat) (sat : Bool) (a b c : List Word32) : List Word32 :=
  let x := (List.range n).foldl (fun s i => s + elemInt ca i a * elemInt cb i b) (srcInt 32 c)
  [BitVec.ofInt 32 (if sat then max (-2 ^ 31) (min x (2 ^ 31 - 1)) else x)]

/-- DP4F, DP8F and DP2B (R88, R167): the exact sum of the products and C, rounded once; `fzElem` flushes 16-bit elements. -/
def dotFp (ca cb n : Nat) (rnd : Rnd) (fz fzElem : Bool) (a b c : List Word32) : List Word32 :=
  let el (f k : Nat) (ws : List Word32) : FVal :=
    let x := readElem f (elemCode f k (lo32 ws).toNat)
    if fzElem then (fmtIeee f).flushIn fz x else x
  [BitVec.ofNat 32 (dotSum rnd fz ((List.range n).map fun i => (el ca i a, el cb i b))
    (fp32.flushIn fz (fp32.read (lo32 c).toNat)))]

def execDp4i (w : F3) (s : State) : Out :=
  s.f3Value 0x0C3 w fun v =>
    dotInt (if w.md.getLsbD 0 then 6 else 10) (if w.md.getLsbD 1 then 6 else 10) 4 (w.md.getLsbD 2) (arg v 0) (arg v 1) (arg v 2)
def execDp8i (w : F3) (s : State) : Out :=
  s.f3Value 0x0C4 w fun v => dotInt 7 7 8 (w.md.getLsbD 2) (arg v 0) (arg v 1) (arg v 2)
def execDp4f (w : F3) (s : State) : Out :=
  s.f3Value 0x0C5 w fun v =>
    dotFp (if w.md.getLsbD 0 then 4 else 3) (if w.md.getLsbD 1 then 4 else 3) 4 (mdRnd w.md) (w.md.getLsbD 4) false
      (arg v 0) (arg v 1) (arg v 2)
def execDp8f (w : F3) (s : State) : Out :=
  s.f3Value 0x0C6 w fun v => dotFp 5 5 8 (mdRnd w.md) (w.md.getLsbD 4) false (arg v 0) (arg v 1) (arg v 2)
def execDp2b (w : F3) (s : State) : Out :=
  let f := if w.md.getLsbD 0 then 1 else 2
  s.f3Value 0x0C7 w fun v => dotFp f f 2 (mdRnd w.md) (w.md.getLsbD 4) true (arg v 0) (arg v 1) (arg v 2)

/-- PSCL (R166): each element times 2^(e − 127), e the SC8 code in B[7:0], rounded once. -/
def scaleWord (md : BitVec 8) (a b : List Word32) : List Word32 :=
  let e := readElem 11 ((lo32 b).toNat % 256)
  g2Word md fun k =>
    match g2Src (md &&& 0x1F) 5 k a, e with
    | .fin s m x, .fin _ n y => (g2Fmt md).write (mdRnd md) (md.getLsbD 4) (.fin s (m * n) (x + y))
    | x, _ => (g2Fmt md).write (mdRnd md) (md.getLsbD 4) x

def execPscl (w : F3) (s : State) : Out := s.f3Value 0x0C8 w fun v => scaleWord w.md (arg v 0) (arg v 1)

/-- PRMT (R165). -/
def permute (a b c : List Word32) : List Word32 :=
  let x := (lo32 b ++ lo32 a : Word64).toNat
  let byte (i : Nat) : Nat :=
    let q := (lo32 c).toNat / 2 ^ (4 * i) % 16
    let y := x / 2 ^ (8 * (q % 8)) % 256
    if q ≥ 8 then (if y ≥ 128 then 255 else 0) else y
  [BitVec.ofNat 32 (byte 0 + byte 1 * 2 ^ 8 + byte 2 * 2 ^ 16 + byte 3 * 2 ^ 24)]

def execPrmt (w : F3) (s : State) : Out := s.f3Value 0x0C9 w fun v => permute (arg v 0) (arg v 1) (arg v 2)

/-! ### P2 halves (R30, R169) -/

/-- FP32 arithmetic of a half: RN, subnormals kept. -/
def halfFp (f : FVal → FVal → Nat) (a b : List Word32) : List Word32 :=
  [BitVec.ofNat 32 (f (fp32.read (lo32 a).toNat) (fp32.read (lo32 b).toNat))]

/-- The effect of a half on the words it read: each op is its full form with modifier 0 (R169). -/
def halfEff (o : P2Op) (h : P2H) (e : Env) : List Eff :=
  let a := e.val 0
  let b := e.val 1
  let sext : Word32 := h.imm.signExtend 32
  let cmp (c : Bool) : List Eff := [.preds (e.th.combine 0 1 0 c)]
  match o with
  | .iadd => [.write (addSub 0 false a b)]
  | .isub => [.write (addSub 0 true a b)]
  | .and => [.write (bitOp 0 (· &&& ·) a b)]
  | .or => [.write (bitOp 0 (· ||| ·) a b)]
  | .xor => [.write (bitOp 0 (· ^^^ ·) a b)]
  | .shl => [.write (shiftLeft 0 a b)]
  | .shr => [.write (shiftRight 0 a b)]
  | .sar => [.write (shiftSign 0 a b)]
  | .mov => [.write a]
  | .movi => [.write [sext]]
  | .iaddi => [.write [lo32 a + sext]]
  | .imin => [.write (minMax 0 false a b)]
  | .imax => [.write (minMax 0 true a b)]
  | .fadd => [.write (halfFp (fp32.add .rn false) a b)]
  | .fsub => [.write (halfFp (fun x y => fp32.add .rn false x y.neg) a b)]
  | .fmul => [.write (halfFp (fp32.mul .rn false) a b)]
  | .fmin => [.write (halfFp (fp32.minmax false) a b)]
  | .fmax => [.write (halfFp (fp32.minmax true) a b)]
  | .icmpeq => cmp (intCond 0 true 32 (lo32 a).toNat (lo32 b).toNat)
  | .icmplt => cmp (intCond 2 true 32 (lo32 a).toNat (lo32 b).toNat)
  | .fcmplt => cmp (fpCond 2 false (lo32 a) (lo32 b))
  | .nop => []

/-- One half as an operation. -/
def halfMicro (o : P2Op) (h : P2H) : Micro where
  guard := fun th => if o = .nop then false else th.guardP2 h.g
  acc := p2Acc o h
  eff := fun e => .ok (halfEff o h e)
  els := fun _ => []

/-- The destination code of a half in a record (R349). -/
def p2Dest (o : P2Op) (h : P2H) : Code := if p2Writes o then p2Code h.d else 0xF0

/-- A P2 word: both halves read, then both take effect (R30). -/
def State.p2Word (s : State) (o : P2Op) (w : P2W) : Out :=
  s.asGroup fun a => s.issueValue a [p2Dest o w.hi, p2Dest w.lop w.lo] [halfMicro o w.hi, halfMicro w.lop w.lo]

def execP2Iadd (w : P2W) (s : State) : Out := s.p2Word .iadd w
def execP2Isub (w : P2W) (s : State) : Out := s.p2Word .isub w
def execP2And (w : P2W) (s : State) : Out := s.p2Word .and w
def execP2Or (w : P2W) (s : State) : Out := s.p2Word .or w
def execP2Xor (w : P2W) (s : State) : Out := s.p2Word .xor w
def execP2Shl (w : P2W) (s : State) : Out := s.p2Word .shl w
def execP2Shr (w : P2W) (s : State) : Out := s.p2Word .shr w
def execP2Sar (w : P2W) (s : State) : Out := s.p2Word .sar w
def execP2Mov (w : P2W) (s : State) : Out := s.p2Word .mov w
def execP2Movi (w : P2W) (s : State) : Out := s.p2Word .movi w
def execP2Iaddi (w : P2W) (s : State) : Out := s.p2Word .iaddi w
def execP2Imin (w : P2W) (s : State) : Out := s.p2Word .imin w
def execP2Imax (w : P2W) (s : State) : Out := s.p2Word .imax w
def execP2Fadd (w : P2W) (s : State) : Out := s.p2Word .fadd w
def execP2Fsub (w : P2W) (s : State) : Out := s.p2Word .fsub w
def execP2Fmul (w : P2W) (s : State) : Out := s.p2Word .fmul w
def execP2Fmin (w : P2W) (s : State) : Out := s.p2Word .fmin w
def execP2Fmax (w : P2W) (s : State) : Out := s.p2Word .fmax w
def execIcmpeq (w : P2W) (s : State) : Out := s.p2Word .icmpeq w
def execIcmplt (w : P2W) (s : State) : Out := s.p2Word .icmplt w
def execFcmplt (w : P2W) (s : State) : Out := s.p2Word .fcmplt w
def execP2Nop (w : P2W) (s : State) : Out := s.p2Word .nop w

end Sys2Proof.Machine
end

