-- ==== Sys2Proof/Machine/Direction.lean ====
section
/-! DEFINITION. The direction instructions G4 but for their memory forms: the renormaliser and the operations on unit vectors
with a logarithmic norm (spec/07_direction_file.md R170-R183). -/

namespace Sys2Proof.Machine

/-- A direction as it is read: stored component codes, and the norm code (R170, R172). -/
structure Dirn where
  stored : List Int
  norm : BitVec 16
  deriving DecidableEq, Repr

/-- A direction of `w` registers from the words of a direction source. -/
def Dirn.ofWords (w : Nat) (ws : List Word32) : Dirn where
  stored := (List.range (16 * w)).map fun j => ((ws.getD (j / 2) 0).extractLsb' (16 * (j % 2)) 16).toInt
  norm := (ws.getD (8 * w) 0).setWidth 16

def Dirn.zero (d : Dirn) : Bool := decide (d.norm = 0x8000)
def Dirn.inv (d : Dirn) : Bool := decide (d.norm = 0x7FFF)

/-- The component codes as they read: 0 under a special norm code (R171). -/
def Dirn.codes (d : Dirn) : List Int := if d.zero || d.inv then d.stored.map fun _ => 0 else d.stored

/-- The component values k / 2^14. -/
def Dirn.vals (d : Dirn) : List Dyad := d.codes.map fun k => { m := k, e := -14 }

/-- Component codes as words. -/
def codesWords (ks : List Int) : List Word32 :=
  (List.range (ks.length / 2)).map fun i => BitVec.ofInt 16 (ks.getD (2 * i + 1) 0) ++ BitVec.ofInt 16 (ks.getD (2 * i) 0)

/-- What a direction instruction writes. -/
structure DirRes where
  codes : List Int
  norm : BitVec 16
  range : Bool
  deriving DecidableEq, Repr

/-- ZeroCode and InvalidCode of `n` components, with whether DIRRANGE is set (R174). -/
def zeroDir (n : Nat) : DirRes := { codes := List.replicate n 0, norm := 0x8000, range := false }
def invalidDir (n : Nat) (range : Bool) : DirRes := { codes := List.replicate n 0, norm := 0x7FFF, range := range }

/-- A direction with norm code `N`, or the code of a norm outside the range (R174, R182). -/
def rangedDir (ks : List Int) (N : Int) : DirRes :=
  if N > 32766 then invalidDir ks.length true
  else if N < -32767 then zeroDir ks.length
  else { codes := ks, norm := BitVec.ofInt 16 N, range := false }

/-- Sum of the squares of component codes. -/
def squares (ks : List Int) : Int := ks.foldl (fun s k => s + k * k) 0

/-- Index of the component with the largest magnitude, the lowest one on ties. -/
def largest (ks : List Int) : Nat :=
  ((List.range ks.length).foldl (fun (b : Nat × Nat) i =>
    if (ks.getD i 0).natAbs > b.2 then (i, (ks.getD i 0).natAbs) else b) (0, 0)).1

/-- The adjustment loops of the renormaliser; they end within 4096 rounds (R174: the loops end inside the band). -/
def adjust : Nat → List Int → List Int
  | 0, ks => ks
  | fuel + 1, ks =>
    let T := squares ks
    let j := largest ks
    let sg := if ks.getD j 0 < 0 then -1 else if ks.getD j 0 = 0 then 0 else 1
    if T > 2 ^ 28 + 2 ^ 17 then adjust fuel (modAt ks j (· - sg))
    else if T < 2 ^ 28 - 2 ^ 17 then adjust fuel (modAt ks j (· + sg))
    else ks

/-- The renormaliser (R174), of the vector u_i = us_i / den and the base norm code. -/
def renorm (us : List Dyad) (den : Nat) (nb : Int) : DirRes :=
  let S := (Dyad.sum (us.map fun u => u.mul u)).frac
  if S.1 = 0 then zeroDir us.length
  else
    let sd := S.2 * den * den
    let r := sqrtFrac 40 sd S.1
    let f0 := shiftFrac r.1 r.2.1 r.2.2
    let f := roundSig .rn false 24 f0.1 f0.2
    let ks := us.map fun u =>
      let x := (u.mul { m := f.1, e := f.2 + 14 }).frac
      let k := quot .rn false x.1 (x.2 * den)
      if u.m < 0 then -(k : Int) else k
    rangedDir (adjust 4096 ks) (nb + nearLog2 128 S.1 sd)

/-- Align(Δ): 2^(−Δ/256) rounded to 24 significant bits. -/
def align (delta : Int) : Dyad :=
  if delta = 0 then .ofInt 1
  else
    let x := scale256 (.ofInt 1) (-delta)
    let r := roundSig .rn false 24 x.1 x.2.1
    { m := r.1, e := r.2 + x.2.2 }

/-- DADD and DSUB (R180). -/
def dirAdd (sub : Bool) (a b : Dirn) : DirRes :=
  let n := a.stored.length
  if a.inv || b.inv then invalidDir n false
  else if a.zero && b.zero then zeroDir n
  else
    let na := a.norm.toInt
    let nb := b.norm.toInt
    let top := if a.zero then nb else if b.zero then na else max na nb
    let fa := if a.zero then Dyad.zero else align (top - na)
    let fb := if b.zero then Dyad.zero else align (top - nb)
    let fb := if sub then fb.neg else fb
    renorm ((a.vals.zip b.vals).map fun p => (p.1.mul fa).add (p.2.mul fb)) 1 top

/-- DMIX with the FP32 weight of C (R180). -/
def dirMix (a b : Dirn) (c : Word32) : DirRes :=
  let n := a.stored.length
  if a.inv || b.inv then invalidDir n false
  else
    match fp32.read c.toNat with
    | .fin s m e =>
      let t := (FVal.fin s m e).dyad
      let u := (Dyad.ofInt 1).sub t
      renorm ((a.vals.zip b.vals).map fun p => (u.mul p.1).add (t.mul p.2)) 1 (if a.zero then b.norm.toInt else a.norm.toInt)
    | _ => invalidDir n true

/-- Sum of products of component codes, in units of 2^-28. -/
def dirDot (a b : Dirn) : Int := (a.codes.zip b.codes).foldl (fun s p => s + p.1 * p.2) 0

/-- DPROJ (R180). -/
def dirProj (onto : Bool) (a b : Dirn) : DirRes :=
  if a.inv || b.inv then invalidDir a.stored.length false
  else
    let g := dirDot a b
    let q := dirDot b b
    if q = 0 then renorm (if onto then a.vals.map fun _ => .zero else a.vals) 1 a.norm.toInt
    else
      let us := (a.codes.zip b.codes).map fun p =>
        if onto then ({ m := g * p.2, e := -14 } : Dyad) else { m := q * p.1 - g * p.2, e := -14 }
      renorm us q.toNat a.norm.toInt

/-- DNRM (R180). -/
def dirNorm (a : Dirn) : DirRes :=
  if a.inv then invalidDir a.stored.length false else renorm a.vals 1 a.norm.toInt

/-- DFROM (R178). -/
def dirFrom (ws : List Word32) : DirRes :=
  let xs := ws.map fun x => fp32.read x.toNat
  if xs.all fun x => match x with | .fin .. => true | _ => false then renorm (xs.map FVal.dyad) 1 0
  else invalidDir ws.length true

/-- Component codes negated; −32,768 negates to 32,767 (R182, R183). -/
def negCodes (ks : List Int) : List Int := ks.map fun k => min (-k) 32767

/-- DSCL (R182). -/
def dirScale (log : Bool) (a : Dirn) (b : Word32) : DirRes :=
  let n := a.stored.length
  if a.inv then invalidDir n false
  else if log then
    if a.zero then zeroDir n else rangedDir a.stored (a.norm.toInt + (b.setWidth 16 : BitVec 16).toInt)
  else
    match fp32.read b.toNat with
    | .fin s m e =>
      if m = 0 ∨ a.zero then zeroDir n
      else
        let f := (Dyad.mk m e).frac
        rangedDir (if s then negCodes a.stored else a.stored) (a.norm.toInt + nearLog2 256 f.1 f.2)
    | _ => invalidDir n true

/-- A value scaled by 2^(n/256) and rounded once to FP32; zero gives +0 (R179, R181). -/
def scaledFp32 (v : Dyad) (n : Int) : Word32 :=
  if v.m = 0 then 0
  else
    let x := scale256 { v with m := v.m.natAbs } n
    BitVec.ofNat 32 (fp32.round .rn false (decide (v.m < 0)) x.1 x.2.1 x.2.2)

/-- DTO (R179). -/
def dirTo (unit norm : Bool) (a : Dirn) : List Word32 :=
  if norm then [a.norm.signExtend 32]
  else a.vals.map fun v =>
    if a.inv then BitVec.ofNat 32 fp32.nan
    else if unit then BitVec.ofNat 32 (fp32.roundDyad .rn false false v)
    else scaledFp32 v a.norm.toInt

/-- DCOS, with .clamp (R181). -/
def dirCos (clamp : Bool) (a b : Dirn) : Word32 :=
  if a.inv || b.inv then BitVec.ofNat 32 fp32.nan
  else
    let y : Word32 := BitVec.ofNat 32 (fp32.roundDyad .rn false false { m := dirDot a b, e := -28 })
    if clamp && decide (y.toNat % 2 ^ 31 > 0x3F800000) then (y &&& 0x80000000) ||| 0x3F800000 else y

/-- DDOT (R181). -/
def dirDotVal (a b : Dirn) : Word32 :=
  if a.inv || b.inv then BitVec.ofNat 32 fp32.nan
  else scaledFp32 { m := dirDot a b, e := -28 } (a.norm.toInt + b.norm.toInt)

/-! ### The instructions -/

/-- Registers of the width code (R177). -/
def dirW (md : BitVec 8) : Nat := 2 ^ mdField md 1 0

/-- The direction that the `i`-th read field of an instruction holds. -/
def Env.dirn (e : Env) (w : F3) (i : Nat) : Dirn := Dirn.ofWords (dirW w.md) (e.val i)

/-- The effects of a result of the direction pipe: DIRRANGE, then D, at once or when the result arrives (R175, R176). -/
def DirRes.effs (r : DirRes) (long : Bool) : List Eff :=
  (if r.range then [.dirRange] else []) ++ [if long then .dirLong (codesWords r.codes) r.norm else .dir (codesWords r.codes) r.norm]

/-- A direction instruction with a direction result. -/
def State.dirOp (s : State) (op : Nat) (w : F3) (long : Bool) (f : Env → DirRes) : Out :=
  s.f3Effect op w fun e => .ok ((f e).effs long)

def execDfrom (w : F3) (s : State) : Out := s.dirOp 0x100 w true fun e => dirFrom (e.val 0)
def execDto (w : F3) (s : State) : Out :=
  s.f3Effect 0x101 w fun e => .ok [.write (dirTo (w.md.getLsbD 2) (w.md.getLsbD 3) (e.dirn w 0))]
def execDadd (w : F3) (s : State) : Out := s.dirOp 0x102 w true fun e => dirAdd false (e.dirn w 0) (e.dirn w 1)
def execDsub (w : F3) (s : State) : Out := s.dirOp 0x103 w true fun e => dirAdd true (e.dirn w 0) (e.dirn w 1)
def execDmix (w : F3) (s : State) : Out :=
  s.dirOp 0x104 w true fun e => dirMix (e.dirn w 0) (e.dirn w 1) (lo32 (e.val 2))
def execDcos (w : F3) (s : State) : Out :=
  s.f3Effect 0x105 w fun e => .ok [.write [dirCos (w.md.getLsbD 2) (e.dirn w 0) (e.dirn w 1)]]
def execDdot (w : F3) (s : State) : Out :=
  s.f3Effect 0x106 w fun e => .ok [.write [dirDotVal (e.dirn w 0) (e.dirn w 1)]]
def execDscl (w : F3) (s : State) : Out :=
  s.dirOp 0x107 w false fun e => dirScale (w.md.getLsbD 2) (e.dirn w 0) (lo32 (e.val 1))
def execDnrm (w : F3) (s : State) : Out := s.dirOp 0x108 w true fun e => dirNorm (e.dirn w 0)
/-- DSETN (R183): the norm entry alone. -/
def execDsetn (w : F3) (s : State) : Out :=
  s.f3Effect 0x109 w fun e => .ok [.norm ((lo32 (e.val 0)).setWidth 16)]
def execDproj (w : F3) (s : State) : Out :=
  s.dirOp 0x10A w true fun e => dirProj (w.md.getLsbD 2) (e.dirn w 0) (e.dirn w 1)
/-- DMOV (R183): the stored components, negated with .neg, and the norm entry. -/
def execDmov (w : F3) (s : State) : Out :=
  s.f3Effect 0x10B w fun e =>
    let a := e.dirn w 0
    .ok [.dir (codesWords (if w.md.getLsbD 2 then negCodes a.stored else a.stored)) a.norm]

end Sys2Proof.Machine
end

