-- ==== Sys2Proof/Machine/Access.lean ====
section
/-! DEFINITION. The memory instructions of threads: global loads and stores, prefetch, coordinate access, scratchpads and
saddlebags, direction images, operand slots and accumulators (spec/09_objects_and_translation.md R222-R227;
spec/08_saddlebags_and_core_array.md R190, R197; spec/07_direction_file.md R184-R186; spec/12_hitch_matrix.md R275, R285). -/

namespace Sys2Proof.Machine

/-! ### The thread as a party -/

/-- The translation context of a team (R206, R289). -/
def Team.ctx (t : Team) : Ctx where
  asid := t.asid
  ortBase := t.ortBase
  ortSize := t.ortSize
  mode := t.mode
  region := t.region
  reloc := t.relocLimit

/-- The party that a thread of a team is to memory (R209, R215, R344). -/
def Team.agent (t : Team) : Agent where
  tlb := if t.kind = .rein then .rein (hitchOf t.core) else .core t.core
  die := dieOf t.core
  ctx := t.ctx
  user := decide (t.mode = .u ∧ t.kind = .vector)
  engine := false
  bare := decide (t.kind = .scalar ∧ t.ortSize = 0)

/-- The core whose L1 a team uses; a rein core has none (log 20). -/
def Team.l1 (t : Team) : Option Nat := if t.kind = .rein then none else some t.core

/-- The thread on a lane by its block and tid, or by its team (State.lean). -/
def Team.owner (t : Team) (key lane : Nat) : Nat × Nat :=
  if t.kind = .vector then (t.block, match t.threads[lane]? with | some th => th.tid | none => 0) else (0, key)

/-- Whether an acquire of a lane's thread has not been granted: a consumer's RACQ, or a QPOP (R202, R322). -/
def Team.acqPending (t : Team) (lane : Nat) : Bool :=
  t.pend.any fun p => decide (p.lane = lane) && (match p.wait with | .ring _ _ prod => !prod | .relay .. | .writeback .. => true | _ => false)

/-- Whether an access of this thread waits: for its acquire that has not been granted (R247), for its held acquiring atomic, or for
its held write to the line of the access (R219). -/
def State.heldBy (s : State) (a : Act) (lane : Nat) (va : Word64) (x : Xl) : Bool :=
  a.team.acqPending lane || s.held.any fun h => decide (h.engine = none ∧ !h.dev ∧ h.owner = a.team.owner a.key lane)
    && (h.acq || decide (h.pa / 128 = x.pa / 128) || decide (h.asid = a.team.asid ∧ h.va.toNat / 128 = va.toNat / 128))

/-- Whether an acquire of a team's thread has not performed. -/
def State.acquiring (s : State) (key : Nat) (t : Team) (lane : Nat) : Bool :=
  t.acqPending lane || s.held.any fun h => h.acq && decide (h.engine = none ∧ !h.dev ∧ h.owner = t.owner key lane)

/-- Whether an acquire of this thread has not performed: its later accesses wait (R247). -/
def State.heldAcq (s : State) (a : Act) (lane : Nat) : Bool := s.acquiring a.key a.team lane

/-- Whether any write or acquire of this thread has not performed: a release waits for it (R247). -/
def State.heldAny (s : State) (a : Act) (lane : Nat) : Bool :=
  a.team.acqPending lane || s.held.any fun h => decide (h.engine = none ∧ !h.dev ∧ h.owner = a.team.owner a.key lane)

/-- Whether a block's accesses take the policy DEGRADE (R253); a party without a block takes TRAP (log 21). -/
def State.degrades (s : State) (blk : Nat) : Bool := match tget s.blocks blk with | some b => b.policy | none => false

/-- The index and destination of the issuing group's instruction, as w8 of a record holds them (R349). -/
def Act.w8 (a : Act) (dest : Code) : Word32 := BitVec.ofNat 32 (a.grp.idx % 32 + dest.toNat * 2 ^ 8)

/-- A write of a thread held at a moving granule. -/
def State.hold (s : State) (a : Act) (lane : Nat) (va : Word64) (x : Xl) (dest : Code) (h : Held → Held) : State :=
  let base : Held :=
    { id := s.nextId, asid := a.team.asid, ortBase := a.team.ortBase, ortSize := a.team.ortSize, va := va, pa := x.pa
      entryAt := x.entryAt, op := .exch, plain := true, bytes := [], width := 0, signed := false, data := 0, cmp := 0, dev := false
      key := a.key, lane := lane, engine := none, dest := .none, start := a.grp.start, word := a.word
      w8 := a.w8 dest, gran := x.gran, since := s.clock, limit := a.team.relocLimit
      keySlot := x.key, live := true, acq := false, scope := 0, order := 0, hitch := hitchOf a.team.core, degrade := s.degrades a.team.block
      coord := none, owner := a.team.owner a.key lane, launch := s.launchOf a.team
      mode := a.team.mode, vector := decide (a.team.kind = .vector), byEngine := false, tab := s.tabFor (dieOf a.team.core) a.team.block }
  { s with held := s.held ++ [h base], nextId := s.nextId + 1 }

/-- The task tag of a lane's thread. -/
def Team.tagOf (t : Team) (lane : Nat) : BitVec 16 := match t.threads[lane]? with | some th => th.taskTag | none => 0

/-- The fault of a lane with its address. -/
def xFault (lane : Nat) (f : XFault) (va : Word64) : LaneFault := laneFault lane f.cause f.w9 va

/-! ### Values of accesses (R26, R190) -/

def imOff (imm : Word32) : Word64 := (imm.extractLsb' 8 24).signExtend 64
def imSize (imm : Word32) : Nat := 2 ^ (imm.toNat % 8)
def imPol (imm : Word32) : Nat := imm.toNat / 16 % 4
def imSx (imm : Word32) : Bool := imm.getLsbD 3

/-- The registers of a loaded value, with sign or zero extension. -/
def loadWords (n : Nat) (sx : Bool) (bs : List Byte) : List Word32 :=
  if n < 4 then
    let x := BitVec.ofNat 32 (ofBytes bs)
    [if sx then (if n = 1 then (x.setWidth 8).signExtend 32 else (x.setWidth 16).signExtend 32) else x]
  else bytesWords (n / 4) bs

/-- The low `n` bytes of a data source. -/
def storeBytes (n : Nat) (ws : List Word32) : List Byte := (wordsBytes ws).take n

/-- The operands of a lane by index, and its destination. -/
def LaneIn.val (i : LaneIn) (k : Nat) : List Word32 := i.vals.getD k []
def LaneIn.dest (i : LaneIn) : Loc × Nat := (i.dst.getLast?).getD (.zero, 0)

/-- Issues a lane's loaded words to its destination (R40, R124). -/
def State.loadTo (s : State) (a : Act) (i : LaneIn) (lead : Bool) (ws : List Word32) : State :=
  (s.commitLane a.key i).pendDst a.key i.lane lead i.dest.1 i.dest.2 ws .ready

/-! ### LD and ST (R222, R223) -/

/-- The effective address of a global access of an X word. -/
def xAddr (w : XW) (i : LaneIn) : Word64 := lo64 (i.val 0) + imOff w.imm

/-- Reads `n` bytes at an address for a lane. -/
def State.readLane (s : State) (a : Act) (va : Word64) (n al pol : Nat) : State × Except XFault (List Byte) :=
  match s.translate a.team.agent va n al .load with
  | (s, .error f) => (s, .error f)
  | (s, .ok x) => s.coreRead a.team.l1 (dieOf a.team.core) x n pol

/-- Whether an access of a lane waits behind a held write of its thread. -/
def State.waitsHeld (s : State) (a : Act) (lane : Nat) (va : Word64) (n al : Nat) (u : Use) : Bool :=
  a.team.acqPending lane || (!s.held.isEmpty && match (s.translate a.team.agent va n al u).2 with
    | .ok x => s.heldBy a lane va x
    | .error _ => false)

/-- Writes bytes at a translated location for a lane: held when the granule is moving. -/
def State.writeLane (s : State) (a : Act) (lane : Nat) (va : Word64) (x : Xl) (bs : List Byte) (pol : Nat) :
    State × Option XFault :=
  match s.busFault (dieOf a.team.core) x bs.length true with
  | (s, some f) => (s, some f)
  | (s, none) =>
    if x.moving then (s.hold a lane va x 0xF0 fun h => { h with bytes := bs, width := bs.length }, none)
    else s.coreWrite a.team.l1 a.key (a.team.tagOf lane) (dieOf a.team.core) x bs pol

/-- The line of an HBM location in the core of a team written back and invalidated, before an access of the team that performs at its
home (R243, R245). -/
def State.evictFor (s : State) (t : Team) (x : Xl) : State :=
  match t.l1, busOf x.pa with
  | some c, .hbm _ => s.evictLine c (x.pa / 128)
  | _, _ => s

def execLd (w : XW) (s : State) : Out :=
  s.asGroup fun a =>
    let n := imSize w.imm
    s.issueLanes a (xDest 8 w) (fun th => th.guard w.gs w.gp) (xAcc 8 w) false fun i lead s =>
      let va := xAddr w i
      if s.waitsHeld a i.lane va n n .load then .wait s
      else match s.readLane a va n n (imPol w.imm) with
        | (s, .error f) => .fault s (xFault i.lane f va)
        | (s, .ok bs) => .done (s.loadTo a i lead (loadWords n (imSx w.imm) bs))

/-- LD.co (R224): every lane's access is checked before any lane's destination is written. -/
def execLdCo (w : XW) (s : State) : Out :=
  s.asGroup fun a =>
    let n := imSize w.imm
    s.issueAll a (xDest 8 w) (fun th => th.guard w.gs w.gp) (xAcc 8 w)
      (fun i => s.waitsHeld a i.lane (xAddr w i) n n .load)
      (fun i s =>
        let va := xAddr w i
        match s.readLane a va n n (imPol w.imm) with
        | (s, .error f) => (s, some (xFault i.lane f va), va)
        | (s, .ok _) => (s, none, va))
      fun i lead s =>
        match s.readLane a (xAddr w i) n n (imPol w.imm) with
        | (s, .ok bs) => s.loadTo a i lead (loadWords n (imSx w.imm) bs)
        | (s, .error _) => s

def execSt (w : XW) (s : State) : Out :=
  s.asGroup fun a =>
    let n := imSize w.imm
    s.issueLanes a 0xF0 (fun th => th.guard w.gs w.gp) (xAcc 9 w) false fun i _ s =>
      let va := xAddr w i
      if s.waitsHeld a i.lane va n n .store then .wait s
      else match s.translate a.team.agent va n n .store with
        | (s, .error f) => .fault s (xFault i.lane f va)
        | (s, .ok x) =>
          match s.writeLane a i.lane va x (storeBytes n (i.val 1)) (imPol w.imm) with
          | (s, some f) => .fault s (xFault i.lane f va)
          | (s, none) => .done (s.commitLane a.key i)

/-- PREF (R225): fills L2, and with policies 0 and 2 the L1; a prefetch that would fault does nothing. A line that policy 1 brings into
L2 keeps its partition, class and pin and is the least recently used of its set; one that stands there already moves to that place too,
where the rule speaks of a fill alone (DESIGN CHOICE, log 76). -/
def execPref (w : XW) (s : State) : Out :=
  s.asGroup fun a =>
    s.issueLanes a 0xF0 (fun th => th.guard w.gs w.gp) (xAcc 17 w) false fun i _ s =>
      let s1 :=
        match s.translate a.team.agent (xAddr w i) 1 1 .load with
        | (s1, .ok x) =>
          match busOf x.pa with
          | .hbm _ =>
            if (s1.busFault (dieOf a.team.core) x 1 false).2.isSome || (tget s1.poison (x.pa / 128)).isSome then s
            else
              match a.team.l1, imPol w.imm with
              | _, 1 => (s1.touchL2 x.pa x.part x.cls x.key).leastL2 x.pa
              | some c, 0 | some c, 2 => s1.fillLine c (x.pa / 128) x.key x.part x.cls (imPol w.imm)
              | _, _ => s1.touchL2 x.pa x.part x.cls x.key
          | _ => s
        | (_, .error _) => s
      .done (s1.commitLane a.key i)

/-! ### Scratchpads and saddlebags (R190, R191, R195, R197) -/

/-- The effective offset of a local access. -/
def xLocal (w : XW) (i : LaneIn) : Word32 := lo32 (i.val 0) + (imOff w.imm).setWidth 32

/-- The fault of a local access at `e` of `n` bytes under a limit check. -/
def localFault (lane : Nat) (e : Word32) (n : Nat) (bound : Bool) (c : Cause) : Option LaneFault :=
  if !bound then some (laneFault lane c c.openW9 (e.setWidth 64))
  else if e.toNat % n ≠ 0 then some (laneFault lane .misaligned Cause.misaligned.openW9 (e.setWidth 64))
  else none

/-- A scratchpad access of a lane: its block and offset, or its fault. -/
def State.scratchAt (s : State) (t : Team) (lane : Nat) (e : Word32) (n : Nat) : Except LaneFault (Nat × Nat) :=
  let at' := s.window t.block e.toNat n
  match localFault lane e n at'.isSome .scratchBound, at' with
  | some f, _ => .error f
  | none, some p => .ok p
  | none, none => .error (laneFault lane .scratchBound Cause.scratchBound.openW9 (e.setWidth 64))

def execLds (w : XW) (s : State) : Out :=
  s.asGroup fun a =>
    let n := imSize w.imm
    s.issueLanes a (xDest 10 w) (fun th => th.guard w.gs w.gp) (xAcc 10 w) false fun i lead s =>
      if s.heldAcq a i.lane then .wait s
      else match s.scratchAt a.team i.lane (xLocal w i) n with
      | .error f => .fault s f
      | .ok (b, o) =>
        let r := s.scratchRead b o n
        .done (r.1.loadTo a i lead (loadWords n (imSx w.imm) r.2))

def execSts (w : XW) (s : State) : Out :=
  s.asGroup fun a =>
    let n := imSize w.imm
    s.issueLanes a 0xF0 (fun th => th.guard w.gs w.gp) (xAcc 11 w) false fun i _ s =>
      if s.heldAcq a i.lane then .wait s
      else match s.scratchAt a.team i.lane (xLocal w i) n with
      | .error f => .fault s f
      | .ok (b, o) => .done ((s.commitLane a.key i).scratchWrite b o (storeBytes n (i.val 1)))

/-- The saddlebag of a lane: its bytes and its allotment. -/
def Team.bagOf (t : Team) (lane : Nat) : Memory × Nat := match t.threads[lane]? with | some th => (th.bag, th.bagBytes) | none => ([], 0)

def execLdb (w : XW) (s : State) : Out :=
  s.asGroup fun a =>
    let n := imSize w.imm
    s.issueLanes a (xDest 12 w) (fun th => th.guard w.gs w.gp) (xAcc 12 w) false fun i lead s =>
      let e := xLocal w i
      let (bag, lim) := a.team.bagOf i.lane
      match localFault i.lane e n (decide (e.toNat + n ≤ lim)) .saddlebagBound with
      | some f => .fault s f
      | none => .done (s.loadTo a i lead (loadWords n (imSx w.imm) (readBytes bag e.toNat n)))

def execStb (w : XW) (s : State) : Out :=
  s.asGroup fun a =>
    let n := imSize w.imm
    s.issueLanes a 0xF0 (fun th => th.guard w.gs w.gp) (xAcc 13 w) false fun i _ s =>
      let e := xLocal w i
      match localFault i.lane e n (decide (e.toNat + n ≤ (a.team.bagOf i.lane).2)) .saddlebagBound with
      | some f => .fault s f
      | none =>
        .done ((s.commitLane a.key i).updTeam a.key fun t => t.updThread i.lane fun th =>
          { th with bag := writeBytes th.bag e.toNat (storeBytes n (i.val 1)) })

/-! ### Direction images (R184-R186) -/

/-- Translates the `k` words of an image that starts at an address, lowest first: the first word that fails gives the fault of the
image, which is reported at the image's start. The spec says neither which word nor which address (DESIGN CHOICE, log 30). -/
def State.xlWords (s : State) (ag : Agent) (va : Word64) (u : Use) : Nat → State × Except XFault (List Xl)
  | 0 => (s, .ok [])
  | k + 1 =>
    match s.xlWords ag va u k with
    | (s, .error f) => (s, .error f)
    | (s, .ok xs) =>
      match s.translate ag (va + BitVec.ofNat 64 (4 * k)) 4 4 u with
      | (s, .error f) => (s, .error f)
      | (s, .ok x) => (s, .ok (xs ++ [x]))

/-- Reads the words of an image. -/
def State.readWords (s : State) (a : Act) (pol : Nat) : List Xl → State × Except XFault (List Word32)
  | [] => (s, .ok [])
  | x :: xs =>
    match s.coreRead a.team.l1 (dieOf a.team.core) x 4 pol with
    | (s, .error f) => (s, .error f)
    | (s, .ok bs) =>
      match s.readWords a pol xs with
      | (s, .error f) => (s, .error f)
      | (s, .ok ws) => (s, .ok (BitVec.ofNat 32 (ofBytes bs) :: ws))

/-- Words of an image. -/
def imageWords (w : XW) : Nat := 8 * 2 ^ (w.imm.toNat % 4) + 1

/-- Whether an image access waits for a held write of its thread to a word of the image, each at its own address (R219). -/
def State.imageHeld (s : State) (a : Act) (lane : Nat) (va : Word64) (xs : List Xl) : Bool :=
  xs.zipIdx.any fun e => s.heldBy a lane (va + BitVec.ofNat 64 (4 * e.2)) e.1

/-- The first fault of the words of an image that a store of a die would reach; its latch and event stand as for a store (R390). -/
def State.imageFault (s : State) (die : Nat) : List Xl → State × Option XFault
  | [] => (s, none)
  | x :: xs =>
    match s.busFault die x 4 true with
    | (s, some f) => (s, some f)
    | (s, none) => s.imageFault die xs

def execDld (w : XW) (s : State) : Out :=
  s.asGroup fun a =>
    let k := imageWords w
    s.issueLanes a (xDest 14 w) (fun th => th.guard w.gs w.gp) (xAcc 14 w) false fun i lead s =>
      let va := xAddr w i
      match s.xlWords a.team.agent va .load k with
      | (s, .error f) => .fault s (xFault i.lane f va)
      | (s, .ok xs) =>
        if s.imageHeld a i.lane va xs then .wait s
        else match s.readWords a (imPol w.imm) xs with
          | (s, .error f) => .fault s (xFault i.lane f va)
          | (s, .ok ws) =>
            .done ((s.commitLane a.key i).applyEff a.key i.lane lead i.dest (.dirLong (ws.take (k - 1)) ((ws.getD (k - 1) 0).setWidth 16)))

def execDst (w : XW) (s : State) : Out :=
  s.asGroup fun a =>
    let k := imageWords w
    let wd := 2 ^ (w.imm.toNat % 4)
    s.issueLanes a 0xF0 (fun th => th.guard w.gs w.gp) (xAcc 15 w) false fun i _ s =>
      let va := xAddr w i
      let d := Dirn.ofWords wd (i.val 1)
      let ws := codesWords d.codes ++ [d.norm.setWidth 32]
      match s.xlWords a.team.agent va .store k with
      | (s, .error f) => .fault s (xFault i.lane f va)
      | (s, .ok xs) =>
        if s.imageHeld a i.lane va xs then .wait s
        else match s.imageFault (dieOf a.team.core) xs with
          | (s, some f) => .fault s (xFault i.lane f va)
          | (s, none) =>
            .done ((xs.zip ws).zipIdx.foldl (fun s e =>
              (s.writeLane a i.lane (va + BitVec.ofNat 64 (4 * e.2)) e.1.1 (toBytes 4 e.1.2.toNat) (imPol w.imm)).1) (s.commitLane a.key i))

/-! ### Operand slots and accumulators (R272, R273, R275, R285) -/

/-- Whether an operand slot of a hitch is claimed for a party of an address space. -/
def State.slotClaimed (s : State) (hitch slot : Nat) (asid : Word32) : Bool :=
  let h := s.hitch hitch
  h.fork.isSome && decide (h.asid = some asid) && h.runs.any fun r => !r.released && decide (r.first ≤ slot ∧ slot < r.first + r.n)

def execSlotst (w : XW) (s : State) : Out :=
  s.asGroup fun a =>
    let hitch := hitchOf a.team.core
    let kib (i : LaneIn) : Nat := ((lo32 (i.val 0)).toNat % 2048 + w.imm.toNat % 2048) % 2048
    s.issueAll a 0xF0 (fun th => th.guard w.gs w.gp) (xAcc 16 w) (fun i => s.heldAcq a i.lane)
      (fun i s =>
        if (lo32 (i.val 0)).toNat / 2048 ≠ 0 then (s, some (laneFault i.lane .matrixRange 1 0), 0)
        else if !s.slotClaimed hitch (kib i / 16) a.team.asid then
          (s, some (laneFault i.lane .slotNotClaimed (BitVec.ofNat 32 (kib i / 16)) 0), 0)
        else (s, none, 0))
      fun i _ s =>
        (s.commitLane a.key i).updHitch hitch fun h =>
          { h with mem := writeBytes h.mem (kib i * 1024 + i.lane * 16) (wordsBytes (i.val 1)) }

/-- An accumulator element of a hitch. -/
def Hitch.accAt (h : Hitch) (bank row col : Nat) : Word32 := (tget h.acc (bank * 65536 + row * 256 + col)).getD 0

def execAccld (w : XW) (s : State) : Out :=
  s.asGroup fun a =>
    let hitch := hitchOf a.team.core
    s.issueLanes a (xDest 18 w) (fun th => th.guard w.gs w.gp) (xAcc 18 w) false fun i lead s =>
      let x := (lo32 (i.val 0)).toNat
      if s.heldAcq a i.lane then .wait s
      else if x / 512 ≠ 0 then .fault s (laneFault i.lane .matrixRange 1 0)
      else if (s.hitch hitch).asid ≠ some a.team.asid then .fault s (laneFault i.lane .slotNotClaimed 0xFFFFFFFF 0)
      else
        let q := (x + w.imm.toNat % 512) % 512
        .done (s.loadTo a i lead ((List.range 4).map fun k => (s.hitch hitch).accAt (q / 256) (q % 256) (4 * i.lane + k)))

/-! ### LDC and STC (R226, R227) -/

/-- A run of elements that LDC or STC reaches. -/
structure CRun where
  x : Xl
  /-- first bit of the run in the byte at `x.pa`, bits and bytes of the run, and its virtual address -/
  bit : Nat
  bits : Nat
  bytes : Nat
  va : Word64
  /-- the coordinates with the elements of the run and the registers of its data -/
  coord : List Nat × Nat × Nat

/-- The virtual address of an element in the logical image (R213). -/
def Record.imageVa (r : Record) (h : Nat) (x : Nat → Nat) : Word64 :=
  let l := x 0 + x 1 * r.stride 1 + x 2 * r.stride 2 + x 3 * r.stride 3 + x 4 * r.stride 4
  BitVec.ofNat 64 (h * 2 ^ 40 + l * r.elemBits / 8 % 2 ^ 40)

/-- The place of a run of `n` elements at coordinates, as its granule and first bit in the frame, or its fault (R227). Where several
coordinates lie at or above their extents, w9 is the lowest of them (DESIGN CHOICE, log 76). -/
def Record.runAt (r : Record) (xs : List Nat) (n width : Nat) : Except XFault (Nat × Nat) :=
  let x (k : Nat) : Nat := xs.getD k 0
  if n * r.elemBits > 32 * width then .error { cause := .badOperandCode, w9 := 0 }
  else
    match [0, 1, 2, 3, 4].find? fun k => decide (x k ≥ r.ext k) with
    | some k => .error { cause := .outOfShape, w9 := BitVec.ofNat 32 k }
    | none =>
      if x 0 + n > r.ext 0 then .error { cause := .outOfShape, w9 := 0 }
      else if x 0 % n ≠ 0 ∨ n > 2 ^ r.tile 0 then .error { cause := .misaligned, w9 := 0 }
      else .ok (r.place x)

/-- The checks of R227 for a lane: its run and the number of registers of B that are read, its fault, or a wait for its coordinates. A
fault that comes before the coordinates are read has no first element: w10-w11 then hold the handle with offset 0 (DESIGN CHOICE,
log 76). -/
def State.coordRun (s : State) (a : Act) (th : Thread) (lane : Nat) (w : F3) (va : Word64) (u : Use) :
    State × Except LaneRes (CRun × Nat) :=
  let h := field va 63 40
  let hva : Word64 := BitVec.ofNat 64 (h * 2 ^ 40)
  let ag := a.team.agent
  let fault (s : State) (c : Cause) (w9 : Nat) (ad : Word64) : State × Except LaneRes (CRun × Nat) :=
    (s, .error (.fault s (laneFault lane c (BitVec.ofNat 32 w9) ad)))
  match s.findRecord ag h with
  | (s, .error f) => fault s f.cause f.w9.toNat hva
  | (s, .ok r) =>
    match r.refuses ag u with
    | some w9 => fault s .permission w9.toNat hva
    | none =>
      let n := 2 ^ mdField w.md 2 0
      let width := runRegs w.md
      if r.kind ≠ 1 then fault s .badHandle 0 hva
      else if w.b.toNat + r.rank > th.v.length then fault s .regAllot w.b.toNat hva
      else if !(List.range r.rank).all (fun k => (th.vreg (w.b.toNat + k)).ready) then
        if w.kw.getLsbD 1 then (s, .error (.wait s)) else fault s .emptySource w.b.toNat 0
      else
        let xs := (List.range r.rank).map fun k => (th.vreg (w.b.toNat + k)).read.toNat
        let ad := r.imageVa h fun k => xs.getD k 0
        match r.runAt xs n width with
        | .error f => fault s f.cause f.w9.toNat ad
        | .ok (gran, bit) =>
          match s.findGranule ag h r gran (bit / 8) with
          | (s, .error f) => fault s f.cause f.w9.toNat ad
          | (s, .ok xl) =>
            let bits := n * r.elemBits
            (s, .ok ({ x := xl, bit := bit % 8, bits := bits, bytes := (bit % 8 + bits + 7) / 8, va := ad, coord := (xs, n, width) }, r.rank))

/-- The kills of the coordinate registers, when B carries last-use. -/
def coordKills (w : F3) (rank : Nat) : List (Loc × Nat) := if w.lu.getLsbD 1 then [(.v w.b.toNat, rank)] else []

/-- The policy of an LDC or STC. -/
def cPol (w : F3) : Nat := mdField w.md 6 5

/-- A thread of the issuing team as it stands now. -/
def Act.thread (a : Act) (lane : Nat) : Thread :=
  (a.team.threads[lane]?).getD { stat := .exited, pc := 0, awaits := [], readySince := 0, v := [], t := [], ix := [], p := 0, mt := 0, d := []
                                 bag := [], bagBytes := 0, bsp := 0, taskTag := 0, idem := false, sect := 0, tid := 0, resume := 0 }

/-- The operands of a lane of STC: where a register of C is empty and one of the coordinates in B too, the fault names B (R125). -/
def State.coordOps (s : State) (a : Act) (w : F3) (acc : List Acc) (u : Use) (l : LaneOps) : LaneOps :=
  match l.got.getD 0 .skip with
  | .fault f =>
    if f.cause = Cause.emptySource.code ∧ f.w9 = w.c.setWidth 32 then
      match s.gather a l.lane true (acc.take 1) with
      | .ok i =>
        match (s.coordRun a (a.thread l.lane) l.lane w (lo64 (i.val 0)) u).2 with
        | .error (.fault _ g) => if g.cause = Cause.emptySource.code then { l with got := [.fault g] } else l
        | _ => l
      | _ => l
    else l
  | _ => l

/-- The hold of a group whose LDC or STC finds an empty coordinate register with keep-wait: no lane performs until every coordinate of
every lane is full, and lanes with an empty source of another field trap (R125, R227). -/
def State.coordHold (s : State) (a : Act) (w : F3) (dest : Code) (acc : List Acc) (u : Use) : Option State :=
  let ls := (s.gatherOp a (fun th => th.guard w.gs w.gp) acc).map (s.coordOps a w acc u)
  let waits (l : LaneOps) : Bool :=
    match l.got.getD 0 .skip with
    | .ok i => (match (s.coordRun a (a.thread i.lane) i.lane w (lo64 (i.val 0)) u).2 with | .error (.wait _) => true | _ => false)
    | _ => false
  if ls.any waits then
    some ((s.faultLanes a dest (ls.filterMap fun l => l.got.findSome? Got.fault?)).holdAt a
      (match a.grp.hold with | .wait d => .wait d | _ => .stall))
  else none

def execLdc (w : F3) (s : State) : Out :=
  s.asGroup fun a =>
    (s.coordHold a w (f3Dest 0x300 w) (f3Acc 0x300 w) .load).getD <| s.issueLanes a (f3Dest 0x300 w) (fun th => th.guard w.gs w.gp) (f3Acc 0x300 w) false fun i lead s =>
      match s.coordRun a (a.thread i.lane) i.lane w (lo64 (i.val 0)) .load with
      | (_, .error r) => r
      | (s, .ok (c, rank)) =>
        if s.heldBy a i.lane c.va c.x then .wait s
        else match s.coreRead a.team.l1 (dieOf a.team.core) c.x c.bytes (cPol w) with
          | (s, .error f) => .fault s (xFault i.lane f c.va)
          | (s, .ok bs) =>
            let x := ofBytes bs / 2 ^ c.bit % 2 ^ c.bits
            .done (s.loadTo a { i with kills := i.kills ++ coordKills w rank } lead
              ((List.range (runRegs w.md)).map fun k => BitVec.ofNat 32 (x / 2 ^ (32 * k))))

/-- Bits `bit` to `bit + n - 1` of some bytes replaced. -/
def spliceBits (old : List Byte) (bit n x : Nat) : List Byte :=
  let o := ofBytes old
  toBytes old.length (o - o / 2 ^ bit % 2 ^ n * 2 ^ bit + x % 2 ^ n * 2 ^ bit)

/-- Writes `n` bits at bit `bit` of one byte at its home, and leaves the others of the byte: no consumer of the byte (R227, R240). -/
def State.mergeHome (s : State) (die : Nat) (x : Xl) (bit n v : Nat) : State × Option XFault :=
  s.busWrite die x (spliceBits (s.homeRead x.pa 1 x.key) bit n v)

/-- Writes bits of one byte for a lane: in the L1 that holds the byte, else at its home (R222, R227). -/
def State.storeBits (s : State) (a : Act) (lane : Nat) (x : Xl) (bit n v pol : Nat) : State × Option XFault :=
  match a.team.l1.filter fun c => decide (pol ≠ 3) && (s.core c).l1Holds x.pa 1 x.key with
  | some c => s.coreWrite (some c) a.key (a.team.tagOf lane) (dieOf a.team.core) x (spliceBits (s.l1Read c x 1 pol).2 bit n v) pol
  | none => (s.evictFor a.team x).mergeHome (dieOf a.team.core) x bit n v

/-- Writes the run of an STC for a lane from the bytes of its data: held with its coordinates when the granule is moving (R219, R227). -/
def State.writeRun (s : State) (a : Act) (lane : Nat) (c : CRun) (data : List Byte) (pol : Nat) : State × Option XFault :=
  match s.busFault (dieOf a.team.core) c.x c.bytes true with
  | (s, some f) => (s, some f)
  | (s, none) =>
    if c.x.moving then
      (s.hold a lane c.va c.x 0xF0 fun h => { h with bytes := data, width := c.bytes, coord := some c.coord }, none)
    else if c.bits % 8 = 0 then
      s.coreWrite a.team.l1 a.key (a.team.tagOf lane) (dieOf a.team.core) c.x (data.take (c.bits / 8)) pol
    else s.storeBits a lane c.x c.bit c.bits (ofBytes data) pol

def execStc (w : F3) (s : State) : Out :=
  s.asGroup fun a =>
    (s.coordHold a w 0xF0 (f3Acc 0x301 w) .store).getD <| s.issueLanes a 0xF0 (fun th => th.guard w.gs w.gp) (f3Acc 0x301 w) false
      (fun i _ s =>
        match s.coordRun a (a.thread i.lane) i.lane w (lo64 (i.val 0)) .store with
        | (_, .error r) => r
        | (s, .ok (c, rank)) =>
          if s.heldBy a i.lane c.va c.x then .wait s
          else match s.writeRun a i.lane c (wordsBytes (i.val 1)) (cPol w) with
            | (s, some f) => .fault s (xFault i.lane f c.va)
            | (s, none) => .done (s.commitLane a.key { i with kills := i.kills ++ coordKills w rank }))
      (s.coordOps a w (f3Acc 0x301 w) .store)

end Sys2Proof.Machine
end

