-- ==== Sys2Proof/Machine/Atomics.lean ====
section
/-! DEFINITION. Atomics, AWAIT, reservations and fences (spec/11_atomic_units_and_ordering.md R242-R261), and writes held at
moving granules (spec/09_objects_and_translation.md R219). -/

namespace Sys2Proof.Machine

/-! ### The arithmetic (R254, R258) -/

/-- The value of `n` bytes of a word. -/
def atWidth (n : Nat) (x : Word64) : Nat := x.toNat % 2 ^ (8 * n)

/-- Whether one value of a location is below another. -/
def atomLt (n : Nat) (sgn : Bool) (x y : Word64) : Bool :=
  if sgn then decide (toSigned (8 * n) (atWidth n x) < toSigned (8 * n) (atWidth n y)) else decide (atWidth n x < atWidth n y)

/-- The new value at a location of `n` bytes; none when nothing is written. -/
def atomNew (op : AtomOp) (n : Nat) (sgn : Bool) (old b c : Word64) : Option Word64 :=
  match op with
  | .add | .addw => some (old + b)
  | .min => some (if atomLt n sgn b old then b else old)
  | .max => some (if atomLt n sgn old b then b else old)
  | .and => some (old &&& b)
  | .or => some (old ||| b)
  | .xor => some (old ^^^ b)
  | .exch => some b
  | .cas => if atWidth n old = atWidth n c then some b else none
  | .fadd => some ((foldElems fp32 (fp32.add .rn false) (low32 old) (low32 b)).setWidth 64)
  | .scnd => none

/-- Whether the new value of an AADDW reaches or crosses its threshold (R258). -/
def addwWakes (n : Nat) (sgn : Bool) (old new c : Word64) : Bool :=
  decide (atWidth n new = atWidth n c) || (atomLt n sgn old c && atomLt n sgn c new) || (atomLt n sgn new c && atomLt n sgn c old)

/-- Wakes the registrations whose location overlaps `n` bytes at `loc` (R258). -/
def State.wake (s : State) (scratch : Bool) (loc n : Nat) : State :=
  { s with watches := s.watches.map fun w =>
      if w.registered ∧ w.scratch = scratch ∧ w.loc < loc + n ∧ loc < w.loc + w.width then { w with woken := true } else w }

/-! ### Where an atomic executes (R243, R256) -/

/-- The scratchpad handle of the G8 instructions. -/
def scratchHandle : Nat := 0xFFFFFF

/-- The place of a G8 access: scratchpad bytes of a block, or a translated location with its effective scope. -/
inductive Spot where
  | scratch (blk off : Nat)
  | glob (x : Xl) (eff : Nat)
  deriving DecidableEq, Repr

/-- The fault of a lane at a G8 address. -/
def atomFault (lane : Nat) (f : XFault) (va : Word64) : Except LaneFault Spot := .error (laneFault lane f.cause f.w9 va)

/-- The place of a G8 access of `n` bytes, with the faults of R256 but the last; only a vector lane has a
scratchpad window (R268, R344). -/
def State.place (s : State) (t : Team) (lane : Nat) (va : Word64) (scope n : Nat) (u : Use) : State × Except LaneFault Spot :=
  let ag := t.agent
  let h := field va 63 40
  let fault (s : State) (c : Cause) (w9 : Nat) : State × Except LaneFault Spot := (s, .error (laneFault lane c (BitVec.ofNat 32 w9) va))
  if h = scratchHandle then
    if t.kind ≠ .vector then fault s .scratchBound Cause.scratchBound.openW9.toNat
    else if scope = 2 ∨ scope = 4 then fault s .scopeMismatch (scope + 2 ^ 31)
    else if va.toNat % n ≠ 0 then fault s .misaligned Cause.misaligned.openW9.toNat
    else if field va 39 32 ≠ 0 then fault s .scratchBound Cause.scratchBound.openW9.toNat
    else
      match s.window t.block (field va 31 0) n with
      | some (b, o) => (s, .ok (.scratch b o))
      | none => fault s .scratchBound Cause.scratchBound.openW9.toNat
  else if ag.bare then
    match s.translate ag va n n u with
    | (s, .ok x) => (s, .ok (.glob x (effScope x scope)))
    | (s, .error f) => (s, atomFault lane f va)
  else
    match s.findRecord ag h with
    | (s, .error f) => (s, atomFault lane f va)
    | (s, .ok r) =>
      if scope = 4 ∧ r.kind ≠ 5 then fault s .permission 0
      else
        match r.refuses ag u with
        | some w9 => fault s .permission w9.toNat
        | none =>
          match s.xlBytes ag h r (field va 39 0) n n with
          | (s, .ok x) => (s, .ok (.glob x (effScope x scope)))
          | (s, .error f) => (s, atomFault lane f va)

/-! ### The checks of an access at its place (R252, R253, R256) -/

/-- The place at which an access performs: under DEGRADE, with its acquire and release dropped, the home slice (R253). -/
def Spot.under (sp : Spot) (stands : Bool) : Spot :=
  match sp with | .glob x eff => .glob x (if stands then eff else max 3 eff) | .scratch .. => sp

/-- The last faults of a G8 access of a lane and its scope check, after its core's own line has been written back (R243, R252, R256): the
place at which it performs, and whether its acquire and release stand. An access that writes at a moving granule is held, and is checked
when it performs (R219). -/
def State.admitLane (s : State) (a : Act) (lane : Nat) (va : Word64) (sp : Spot) (n order : Nat) (read write : Bool) :
    State × Except LaneFault (Spot × Bool) :=
  match sp with
  | .scratch .. => (s, .ok (sp, true))
  | .glob x eff =>
    let held := write && x.moving
    match (s.evictFor a.team x).admitAt (s.degrades a.team.block) (hitchOf a.team.core) x n eff (if held then 0 else order) (read && !held)
        fun s => s.busFault (dieOf a.team.core) x n write with
    | (s, .error f) => (s, .error (xFault lane f va))
    | (s, .ok true) => (s, .ok (sp, true))
    | (s, .ok false) => (s.updTeam a.key fun t => { t with scopeMis := true }, .ok (sp.under false, false))

/-! ### Release and acquire (R247) -/

/-- The L1 action of a release of the issuing team on lines that `inRange` selects. -/
def State.releaseIn (s : State) (a : Act) (inRange : Nat → Bool) : State :=
  match a.team.l1 with | some c => s.releaseL1 c a.key inRange | none => s

/-- The L1 action of an acquire of the issuing team on lines that `inRange` selects. -/
def State.acquireIn (s : State) (a : Act) (inRange : Nat → Bool) : State :=
  match a.team.l1 with | some c => s.acquireL1 c inRange | none => s

/-- The actions of an access with an order at its place; scratchpad takes none. -/
def State.releaseAt (s : State) (a : Act) (sp : Spot) (on : Bool) : State :=
  match sp with | .glob .. => if on then s.releaseIn a fun _ => true else s | .scratch .. => s
def State.acquireAt (s : State) (a : Act) (sp : Spot) (on : Bool) : State :=
  match sp with | .glob .. => if on then s.acquireIn a fun _ => true else s | .scratch .. => s

def State.evictOwn (s : State) (a : Act) (x : Xl) : State := s.evictFor a.team x

/-- The mark of a fault signal on `n` bytes at a place (R310, R311). -/
def State.faultMark (s : State) (sp : Spot) (n : Nat) : Option (BitVec 8 × Nat × Word64) :=
  match sp with
  | .glob x _ => (s.faultSig.find? fun e => decide (x.pa ≤ e.1 ∧ e.1 < x.pa + n)).map (·.2)
  | .scratch .. => none

/-- The unit at which a place's registrations stand, and how many it takes: hitch atomic units, home slices, fabric ports and the
scratchpads of cores. -/
def State.unitOf (s : State) (hitch : Nat) (sp : Spot) : Nat × Nat :=
  match sp with
  | .scratch blk off =>
    match tget s.blocks blk with
    | some b => (3000 + b.cores.getD (off / (ceilDiv b.scratchKiB (max 1 b.cores.length) * 1024)) 0, 64)
    | none => (3000, 64)
  | .glob x eff =>
    if eff = 2 then (hitch, 256)
    else
      match busOf x.pa with
      | .cxl io _ | .remote io _ => (2000 + io, 1024)
      | _ => (homeUnit x.pa, 1024)

/-- The line of a global access comes to its executing unit; a hitch atomic unit is granted it (R244). -/
def State.claimSpot (s : State) (hitch : Nat) (sp : Spot) : State :=
  match sp with
  | .scratch .. => s
  | .glob x eff =>
    match busOf x.pa with
    | .hbm _ =>
      let u := s.unitOf hitch sp
      let s := s.claimLine (x.pa / 128) u.1 u.2
      if eff = 2 then s.updHitch hitch fun h => { h with granted := (h.granted ++ [x.pa / 128]).eraseDups } else s
    | _ => s

/-! ### Reading and changing a place -/

/-- One atomic read-modify-write of `n` bytes at a translated location, for a party of a die: the old value. It performs at the home of
the location, or with `home` false at the hitch atomic unit that holds its line (R243). -/
def State.rmw (s : State) (die : Nat) (x : Xl) (n : Nat) (op : AtomOp) (sgn : Bool) (b c : Word64) (home : Bool := true) :
    State × Except XFault Word64 :=
  match s.busFault die x n true with
  | (s, some f) => (s, .error f)
  | (s, none) =>
    match s.busRead die x n home with
    | (s, .error f) => (s, .error f)
    | (s, .ok bs) =>
      let old := BitVec.ofNat 64 (ofBytes bs)
      match atomNew op n sgn old b c with
      | none => (s, .ok old)
      | some v =>
        match s.busWrite die x (toBytes n v.toNat) home with
        | (s, some f) => (s, .error f)
        | (s, none) => (if op = .addw ∧ addwWakes n sgn old v c then s.wake false x.pa n else s, .ok old)

/-- One atomic read-modify-write at scratchpad banks. -/
def State.scratchRmw (s : State) (blk off n : Nat) (op : AtomOp) (sgn : Bool) (b c : Word64) : State × Word64 :=
  let r := s.scratchRead blk off n
  let old := BitVec.ofNat 64 (ofBytes r.2)
  match atomNew op n sgn old b c with
  | none => (r.1, old)
  | some v =>
    let s := r.1.scratchWrite blk off (toBytes n v.toNat)
    (if op = .addw ∧ addwWakes n sgn old v c then s.wake true (blk * 2 ^ 32 + off) n else s, old)

/-- The registers of a value of `n` bytes. -/
def valWords (n : Nat) (x : Word64) : List Word32 := if n = 8 then words64 x else [low32 x]

/-- The value of a source of one register or a pair. -/
def srcVal (n : Nat) (ws : List Word32) : Word64 := if n = 8 then lo64 ws else (lo32 ws).setWidth 64

/-! ### The fields of a G8 word (R254) -/

def g8Scope (w : F3) : Nat := mdField w.md 2 0
def g8Order (w : F3) : Nat := mdField w.md 4 3
def g8Signed (w : F3) : Bool := w.md.getLsbD 5
def g8Bytes (w : F3) : Nat := if w.md.getLsbD 6 then 8 else 4
def g8Ret (w : F3) : Bool := w.md.getLsbD 7

/-- Whether a G8 access of a lane waits for a held write of its thread (R219, R247). -/
def State.spotWaits (s : State) (a : Act) (lane : Nat) (va : Word64) (sp : Spot) (release : Bool) : Bool :=
  (release && s.heldAny a lane) ||
    match sp with
    | .glob x _ => s.heldBy a lane va x
    | .scratch .. => s.heldAcq a lane

/-- Ends a lane: done, or trapped after the instruction by the mark of a fault signal that its acquire has read (R311). -/
def lateIf (s : State) (lane : Nat) (acq : Bool) (mark : Option (BitVec 8 × Nat × Word64)) : LaneRes :=
  match mark with
  | some (c, q, ad) => if acq then .late s { lane := lane, cause := c, w9 := BitVec.ofNat 32 q, addr := ad } else .done s
  | none => .done s

/-- The result of a G8 instruction on a lane that has performed: its reads are committed and its long destination issued. -/
def State.g8Result (s : State) (a : Act) (i : LaneIn) (lead ret : Bool) (ws : List Word32) (wt : Wait) : State :=
  let s := s.commitLane a.key i
  if ret then s.pendDst a.key i.lane lead i.dest.1 i.dest.2 ws wt else s

/-- The registers that the result of a held access of a lane takes: an s register only from the lowest lane (R133). -/
def LaneIn.heldDest (i : LaneIn) (lead : Bool) : Dest := if i.dest.1.isS && !lead then .none else i.dest.1.dest i.dest.2

/-- One lane of an atomic of R254. -/
def State.atomLane (s : State) (a : Act) (w : F3) (op : AtomOp) (i : LaneIn) (lead : Bool) : LaneRes :=
  let n := g8Bytes w
  let sgn := g8Signed w
  let va := lo64 (i.val 0)
  let b := srcVal n (i.val 1)
  let c := srcVal n (i.val 2)
  match s.place a.team i.lane va (g8Scope w) n .atom with
  | (s1, .error f) => .fault s1 f
  | (s1, .ok sp) =>
    if s.spotWaits a i.lane va sp (decide (g8Order w ≥ 2)) then .wait s
    else
      match s1.admitLane a i.lane va sp n (g8Order w) true true with
      | (s2, .error f) => .fault s2 f
      | (s2, .ok (sp, ordered)) =>
        let rel := ordered && decide (g8Order w ≥ 2)
        let acq := ordered && decide (g8Order w % 2 = 1)
        let mark := s2.faultMark sp n
        match sp with
        | .scratch blk off =>
          let r := s2.scratchRmw blk off n op sgn b c
          .done (r.1.g8Result a i lead (g8Ret w) (valWords n r.2) .ready)
        | .glob x eff =>
          if x.moving then
            let id := s2.nextId
            let s3 := (s2.releaseAt a sp rel).hold a i.lane va x (f3Dest (0x200) w) fun h =>
              { h with op := op, plain := false, width := n, signed := sgn, data := b, cmp := c, acq := acq, scope := eff
                       order := g8Order w, dest := if g8Ret w then i.heldDest lead else .none }
            .done (s3.g8Result a i lead (g8Ret w) (List.replicate (n / 4) 0) (.held id))
          else
            match ((s2.releaseAt a sp rel).claimSpot (hitchOf a.team.core) sp).rmw (dieOf a.team.core) x n op sgn b c false with
            | (s3, .error f) => .fault s3 (xFault i.lane f va)
            | (s3, .ok old) =>
              lateIf ((s3.acquireAt a sp acq).g8Result a i lead (g8Ret w) (valWords n old) .ready) i.lane acq mark

/-- An atomic of R254 (R255). -/
def State.atomic (s : State) (opc : Nat) (op : AtomOp) (w : F3) : Out :=
  s.asGroup fun a =>
    s.issueLanes a (f3Dest opc w) (fun th => th.guard w.gs w.gp) (f3Acc opc w) true fun i lead s => s.atomLane a w op i lead

def execAadd (w : F3) (s : State) : Out := s.atomic 0x200 .add w
def execAmin (w : F3) (s : State) : Out := s.atomic 0x201 .min w
def execAmax (w : F3) (s : State) : Out := s.atomic 0x202 .max w
def execAand (w : F3) (s : State) : Out := s.atomic 0x203 .and w
def execAor (w : F3) (s : State) : Out := s.atomic 0x204 .or w
def execAxor (w : F3) (s : State) : Out := s.atomic 0x205 .xor w
def execAexch (w : F3) (s : State) : Out := s.atomic 0x206 .exch w
def execAcas (w : F3) (s : State) : Out := s.atomic 0x207 .cas w
def execAfadd (w : F3) (s : State) : Out := s.atomic 0x208 .fadd w
def execAaddw (w : F3) (s : State) : Out := s.atomic 0x209 .addw w

/-! ### AWAIT (R257) -/

/-- The permission of an access that reads and waits or reserves. -/
def Use.atomRead : Use := { read := true, write := false, exec := false, atomic := true, kind := none }

/-- Registers a wait at its unit, when the unit has an entry for it. -/
def State.addWatch (s : State) (w : Watch) (cap : Nat) : State :=
  let here := ((s.watches.filter fun v => v.registered && decide (v.unit = w.unit)).map s.watchSlot).eraseDups
  let free := here.contains (s.watchSlot w) || decide (here.length < cap)
  { s with watches := s.watches ++ [{ w with registered := free }] }

/-- The location of a place as a registration names it. -/
def Spot.loc : Spot → Bool × Nat
  | .scratch blk off => (true, blk * 2 ^ 32 + off)
  | .glob x _ => (false, x.pa)

/-- Reads `n` bytes at a place whose line stands at its unit. -/
def State.spotRead (s : State) (die : Nat) (sp : Spot) (n : Nat) : State × Except XFault Word64 :=
  match sp with
  | .scratch blk off => let r := s.scratchRead blk off n
                        (r.1, .ok (BitVec.ofNat 64 (ofBytes r.2)))
  | .glob x _ =>
    match s.busRead die x n false with
    | (s, .ok bs) => (s, .ok (BitVec.ofNat 64 (ofBytes bs)))
    | (s, .error f) => (s, .error f)

/-- One lane of an AWAIT: it completes, or waits with its registration. The location is translated at each test. -/
def State.awaitLane (s : State) (a : Act) (w : F3) (i : LaneIn) (lead : Bool) : LaneRes :=
  let n := g8Bytes w
  let va := lo64 (i.val 0)
  let b := srcVal n (i.val 1)
  let old := s.watchOf a.key i.lane
  match s.place a.team i.lane va (g8Scope w) n .atomRead with
  | (s1, .error f) => .fault (s1.dropWatch a.key i.lane) f
  | (s1, .ok sp) =>
    if s.spotWaits a i.lane va sp false then .wait s
    else
      match s1.admitLane a i.lane va sp n (if old.isSome then 0 else g8Order w) true false with
      | (s2, .error f) => .fault (s2.dropWatch a.key i.lane) f
      | (s2, .ok (_, stands)) =>
        let ordered := match old with | some v => !v.degraded | none => stands
        let sp := sp.under ordered
        let s3 := s2.claimSpot (hitchOf a.team.core) sp
        match s3.spotRead (dieOf a.team.core) sp n with
        | (s4, .error f) => .fault (s4.dropWatch a.key i.lane) (xFault i.lane f va)
        | (s4, .ok v) =>
          let woken := match old with | some x => x.woken | none => false
          let acq := ordered && decide (g8Order w = 1)
          if woken || condHolds w.c.toNat (g8Signed w) n v b then
            let s5 := ((s4.dropWatch a.key i.lane).acquireAt a sp acq).commitLane a.key i
            let s6 := if g8Ret w then s5.writeDst a.key i.lane lead i.dest.1 (valWords n v) else s5
            lateIf s6 i.lane acq (s4.faultMark sp n)
          else
            match old with
            | some x =>
              let u := s4.unitOf (hitchOf a.team.core) sp
              .wait ({ s4 with watches := s4.moveWatch s4.watches x sp.loc.2 u.1 u.2 }.emptyDest a.key i.lane x.dest)
            | none =>
              let u := s4.unitOf (hitchOf a.team.core) sp
              let d : Dest := if !g8Ret w || (i.dest.1.isS && !lead) then .none else i.dest.1.dest i.dest.2
              .wait ((s4.addWatch
                { unit := u.1, scratch := sp.loc.1, loc := sp.loc.2, width := n, cond := w.c.toNat, sgn := g8Signed w, cmp := b
                  engine := false, key := a.key, lane := i.lane, woken := false, since := s.clock, registered := true
                  degraded := !ordered, dest := d } u.2).emptyDest a.key i.lane d)

/-- AWAIT: the destinations that its waiting lanes have marked empty do not hold it. -/
def execAwait (w : F3) (s : State) : Out :=
  s.refillGroup.asGroup fun a =>
    s.issueLanes a (f3Dest 0x20A w) (fun th => th.guard w.gs w.gp) (f3Acc 0x20A w) false fun i lead s => s.awaitLane a w i lead

/-- AWAIT_RETEST: the waiters of a group without a registration complete as if woken, 512 clocks after they began to wait. -/
def execAwaitRetest (s : State) : Out :=
  match s.occ with
  | .group key g =>
    match (tget s.teams key).bind fun t => t.groups[g]? with
    | some gr => .next { s with watches := s.watches.map fun w =>
        if !w.engine && !w.registered && decide (w.key = key) && gr.lanes.getLsbD w.lane && decide (s.clock - w.since ≥ 512) then
          { w with woken := true } else w }
    | none => .next s
  | _ => .fault .noIssuer

/-! ### Reservations (R259) -/

/-- The line of a place as a reservation names it. -/
def Spot.line : Spot → Nat
  | .scratch blk off => scratchLine blk off
  | .glob x _ => x.pa / 128

def execLres (w : F3) (s : State) : Out :=
  s.asGroup fun a =>
    s.issueLanes a (f3Dest 0x20B w) (fun th => th.guard w.gs w.gp) (f3Acc 0x20B w) true fun i lead s =>
      let n := g8Bytes w
      let va := lo64 (i.val 0)
      match s.place a.team i.lane va (g8Scope w) n .atomRead with
      | (s1, .error f) => .fault s1 f
      | (s1, .ok sp) =>
        if s.spotWaits a i.lane va sp false then .wait s
        else match s1.admitLane a i.lane va sp n (g8Order w) true false with
        | (s2, .error f) => .fault s2 f
        | (s2, .ok (sp, ordered)) =>
          match (s2.claimSpot (hitchOf a.team.core) sp).spotRead (dieOf a.team.core) sp n with
          | (s4, .error f) => .fault s4 (xFault i.lane f va)
          | (s4, .ok v) =>
            let acq := ordered && decide (g8Order w = 1)
            let s5 := (s4.updTeam a.key fun t => { t with res := some sp.line }).acquireAt a sp acq
            lateIf (s5.g8Result a i lead true (valWords n v) .ready) i.lane acq (s4.faultMark sp n)

/-- The test and write of an SCND at a place whose line stands at its unit, under a team, if it is still there: 0 on success, 1 on failure (R259). -/
def State.scndAt (s : State) (die : Nat) (team : Option Nat) (sp : Spot) (n : Nat) (b : Word64) : State × Except XFault Word32 :=
  let ok := match team.bind fun key => tget s.teams key with | some t => decide (t.res = some sp.line) | none => false
  let clear (s : State) : State := match team with | some key => s.updTeam key fun t => { t with res := none } | none => s
  match sp with
  | .scratch blk off => if ok then (clear (s.scratchWrite blk off (toBytes n b.toNat)), .ok 0) else (clear s, .ok 1)
  | .glob x _ =>
    if ok then
      match s.busWrite die x (toBytes n b.toNat) false with
      | (s, some f) => (s, .error f)
      | (s, none) => (clear s, .ok 0)
    else
      match s.busFault die x n true with
      | (s, some f) => (s, .error f)
      | (s, none) => (clear s, .ok 1)

def execScnd (w : F3) (s : State) : Out :=
  s.asGroup fun a =>
    s.issueLanes a (f3Dest 0x20C w) (fun th => th.guard w.gs w.gp) (f3Acc 0x20C w) true fun i lead s =>
      let n := g8Bytes w
      let va := lo64 (i.val 0)
      let b := srcVal n (i.val 1)
      match s.place a.team i.lane va (g8Scope w) n .atom with
      | (s1, .error f) => .fault s1 f
      | (s1, .ok sp) =>
        if s.spotWaits a i.lane va sp (decide (g8Order w = 2)) then .wait s
        else match s1.admitLane a i.lane va sp n (g8Order w) false true with
        | (s2, .error f) => .fault s2 f
        | (s2, .ok (sp, ordered)) =>
          let s3 := s2.releaseAt a sp (ordered && decide (g8Order w = 2))
          match sp with
          | .glob x eff =>
            if x.moving then
              let id := s3.nextId
              let s4 := s3.hold a i.lane va x (f3Dest 0x20C w) fun h =>
                { h with op := .scnd, plain := false, width := n, data := b, scope := eff, order := g8Order w, dest := i.heldDest lead }
              .done (s4.g8Result a i lead true [0] (.held id))
            else match (s3.claimSpot (hitchOf a.team.core) sp).scndAt (dieOf a.team.core) (some a.key) sp n b with
              | (s4, .error f) => .fault s4 (xFault i.lane f va)
              | (s4, .ok f) => .done (s4.g8Result a i lead true [f] .ready)
          | .scratch .. =>
            match s3.scndAt (dieOf a.team.core) (some a.key) sp n b with
            | (s4, .error f) => .fault s4 (xFault i.lane f va)
            | (s4, .ok f) => .done (s4.g8Result a i lead true [f] .ready)

/-! ### Fences (R260, R261) -/

/-- One lane of a fence: it waits for the held writes of its thread that it orders, a release for those that `mine` selects and an
acquire for every one; then the team's dirty lines of `back` are written back and, for an acquire, those of `inRange` are read afresh. -/
def State.fenceLane (s : State) (a : Act) (w : F3) (i : LaneIn) (mine : Held → Bool) (back : Option (Nat → Bool)) (inRange : Nat → Bool) :
    LaneRes :=
  let rel := decide (g8Order w ≥ 2)
  let acq := decide (g8Order w % 2 = 1)
  let owner := a.team.owner a.key i.lane
  if a.team.acqPending i.lane || s.held.any fun h =>
      !h.dev && decide (h.engine = none ∧ h.owner = owner) && ((rel && mine h) || acq) then .wait s
  else if g8Scope w = 0 then .done (s.commitLane a.key i)
  else
    let s1 := match back with | some p => s.releaseIn a p | none => s
    let s2 := if acq then s1.acquireIn a inRange else s1
    .done (s2.commitLane a.key i)

def execFence (w : F3) (s : State) : Out :=
  s.asGroup fun a =>
    s.issueLanes a 0xF0 (fun th => th.guard w.gs w.gp) (f3Acc 0x20D w) false fun i _ s =>
      s.fenceLane a w i (fun _ => true) (if g8Order w ≥ 2 then some fun _ => true else none) fun _ => true

/-- The offset in an object of the byte at frame byte `b` of a granule; a tensor's by the logical image of R213. -/
def Record.offsetOf (r : Record) (gran b : Nat) : Option Nat :=
  if r.kind ≠ 1 then some (gran * 65536 + b)
  else if r.elemBits = 0 then none
  else
    let pos := b * 8 / r.elemBits
    let g0 := r.grid 0
    let g1 := r.grid 1
    let g2 := r.grid 2
    let g3 := r.grid 3
    if g0 = 0 ∨ g1 = 0 ∨ g2 = 0 ∨ g3 = 0 then none
    else
      let c := [gran % g0, gran / g0 % g1, gran / g0 / g1 % g2, gran / g0 / g1 / g2 % g3, gran / g0 / g1 / g2 / g3]
      let y := [pos % 2 ^ r.tile 0, pos / 2 ^ r.tile 0 % 2 ^ r.tile 1, pos / 2 ^ r.tile 0 / 2 ^ r.tile 1 % 2 ^ r.tile 2]
      let x (k : Nat) : Nat := if k < 3 then c.getD k 0 * 2 ^ r.tile k + y.getD k 0 else c.getD k 0
      if [0, 1, 2, 3, 4].any fun k => decide (x k ≥ r.ext k) then none
      else
        let l := x 0 + x 1 * r.stride 1 + x 2 * r.stride 2 + x 3 * r.stride 3 + x 4 * r.stride 4
        some (if r.elemBits = 4 then l / 2 else l * (r.elemBits / 8) + b % (r.elemBits / 8))

/-- The granules that an object has. -/
def Record.granules (r : Record) : Nat :=
  if r.kind = 1 then r.grid 0 * r.grid 1 * r.grid 2 * r.grid 3 * r.grid 4 else ceilDiv r.extent 65536

/-- Whether a line of L1 overlaps the range of a FENCER, by the records and entries as they stand; no lookup faults, and the scratchpad
handle names no global memory (R243). -/
def State.inFenceRange (s : State) (t : Team) (base : Word64) (len line : Nat) : Bool :=
  let lo := field base 39 0
  let hi := min (lo + len) (2 ^ 40)
  let ag := t.agent
  if ag.bare then field base 63 40 ≠ scratchHandle && decide (line * 128 < field base 47 0 + len ∧ field base 47 0 < (line + 1) * 128)
  else
    match (if field base 63 40 = scratchHandle then (none : Option Record) else (s.findRecord ag (field base 63 40)).2.toOption) with
    | none => false
    | some r =>
      let grans := if r.kind = 1 then List.range r.granules
                   else (List.range ((hi + 65535) / 65536 - lo / 65536)).map (lo / 65536 + ·)
      grans.any fun g =>
        let e := match (s.tlbOf ag.tlb).gran? ag.ctx.asid (field base 63 40) r.gen g with
          | some e => e.entry
          | none => s.devDouble ag.die (r.table + 8 * g)
        decide ((field e 1 0 = 1 ∨ field e 1 0 = 2) ∧ field e 47 16 = line * 128 / 65536)
          && (List.range 128).any fun i =>
              match r.offsetOf g (line * 128 % 65536 + i) with
              | some o => decide (lo ≤ o ∧ o < hi)
              | none => false

/-- FENCER (R261): a fence for the accesses and lines of a range. An acquire orders every earlier access ahead: it waits for every held
write of its thread and writes back every dirty line of its team, so that later accesses past the range are ordered too (log 68). -/
def execFencer (w : F3) (s : State) : Out :=
  s.asGroup fun a =>
    s.issueLanes a 0xF0 (fun th => th.guard w.gs w.gp) (f3Acc 0x20E w) false fun i _ s =>
      let base := lo64 (i.val 0)
      let len := (lo32 (i.val 1)).toNat
      let inVa (h : Held) : Bool :=
        let o := field h.va 39 0
        decide (field h.va 63 40 = field base 63 40 ∧ field base 39 0 < o + h.width ∧ o < field base 39 0 + len)
      if len = 0 then .done (s.commitLane a.key i)
      else
        let inRange := s.inFenceRange a.team base len
        s.fenceLane a w i inVa (if g8Order w % 2 = 1 then some fun _ => true else if g8Order w = 2 then some inRange else none) inRange

/-! ### The end of a hold (R219) -/

/-- The result of a held atomic arrives: its destination can be written. -/
def Team.heldDone (t : Team) (id : Nat) (ws : List Word32) : Team :=
  { t with pend := t.pend.map fun p => if p.wait = .held id then { p with words := ws, wait := .ready } else p }

/-- The result arrives wherever its team is: resident, or in the saved image of its block (R219, R365). -/
def State.heldDone (s : State) (id : Nat) (ws : List Word32) : State :=
  { s with
    teams := s.teams.map fun e => (e.1, e.2.heldDone id ws)
    blocks := s.blocks.map fun e => (e.1, { e.2 with
      savedTeams := e.2.savedTeams.map fun t => t.heldDone id ws, savedRein := e.2.savedRein.map fun t => t.heldDone id ws }) }

/-- Where a lane of a team stands: its point in its group, or its leg start. -/
def Team.pointOf (t : Team) (lane : Nat) : Option Point :=
  match t.groups.find? fun g => g.lanes.getLsbD lane with
  | some g => some (if g.hold = .dest then .taken g.start g.leg g.pos g.idx else .instr g.start g.leg g.pos g.idx)
  | none => match t.threads[lane]? with
    | some th => if th.stat = .atLeg ∨ th.stat = .meet then some .leg else none
    | none => none

/-- Traps a thread that stands somewhere else for an instruction that it has issued, named by its leg start, word, and index and
destination (R219, R311, R322); none where the thread stands nowhere. -/
def State.trapAway (s : State) (key : Nat) (start word : Word64) (w8 : Word32) (f : LaneFault) : Option State :=
  ((tget s.teams key).bind fun t => t.pointOf f.lane).map fun p =>
    let i : TrapAt := { word := word, idx := w8.toNat % 32, dest := w8.extractLsb' 8 8, start := start, mid := p.mid
                        coll := false, fetch := false, detail := true, addrs := [] }
    (s.trap key i (BitVec.twoPow 64 f.lane) [f] f fun _ => p).updTeam key Team.dropEmpty

/-- Traps the thread of a held access, while it is live (R219, R311). -/
def State.trapFor (s : State) (h : Held) (c : BitVec 8) (w9 : Word32) (addr : Word64) : State :=
  if h.live then (s.trapAway h.key h.start h.word h.w8 { lane := h.lane, cause := c, w9 := w9, addr := addr }).getD s else s

/-- The die of the party that made a held write. -/
def Held.die (h : Held) : Nat := match h.engine with | some (d, _) => d | none => if h.dev then h.key / 32 else dieOf (h.key / 64)

/-- The party of a held write, and what it asks of the object: the translation afresh reads memory, not a cache (R209, R219). -/
def Held.agent (h : Held) : Agent where
  tlb := .engine
  die := h.die
  ctx := { asid := h.asid, ortBase := h.ortBase, ortSize := h.ortSize, mode := h.mode, region := 0, reloc := 0 }
  user := decide (h.mode = .u) && h.vector
  engine := h.byEngine
  bare := false

def Held.use (h : Held) : Use := if h.plain && !h.dev then .store else .atom

/-- The translation afresh of a held write whose hold has ended, with the first bit and the bits that it writes there (R219): an STC finds
its element by its coordinates (R227). -/
def State.xlHeld (s : State) (h : Held) : State × Except XFault (Xl × Nat × Nat) :=
  match s.findRecord h.agent (field h.va 63 40) with
  | (s, .error f) => (s, .error f)
  | (s, .ok r) =>
    match r.refuses h.agent h.use with
    | some w9 => (s, .error { cause := .permission, w9 := w9 })
    | none =>
      match h.coord with
      | none =>
        match s.xlBytes h.agent (field h.va 63 40) r (field h.va 39 0) h.width 1 with
        | (s, .ok x) => (s, .ok (x, 0, 8 * h.width))
        | (s, .error f) => (s, .error f)
      | some (xs, n, width) =>
        if r.kind ≠ 1 then (s, .error { cause := .badHandle, w9 := 0 })
        else
          match r.runAt xs n width with
          | .error f => (s, .error f)
          | .ok (gran, bit) =>
            match s.findGranule h.agent (field h.va 63 40) r gran (bit / 8) with
            | (s, .ok x) => (s, .ok (x, bit % 8, n * r.elemBits))
            | (s, .error f) => (s, .error f)

/-- Marks `n` bytes as fault-signalled: the cause, the module queue number and the faulting address (R310). -/
def State.markSignal (s : State) (pa n : Nat) (m : BitVec 8 × Nat × Word64) : State :=
  { s with faultSig := (List.range n).foldl (fun t i => tset t (pa + i) m) s.faultSig }

/-- What a held write that cannot perform leaves: a signal counts in the region of its queue or packet (R310, R334); a thread's atomic
returns 0 and its thread traps, as for a dropped write (R219, log 65). -/
def State.heldFault (s : State) (h : Held) (f : XFault) : State :=
  if h.dev then
    if h.plain then s.signalFault h.tab h.owner.2
    else s.regionFault h.tab (s.queue h.die (h.key % 32)).owner.toNat
  else (s.heldDone h.id (List.replicate (h.width / 4) 0)).trapFor h f.cause.code f.w9 h.va

/-- The acquire of a held atomic that has performed, and the trap of the fault signal that it has read (R247, R311). -/
def State.heldAcquire (s : State) (h : Held) (mark : Option (BitVec 8 × Nat × Word64)) : State :=
  if h.acq && h.live then
    let s := match (tget s.teams h.key).bind Team.l1 with | some c => s.acquireL1 c fun _ => true | none => s
    match mark with
    | some (c, q, ad) => s.trapFor h c (BitVec.ofNat 32 q) ad
    | none => s
  else s

/-- A held atomic or signal at the unit that holds its line; `stands` says whether its acquire does. A fault signal that was held is marked
as it performs: its queue is `key`, its faulting address `cmp` (R310). The reservation of a team that is no longer there is gone, so its
SCND fails (R259). -/
def State.runHeld (s : State) (h : Held) (sp : Spot) (x : Xl) (stands : Bool) : State :=
  if h.plain then
    match s.busWrite h.die x h.bytes false with
    | (s, none) => s
    | (s, some f) => s.heldFault h f
  else if h.op = .scnd then
    match s.scndAt h.die (if h.live then some h.key else none) sp h.width h.data with
    | (s, .ok f) => s.heldDone h.id [f]
    | (s, .error f) => s.heldFault h f
  else
    let mark := s.faultMark sp h.width
    match s.rmw h.die x h.width h.op h.signed h.data (if h.dev then 0 else h.cmp) false with
    | (s, .error f) => s.heldFault h f
    | (s, .ok old) =>
      if h.dev then s.markSignal x.pa h.width (h.data.setWidth 8, h.key, h.cmp)
      else (s.heldDone h.id (valWords h.width old)).heldAcquire { h with acq := h.acq && stands } mark

/-- Performs a held write at the place that its entry now names, `bits` bits from bit `bit` of its first byte. An atomic or a signal is
checked now, as it performs: one that does not match does not perform under TRAP, and under DEGRADE performs at home without its acquire
(R252, R253). -/
def State.writeHeld (s : State) (h : Held) (x : Xl) (bit bits : Nat) : State :=
  let s := if h.dev then s else s.evictLine (h.key / 64) (x.pa / 128)
  if h.plain && !h.dev then
    match (if bits % 8 = 0 then s.busWrite h.die x (h.bytes.take (bits / 8)) else s.mergeHome h.die x bit bits (ofBytes h.bytes)) with
    | (s, none) => s
    | (s, some f) => s.heldFault h f
  else
    let eff := effScope x h.scope
    match s.admitAt h.degrade h.hitch x h.width eff h.order (decide (h.op ≠ .scnd)) fun s => s.busFault h.die x h.width true with
    | (s, .error f) => s.heldFault h f
    | (s, .ok stands) =>
      let s := if !stands && !h.dev && h.live then s.updTeam h.key fun t => { t with scopeMis := true } else s
      let sp := (Spot.glob x eff).under stands
      (s.claimSpot h.hitch sp).runHeld h sp x stands

/-- The end of a hold (R219): the write is translated afresh and performs, or is held where it now stands; an engine's write lets its
queue perform the element again. -/
def State.performHeld (s : State) (h : Held) : State :=
  let s := { s.forgetGranule h.asid (field h.va 63 40) h.gran with held := s.held.filter fun k => decide (k.id ≠ h.id) }
  if h.engine.isSome then s
  else
    match s.xlHeld h with
    | (s, .error f) => s.heldFault h f
    | (s, .ok (x, bit, bits)) =>
      if x.moving then { s with held := s.held ++ [{ h with pa := x.pa, entryAt := x.entryAt, gran := x.gran }] }
      else s.writeHeld h x bit bits

/-- The die whose slice or port holds a held write, and reads its entry again (R219, R231). -/
def Held.unitDie (h : Held) : Nat :=
  match busOf h.pa with | .hbm d => d | .cxl io _ | .remote io _ | .pcie io _ => 16 + io | .ctl d _ => d | _ => h.die

/-- The slice of a held write reads its entry again: the hold ends in any state but moving (R219). -/
def State.recheckHeld (s : State) (h : Held) : State :=
  if granState (s.devDouble h.unitDie h.entryAt) = 2 then s else s.performHeld h

/-- Whether a held write comes before another of its group and instruction on the same location, in lane order (R255). -/
def Held.before (k h : Held) : Bool :=
  k.engine.isNone && !k.dev && !h.dev && decide (k.id < h.id ∧ k.key = h.key ∧ k.start = h.start ∧ k.word = h.word ∧ k.w8 = h.w8
    ∧ k.since = h.since ∧ k.pa < h.pa + h.width ∧ h.pa < k.pa + k.width)

/-- A held write rechecked after those of its group and instruction that come before it on its location (R255). -/
def State.recheckInOrder (s : State) (h : Held) : State :=
  let s := (s.held.filter fun k => k.before h).foldl (fun s k => s.recheckHeld k) s
  if s.held.any fun k => k.before h then s else s.recheckHeld h

/-- HELD_WRITE_RECHECK: the slice reads the entry again, at the latest every 1,024 clocks. -/
def execHeldWriteRecheck (s : State) : Out :=
  match s.occ with
  | .held n =>
    match s.held.find? fun h => decide (h.id = n) with
    | none => .next s
    | some h => .next (s.recheckInOrder h)
  | _ => .fault .noIssuer

end Sys2Proof.Machine
end

