-- ==== Sys2Proof/Machine/Sync.lean ====
section
/-! DEFINITION. Hardware barriers (spec/11_atomic_units_and_ordering.md R263-R267), slot rings
(spec/08_saddlebags_and_core_array.md R199-R203), relay queues and join counters
(spec/14_relay_queues_and_launch.md R319-R324), and the arrival of long results (spec/05_register_files.md R124). -/

namespace Sys2Proof.Machine

/-- A lane fault whose detail word no rule states. -/
def openFault (lane : Nat) (c : Cause) (addr : Word64) : LaneFault := laneFault lane c c.openW9 addr

/-! ### Barriers -/

/-- A barrier as an instruction names it: of a block, or one of barriers 16 to 19 of a neighbourhood. -/
inductive BarRef where
  | block (blk n : Nat)
  | nbhd (nb n : Nat)
  deriving DecidableEq, Repr

/-- The barrier of a number for a team, with the largest count it takes (R263, R265). -/
def State.barRef (s : State) (t : Team) (n : Nat) : Option (BarRef × Nat) :=
  match tget s.blocks t.block with
  | none => none
  | some b =>
    if n < 16 then (if n < b.bars.length then some (.block t.block n, b.threads) else none)
    else if n < 20 then
      match b.nblk, tget s.nbhds b.nbhd with
      | some _, some k => some (.nbhd b.nbhd (n - 16), k.threads)
      | _, _ => none
    else none

def State.bar (s : State) : BarRef → Barrier
  | .block blk n => ((tget s.blocks blk).bind fun b => b.bars[n]?).getD (newBarrier 0)
  | .nbhd nb n => ((tget s.nbhds nb).bind fun b => b.bars[n]?).getD (newBarrier 0)

def State.setBar (s : State) (r : BarRef) (x : Barrier) : State :=
  match r with
  | .block blk n => s.updBlock blk fun b => { b with bars := modAt b.bars n fun _ => x }
  | .nbhd nb n =>
    match tget s.nbhds nb with
    | some k => { s with nbhds := tset s.nbhds nb { k with bars := modAt k.bars n fun _ => x } }
    | none => s

/-- Complete() of R266; the carried arrivals of one completion can complete at most one phase more. -/
def Barrier.complete (b : Barrier) : Nat → Barrier
  | 0 => b
  | n + 1 =>
    let b' : Barrier := { b with p := b.p + 1, a := b.carried.length, arrived := b.carried, carried := [] }
    if b'.a = b'.n then b'.complete n else b'

/-- Arrive(t) of R266: the barrier and the returned phase, or an excess arrival. -/
def Barrier.arrive (b : Barrier) (u : Nat) : Option (Barrier × Word32) :=
  if b.arrived.contains u then
    if b.strict || b.carried.contains u then none
    else some ({ b with carried := b.carried ++ [u] }, b.p + 1)
  else
    let b' : Barrier := { b with arrived := b.arrived ++ [u], a := b.a + 1 }
    some (if b'.a = b'.n then b'.complete 2 else b', b.p)

/-- Whether a phase has completed: (p - A) mod 2^32 lies in 1 to 2^31 (R266). -/
def Barrier.passed (b : Barrier) (a : Word32) : Bool := decide (1 ≤ (b.p - a).toNat ∧ (b.p - a).toNat ≤ 2 ^ 31)

/-- A thread as a barrier names it. -/
def Act.barId (a : Act) (lane : Nat) : Nat := a.team.block * 4096 + (a.thread lane).tid

def barNum (w : F3) : Nat := mdField w.md 4 0

/-- BARI (R265): once for the group, by its lowest thread. -/
def execBari (w : F3) (s : State) : Out :=
  s.asGroup fun a =>
    let ls := s.gatherOp a (fun th => th.guard w.gs w.gp) (f3Acc 0x240 w)
    let s1 := s.faultLanes a 0xF0 (ls.filterMap fun l => l.got.findSome? Got.fault?)
    if ls.any fun l => l.got.any Got.waits then s1.holdAt a .stall
    else
      let ok := ls.filterMap fun l => match l.got.getD 0 .skip with | .ok i => some i | _ => none
      match ok with
      | [] => s1.advance a
      | i :: _ =>
        let n := (lo32 (i.val 0)).toNat
        match s1.barRef a.team (barNum w) with
        | some (r, limit) =>
          let b := s1.bar r
          if n = 0 ∨ n > limit ∨ b.a ≠ 0 ∨ b.carried ≠ [] then
            (s1.faultLanes a 0xF0 (ok.map fun i => openFault i.lane .barInvalid 0)).advance a
          else
            let s2 := s1.setBar r { b with n := n, strict := w.md.getLsbD 5 }
            (ok.foldl (fun s i => s.commitLane a.key i) s2).advance a
        | none => (s1.faultLanes a 0xF0 (ok.map fun i => openFault i.lane .barInvalid 0)).advance a

/-- The arrival of a lane: its phase, a wait for its held writes, or its fault. -/
inductive Arrival where
  | ok (s : State) (ph : Word32)
  | wait
  | fault (f : LaneFault)

def State.arriveLane (s : State) (a : Act) (n lane : Nat) : Arrival :=
  match s.barRef a.team n with
  | none => .fault (openFault lane .barInvalid 0)
  | some (r, _) =>
    if s.heldAny a lane then .wait
    else
      match (s.bar r).arrive (a.barId lane) with
      | none => .fault (openFault lane .barExcess 0)
      | some (b, ph) => .ok ((s.releaseIn a fun _ => true).setBar r b) ph

/-- BARA (R266): an arrival with the phase in D. -/
def execBara (w : F3) (s : State) : Out :=
  s.asGroup fun a =>
    s.issueLanes a (f3Dest 0x241 w) (fun th => th.guard w.gs w.gp) (f3Acc 0x241 w) true fun i lead s =>
      match s.arriveLane a (barNum w) i.lane with
      | .fault f => .fault s f
      | .wait => .wait s
      | .ok s ph => .done ((s.acquireIn a fun _ => true).loadTo a i lead [ph])

/-- BARW (R266): held until the phase in A has completed. -/
def execBarw (w : F3) (s : State) : Out :=
  s.asGroup fun a =>
    s.issueLanes a 0xF0 (fun th => th.guard w.gs w.gp) (f3Acc 0x242 w) false fun i _ s =>
      match s.barRef a.team (barNum w) with
      | none => .fault s (openFault i.lane .barInvalid 0)
      | some (r, _) =>
        if (s.bar r).passed (lo32 (i.val 0)) then .done ((s.acquireIn a fun _ => true).commitLane a.key i) else .wait s

/-- What the lanes of a BARAW have come to: the state, the phases of the lanes that have arrived, faults, and whether a lane
waits to arrive. -/
structure BarRun where
  s : State
  phases : List (Nat × Word32)
  faults : List LaneFault
  waits : Bool

/-- BARAW (R266): arrivals, and the group held until the phases returned have completed. -/
def execBaraw (w : F3) (s : State) : Out :=
  s.asGroup fun a =>
    let prior : List (Nat × Word32) := match a.grp.hold with | .barrier ps => ps | _ => []
    let ls := s.gatherOp a (fun th => th.guard w.gs w.gp) (f3Acc 0x243 w)
    let bad := ls.filterMap fun l => l.got.findSome? Got.fault?
    if ls.any fun l => l.got.any Got.waits then
      (s.faultLanes a (f3Dest 0x243 w) bad).holdAt a (if prior = [] then .stall else .barrier prior)
    else
      let ok := ls.filterMap fun l => match l.got.getD 0 .skip with | .ok i => some i | _ => none
      let r := ok.foldl (fun (r : BarRun) i =>
        if (r.phases.any fun p => decide (p.1 = i.lane)) || r.waits then r
        else
          match r.s.arriveLane a (barNum w) i.lane with
          | .fault f => { r with faults := r.faults ++ [f] }
          | .wait => { r with waits := true }
          | .ok s ph => { r with s := s, phases := r.phases ++ [(i.lane, ph)] }) { s := s, phases := prior, faults := bad, waits := false }
      let s1 := r.s.faultLanes a (f3Dest 0x243 w) r.faults
      let passed := match s1.barRef a.team (barNum w) with
        | some (b, _) => r.phases.all fun p => (s1.bar b).passed p.2
        | none => true
      if r.waits || !passed then s1.holdAt a (.barrier r.phases)
      else
        let go := ok.filter fun i => r.phases.any fun p => decide (p.1 = i.lane)
        let s2 := if go = [] then s1 else s1.acquireIn a fun _ => true
        (go.foldl (fun s i =>
          (s.commitLane a.key i).writeDst a.key i.lane (decide ((go.head?.map (·.lane)) = some i.lane)) i.dest.1
            [((r.phases.find? fun p => decide (p.1 = i.lane)).map (·.2)).getD 0]) s2).advance a

/-! ### Slot rings -/

/-- A ring descriptor (R199), with the block and offset of its bytes. -/
structure Ring where
  blk : Nat
  off : Nat
  base : Nat
  slot : Nat
  count : Nat
  filled : Nat
  free : Nat
  prod : Nat
  cons : Nat
  w6 : Word32
  w7 : Word32
  deriving DecidableEq, Repr

/-- The descriptor at a location of a scratchpad. -/
def State.ringAt (s : State) (blk off : Nat) : Ring :=
  let w (i : Nat) : Word32 := s.scratchWord blk (off + 4 * i)
  { blk := blk, off := off, base := (w 0).toNat, slot := (w 1).toNat % 2 ^ 16, count := (w 1).toNat / 2 ^ 16, filled := (w 2).toNat
    free := (w 3).toNat, prod := (w 4).toNat, cons := (w 5).toNat, w6 := w 6, w7 := w 7 }

/-- Whether base and geometry pass R200 for a descriptor at window offset `e` under a limit: the slots lie in the same window
(log 23). -/
def ringFits (e base slot count limit : Nat) : Bool :=
  decide (16 ≤ slot ∧ slot ≤ 65520 ∧ slot % 16 = 0 ∧ 1 ≤ count ∧ count ≤ 1024 ∧ base % 16 = 0 ∧ base / 2 ^ 31 = e / 2 ^ 31
    ∧ base % 2 ^ 31 + slot * count ≤ limit)

/-- The checks of R200. -/
def Ring.ok (r : Ring) (e limit : Nat) : Bool :=
  decide (r.w6 = 1 ∧ r.w7 = 0) && ringFits e r.base r.slot r.count limit
    && decide (r.filled + r.free ≤ r.count ∧ r.prod < r.count ∧ r.cons < r.count)

/-- The place of the descriptor that a lane names, or its fault. -/
def State.ringPlace (s : State) (t : Team) (lane : Nat) (e : Word32) : Except LaneFault (Nat × Nat) :=
  if e.toNat % 32 ≠ 0 then .error (openFault lane .misaligned (e.setWidth 64))
  else
    match s.window t.block e.toNat 32 with
    | some p => .ok p
    | none => .error (openFault lane .scratchBound (e.setWidth 64))

/-- The checked descriptor that a lane names, or its fault (R200). -/
def State.ringOf (s : State) (t : Team) (lane : Nat) (e : Word32) : Except LaneFault Ring :=
  match s.ringPlace t lane e with
  | .error f => .error f
  | .ok (b, o) =>
    let r := s.ringAt b o
    if r.ok e.toNat (s.windowLimit t.block e.toNat) then .ok r else .error (openFault lane .ringInvalid (e.setWidth 64))

/-- Writes words 2 to 5 of a descriptor. -/
def State.setRing (s : State) (r : Ring) : State :=
  s.scratchWrite r.blk (r.off + 8) (wordsBytes [BitVec.ofNat 32 r.filled, BitVec.ofNat 32 r.free, BitVec.ofNat 32 r.prod, BitVec.ofNat 32 r.cons])

/-- Takes a slot for a role: the descriptor after it, and the slot's window offset (R202). -/
def Ring.take (r : Ring) (prod : Bool) : Option (Ring × Word32) :=
  if prod then
    if r.free = 0 then none
    else some ({ r with free := r.free - 1, prod := (r.prod + 1) % r.count }, BitVec.ofNat 32 (r.base + r.prod * r.slot))
  else
    if r.filled = 0 then none
    else some ({ r with filled := r.filled - 1, cons := (r.cons + 1) % r.count }, BitVec.ofNat 32 (r.base + r.cons * r.slot))

/-- The oldest pending result of the resident teams that `p` selects, as (order, team key, index). -/
def State.oldestPend (s : State) (p : Pend → Bool) : Option (Nat × Nat × Nat) :=
  let all := (s.teams.map fun e => (e.2.pend.zipIdx.filter fun q => p q.1).map fun q => (q.1.order, e.1, q.2)).flatten
  all.foldl (fun best x => match best with | some b => if x.1 < b.1 then some x else some b | none => some x) none

/-- Updates the `n`-th pending result of a team. -/
def State.updPend (s : State) (key n : Nat) (f : Pend → Pend) : State :=
  s.updTeam key fun t => { t with pend := modAt t.pend n f }

/-- Whether a copy queue waits for a slot of a ring ahead of a request of the producer role (R202, R301). -/
def State.engineAhead (s : State) (blk off order : Nat) : Bool :=
  s.dies.any fun d => d.queues.any fun q => match q.ringWait with
    | some (b, o, k) => decide (b = blk ∧ o = off ∧ k < order)
    | none => false

/-- Grants the waiting requests of a ring, the oldest of each role first, while slots remain (R202, R203). -/
def State.ringGrant (s : State) (blk off : Nat) : Nat → State
  | 0 => s
  | n + 1 =>
    let one (prod : Bool) : Option State :=
      match s.oldestPend fun p => decide (p.wait = .ring blk off prod) with
      | none => none
      | some (order, key, i) =>
        match (if prod && s.engineAhead blk off order then none else (s.ringAt blk off).take prod) with
        | none => none
        | some (r, e) => some ((s.setRing r).updPend key i fun p => { p with words := [e], wait := .ready })
    match one false with
    | some s => s.ringGrant blk off n
    | none => match one true with
      | some s => s.ringGrant blk off n
      | none => s

/-- Grants after a change of a ring; every waiting request is granted at most once. -/
def State.ringWake (s : State) (blk off : Nat) : State := s.ringGrant blk off ((s.teams.map fun e => e.2.pend.length).sum)

/-- RINIT (R201). Of the threads that name one descriptor the lowest writes it; its release holds the group behind the held writes of
its threads. -/
def execRinit (w : F3) (s : State) : Out :=
  s.asGroup fun a =>
    let place (s : State) (i : LaneIn) : Except LaneFault (Nat × Nat) :=
      let e := lo32 (i.val 0)
      let g := (lo32 (i.val 2)).toNat
      match s.ringPlace a.team i.lane e with
      | .error f => .error f
      | .ok p =>
        if ringFits e.toNat (lo32 (i.val 1)).toNat (g % 2 ^ 16) (g / 2 ^ 16) (s.windowLimit a.team.block e.toNat) then .ok p
        else .error (openFault i.lane .ringInvalid (e.setWidth 64))
    let all := (s.gatherOp a (fun th => th.guard w.gs w.gp) (f3Acc 0x244 w)).filterMap fun l =>
      match l.got.getD 0 .skip with
      | .ok i => (match place s i with | .ok p => some (i.lane, p) | .error _ => none)
      | _ => none
    if all.any fun e => s.heldAny a e.1 then s.holdAt a .stall
    else
      s.issueLanes a 0xF0 (fun th => th.guard w.gs w.gp) (f3Acc 0x244 w) true fun i _ s =>
        match place s i with
        | .error f => .fault s f
        | .ok p =>
          let s := s.commitLane a.key i
          if all.any fun e => decide (e.1 < i.lane ∧ e.2 = p) then .done s
          else
            let g := lo32 (i.val 2)
            .done ((s.scratchWrite p.1 p.2 (wordsBytes [lo32 (i.val 1), g, 0, BitVec.ofNat 32 (g.toNat / 2 ^ 16), 0, 0, 1, 0])).ringWake p.1 p.2)

/-- RACQ (R202). -/
def execRacq (w : F3) (s : State) : Out :=
  s.asGroup fun a =>
    let prod := w.md.getLsbD 0
    s.issueLanes a (f3Dest 0x245 w) (fun th => th.guard w.gs w.gp) (f3Acc 0x245 w) true fun i lead s =>
      match s.ringOf a.team i.lane (lo32 (i.val 0)) with
      | .error f => .fault s f
      | .ok r =>
        if s.heldAcq a i.lane then .wait s
        else if (r.take prod).isNone && w.md.getLsbD 1 then .done (s.loadTo a i lead [0xFFFFFFFF])
        else
          let s := (s.commitLane a.key i).pendDst a.key i.lane lead i.dest.1 i.dest.2 [0] (.ring r.blk r.off prod)
          .done (s.ringWake r.blk r.off)

/-- RREL (R203). -/
def execRrel (w : F3) (s : State) : Out :=
  s.asGroup fun a =>
    let prod := w.md.getLsbD 0
    s.issueLanes a 0xF0 (fun th => th.guard w.gs w.gp) (f3Acc 0x246 w) true fun i _ s =>
      let e := lo32 (i.val 0)
      match s.ringOf a.team i.lane e with
      | .error f => .fault s f
      | .ok r =>
        if r.filled + r.free + 1 > r.count then .fault s (openFault i.lane .ringInvalid (e.setWidth 64))
        else if (prod && s.heldAny a i.lane) || s.heldAcq a i.lane then .wait s
        else
          let r' := if prod then { r with filled := r.filled + 1 } else { r with free := r.free + 1 }
          .done (((s.commitLane a.key i).setRing r').ringWake r.blk r.off)

/-! ### Dropped holds of instructions that hold in place (R219) -/

/-- Records a dropped write of a lane of the issuing group: its thread traps at its next leg boundary. -/
def State.addDrop (s : State) (a : Act) (dest : Code) (lane gran : Nat) (va : Word64) : State :=
  let w8 := a.w8 dest
  s.updTeam a.key fun t =>
    match t.drops.findIdx? fun d => decide (d.start = a.grp.start ∧ d.word = a.word ∧ d.w8 = w8) with
    | some k => { t with drops := modAt t.drops k fun d => { d with lanes := d.lanes ++ [(lane, gran, va)] } }
    | none => { t with drops := t.drops ++ [{ start := a.grp.start, word := a.word, w8 := w8, lanes := [(lane, gran, va)] }] }

/-- Whether a hold of the issuing group has passed the limit of its team. -/
def State.holdOver (s : State) (a : Act) : Bool :=
  decide (a.team.relocLimit ≠ 0 ∧ a.grp.hold ≠ .none ∧ s.clock - a.grp.since > a.team.relocLimit.toNat)

/-! ### Relay queues -/

/-- A relay queue that an access has reached: its record, the place of its header, and the header's fields (R319). -/
structure Relay where
  h : Nat
  record : Record
  at' : Xl
  log : Nat
  pushed : Word64
  popped : Word64
  deriving DecidableEq, Repr

/-- A failed access with the address that it reports. -/
abbrev AFault := XFault × Word64

def aFault (lane : Nat) (f : AFault) : LaneFault := laneFault lane f.1.cause f.1.w9 f.2

/-- The header words pass R319. -/
def relayOk (r : Record) (w : Nat → Word32) : Bool :=
  let cap := (w 0).toNat % 32
  let d (i : Nat) : Word64 := w (i + 1) ++ w i
  decide ((w 0).toNat / 2 ^ 5 % 2 ^ 11 = 0 ∧ (w 0).toNat / 2 ^ 16 = 1 ∧ w 1 = 0 ∧ 4 ≤ cap ∧ cap ≤ 24)
    && (List.range 10).all (fun i => decide (w (6 + i) = 0))
    && decide ((d 2 - d 4).toNat ≤ 2 ^ cap ∧ r.extent ≥ 64 + 64 * 2 ^ cap)

/-- Reaches the queue at an address for a team: the checks of R214, kind 3, and the header, read at its home after the team's own line
of it is written back (R245, R319, R321). A scalar lane has no scratchpad (R344). -/
def State.relayAt (s : State) (t : Team) (va : Word64) (u : Use) : State × Except AFault Relay :=
  let ag := t.agent
  let h := field va 63 40
  let bad (s : State) (f : XFault) : State × Except AFault Relay := (s, .error (f, va))
  if t.kind = .scalar ∧ h = scratchHandle then bad s { cause := .scratchBound, w9 := Cause.scratchBound.openW9 }
  else if ag.bare then bad s { cause := .permission, w9 := 0 }
  else
    match s.findRecord ag h with
    | (s, .error f) => bad s f
    | (s, .ok r) =>
      match r.refuses ag { u with kind := some 3 } with
      | some w9 => bad s { cause := .permission, w9 := w9 }
      | none =>
        if field va 39 0 + 64 > r.extent then bad s { cause := .outOfExtent, w9 := 0 }
        else if field va 39 0 ≠ 0 then bad s { cause := .misaligned, w9 := 0 }
        else
          match s.findGranule ag h r 0 0 with
          | (s, .error f) => bad s f
          | (s, .ok x) =>
            match (s.evictFor t x).busRead (dieOf t.core) x 64 with
            | (s, .error f) => bad s f
            | (s, .ok bs) =>
              let ws := bytesWords 16 bs
              let w (i : Nat) : Word32 := ws.getD i 0
              if relayOk r w then (s, .ok { h := h, record := r, at' := x, log := (w 0).toNat % 32, pushed := w 3 ++ w 2, popped := w 5 ++ w 4 })
              else bad s { cause := .relayInvalid, w9 := Cause.relayInvalid.openW9 }

/-- The place of entry `i` of a queue, i a push or pop count, with the team's own line of it written back. -/
def State.relayEntry (s : State) (t : Team) (q : Relay) (i : Word64) : State × Except AFault Xl :=
  let off := 64 + 64 * (i.toNat % 2 ^ q.log)
  match s.xlBytes t.agent q.h q.record off 64 64 with
  | (s, .ok x) => (s.evictFor t x, .ok x)
  | (s, .error f) => (s, .error (f, BitVec.ofNat 64 (q.h * 2 ^ 40 + off)))

/-- Whether a pending result is a pop that waits on the queue whose header lies at an address. -/
def Pend.waitsRelay (p : Pend) (header : Nat) : Bool := match p.wait with | .relay h .. => decide (h = header) | _ => false

/-- A waiting pop that meets a fault: the request is gone, its registers are full and dead, and its thread traps for the QPOP where it
now stands (R322, log 77); none while the thread stands nowhere, and the pop waits on. -/
def State.failPop (s : State) (key i : Nat) (p : Pend) (f : AFault) : Option State :=
  match p.wait with
  | .relay _ start word w8 =>
    (s.updTeam key fun t =>
      let t : Team := { t with pend := t.pend.eraseIdx i }
      match p.dest with | .v r n => t.killLoc p.lane n (.v r) | _ => t).trapAway key start word w8 (aFault p.lane f)
  | _ => none

/-- What the oldest waiting pop of a queue comes to. -/
inductive Pop where
  /-- the queue is empty, or its header stands in a moving granule -/
  | wait
  /-- the record, after the pop count has been advanced -/
  | got (s : State) (ws : List Word32)
  | fault (s : State) (f : AFault)

/-- Reaches a record for a pop of a team that waits on the queue at an address (R322). -/
def State.popAt (s : State) (t : Team) (va : Word64) : Pop :=
  match s.relayAt t va .load with
  | (s, .error f) => .fault s f
  | (s1, .ok q) =>
    if q.pushed = q.popped then .wait
    else
      match s1.relayEntry t q q.popped with
      | (s, .error f) => .fault s f
      | (s2, .ok x) =>
        if q.at'.moving then .wait
        else
          match s2.busRead (dieOf t.core) x 64 with
          | (s, .error f) => .fault s (f, va)
          | (s3, .ok bs) =>
            .got (s3.busWrite (dieOf t.core) { q.at' with pa := q.at'.pa + 16 } (toBytes 8 (q.popped + 1).toNat)).1 (bytesWords 16 bs)

/-- Hands a record to the `i`-th pending result of a team: one whose push was deferred on another core waits for the write-back, another
is acquired at once and gives its task tag (R322, R323). -/
def State.handRecord (s : State) (key i : Nat) (t : Team) (p : Pend) (ws : List Word32) : State :=
  let side := (ws.getD 8 0).toNat
  let core := side % 2 ^ 11
  if (ws.getD 9 0).getLsbD 0 ∧ core ≠ t.core then
    s.updPend key i fun p => { p with words := ws.take 8, wait := .writeback core (side / 2 ^ 11 % 32) (BitVec.ofNat 16 (side / 2 ^ 16)) }
  else
    let s := match t.l1 with | some c => s.acquireL1 c fun _ => true | none => s
    (s.updPend key i fun p => { p with words := ws.take 8, wait := .ready }).updTeam key fun t =>
      t.updThread p.lane fun th => { th with taskTag := BitVec.ofNat 16 ((ws.getD 7 0).toNat % 2 ^ 16) }

/-- Grants the oldest waiting pops of a queue while it holds records; a pop that meets a fault takes its trap (R322). -/
def State.relayGrant (s : State) (header : Nat) : Nat → State
  | 0 => s
  | n + 1 =>
    match s.oldestPend fun p => p.waitsRelay header with
    | none => s
    | some (_, key, i) =>
      match tget s.teams key with
      | none => s
      | some t =>
        match t.pend[i]? with
        | none => s
        | some p =>
          match s.popAt t (lo64 p.words) with
          | .wait => s
          | .got s ws => (s.handRecord key i t p ws).relayGrant header n
          | .fault s1 f => match s1.failPop key i p f with | some s => s.relayGrant header n | none => s

/-- Grants after a push; every waiting pop is granted at most once. -/
def State.relayWake (s : State) (header : Nat) : State := s.relayGrant header ((s.teams.map fun e => e.2.pend.length).sum)

/-- The outcome of a push by a lane. -/
inductive Push where
  | ok (s : State)
  | full (s : State)
  /-- the header or entry stands in a moving granule -/
  | moving (s : State) (gran : Nat)
  | fault (s : State) (f : AFault)

/-- Pushes a record to the queue at an address, with its side area; `before` acts between the checks and the write (R321). -/
def State.push (s : State) (a : Act) (lane : Nat) (va : Word64) (record : List Word32) (deferred : Bool) (before : State → State) : Push :=
  let die := dieOf a.team.core
  match s.relayAt a.team va .store with
  | (s, .error f) => .fault s f
  | (s, .ok q) =>
    if q.pushed - q.popped = BitVec.ofNat 64 (2 ^ q.log) then .full s
    else
      match s.relayEntry a.team q q.pushed with
      | (s, .error f) => .fault s f
      | (s, .ok x) =>
        if q.at'.moving then .moving s q.at'.gran
        else if x.moving then .moving s x.gran
        else
          let slot := if a.team.kind = .vector then a.team.slot else 0
          let side := a.team.core + slot * 2 ^ 11 + (a.team.tagOf lane).toNat * 2 ^ 16
          let ws := record ++ [BitVec.ofNat 32 side, if deferred then 1 else 0, 0, 0, 0, 0, 0, 0]
          match (before s).busWrite die x (wordsBytes ws) with
          | (s, some f) => .fault s (f, va)
          | (s, none) =>
            match s.busWrite die { q.at' with pa := q.at'.pa + 8 } (toBytes 8 (q.pushed + 1).toNat) with
            | (s, some f) => .fault s (f, va)
            | (s, none) => .ok (s.relayWake q.at'.pa)

/-- The accesses that a deferred release does not leave to the pop: dirty lines of the team under another task tag are written
back; a lane or rein core, which the side area does not name, releases at once (R323, log 24). -/
def State.deferRelease (s : State) (a : Act) (lane : Nat) : State :=
  match a.team.l1 with
  | none => s
  | some c =>
    if a.team.kind = .vector then
      s.cleanLines c fun l => match l.tag with | .team k g => decide (k = a.key ∧ g ≠ a.team.tagOf lane) | _ => false
    else s.releaseL1 c a.key fun _ => true

def execQpush (w : F3) (s : State) : Out :=
  s.asGroup fun a =>
    let rel := w.md.getLsbD 0
    s.issueLanes a 0xF0 (fun th => th.guard w.gs w.gp) (f3Acc 0x247 w) true fun i _ s =>
      let va := lo64 (i.val 0)
      if (rel && s.heldAny a i.lane) || s.heldAcq a i.lane then .wait s
      else match s.push a i.lane va (i.val 1) rel (fun s => if rel then s.deferRelease a i.lane else s) with
        | .ok s => .done (s.commitLane a.key i)
        | .full s => .fault s (openFault i.lane .relayFull va)
        | .fault s f => .fault s (aFault i.lane f)
        | .moving s1 g => if s.holdOver a then .done ((s1.commitLane a.key i).addDrop a 0xF0 i.lane g va) else .wait s

/-- Whether the pop that a lane now asks for fails at once: no earlier pop waits on the queue, and its record cannot be reached (R322). -/
def State.popFails (s : State) (t : Team) (va : Word64) (header : Nat) : Option (State × AFault) :=
  if (s.oldestPend fun p => p.waitsRelay header).isSome then none
  else match s.popAt t va with | .fault s f => some (s, f) | _ => none

/-- QPOP (R322). -/
def execQpop (w : F3) (s : State) : Out :=
  s.asGroup fun a =>
    s.issueLanes a (f3Dest 0x248 w) (fun th => th.guard w.gs w.gp) (f3Acc 0x248 w) true fun i lead s =>
      let va := lo64 (i.val 0)
      if s.heldAcq a i.lane then .wait s
      else match s.relayAt a.team va .load with
        | (s, .error f) => .fault s (aFault i.lane f)
        | (s1, .ok q) =>
          if q.pushed = q.popped ∧ w.md.getLsbD 0 then .done (s1.loadTo a i lead (List.replicate 8 0))
          else if q.at'.moving then
            if s.holdOver a then
              let s := (s1.commitLane a.key i).addDrop a (f3Dest 0x248 w) i.lane q.at'.gran va
              .done (s.updTeam a.key fun t => t.killLoc i.lane i.dest.2 i.dest.1)
            else .wait s
          else match s1.popFails a.team va q.at'.pa with
            | some (s, f) => .fault s (aFault i.lane f)
            | none =>
              let s := (s1.commitLane a.key i).pendDst a.key i.lane lead i.dest.1 i.dest.2 (words64 va)
                (.relay q.at'.pa a.grp.start a.word (a.w8 (f3Dest 0x248 w)))
              .done (s.relayWake q.at'.pa)

/-- RELAY_WRITEBACK_REQUEST (R323): the producer core writes back the lines of a task, and the pops that wait for it acquire and
take their task tags. -/
def execRelayWritebackRequest (s : State) : Out :=
  match s.occ with
  | .team core slot tag =>
    let s := s.cleanLines core fun l => l.ofTask (teamKey core slot) tag
    let waits (p : Pend) : Bool := decide (p.wait = .writeback core slot tag)
    let s := s.teams.foldl (fun s e =>
      if e.2.pend.any waits then (match e.2.l1 with | some c => s.acquireL1 c fun _ => true | none => s) else s) s
    .next { s with teams := s.teams.map fun e =>
      (e.1, e.2.pend.foldl (fun t p =>
        if waits p then t.updThread p.lane fun th => { th with taskTag := (p.words.getD 7 0).setWidth 16 } else t)
        { e.2 with pend := e.2.pend.map fun p => if waits p then { p with wait := .ready } else p }) }
  | _ => .fault .noIssuer

/-- Whether the reserved words of a join block are 0 (R324): one with another value there is no join block, since no reserved value is
silently ignored (R8, log 64). -/
def joinClean (ws : List Word32) : Bool := [1, 4, 5, 6, 7].all fun i => decide (ws.getD i 0 = 0)

/-- JDEC (R324): the counter of a join block, and the push of its continuation. A scalar lane has no scratchpad (R344). -/
def execJdec (w : F3) (s : State) : Out :=
  s.asGroup fun a =>
    let die := dieOf a.team.core
    s.issueLanes a 0xF0 (fun th => th.guard w.gs w.gp) (f3Acc 0x249 w) true fun i _ s =>
      let va := lo64 (i.val 0)
      if a.team.kind = .scalar ∧ field va 63 40 = scratchHandle then .fault s (openFault i.lane .scratchBound va)
      else match s.translate a.team.agent va 64 64 .atom with
      | (s, .error f) => .fault s (xFault i.lane f va)
      | (s1, .ok x) =>
        if s.heldAny a i.lane then .wait s
        else if x.moving then
          if s.holdOver a then .done ((s1.commitLane a.key i).addDrop a 0xF0 i.lane x.gran va) else .wait s
        else
          match ((s1.releaseIn a fun _ => true).evictOwn a x).busRead die x 64 with
          | (s2, .error f) => .fault s2 (xFault i.lane f va)
          | (s2, .ok bs) =>
            let ws := bytesWords 16 bs
            let old := ws.getD 0 0
            if !joinClean ws then .fault s2 (openFault i.lane .relayInvalid va)
            else if old.toInt ≤ 0 then .fault s2 (openFault i.lane .joinUnderflow va)
            else
              match s2.busWrite die x (toBytes 4 (old - 1).toNat) with
              | (s3, some f) => .fault s3 (xFault i.lane f va)
              | (s3, none) =>
                if old ≠ 1 then .done (s3.commitLane a.key i)
                else
                  let q : Word64 := ws.getD 3 0 ++ ws.getD 2 0
                  match (s3.acquireIn a fun _ => true).push a i.lane q (ws.drop 8) false id with
                  | .ok s4 => .done (s4.commitLane a.key i)
                  | .full s4 => .fault s4 (laneFault i.lane .relayFull 1 q)
                  | .fault s4 f => .fault s4 (aFault i.lane f)
                  | .moving s4 g => if s.holdOver a then .done ((s4.commitLane a.key i).addDrop a 0xF0 i.lane g q) else .wait s

/-! ### Results (R124, R421) -/

/-- RESULT_WRITEBACK: the `n`-th pending result of a team is written; one that waits on a ring or relay queue is tested again. -/
def execResultWriteback (s : State) : Out :=
  match s.occ with
  | .result key n =>
    match (tget s.teams key).bind fun t => t.pend[n]? with
    | none => .next s
    | some p =>
      match p.wait with
      | .ready => .next (s.updTeam key fun t => { t.arrive p with pend := t.pend.eraseIdx n })
      | .ring blk off _ => .next (s.ringWake blk off)
      | .relay header .. => .next (s.relayWake header)
      | .held _ | .writeback .. => .next s
  | _ => .fault .noIssuer

end Sys2Proof.Machine
end

