-- ==== Sys2Proof/Machine/Hitch.lean ====
section
/-! DEFINITION. The G10 instructions of the rein core and the array queue of a hitch (spec/12_hitch_matrix.md R272-R284,
spec/03_number_formats.md R92, R93). -/

namespace Sys2Proof.Machine

/-! ### Descriptors (R278) -/

/-- Bits `hi` to `lo` of a 32-bit descriptor. -/
def dfld (d : Word32) (hi lo : Nat) : Nat := d.toNat / 2 ^ lo % 2 ^ (hi + 1 - lo)

/-- The first MATRIX_RANGE detail of a weight, scale or stream descriptor, in detail order. -/
def weightRange (d : Word32) : Option Nat :=
  if dfld d 31 12 ≠ 0 then some 1 else if dfld d 7 0 ≥ 128 ∨ dfld d 7 0 % 2 ≠ 0 then some 2 else none

def scaleRange (d : Word32) : Option Nat :=
  if dfld d 31 15 ≠ 0 ∨ (d.getLsbD 14 ∧ dfld d 13 0 ≠ 0) then some 1 else if dfld d 7 0 ≥ 128 then some 2 else none

/-- First byte and byte count of a stream. -/
def streamBytes (d : Word32) : Nat × Nat := (dfld d 7 0 * 16384 + dfld d 15 8 * 128, (dfld d 23 16 + 1) * 128)

def streamRange (d : Word32) : Option Nat :=
  if dfld d 31 28 ≠ 0 then some 1
  else if dfld d 7 0 ≥ 128 then some 2
  else if (streamBytes d).1 + (streamBytes d).2 > 2 ^ 21 then some 3 else none

/-- An accumulator descriptor that covers `rows` rows; in MSTREAM its own count must be 0. -/
def accRange (d : Word32) (rows : Nat) (stream : Bool) : Option Nat :=
  if dfld d 15 9 ≠ 0 ∨ dfld d 31 24 ≠ 0 ∨ (stream ∧ dfld d 23 16 ≠ 0) then some 1
  else if dfld d 7 0 + rows > 256 then some 4 else none

/-- The first slot of a list that the program of a hitch does not hold. -/
def State.unclaimed (s : State) (hitch : Nat) (slots : List Nat) : Option Nat :=
  slots.find? fun k => !(s.hitch hitch).runs.any fun r => !r.released && decide (r.first ≤ k ∧ k < r.first + r.n)

/-- A precise trap of the rein core. -/
def matrixRange (i : LaneIn) (d : Nat) : LaneFault := laneFault i.lane .matrixRange (BitVec.ofNat 32 d) 0
def slotFault (i : LaneIn) (k : Nat) : LaneFault := laneFault i.lane .slotNotClaimed (BitVec.ofNat 32 k) 0

/-! ### MCLAIM and MRELS (R273, R274) -/

/-- The lowest aligned run of `n` slots that is free. -/
def Hitch.freeRun (h : Hitch) (n : Nat) : Option Nat :=
  ((List.range (128 / n)).map (n * ·)).find? fun s => h.runs.all fun r => decide (s + n ≤ r.first ∨ r.first + r.n ≤ s)

/-- Operand bytes from slot `s` on for `n` slots read 0. -/
def Hitch.zeroSlots (h : Hitch) (s n : Nat) : Hitch :=
  { h with mem := h.mem.filter fun e => !decide (s * 16384 ≤ e.1 ∧ e.1 < (s + n) * 16384) }

def execMclaim (w : F3) (s : State) : Out :=
  s.asGroup fun a =>
    let n := 2 ^ mdField w.md 1 0
    let hitch := hitchOf a.team.core
    let noRun (s : State) (i : LaneIn) (lead : Bool) : LaneRes :=
      if w.md.getLsbD 2 then .done ((s.commitLane a.key i).writeDst a.key i.lane lead i.dest.1 [0xFFFFFFFF]) else .wait s
    s.issueLanes a (f3Dest 0x280 w) (fun th => th.guard w.gs w.gp) (f3Acc 0x280 w) false fun i lead s =>
      match (s.hitch hitch).freeRun n with
      | none => noRun s i lead
      | some first =>
        match s.tryCharge (s.tabFor (dieOf a.team.core) a.team.block) a.team.region.toNat [(8, n)] with
        | .failed s => .fault s (laneFault i.lane .permission 0 0)
        | .wait => noRun s i lead
        | .ok s p =>
          let run : Run := { first := first, n := n, released := false, path := p }
          let s := s.updHitch hitch fun h => { h.zeroSlots first n with runs := h.runs ++ [run] }
          .done ((s.commitLane a.key i).writeDst a.key i.lane lead i.dest.1 [BitVec.ofNat 32 first])

def execMrels (w : F3) (s : State) : Out :=
  s.asGroup fun a =>
    let n := 2 ^ mdField w.md 1 0
    let hitch := hitchOf a.team.core
    s.issueLanes a 0xF0 (fun th => th.guard w.gs w.gp) (f3Acc 0x281 w) false fun i _ s =>
      let x := (lo32 (i.val 0)).toNat
      if x > 127 ∨ x % n ≠ 0 then .fault s (matrixRange i 2)
      else if !(s.hitch hitch).runs.any fun r => !r.released && decide (r.first = x ∧ r.n = n) then .fault s (slotFault i x)
      else
        let s := s.updHitch hitch fun h => { h with
          runs := h.runs.map fun r => if r.first = x ∧ !r.released then { r with released := true } else r }
        .done ((s.freeRuns hitch).commitLane a.key i)

/-! ### Issue into the array queue (R276, R277, R279) -/

/-- The width class of a format that the array accepts (R279). -/
def widthClass (fmt : Nat) : Option Nat :=
  if fmt = 2 then some 16 else if fmt = 3 ∨ fmt = 4 ∨ fmt = 6 then some 8 else if fmt = 5 ∨ fmt = 7 then some 4 else none

/-- FORMAT_MISMATCH with the activation and weight codes. -/
def formatFault (i : LaneIn) (act wt : Nat) : LaneFault := laneFault i.lane .formatMismatch (BitVec.ofNat 32 (act + wt * 16)) 0

/-- Enters a checked operation into the array queue; the rein core stalls while it is full, and while an acquire that it follows has
not performed (R247, R286). -/
def State.enqueue (s : State) (a : Act) (i : LaneIn) (o : ArrOp) (f : Hitch → Hitch) : LaneRes :=
  let hitch := hitchOf a.team.core
  if (s.hitch hitch).arrayQ.length ≥ 16 || s.heldAcq a i.lane then .wait s
  else .done ((s.updHitch hitch fun h => f { h with arrayQ := h.arrayQ ++ [o] }).commitLane a.key i)

def execMldw (w : F3) (s : State) : Out :=
  s.asGroup fun a =>
    let hitch := hitchOf a.team.core
    s.issueLanes a 0xF0 (fun th => th.guard w.gs w.gp) (f3Acc 0x282 w) false fun i _ s =>
      let wd := lo32 (i.val 0)
      let sd := lo32 (i.val 1)
      let fmt := dfld wd 11 8
      match (weightRange wd).or (scaleRange sd) with
      | some d => .fault s (matrixRange i d)
      | none =>
        match s.unclaimed hitch (ArrOp.ldw wd sd).slots with
        | some k => .fault s (slotFault i k)
        | none =>
          if (widthClass fmt).isNone then .fault s (formatFault i 15 fmt)
          else s.enqueue a i (.ldw wd sd) fun h => { h with lastFmt := some (BitVec.ofNat 4 fmt) }

def execMstream (w : F3) (s : State) : Out :=
  s.asGroup fun a =>
    let hitch := hitchOf a.team.core
    s.issueLanes a 0xF0 (fun th => th.guard w.gs w.gp) (f3Acc 0x283 w) false fun i _ s =>
      let st := lo32 (i.val 0)
      let sd := lo32 (i.val 1)
      let ad := lo32 (i.val 2)
      let act := dfld st 27 24
      match ((streamRange st).or (scaleRange sd)).or (accRange ad (dfld st 23 16 + 1) true) with
      | some d => .fault s (matrixRange i d)
      | none =>
        match s.unclaimed hitch (ArrOp.stream st sd ad).slots with
        | some k => .fault s (slotFault i k)
        | none =>
          match (s.hitch hitch).lastFmt with
          | none => .fault s (formatFault i act 15)
          | some f =>
            if (widthClass act).isNone ∨ widthClass act ≠ widthClass f.toNat then .fault s (formatFault i act f.toNat)
            else s.enqueue a i (.stream st sd ad) id

def execMzero (w : F3) (s : State) : Out :=
  s.asGroup fun a =>
    s.issueLanes a 0xF0 (fun th => th.guard w.gs w.gp) (f3Acc 0x284 w) false fun i _ s =>
      let ad := lo32 (i.val 0)
      match accRange ad (dfld ad 23 16 + 1) false with
      | some d => .fault s (matrixRange i d)
      | none => s.enqueue a i (.zero ad) id

/-- The fault of a thread that names a queue (R288, R291, R311): its owner, its enabled bit, its stop. -/
def State.queueFault (s : State) (t : Team) (lane q : Nat) (checkStop : Bool) : Option LaneFault :=
  let k := s.queue (dieOf t.core) q
  if k.owner ≠ t.region ∨ !k.enabled then some (laneFault lane .permission 0 0)
  else if checkStop ∧ k.state = .stopped then
    some { lane := lane, cause := k.cause, w9 := BitVec.ofNat 32 (dieOf t.core * 32 + q), addr := k.addr }
  else none

def execMdrain (w : F3) (s : State) : Out :=
  s.asGroup fun a =>
    s.issueLanes a 0xF0 (fun th => th.guard w.gs w.gp) (f3Acc 0x285 w) false fun i _ s =>
      let ad := lo32 (i.val 0)
      let q := (lo32 (i.val 1)).toNat
      match (accRange ad (dfld ad 23 16 + 1) false).or (if q / 32 ≠ 0 then some 5 else none) with
      | some d => .fault s (matrixRange i d)
      | none =>
        match s.queueFault a.team i.lane q true with
        | some f => .fault s f
        | none =>
          if w.md.getLsbD 0 then s.enqueue a i (.drain ad q a.word none (lo64 (i.val 2))) id
          else s.enqueue a i (.drain ad q a.word (some (i.val 2)) 0) id

/-! ### MSYNC (R284) -/

/-- Whether every earlier drain has been handed over. -/
def Hitch.handed (h : Hitch) : Bool := h.arrayQ.all fun o => match o with | .drain .. => false | _ => true

/-- One lane of an MSYNC that waits until `p` holds of the hitch. -/
def State.syncUntil (s : State) (opc : Nat) (w : F3) (p : Hitch → Bool) : Out :=
  s.asGroup fun a =>
    s.issueLanes a 0xF0 (fun th => th.guard w.gs w.gp) (f3Acc opc w) false fun i _ s =>
      if p (s.hitch (hitchOf a.team.core)) then .done (s.commitLane a.key i) else .wait s

def execMsync (w : F3) (s : State) : Out := s.syncUntil 0x286 w fun h => h.arrayQ.isEmpty && h.locked.isEmpty

def execMsyncHand (w : F3) (s : State) : Out := s.syncUntil 0x286 w Hitch.handed

/-! ### The array (R280, R281, R283) -/

/-- The accumulator rows that an operation writes or reads. -/
def ArrOp.rows : ArrOp → List Nat
  | .ldw .. => []
  | .stream st _ ad => (List.range (dfld st 23 16 + 1)).map fun j => dfld ad 8 8 * 256 + (dfld ad 7 0 + j)
  | .zero ad | .drain ad .. => accRows ad

def ArrOp.isDrain : ArrOp → Bool
  | .drain .. => true
  | _ => false

/-- The operation that the array performs next: the first that is no drain, once no earlier drain and no locked row stands in its
way. -/
def Hitch.nextOp (h : Hitch) : Option (Nat × ArrOp) :=
  match h.arrayQ.findIdx? fun o => !o.isDrain with
  | none => none
  | some k =>
    match h.arrayQ[k]? with
    | none => none
    | some o =>
      let busy := h.locked ++ ((h.arrayQ.take k).map ArrOp.rows).flatten
      if o.rows.any busy.contains then none else some (k, o)

/-- An accumulator element written; +0 stays unlisted. -/
def Hitch.setAcc (h : Hitch) (key : Nat) (x : Word32) : Hitch :=
  { h with acc := if x = 0 then tdel h.acc key else tset h.acc key x }

/-- The scale byte `k` of a scale descriptor's block; 0x7F under unit (R278). -/
def Hitch.scale (h : Hitch) (sd : Word32) (k : Nat) : Nat :=
  if sd.getLsbD 14 then 0x7F else (byteAt h.mem (dfld sd 7 0 * 16384 + dfld sd 13 8 * 256 + k)).toNat

/-- MLDW performs: the tile, format and column scales are latched (R280). -/
def Hitch.load (h : Hitch) (wd sd : Word32) : Hitch :=
  let wt : Weights :=
    { fmt := BitVec.ofNat 4 (dfld wd 11 8), tile := readBytes h.mem (dfld wd 7 0 * 16384) 32768
      scales := (List.range 256).map fun c => BitVec.ofNat 8 (h.scale sd c) }
  { h with weights := some wt }

/-- Element `k` of packed bytes in a format (R81). -/
def packedElem (fmt : Nat) (bs : List Byte) (k : Nat) : FVal :=
  let b := fmtBits fmt
  if b = 4 then readElem fmt ((bs.getD (k / 2) 0).toNat / 2 ^ (4 * (k % 2)) % 16)
  else readElem fmt (ofBytes ((bs.drop (k * (b / 8))).take (b / 8)))

/-- One activation row of a stream: every column of its accumulator row takes a pass (R281). -/
def Hitch.passRow (h : Hitch) (wt : Weights) (fmt : Nat) (row : List Byte) (er accRow : Nat) : Hitch :=
  let k := 1024 / fmtBits fmt
  (List.range 256).foldl (fun h c =>
    let ps := (List.range k).map fun j => (packedElem fmt row j, packedElem wt.fmt.toNat wt.tile (j * 256 + c))
    let key := accRow * 256 + c
    let old := ((tget h.acc key).getD 0).toNat
    h.setAcc key (BitVec.ofNat 32 (passSum (if fmt = 2 then 48 else 64) ps er (wt.scales.getD c 0).toNat old))) h

/-- MSTREAM performs, row by row. -/
def Hitch.stream (h : Hitch) (st sd ad : Word32) : Hitch :=
  match h.weights with
  | none => h
  | some wt =>
    let mem := h.mem
    (List.range (dfld st 23 16 + 1)).foldl (fun h j =>
      h.passRow wt (dfld st 27 24) (readBytes mem ((streamBytes st).1 + 128 * j) 128) (h.scale sd j) (dfld ad 8 8 * 256 + dfld ad 7 0 + j)) h

/-- MZERO performs. -/
def Hitch.zeroRows (h : Hitch) (rows : List Nat) : Hitch := { h with acc := h.acc.filter fun e => !rows.contains (e.1 / 256) }

/-- What follows the performance of an operation: deferred releases, and the end of the program. -/
def State.settleHitch (s : State) (hitch : Nat) : State :=
  let s1 := (s.freeRuns hitch).reinEnd hitch
  match (s.hitch hitch).fork with | some (blk, _) => s1.settleBlock blk | none => s1

/-- Performs the array's next operation when it is of the kind that `f` performs. -/
def State.arrayStep (s : State) (f : ArrOp → Hitch → Option Hitch) : Out :=
  match s.occ with
  | .hitch n =>
    let h := s.hitch n
    match h.nextOp with
    | none => .next s
    | some (k, o) =>
      match f o h with
      | none => .next s
      | some h' => .next ((s.updHitch n fun _ => { h' with arrayQ := h.arrayQ.eraseIdx k }).settleHitch n)
  | _ => .fault .noIssuer

def execMldwPerform (s : State) : Out :=
  s.arrayStep fun o h => match o with | .ldw wd sd => some (h.load wd sd) | _ => none

def execMstreamPerform (s : State) : Out :=
  s.arrayStep fun o h => match o with | .stream st sd ad => some (h.stream st sd ad) | _ => none

def execMzeroPerform (s : State) : Out :=
  s.arrayStep fun o h => match o with | .zero ad => some (h.zeroRows (accRows ad)) | _ => none

/-- Whether a queue can take a command of a block: it is unbound or bound to it, with room (R283, R289, R313). -/
def Queue.takes (k : Queue) (blk : Nat) : Bool := decide (k.state = .idle ∨ k.block = some blk) && decide (k.fifo.length < 64)

/-- Appends an entry to a queue, binding it to a block. -/
def Queue.append (k : Queue) (blk : Nat) (e : Entry) : Queue :=
  { k with fifo := k.fifo ++ [e], block := some blk, state := if k.state = .idle then .bound else k.state }

/-- DRAIN_HANDOVER (R283): the first drain enters its queue once the operations that write its rows have performed and the queue
takes it; its rows are locked. -/
def execDrainHandover (s : State) : Out :=
  match s.occ with
  | .hitch n =>
    let h := s.hitch n
    match h.arrayQ.findIdx? ArrOp.isDrain, h.fork, tget s.teams (reinKey n) with
    | some k, some (blk, _), some t =>
      match h.arrayQ[k]? with
      | some (.drain ad q word tsr at') =>
        let before := ((h.arrayQ.take k).map ArrOp.rows).flatten
        let die := n / 24
        if (accRows ad).any before.contains ∨ !(s.queue die q).takes blk then .next s
        else
          let e : Entry := { word := word, extra := [], tsr := tsr, ctx := t.ctx, drain := some (ad, at'), hitch := n, pc := none, rows := [], unlocked := false }
          let s := s.updHitch n fun h => { h with arrayQ := h.arrayQ.eraseIdx k, locked := h.locked ++ accRows ad }
          .next ((s.updQueue die q fun k => k.append blk e).settleHitch n)
      | _ => .next s
    | _, _, _ => .next s
  | _ => .fault .noIssuer

end Sys2Proof.Machine
end

