-- ==== Sys2Proof/Machine/Fork.lean ====
section
/-! DEFINITION. FORK, RDV and CPY (spec/13_copy_engines.md R313-R317). -/

namespace Sys2Proof.Machine

/-! ### Descriptors and rendezvous objects -/

/-- Reads `k` doublewords at an address that is a multiple of 8, for a lane. -/
def State.readDoubles (s : State) (a : Act) (va : Word64) : Nat → State × Except AFault (List Word64)
  | 0 => (s, .ok [])
  | k + 1 =>
    match s.readDoubles a va k with
    | (s, .error f) => (s, .error f)
    | (s, .ok ds) =>
      let at' := va + BitVec.ofNat 64 (8 * k)
      match s.readLane a at' 8 8 0 with
      | (s, .error f) => (s, .error (f, at'))
      | (s, .ok bs) => (s, .ok (ds ++ [BitVec.ofNat 64 (ofBytes bs)]))

/-- The checks of a rendezvous offset (R314, R316): its place in the block's window, or the lane's fault. -/
def State.rdvPlace (s : State) (t : Team) (lane : Nat) (o : Word32) : Option LaneFault :=
  if o.toNat % 32 ≠ 0 then some (openFault lane .misaligned (o.setWidth 64))
  else
    match tget s.blocks t.block with
    | some b => if o.toNat + 32 ≤ b.window then none else some (openFault lane .scratchBound (o.setWidth 64))
    | none => some (openFault lane .scratchBound (o.setWidth 64))

/-- A fork descriptor (R314). -/
structure ForkDesc where
  rein : Bool
  queues : List Nat
  entry : Word64
  arg : Word64
  progs : List Word64
  reserved : Bool
  deriving DecidableEq, Repr

def forkDesc (ds : List Word64) : ForkDesc :=
  let d (i : Nat) : Word64 := ds.getD i 0
  let n := field (d 0) 2 1
  let w1 := high32 (d 0)
  { rein := (d 0).getLsbD 0, queues := (List.range n).map fun i => dfld w1 (8 * i + 4) (8 * i)
    entry := d 1, arg := d 2, progs := (List.range n).map fun i => d (3 + i)
    reserved := decide (field (d 0) 31 3 ≠ 0 ∨ w1 &&& ~~~(0x1F1F1F : Word32) ≠ 0 ∨ d 6 ≠ 0 ∨ d 7 ≠ 0) }

/-- A rein core at the start of its program (R268, R269). -/
def newRein (hitch : Nat) (t : Team) (entry arg : Word64) (clock : Nat) : Team where
  kind := .rein
  core := hitchCore hitch
  slot := 33
  gen := 0xFFFF
  block := t.block
  tix := 0
  mode := t.mode
  region := t.region
  ortBase := t.ortBase
  ortSize := t.ortSize
  asid := t.asid
  ortNext := []
  dirRange := false
  scopeMis := false
  step := false
  xltLimit := 0x100000
  relocLimit := 0x1000000
  rdvLimit := 0x10000000
  m := List.replicate 12 0
  s := List.replicate 16 { val := 0, full := true }
  res := none
  active := true
  legs := 0
  waitSince := clock
  threads := [{
    stat := .atLeg, pc := entry, awaits := [], readySince := clock
    v := (List.range 64).map fun i => VReg.write (if i < 2 then (words64 arg).getD i 0 else 0)
    t := List.replicate 6 0, ix := List.replicate 8 0, p := 0, mt := 0, d := [], bag := [], bagBytes := 0, bsp := 0
    taskTag := 0, idem := false, sect := 0, tid := 0, resume := 0 }]
  groups := []
  pend := []
  drops := []

/-- Starts a rein core program for a fork (R269). -/
def State.startRein (s : State) (hitch : Nat) (t : Team) (off : Nat) (d : ForkDesc) : State :=
  (s.updHitch hitch fun h => { h with
      acc := [], weights := none, lastFmt := none, asid := some t.asid, fork := some (t.block, off), arrayQ := [] }).setTeam
    (reinKey hitch) (newRein hitch t d.entry d.arg s.clock)

/-- Starts a queue program (R289, R314). -/
def Queue.start (k : Queue) (blk : Nat) (at' : Word64) (ctx : Ctx) : Queue :=
  { k with state := .bound, block := some blk, prog := some (at', ctx), progress := 0, cnt := [0, 0], armed := [false, false]
           cur := none, elem := 0, cause := 0, detail := 0, addr := 0, command := 0 }

/-! ### FORK (R314) -/

/-- What a FORK comes to for its lead lane. -/
inductive ForkRes where
  | done (s : State)
  | wait
  | fault (s : State) (f : LaneFault)

def State.forkLane (s : State) (a : Act) (i : LaneIn) : ForkRes :=
  let die := dieOf a.team.core
  let hitch := hitchOf a.team.core
  let o := lo32 (i.val 1)
  match s.readDoubles a (lo64 (i.val 0)) 8 with
  | (s1, .error f) => .fault s1 (aFault i.lane f)
  | (s1, .ok ds) =>
    let d := forkDesc ds
    let fault (f : LaneFault) : ForkRes := .fault s1 f
    if d.reserved then fault (matrixRange i 1)
    else if (!d.rein && d.queues.isEmpty) || decide (¬ d.queues.Nodup) then fault (matrixRange i 5)
    else
      match d.queues.findSome? fun q => s1.queueFault a.team i.lane q false with
      | some f => fault f
      | none =>
        match s1.rdvPlace a.team i.lane o with
        | some f => fault f
        | none =>
          match d.queues.findSome? fun q => s1.queueFault a.team i.lane q true with
          | some f => fault f
          | none =>
            match ((if d.rein then [d.entry] else []) ++ d.progs).find? fun x => decide (x.toNat % 8 ≠ 0) with
            | some x => fault (openFault i.lane .misaligned x)
            | none =>
              if s.heldAny a i.lane then .wait
              else if (d.rein && (s1.hitch hitch).fork.isSome) || d.queues.any fun q => decide ((s1.queue die q).state ≠ .idle) then .wait
              else
                match (if d.rein then s1.tryCharge (s1.tabFor die a.team.block) a.team.region.toNat [(7, 1)] else .ok s1 []) with
                | .failed s2 => .fault s2 (laneFault i.lane .permission 0 0)
                | .wait => .wait
                | .ok s2 path =>
                  let s3 := s2.releaseIn a fun _ => true
                  let f : Fork := { off := o.toNat, hitch := hitch, die := die, queues := d.queues, rein := d.rein, ended := 0, path := path }
                  let start := words64 (BitVec.ofNat 64 s.clock)
                  let qs := (d.queues.zipIdx.map fun e => e.1 * 2 ^ (8 * e.2)).sum
                  let s4 := s3.scratchWrite a.team.block o.toNat
                    (wordsBytes ([BitVec.ofNat 32 (f.expected.toNat + hitch * 2 ^ 16), 0] ++ start ++ [BitVec.ofNat 32 qs, 0, 0, 0]))
                  let s5 := s4.updBlock a.team.block fun b => { b with forks := b.forks.filter (fun g => decide (g.off ≠ o.toNat)) ++ [f] }
                  let s6 := (d.queues.zip d.progs).foldl (fun s e =>
                    s.updQueue die e.1 fun k => k.start a.team.block e.2 a.team.ctx) s5
                  .done (if d.rein then s6.startRein hitch a.team o.toNat d else s6)

/-- FORK is performed once for the group, with the operands of its lowest thread (R314); its trap is the group's (log 25). Lanes whose
operands fault trap while others still wait (R125). -/
def execFork (w : F3) (s : State) : Out :=
  s.asGroup fun a =>
    let ls := s.gatherOp a (fun th => th.guard w.gs w.gp) (f3Acc 0x2C0 w)
    let s1 := s.faultLanes a 0xF0 (ls.filterMap fun l => l.got.findSome? Got.fault?)
    if ls.any fun l => l.got.any Got.waits then s1.holdAt a .stall
    else
      let ok := ls.filterMap fun l => match l.got.getD 0 .skip with | .ok i => some i | _ => none
      match ok with
      | [] => s1.advance a
      | i :: _ =>
        match s1.forkLane a i with
        | .wait => s1.holdAt a (.wait 0)
        | .fault s2 f => (s2.faultLanes a 0xF0 (ok.map fun j => { f with lane := j.lane })).advance a
        | .done s2 => (ok.foldl (fun s j => s.commitLane a.key j) s2).advance a

/-! ### RDV (R311, R316, R317) -/

/-- A stopped queue that a rendezvous object names among its unended parties: its die-local number. -/
def State.rdvStopped (s : State) (die blk off : Nat) : Option Nat :=
  let w0 := (s.scratchWord blk off).toNat
  let w4 := s.scratchWord blk (off + 16)
  ([0, 1, 2].find? fun i =>
    let q := dfld w4 (8 * i + 4) (8 * i)
    decide (w0 / 2 ^ (i + 1) % 2 = 1 ∧ w0 / 2 ^ (i + 5) % 2 = 0 ∧ (s.queue die q).state = .stopped ∧ (s.queue die q).block = some blk)).map
    fun i => dfld w4 (8 * i + 4) (8 * i)

/-- Age(o) of a rendezvous object on a die. -/
def State.rdvAge (s : State) (blk off : Nat) : Nat :=
  (BitVec.ofNat 64 s.clock - (s.scratchWord blk (off + 12) ++ s.scratchWord blk (off + 8))).toNat

/-- Whether a rendezvous object as stored sets a reserved bit (R8, R315; log 64). -/
def State.rdvReserved (s : State) (blk off : Nat) : Bool :=
  let w (i : Nat) : Word32 := s.scratchWord blk (off + 4 * i)
  decide (dfld (w 0) 15 9 ≠ 0 ∨ dfld (w 1) 31 10 ≠ 0 ∨ w 4 &&& ~~~(0x1F1F1F : Word32) ≠ 0 ∨ w 5 ≠ 0 ∨ w 6 ≠ 0 ∨ w 7 ≠ 0)

/-- One lane of an RDV, after an abort where the form asks for one. -/
def State.rdvLane (s : State) (a : Act) (w : F3) (i : LaneIn) (lead : Bool) : LaneRes :=
  let o := lo32 (i.val 0)
  let blk := a.team.block
  let die := dieOf a.team.core
  match s.rdvPlace a.team i.lane o with
  | some f => .fault s f
  | none =>
    if s.rdvReserved blk o.toNat then .fault s (openFault i.lane .reservedField (o.setWidth 64)) else
    let s := if w.md.getLsbD 0 then (s.abortFork blk o.toNat).updRdv blk o.toNat 0 fun x => x ||| 0x100 else s
    let w0 := (s.scratchWord blk o.toNat).toNat
    let expected := w0 % 16
    let ended := w0 / 16 % 16
    let aborted := decide (w0 / 256 % 2 = 1)
    let all := decide (expected &&& ended = expected)
    let limit := a.team.rdvLimit.toNat
    match (if aborted then none else s.rdvStopped die blk o.toNat) with
    | some q =>
      let k := s.queue die q
      .fault s { lane := i.lane, cause := k.cause, w9 := BitVec.ofNat 32 (die * 32 + q), addr := k.addr }
    | none =>
      if all || aborted then
        let s := (s.acquireIn a fun _ => true).commitLane a.key i
        .done (s.writeDst a.key i.lane lead i.dest.1 [if aborted then 1 else 0])
      else if limit ≠ 0 ∧ s.rdvAge blk o.toNat > limit then
        .fault s (laneFault i.lane .rdvTimeout (BitVec.ofNat 32 (expected - (expected &&& ended))) (o.setWidth 64))
      else .wait s

/-- RDV issues for a group: each thread acts alone. -/
def State.rdvIssue (s : State) (a : Act) (w : F3) : State :=
  s.issueLanes a (f3Dest 0x2C1 w) (fun th => th.guard w.gs w.gp) (f3Acc 0x2C1 w) false fun i lead s => s.rdvLane a w i lead

def execRdv (w : F3) (s : State) : Out := s.asGroup fun a => s.rdvIssue a w

def execRdvAbort (w : F3) (s : State) : Out := s.asGroup fun a => s.rdvIssue a w

/-- RDV_TIMEOUT (R316): a group held at an RDV tests its age, and the lanes past the limit trap. -/
def execRdvTimeout (s : State) : Out :=
  match s.occ with
  | .group key g =>
    match s.actOf key g with
    | some a =>
      match a.grp.hold, decode a.word with
      | .wait _, .ok (.rdv w) => .next (s.rdvIssue a w)
      | _, _ => .next s
    | none => .next s
  | _ => .fault .noIssuer

/-! ### CPY (R313) -/

def execCpy (w : F3) (s : State) : Out :=
  s.asGroup fun a =>
    let die := dieOf a.team.core
    let inline := w.md.getLsbD 0
    s.issueLanes a 0xF0 (fun th => th.guard w.gs w.gp) (f3Acc 0x2C2 w) true fun i _ s =>
      let ws := i.val 0
      let c := lo64 ws
      let code := field c 63 58
      let q := (lo32 (i.val 1)).toNat
      if q / 32 ≠ 0 then .fault s (matrixRange i 5)
      else
        match s.queueFault a.team i.lane q false with
        | some f => .fault s f
        | none =>
          if code = 11 ∧ a.team.mode = .u then .fault s (openFault i.lane .privilegedOp 0)
          else
            match s.queueFault a.team i.lane q true with
            | some f => .fault s f
            | none =>
              if inline && !(decide (code = 0 ∨ code = 2 ∨ code = 5) && c.getLsbD 2) then .fault s (openFault i.lane .reservedField 0)
              else if s.heldAny a i.lane || !(s.queue die q).takes a.team.block then .wait s
              else
                let e : Entry :=
                  { word := c, extra := (List.range (field c 57 56)).map fun k => lo64 (ws.drop (2 + 2 * k))
                    tsr := if inline then some (i.val 2) else none, ctx := a.team.ctx, drain := none, hitch := hitchOf a.team.core, pc := none, rows := [], unlocked := false }
                let s := (s.releaseIn a fun _ => true).commitLane a.key i
                .done (s.updQueue die q fun k => k.append a.team.block e)

end Sys2Proof.Machine
end

