-- ==== Sys2Proof/Machine/Sys.lean ====
section
/-! DEFINITION. System calls, system registers, translation and code shootdown, keys, halting, and the serving of trap records
(spec/15_privilege_and_traps.md R343-R370; spec/09_objects_and_translation.md R206, R221, R228, R229;
spec/16_code_and_compatibility.md R376; spec/08_saddlebags_and_core_array.md R189, R192, R193). -/

namespace Sys2Proof.Machine

/-! ### TRAP (R353) -/

/-- Parks the performing lanes of a TRAP: by one record each, or by one record for all. -/
def State.parkTrap (s : State) (a : Act) (dest : Code) (fs : List LaneFault) (each : Bool) : State :=
  let at' : Nat → Point := fun _ => if a.team.kind = .scalar then a.after else a.here
  let i := { a.trapAt dest with detail := false }
  if each then fs.foldl (fun s f => s.trap a.key i (BitVec.twoPow 64 f.lane) [f] f at') s
  else
    match fs with
    | f :: _ => s.trap a.key i (laneMask (fs.map (·.lane))) fs f at'
    | [] => s

/-- TRAP and TRAP.brk: `mk` gives the fault of a lane. -/
def State.trapWord (s : State) (w : F3) (each : Bool) (mk : LaneIn → LaneFault) : Out :=
  s.asGroup fun a =>
    let ls := s.gatherOp a (fun th => th.guard w.gs w.gp) (f3Acc 0x2C3 w)
    let s1 := s.faultLanes a (f3Dest 0x2C3 w) (ls.filterMap fun l => l.got.findSome? Got.fault?)
    if ls.any fun l => l.got.any Got.waits then s1.holdAt a .stall
    else
      let ok := ls.filterMap fun l => match l.got.getD 0 .skip with | .ok i => some i | _ => none
      ((ok.foldl (fun s i => s.commitLane a.key i) s1).parkTrap a (f3Dest 0x2C3 w) (ok.map mk) each).advance a

def execTrap (w : F3) (s : State) : Out :=
  s.trapWord w true fun i => { lane := i.lane, cause := Cause.syscall.code, w9 := lo32 (i.val 1), addr := lo64 (i.val 0) }

def execTrapBrk (w : F3) (s : State) : Out :=
  s.trapWord w false fun i => { lane := i.lane, cause := Cause.breakpoint.code, w9 := lo32 (i.val 0), addr := 0 }

/-- SRET (R359): takes effect at the trailer of its leg. -/
def execSret (w : F3) (s : State) : Out :=
  s.asGroup fun a =>
    s.issueLanes a 0xF0 (fun th => th.guard w.gs w.gp) (f3Acc 0x2C4 w) false fun i _ s =>
      .done ((s.updCore a.team.core fun k => { k with sret := true }).commitLane a.key i)

/-! ### System registers (R345-R347) -/

/-- The registers: width in bytes, and who may access them (0 every team, 1 supervisor mode, 2 the scalar lane alone). -/
def sysInfo (n : Nat) : Option (Nat × Nat) :=
  match n with
  | 0x010 | 0x022 | 0x050 | 0x060 | 0x080 => some (4, 0)
  | 0x030 => some (8, 0)
  | 0x021 | 0x023 | 0x024 | 0x025 | 0x041 | 0x042 | 0x070 | 0x071 | 0x072 | 0x073 => some (4, 1)
  | 0x020 | 0x040 => some (8, 1)
  | 0x032 | 0x033 | 0x036 | 0x038 | 0x039 => some (4, 2)
  | 0x031 | 0x034 | 0x035 | 0x037 => some (8, 2)
  | _ => none

/-- The fault of an access to a register, before its value is looked at (R345, R346). -/
def sysCheck (t : Team) (n : Nat) (wide write : Bool) : Option Cause :=
  match sysInfo n with
  | none => some .reservedField
  | some (width, who) =>
    if width ≠ (if wide then 8 else 4) then some .reservedField
    else if who = 2 ∧ t.kind ≠ .scalar then some .privilegedOp
    else if who = 1 ∧ t.mode = .u then some .privilegedOp
    else if n = 0x050 ∧ write ∧ t.mode = .u then some .privilegedOp
    else none

/-- sys.status for a thread (R347). -/
def Team.status (t : Team) (th : Thread) : Nat :=
  flagBit t.dirRange 0 + flagBit t.scopeMis 1 + flagBit (decide (t.mode = .s)) 2 + flagBit t.step 3 + flagBit th.idem 4

/-- sys.core_split (R192). -/
def Core.split (k : Core) : Nat :=
  k.splitTarget + k.splitCurrent * 2 ^ 8 + flagBit k.splitMoving 16 + flagBit k.splitBusy 17

/-- The value of a register for a lane (R346); the team limits read 0 on the scalar lane. -/
def State.sysValue (s : State) (t : Team) (th : Thread) (n : Nat) : Nat :=
  let k := s.core t.core
  let lane := decide (t.kind = .scalar)
  match n with
  | 0x010 => t.status th
  | 0x020 => k.tqBase.toNat
  | 0x021 => k.tqHead.toNat
  | 0x022 => k.tqTail.toNat
  | 0x023 => k.tqBatch.toNat
  | 0x024 => k.tqAge.toNat
  | 0x025 => k.tqHand.toNat
  | 0x030 => (k.timer s.clock).toNat
  | 0x031 => k.timerCmp.toNat
  | 0x032 => k.intPending.toNat
  | 0x033 => k.intEnable.toNat
  | 0x034 => k.tvec.toNat
  | 0x035 => k.tpc.toNat
  | 0x036 => k.cause.toNat
  | 0x037 => k.tval.toNat
  | 0x039 => k.wdt.toNat - (s.clock - k.wdtSet)
  | 0x040 => t.ortBase.toNat
  | 0x041 => t.ortSize.toNat
  | 0x042 => t.asid.toNat
  | 0x050 => k.split
  | 0x060 => t.region.toNat
  | 0x070 => if lane then 0 else t.xltLimit.toNat
  | 0x071 => k.preGrace.toNat
  | 0x072 => if lane then 0 else t.relocLimit.toNat
  | 0x073 => if lane then 0 else t.rdvLimit.toNat
  | 0x080 => th.bsp.toNat
  | _ => 0

def execSysrd (w : F3) (s : State) : Out :=
  s.asGroup fun a =>
    let wide := w.md.getLsbD 0
    s.issueLanes a (f3Dest 0x2C5 w) (fun th => th.guard w.gs w.gp) (f3Acc 0x2C5 w) true fun i lead s =>
      match sysCheck a.team (sysNumber w) wide false with
      | some c => .fault s (openFault i.lane c 0)
      | none =>
        let x := BitVec.ofNat 64 (s.sysValue a.team (a.thread i.lane) (sysNumber w))
        .done ((s.commitLane a.key i).writeDst a.key i.lane lead i.dest.1 (valWords (if wide then 8 else 4) x))

/-- A SYSWR: the checks of R345, then `f` with the lane and its value, which refuses the value by a cause; a register of a team or
core takes the lowest lane's write. -/
def State.sysWrite (s : State) (w : F3) (perThread : Bool) (f : Act → Nat → Word64 → State → Except Cause State) : Out :=
  s.asGroup fun a =>
    let wide := w.md.getLsbD 0
    s.issueLanes a 0xF0 (fun th => th.guard w.gs w.gp) (f3Acc 0x2C6 w) true fun i lead s =>
      match sysCheck a.team (sysNumber w) wide true with
      | some c => .fault s (openFault i.lane c 0)
      | none =>
        match f a i.lane (srcVal (if wide then 8 else 4) (i.val 0)) s with
        | .error c => .fault s (openFault i.lane c 0)
        | .ok s' => .done ((if perThread || lead then s' else s).commitLane a.key i)

/-- SYSWR of the registers without a rule of their own (R345, R346, R357, R358). -/
def execSyswr (w : F3) (s : State) : Out :=
  s.sysWrite w false fun a _ x s =>
    let core (f : Core → Core) : Except Cause State := .ok (s.updCore a.team.core f)
    let team (f : Team → Team) : Except Cause State := .ok (if a.team.kind = .scalar then s else s.updTeam a.key f)
    let lo := low32 x
    match sysNumber w with
    | 0x024 => .ok ((s.updCore a.team.core fun k => { k with tqAge := lo }).latchTq a.team.core)
    | 0x030 => if a.team.kind = .scalar then core fun k => { k with timerOff := x - BitVec.ofNat 64 s.clock } else .ok s
    | 0x031 => core fun k => { k with timerCmp := x }
    | 0x033 => if lo.toNat / 2 ^ 10 ≠ 0 ∨ lo.toNat / 2 ^ 6 % 4 ≠ 0 then .error .reservedField else core fun k => { k with intEnable := lo }
    | 0x034 => core fun k => { k with tvec := x }
    | 0x035 => core fun k => { k with tpc := x }
    | 0x036 => if lo.toNat / 2 ^ 16 ≠ 0 then .error .reservedField else core fun k => { k with cause := lo }
    | 0x037 => core fun k => { k with tval := x }
    | 0x070 => team fun t => { t with xltLimit := lo }
    | 0x071 => core fun k => { k with preGrace := lo }
    | 0x072 => team fun t => { t with relocLimit := lo }
    | 0x073 => team fun t => { t with rdvLimit := lo }
    | _ => .ok s

/-- STATUS_WRITE (R347). -/
def execStatusWrite (w : F3) (s : State) : Out :=
  s.sysWrite w false fun a _ x s =>
    if x.getLsbD 3 ∧ a.team.mode = .u then .error .privilegedOp
    else .ok (s.updTeam a.key fun t => { t with
      dirRange := t.dirRange && !x.getLsbD 0, scopeMis := t.scopeMis && !x.getLsbD 1, step := x.getLsbD 3 })

/-- Whether a value sets a reserved bit of a register of the address space (R206). -/
def ortReserved (n : Nat) (x : Word64) : Bool :=
  match n with
  | 0x040 => decide (field x 63 48 ≠ 0 ∨ field x 5 0 ≠ 0)
  | 0x041 => decide (field x 31 25 ≠ 0)
  | _ => decide (field x 31 16 ≠ 0)

/-- ORT_REGISTER_WRITE (R206): in effect from the next leg of the thread that issues it. -/
def execOrtRegisterWrite (w : F3) (s : State) : Out :=
  s.sysWrite w false fun a lane x s =>
    if ortReserved (sysNumber w) x then .error .reservedField
    else .ok (s.updTeam a.key fun t => { t with ortNext := t.ortNext ++ [(lane, sysNumber w, x)] })

/-- BSP_WRITE (R189). -/
def execBspWrite (w : F3) (s : State) : Out :=
  s.sysWrite w true fun a lane x s =>
    let lo := low32 x
    if lo.toNat % 8 ≠ 0 ∨ lo.toNat > (a.thread lane).bagBytes then .error .saddlebagBound
    else .ok (s.updTeam a.key fun t => t.updThread lane fun th => { th with bsp := lo })

/-- Whether a resident scratchpad allotment of a core reaches into ways `g` and above (R193). -/
def State.scratchAbove (s : State) (core g : Nat) : Bool :=
  s.blocks.any fun e => e.2.parts.any fun p =>
    decide (p.1 = core ∧ p.2 + ceilDiv e.2.scratchKiB (max 1 e.2.cores.length) > g * 128)

/-- CORE_SPLIT_WRITE (R192, R193). -/
def execCoreSplitWrite (w : F3) (s : State) : Out :=
  s.sysWrite w false fun a _ x s =>
    let c := a.team.core
    let g := x.toNat % 8
    let k := s.core c
    if x.toNat / 8 % 32 ≠ 0 then .error .reservedField
    else if k.splitMoving || (decide (g < k.splitCurrent) && s.scratchAbove c g) then .ok (s.updCore c fun k => { k with splitBusy := true })
    else if g > k.splitCurrent then .ok (s.updCore c fun k => { k with splitTarget := g, splitMoving := true, splitBusy := false })
    else .ok (s.updCore c fun k => { k with splitTarget := g, splitCurrent := g, splitBusy := false })

/-- CORE_SPLIT_GROW_DONE (R193): the lines of the moving ways are written back and invalidated; until then such a line serves the
accesses that need nothing from its home (log 26). -/
def execCoreSplitGrowDone (s : State) : Out :=
  match s.occ with
  | .core c =>
    if (s.core c).splitMoving then
      .next ((s.cleanLines c fun l => decide (l.way < (s.core c).splitTarget)).updCore c fun k => { k with
        l1 := k.l1.filter fun l => decide (k.splitTarget ≤ l.way), splitCurrent := k.splitTarget, splitMoving := false })
    else .next s
  | _ => .fault .noIssuer

/-! ### The registers of the trap queue (R346, R348, R352) -/

/-- Waiting records are written while slots are free, and interrupt bit 1 follows. -/
def State.tqChanged (s : State) (c : Nat) : State := (s.flushRecords c (s.core c).tqWait.length).latchTq c

def execTqBaseWrite (w : F3) (s : State) : Out :=
  s.sysWrite w false fun a _ x s =>
    let c := a.team.core
    let k := s.core c
    let cap := field x 5 0
    let bad := decide (x ≠ 0) && (decide (field x 63 48 ≠ 0 ∨ cap < 4 ∨ cap > 16) || decide (field x 47 6 % 2 ^ cap ≠ 0))
    if bad ∨ k.tqTail ≠ k.tqHead then .error .reservedField
    else .ok ((s.updCore c fun k => { k with tqBase := x }).tqChanged c)

def execTqHeadWrite (w : F3) (s : State) : Out :=
  s.sysWrite w false fun a _ x s =>
    let c := a.team.core
    let k := s.core c
    let h := low32 x
    if (k.tqTail - h).toNat > k.tqCap then .error .reservedField
    else
      let hand := if (k.tqHand - h).toNat > (k.tqTail - h).toNat then h else k.tqHand
      .ok ((s.updCore c fun k => { k with tqHead := h, tqHand := hand }).tqChanged c)

def execTqHandWrite (w : F3) (s : State) : Out :=
  s.sysWrite w false fun a _ x s =>
    let c := a.team.core
    let k := s.core c
    if (low32 x - k.tqHead).toNat > (k.tqTail - k.tqHead).toNat then .error .reservedField
    else .ok ((s.updCore c fun k => { k with tqHand := low32 x }).latchTq c)

def execTqBatchWrite (w : F3) (s : State) : Out :=
  s.sysWrite w false fun a _ x s =>
    if x.toNat = 0 ∨ x.toNat > 65536 then .error .reservedField
    else .ok ((s.updCore a.team.core fun k => { k with tqBatch := low32 x }).latchTq a.team.core)

/-! ### Interrupts between cores (R357, R361) -/

def execIntPendingClear (w : F3) (s : State) : Out :=
  s.sysWrite w false fun a _ x s => .ok (s.clearPending a.team.core (x.setWidth 6))

def execIpiWrite (w : F3) (s : State) : Out :=
  s.sysWrite w false fun a _ x s =>
    let n := x.toNat % 2 ^ 11
    if x.toNat / 2 ^ 12 ≠ 0 ∨ n > 1535 then .error .reservedField
    else
      let s := s.interrupt n 4
      .ok (if x.getLsbD 11 then s.startLane n (s.core a.team.core).tvec 0 else s)

def execWdtWrite (w : F3) (s : State) : Out :=
  s.sysWrite w false fun a _ x s => .ok (s.updCore a.team.core fun k => { k with wdt := low32 x, wdtSet := s.clock })

/-! ### Translation and code caches (R228, R229, R376) -/

def execOinv (w : F3) (s : State) : Out :=
  s.asGroup fun a =>
    let form := mdField w.md 1 0
    s.issueLanes a 0xF0 (fun th => th.guard w.gs w.gp) (f3Acc 0x2C7 w) true fun i _ s =>
      let x := lo32 (i.val 0)
      if (form = 0 ∧ x.toNat / 2 ^ 24 ≠ 0) ∨ (form = 1 ∧ x.toNat / 2 ^ 16 ≠ 0) then .fault s (openFault i.lane .reservedField 0)
      else
        let hit (asid : Word32) (h : Nat) : Bool :=
          match form with
          | 0 => decide (asid = a.team.asid ∧ h = x.toNat)
          | 1 => decide (asid = x)
          | _ => true
        .done ((s.updCore a.team.core fun k => { k with
          tlb := k.tlb.keep (fun e => !hit e.asid e.handle) fun e => !hit e.asid e.handle }).commitLane a.key i)

/-- Writes back the dirty lines of the cores of a scope: the stores through dropped entries perform (R229). -/
def State.performStores (s : State) (hitch : Option Nat) : State :=
  (match hitch with | some h => hitchCores h | none => (s.cores.map fun (e : Nat × Core) => e.1)).foldl (fun (s : State) (c : Nat) => s.cleanLines c fun _ => true) s

/-- The slices read again the entries of the held writes of a handle, those of engines too (R219). -/
def State.recheckHandle (s : State) (asid : Word32) (h : Nat) : State :=
  (s.held.filter fun k => decide (k.asid = asid ∧ field k.va 63 40 = h)).foldl (fun s k => s.recheckHeld k) s

def execOshoot (w : F3) (s : State) : Out :=
  s.asGroup fun a =>
    let scope := mdField w.md 2 0
    let gran := w.md.getLsbD 3
    let hitch := if scope = 2 then some (hitchOf a.team.core) else none
    s.issueLanes a 0xF0 (fun th => th.guard w.gs w.gp) (f3Acc 0x2C8 w) true fun i _ s =>
      let x := lo32 (i.val 0)
      let g := lo32 (i.val 1)
      if x.toNat / 2 ^ 24 ≠ 0 ∨ g.toNat / 2 ^ 16 ≠ 0 then .fault s (openFault i.lane .reservedField 0)
      else
        let G : BitVec 16 := g.setWidth 16
        let n := (lo32 (i.val 2)).toNat
        let f (t : Tlb) : Tlb := t.keep
          (fun e => gran || !decide (e.asid = a.team.asid ∧ e.handle = x.toNat ∧ e.gen ≠ G))
          fun e => !(decide (e.asid = a.team.asid ∧ e.handle = x.toNat ∧ e.gen ≠ G) && (!gran || decide (e.gran = n)))
        .done ((((s.shoot hitch f).performStores hitch).recheckHandle a.team.asid x.toNat).commitLane a.key i)

/-- IFLUSH (R376, R377): as an acquire it waits for every held write and acquire of its thread; then the stores that happen before it on
the issuing core are written back to where fetches read them, and the cached lines of the scope are dropped. -/
def execIflush (w : F3) (s : State) : Out :=
  s.asGroup fun a =>
    let scope := mdField w.md 2 0
    s.issueLanes a 0xF0 (fun th => th.guard w.gs w.gp) (f3Acc 0x2C9 w) false fun i _ s =>
      if s.heldAny a i.lane then .wait s
      else
        let s := match a.team.l1 with | some c => s.cleanLines c fun _ => true | none => s
        let s := if scope = 0 then s else s.acquireIn a fun _ => true
        let drop (s : State) (cs : List Nat) : State := cs.foldl (fun s c => s.updCore c fun k => { k with icache := [] }) s
        let hitch := hitchOf a.team.core
        let s := match scope with
          | 0 => drop s [a.team.core]
          | 1 => drop s (a.team.core :: (match tget s.blocks a.team.block with | some b => b.cores | none => []))
          | 2 => (drop s (hitchCores hitch)).updHitch hitch fun k => { k with icache := [] }
          | _ => { s with
              cores := s.cores.map fun (e : Nat × Core) => (e.1, { e.2 with icache := [] })
              hitches := s.hitches.map fun (e : Nat × Hitch) => (e.1, { e.2 with icache := [] }) }
        .done (s.commitLane a.key i)

/-! ### Sections, waiting, NOP (R360, R362, R371) -/

def execIdemEnter (w : F3) (s : State) : Out :=
  s.asGroup fun a =>
    s.issueLanes a 0xF0 (fun th => th.guard w.gs w.gp) (f3Acc 0x2CA w) false fun i _ s =>
      .done ((s.updTeam a.key fun t => t.updThread i.lane fun th => { th with idem := true, sect := a.grp.start }).commitLane a.key i)

def execIdemExit (w : F3) (s : State) : Out :=
  s.asGroup fun a =>
    s.issueLanes a 0xF0 (fun th => th.guard w.gs w.gp) (f3Acc 0x2CA w) false fun i _ s =>
      .done ((s.updTeam a.key fun t => t.updThread i.lane fun th => { th with idem := false }).commitLane a.key i)

/-- WFI: with IE = 1 it stays held, and the interrupt is taken there (R358, R360). -/
def execWfi (w : F3) (s : State) : Out :=
  s.asGroup fun a =>
    s.issueLanes a 0xF0 (fun th => th.guard w.gs w.gp) (f3Acc 0x2CB w) false fun i _ s =>
      let k := s.core a.team.core
      if k.enabledPending ≠ 0 ∧ !k.intEnable.getLsbD 8 then .done (s.commitLane a.key i) else .wait s

def execNop (w : F3) (s : State) : Out := s.f3Effect 0x2CE w fun _ => .ok []

/-! ### Keys (R221) -/

/-- The lines that carry a key index are written back under the old key: the stores that stand in an L1 perform, and the L2 lines leave
with their scope records (R221, R245, R252). -/
def State.dropKeyLines (s : State) (idx : Nat) : State :=
  let s := s.cores.foldl (fun (s : State) e => s.cleanLines e.1 fun l => decide (l.key = idx)) s
  let out := (s.dies.map fun d => d.l2.filter fun l => decide (l.key = idx)).flatten
  { s with
    scopes := out.foldl (fun t l => tdel t l.line) s.scopes
    dies := s.dies.map fun d => { d with l2 := d.l2.filter fun l => decide (l.key ≠ idx) } }

/-- One lane of a KEYSET: `read` gives the pair, or the fault of the block; none empties the slot. Its read waits behind a held
write of its thread, and it waits for the held writes of the slot (R219). -/
def State.keyLane (s : State) (a : Act) (i : LaneIn) (load : Bool) : LaneRes :=
  let x := (lo32 (i.val 0)).toNat
  let va := lo64 (i.val 1)
  if x > 8191 ∨ x = 0 then .fault s (laneFault i.lane .keyInvalid (BitVec.ofNat 32 x) va)
  else if load && s.waitsHeld a i.lane va 64 64 .load then .wait s
  else
    let got : State × Except XFault (List Byte) := if load then s.readLane a va 64 64 0 else (s, .ok [])
    match got with
    | (s, .error f) => .fault s (xFault i.lane f va)
    | (s1, .ok bs) =>
      let data : BitVec 256 := BitVec.ofNat 256 (ofBytes (bs.take 32))
      let tweak : BitVec 256 := BitVec.ofNat 256 (ofBytes (bs.drop 32))
      if load ∧ data = tweak then .fault s1 (laneFault i.lane .keyInvalid (BitVec.ofNat 32 x) va)
      else if s.held.any fun h => decide (h.keySlot = x) then .wait s
      else
        let s2 := s1.dropKeyLines x
        .done ({ s2 with keys := if load then tset s2.keys x (.pair data tweak) else tdel s2.keys x }.commitLane a.key i)

def execKeyset (w : F3) (s : State) : Out :=
  s.asGroup fun a =>
    s.issueLanes a 0xF0 (fun th => th.guard w.gs w.gp) (f3Acc 0x2CC w) true fun i _ s => s.keyLane a i true

def execKeysetClear (w : F3) (s : State) : Out :=
  s.asGroup fun a =>
    s.issueLanes a 0xF0 (fun th => th.guard w.gs w.gp) (f3Acc 0x2CC w) true fun i _ s => s.keyLane a i false

/-! ### Halting a core (R370) -/

/-- Whether every group of a core's teams has stopped, but for the issuing group: it stands at a leg boundary, held or stalled. -/
def State.coreStopped (s : State) (core key g : Nat) : Bool :=
  (List.range 32).all fun sl =>
    match tget s.teams (teamKey core sl) with
    | some t => t.groups.zipIdx.all fun e => decide (e.1.hold ≠ .none) || decide (key = teamKey core sl ∧ g = e.2)
    | none => true

/-- The lane at which an instruction that performs in lane order waits: the lowest that has not completed it. -/
def Act.waits (a : Act) (guard : Thread → Bool) : Option Nat :=
  match a.grp.hold with
  | .wait d => (a.issued guard).find? fun l => !d.getLsbD l
  | _ => none

/-- HALTC: each lane halts its target once, and then waits until it has stopped or is let go again. -/
def execHaltc (w : F3) (s : State) : Out :=
  s.asGroup fun a =>
    s.issueLanes a 0xF0 (fun th => th.guard w.gs w.gp) (f3Acc 0x2CD w) true fun i _ s =>
      let c := (lo32 (i.val 0)).toNat
      if c > 1535 then .fault s (openFault i.lane .reservedField 0)
      else
        let s := if a.waits (fun th => th.guard w.gs w.gp) = some i.lane then s else s.updCore c fun k => { k with halted := true }
        if !(s.core c).halted || s.coreStopped c a.key a.g then .done (s.commitLane a.key i) else .wait s

def execHaltcRes (w : F3) (s : State) : Out :=
  s.asGroup fun a =>
    s.issueLanes a 0xF0 (fun th => th.guard w.gs w.gp) (f3Acc 0x2CD w) true fun i _ s =>
      let c := (lo32 (i.val 0)).toNat
      if c > 1535 then .fault s (openFault i.lane .reservedField 0)
      else .done ((s.updCore c fun k => { k with halted := false }).commitLane a.key i)

/-! ### Serving records (R354, R355) -/

/-- The first word of what TPOP returns when no record waits (R354). -/
def noRecord : Word32 := 0xFFFFFFFF

/-- TPOP: each lane takes the record at head, or the mark of none. A record that cannot be read stays, and its lane traps (R240; log 77). -/
def execTpop (w : F3) (s : State) : Out :=
  s.asGroup fun a =>
    let c := a.team.core
    let started := match a.grp.hold with | .wait d => decide (d ≠ 0) | _ => false
    if !w.md.getLsbD 0 && !started && decide ((s.core c).tqHead = (s.core c).tqHand) then s.holdAt a (.wait 0)
    else
      s.issueLanes a (f3Dest 0x2CF w) (fun th => th.guard w.gs w.gp) (f3Acc 0x2CF w) true fun i lead s =>
        let k := s.core c
        let s := s.acquireIn a fun _ => true
        if k.tqHead = k.tqHand then .done (s.loadTo a i lead (noRecord :: List.replicate 15 0))
        else
          let at' := k.tqAddr + 64 * (k.tqHead.toNat % k.tqCap)
          match s.walkRead (dieOf c) at' 64 with
          | (s, .error f) => .fault s (xFault i.lane f (BitVec.ofNat 64 at'))
          | (s, .ok bs) => .done (((s.updCore c fun k => { k with tqHead := k.tqHead + 1 }).tqChanged c).loadTo a i lead (bytesWords 16 bs))

/-- The team key that a record's handle names, when its generation still matches (R349, R355). -/
def State.handleTeam (s : State) (w1 : Word32) : Option Nat :=
  let core := dfld w1 10 0
  if dfld w1 31 16 = 0xFFFF then (if core = hitchCore (hitchOf core) then some (reinKey (hitchOf core)) else none)
  else if ((s.core core).gen (dfld w1 15 11)).toNat = dfld w1 31 16 then some (teamKey core (dfld w1 15 11)) else none

/-- The point after the instruction `idx` of a record, for a point inside a leg: after its word, whichever half of a P2 word it is; a
point that already stands after it stays (R311, R355, log 44). -/
def Point.next (p : Point) (idx : Nat) : Point :=
  match p with
  | .leg => .leg
  | .taken .. => p
  | .instr start ws pos n => if n ≤ idx ∧ idx < n + counts (ws.getD pos 0) then .instr start ws (pos + 1) (n + counts (ws.getD pos 0)) else p

/-- Whether a pending result is to be written to a register of a lane, or of the team. -/
def Pend.covers (p : Pend) (lane : Nat) (l : Loc) : Bool :=
  match p.dest, l with
  | .v r n, .v k => decide (p.lane = lane ∧ r ≤ k ∧ k < r + n) && !p.killed.contains k
  | .s r n, .s k => decide (r ≤ k ∧ k < r + n)
  | _, _ => false

/-- Writes a word to a register from outside the thread: an empty one takes it once its pending result has been written (R126). -/
def Team.writeAfter (t : Team) (lane : Nat) (l : Loc) (x : Word32) : Team :=
  let k := match l with | .v r | .s r | .t r => r | _ => 0
  if t.pend.any fun p => p.covers lane l then
    { t with pend := t.pend.map fun p => if p.covers lane l then { p with newer := tset p.newer k x } else p }
  else t.writeLoc lane l [x]

/-- Register `i` of the registers at a location. -/
def Loc.nth (l : Loc) (i : Nat) : Loc :=
  match l with | .v r => .v (r + i) | .t r => .t (r + i) | .s r => .s (r + i) | _ => l

/-- Writes a result value to the destination code of a record, for a lane (R126, R353, R355). -/
def Team.writeCode (t : Team) (lane : Nat) (c : Code) (ws : List Word32) : Team :=
  match t.threads[lane]? with
  | none => t
  | some th =>
    match locate th.ix c ws.length with
    | .ok (l, ix) =>
      ws.zipIdx.foldl (fun t e => t.writeAfter lane (l.nth e.2) e.1) (t.updThread lane fun th => { th with ix := ix })
    | .error _ => t

/-- The blocks that wait on a FETCH_RESIDENCY record (R368). -/
def State.waitingOn (s : State) (core : Nat) (seq : Word32) : Option (Nat × Nat) :=
  s.blocks.findSome? fun e => match e.2.waiting with
    | some (c, q, n) => if c = core ∧ q = seq then some (e.1, n) else none
    | none => none

/-- Whether a record sets a reserved bit (R8, R349; log 64). -/
def recordReserved (r : List Word32) : Bool :=
  let w0 := r.getD 0 0
  decide (w0 ≠ noRecord ∧ (dfld w0 15 11 ≠ 0 ∨ dfld w0 31 22 ≠ 0 ∨ dfld (r.getD 8 0) 7 5 ≠ 0 ∨ dfld (r.getD 8 0) 31 16 ≠ 0))

/-- TRES of one lane: resumes the lanes of its record; the count of them. `val` is the value of .val. -/
def State.serve (s : State) (r : List Word32) (mask : Option Word64) (val : Option (List Word32)) : State × Nat :=
  let w (i : Nat) : Word32 := r.getD i 0
  let all : Word64 := w 3 ++ w 2
  let u := match mask with | some m => all &&& m | none => all
  let u : BitVec 64 := if (w 0).getLsbD 8 ∧ all &&& ~~~u ≠ 0 then 0 else u
  let cause := dfld (w 0) 7 0
  let after := val.isSome || decide (cause = Cause.syscall.code.toNat ∨ cause = Cause.breakpoint.code.toNat)
  let dest : Code := BitVec.ofNat 8 (dfld (w 8) 15 8)
  if w 0 = noRecord then (s, 0) else
  match s.waitingOn (dfld (w 1) 10 0) (w 15) with
  | some (blk, n) =>
    let die := match tget s.blocks blk with | some b => b.die | none => 0
    ((s.updBlock blk fun b => { b with waiting := none }).refreshSlots die, n)
  | none =>
    match s.handleTeam (w 1) with
    | none => (s, 0)
    | some key =>
      match tget s.teams key with
      | none => (s, 0)
      | some t =>
        let ls := t.parkedBy (w 15) u
        if ls = [] then (s, 0)
        else
          let move (e : Nat × BitVec 8 × Point) := if after then (e.1, e.2.1, e.2.2.next (dfld (w 8) 4 0)) else e
          let t := match val with
            | some ws => if dest = 0xF0 then t
              else if Code.isS dest then (match ls with | e :: _ => t.writeCode e.1 dest ws | [] => t)
              else ls.foldl (fun (t : Team) (e : Nat × BitVec 8 × Point) => t.writeCode e.1 dest ws) t
            | none => t
          let s := s.setTeam key (t.unpark (ls.map move) s.clock)
          let s := match t.l1 with | some c => s.acquireL1 c fun _ => true | none => s
          (s, ls.length)

def execTres (w : F3) (s : State) : Out :=
  s.asGroup fun a =>
    let isVal := w.md.getLsbD 0
    let wide := w.md.getLsbD 1
    s.issueLanes a (f3Dest 0x2D0 w) (fun th => th.guard w.gs w.gp) (f3Acc 0x2D0 w) true fun i lead s =>
      let r := i.val 0
      let dest := dfld (r.getD 8 0) 15 8
      let evenVT := decide (dest % 2 = 0 ∧ dest < 0xC6)
      if recordReserved r ∨ isVal ∧ !(r.getD 0 0).getLsbD 9 then .fault s (openFault i.lane .reservedField 0)
      else if wide ∧ !evenVT then .fault s (openFault i.lane .reservedField 0)
      else if s.heldAny a i.lane then .wait s
      else
        let s := s.releaseIn a fun _ => true
        let mask := if w.c = 0xF0 then none else some (lo64 (i.val (if isVal then 2 else 1)))
        let val := if isVal then some ((i.val 1).take (if wide then 2 else 1)) else none
        let s := s.commitLane a.key i
        let (s, n) := s.serve r mask val
        .done (s.writeDst a.key i.lane lead i.dest.1 [BitVec.ofNat 32 n])

end Sys2Proof.Machine
end

