-- ==== Sys2Proof/Machine/Flow.lean ====
section
/-! DEFINITION. The flow of control: fetching and checking a leg, the pick of a group, the active set, the exits of trailers, the
end of a thread, and what holds after every step (spec/04_issue_and_lanes.md R96-R107; spec/01_instruction_words.md R31-R39;
spec/16_code_and_compatibility.md R372-R375; spec/15_privilege_and_traps.md R359, R363, R364, R368). -/

namespace Sys2Proof.Machine

/-! ### Fetch (R16, R373-R375) -/

/-- The lines that an instruction cache holds; the oldest leave when it is full (R372, log 10). -/
def icacheLines : Nat := 1024

def State.icacheOf (s : State) (t : Team) : List ILine :=
  if t.kind = .rein then (s.hitch (hitchOf t.core)).icache else (s.core t.core).icache

def State.setIcache (s : State) (t : Team) (l : List ILine) : State :=
  if t.kind = .rein then s.updHitch (hitchOf t.core) fun h => { h with icache := l }
  else s.updCore t.core fun k => { k with icache := l }

/-- The first byte of the code line of an address. -/
def lineOf (va : Word64) : Word64 := va &&& ~~~(63 : Word64)

/-- Fetches the line of an address for a team: translated at every fetch, and served from the cache under an unchanged tag. `keep` says
whether the cache takes a line that it does not hold. -/
def State.fetchLine (s : State) (t : Team) (at' : Word64) (keep : Bool := true) : State × Except XFault (List Word64) :=
  let va := lineOf at'
  let ag := t.agent
  let h := field va 63 40
  let off := field va 39 0
  match s.translate ag va 64 64 .fetch with
  | (s, .error f) => (s, .error f)
  | (s, .ok x) =>
    let gen : BitVec 16 := if ag.bare then 0 else match (s.findRecord ag h).2 with | .ok r => r.gen | .error _ => 0
    match (s.icacheOf t).find? fun l => decide (l.bare = ag.bare ∧ l.asid = t.asid ∧ l.handle = h ∧ l.gen = gen ∧ l.off = off) with
    | some l => (s, .ok l.words)
    | none =>
      match s.busRead (dieOf t.core) x 64 with
      | (s, .error f) => (s, .error f)
      | (s, .ok bs) =>
        let ws := (List.range 8).map fun i => BitVec.ofNat 64 (ofBytes ((bs.drop (8 * i)).take 8))
        let l : ILine := { bare := ag.bare, asid := t.asid, handle := h, gen := gen, off := off, words := ws }
        (if keep then s.setIcache t ((l :: s.icacheOf t).take icacheLines) else s, .ok ws)

/-- The word of a line at an address. -/
def lineWord (l : List Word64) (va : Word64) : Word64 := l.getD (va.toNat / 8 % 8) 0

/-- The words from an address up to a trailer, at most `n` of them; `line` is the line in hand (R16, R37). -/
def State.fetchWords (s : State) (t : Team) (va : Word64) (line : List Word64) : Nat → State × Except (Word64 × XFault) (List Word64)
  | 0 => (s, .ok [])
  | n + 1 =>
    match (if line.isEmpty ∨ va.toNat % 64 = 0 then s.fetchLine t va else (s, .ok line)) with
    | (s, .error f) => (s, .error (lineOf va, f))
    | (s, .ok l) =>
      let w := lineWord l va
      if isTrailer w then (s, .ok [w])
      else
        match s.fetchWords t (va + 8) l n with
        | (s, .error e) => (s, .error e)
        | (s, .ok ws) => (s, .ok (w :: ws))

/-- What the leg check of a team admits. -/
def Team.allot (t : Team) : Allot where
  kind := t.kind
  mode := t.mode
  vregs := match t.threads.head? with | some th => th.v.length | none => 0
  dregs := match t.threads.head? with | some th => th.d.length | none => 0

/-- A block is saved for a fetch that met an absent granule: one record, which marks the block as waiting; while the mark
stands, a further one makes no record (R368, log 27). -/
def State.fetchResidency (s : State) (t : Team) (lanes : BitVec 64) (start line : Word64) : State :=
  match tget s.blocks t.block with
  | none => s
  | some b =>
    if b.waiting.isSome then s
    else
      let k := s.core t.core
      let i : TrapAt := { word := 0, idx := 0, dest := 0xF0, start := start, mid := false, coll := false, fetch := true, detail := true, addrs := [] }
      let ls := laneList lanes
      let f (l : Nat) : LaneFault := laneFault l .fetchResidency Cause.fetchResidency.openW9 line
      let detail := if ls.length ≥ 2 then ls.map fun l => (l, detailWords (f l)) else []
      let r : TrapRec := { words := recordWords t (k.gen t.slot) i lanes (f (ls.headD 0)), detail := detail }
      let blk := t.block
      (s.updBlock blk fun b => { b with stat := .saving, waiting := some (t.core, k.nextSeq, ls.length) }).pushRecord t.core r

/-! ### Ready threads and the active set (R97, R100) -/

/-- Whether a register that a trailer awaits is full (R35). -/
def Thread.full (th : Thread) (c : Code) : Bool :=
  if Code.isV c then (th.vreg c.toNat).ready
  else if Code.isD c then (th.dreg (c.toNat - 0xD8)).cfull && (th.dreg (c.toNat - 0xD8)).nfull
  else true

/-- Threads whose awaits have come to be met are ready from now on (R35, R97). -/
def Team.meetAwaits (t : Team) (clock : Nat) : Team :=
  { t with threads := t.threads.map fun (th : Thread) =>
      if !th.awaits.isEmpty && th.awaits.all th.full then { th with awaits := [], readySince := clock } else th }

/-- Whether a thread is ready but for its team's place in the active set (R97). -/
def Thread.ready (th : Thread) : Bool := decide (th.stat = .atLeg) && th.awaits.isEmpty

def Team.anyReady (t : Team) : Bool := t.threads.any Thread.ready

/-- Whether groups of a team may be picked and joined: its block is placed and its core not halted (R364, R370). -/
def State.mayPick (s : State) (t : Team) : Bool :=
  let placed := match tget s.blocks t.block with | some b => decide (b.stat = .placed) | none => false
  match t.kind with
  | .scalar => true
  | .rein => placed
  | .vector => placed && !(s.core t.core).halted

/-- Whether a group is held at a HALTC whose target is its own core: the halt exempts it (R370). -/
def State.haltsOwn (s : State) (key g : Nat) (t : Team) (gr : Group) : Bool :=
  match decode (gr.leg.getD gr.pos 0) with
  | .ok (.haltc w) =>
    (s.gatherOp { key := key, g := g, team := t, grp := gr, word := gr.leg.getD gr.pos 0 } (fun th => th.guard w.gs w.gp) (f3Acc 0x2CD w)).any
      fun l => match l.got.getD 0 .skip with | .ok i => decide ((lo32 (i.val 0)).toNat = t.core) | _ => false
  | _ => false

/-- Whether a group may issue: a held group of a halted core keeps its state, and so does a held group of a block that is being
saved (R364, R370). -/
def State.mayIssue (s : State) (key g : Nat) : Bool :=
  match tget s.teams key with
  | none => false
  | some t =>
    match t.groups[g]? with
    | none => false
    | some gr =>
      let halted := decide (t.kind = .vector) && (s.core t.core).halted
      let saving := match tget s.blocks t.block with
        | some b => decide (t.kind ≠ .scalar) && decide (b.stat = .saving)
        | none => false
      !(halted && decide (gr.hold ≠ .none) && !s.haltsOwn key g t gr) && !(saving && gr.savable)

/-- The team keys of a lane block of a core; 4 names its scalar lane and 5 the rein core of the hitch whose lowest core it is. -/
def blockKeys (core lb : Nat) : List Nat :=
  if lb < 4 then (List.range 8).map fun i => teamKey core (8 * lb + i) else [teamKey core (28 + lb)]

/-- The teams of a lane block, lowest slot first. -/
def State.teamsAt (s : State) (core lb : Nat) : List (Nat × Team) :=
  (blockKeys core lb).filterMap fun k => (tget s.teams k).map fun t => (k, t)

/-- Whether a team leaves the active set at a leg boundary (R100). A team that has issued 64 legs stays while another of its groups
is inside a leg (DESIGN CHOICE, log 62: R100 does not say whether the boundary of one group is enough). -/
def State.mustLeave (s : State) (core lb : Nat) (t : Team) : Bool :=
  t.groups.isEmpty && (!t.anyReady
    || (decide (t.legs ≥ 64) && (s.teamsAt core lb).any fun e => !e.2.active && e.2.anyReady && s.mayPick e.2))

/-- The active teams of a lane block that must leave do so. -/
def State.trimActive (s : State) (core lb : Nat) : State :=
  if lb ≥ 4 then s
  else (s.teamsAt core lb).foldl (fun s e =>
    if e.2.active && s.mustLeave core lb e.2 then
      s.updTeam e.1 fun t => { t with active := false, legs := 0, waitSince := s.clock }
    else s) s

/-- The clock from which a team has waited for a place: it has been out of the set, and had a ready thread. -/
def Team.waiting (t : Team) : Nat :=
  match (t.threads.filter Thread.ready).map fun (th : Thread) => th.readySince with
  | [] => t.waitSince
  | c :: cs => max t.waitSince (cs.foldl min c)

/-- The first of a list by least measure. -/
def leastBy {α : Type} (f : α → Nat) : List α → Option α
  | [] => none
  | a :: l =>
    match leastBy f l with
    | none => some a
    | some b => if f b < f a then some b else some a

/-- ACTIVE_SET_JOIN (R100): the ready team of a lane block that has waited longest joins, when a place is free. Of teams that have
waited equally long the lower slot joins first (DESIGN CHOICE, log 62: R100 gives no order of them). -/
def execActiveSetJoin (s : State) : Out :=
  match s.occ with
  | .laneBlock core lb =>
    let s := s.trimActive core lb
    let ts := s.teamsAt core lb
    if lb ≥ 4 ∨ (ts.filter fun e => e.2.active).length ≥ 4 then .next s
    else
      match leastBy (fun e => Team.waiting e.2) (ts.filter fun e => !e.2.active && e.2.anyReady && s.mayPick e.2) with
      | some (k, _) => .next (s.updTeam k fun t => { t with active := true, legs := 0, waitSince := s.clock })
      | none => .next s
  | _ => .fault .noIssuer

/-! ### The pick of a group (R97, R98) -/

/-- A group that may be picked: its team, its leg start, its lanes, and the clock from which it has waited. -/
structure Candidate where
  key : Nat
  team : Team
  pc : Word64
  lanes : BitVec 64
  since : Nat
  deriving DecidableEq, Repr

/-- The candidate of a team at a leg start: every ready thread there. -/
def Team.candidate (t : Team) (key : Nat) (pc : Word64) : Candidate :=
  let ls := (List.range t.threads.length).filter fun l =>
    match t.threads[l]? with | some th => th.ready && decide (th.pc = pc) | none => false
  { key := key, team := t, pc := pc, lanes := laneMask ls
    since := ls.foldl (fun m l => match t.threads[l]? with | some th => max m th.readySince | none => m) t.waitSince }

/-- The candidates of a team, by the lowest lane of each. -/
def Team.candidates (t : Team) (key : Nat) : List Candidate :=
  (((t.threads.filter Thread.ready).map fun (th : Thread) => th.pc).eraseDups).map (t.candidate key)

/-- Whether a candidate's leg may be fetched: every earlier acquire of its threads has performed (R374; log 3). -/
def State.mayFetch (s : State) (c : Candidate) : Bool := !(laneList c.lanes).any (s.acquiring c.key c.team)

/-- The next candidate of a lane block: the longest wait, then the lower slot, then the lower lane. A pick may be made at any
clock, while other groups run or are held (R97). -/
def State.nextPick (s : State) (core lb : Nat) : Option Candidate :=
  leastBy Candidate.since
    ((((s.teamsAt core lb).filter fun e => e.2.active && s.mayPick e.2).map fun e => e.2.candidates e.1).flatten.filter s.mayFetch)

/-- Whether a group that is not held runs on a lane block. The module's own schedule picks none beside it (log 3). -/
def State.laneBusy (s : State) (core lb : Nat) : Bool :=
  (s.teamsAt core lb).any fun e => e.2.groups.any fun g => decide (g.hold = .none ∨ g.hold = .dest)

/-- Where the instruction of an index stands in a leg (R359): its word, or the trailer. -/
def legPos (ws : List Word64) (n : Nat) : Nat × Nat :=
  let p := ((List.range ws.length).find? fun p => decide (((ws.take p).map counts).sum ≥ n)).getD (ws.length - 1)
  (p, ((ws.take p).map counts).sum)

/-- The thread that a candidate's lanes share a resume index with: 0 but for a scalar lane that returns inside a leg. -/
def Candidate.resume (c : Candidate) : Nat :=
  match (laneList c.lanes).head? with
  | some l => match c.team.threads[l]? with | some th => th.resume | none => 0
  | none => 0

/-- Parks a candidate at its leg start, by a leg-check record or a fetch record; a scalar lane that returns inside a leg keeps
its index. -/
def State.parkPick (s : State) (c : Candidate) (i : TrapAt) (cause : Cause) (w9 : Word32) (addr : Word64) : State :=
  let fs := (laneList c.lanes).map fun l => laneFault l cause w9 addr
  match fs.head? with
  | some f => s.trap c.key i c.lanes fs f fun _ => if c.resume = 0 then .leg else .instr c.pc [] 0 c.resume
  | none => s

/-- Starts a candidate on a leg: temporaries read 0, but in a leg that is resumed (R130, R359). -/
def State.startGroup (s : State) (c : Candidate) (leg : List Word64) : State :=
  let p := legPos leg c.resume
  s.updTeam c.key fun t => { t with
    legs := t.legs + 1
    threads := (laneList c.lanes).foldl (fun ths l => modAt ths l fun th =>
      { th with stat := .running, t := if c.resume = 0 then List.replicate 6 0 else th.t, resume := 0 }) t.threads
    groups := t.groups ++
      [{ lanes := c.lanes, start := c.pc, leg := leg, pos := p.1, idx := p.2, hold := .none, since := s.clock }] }

/-- Picks a candidate: its leg is fetched and checked whole (R37, R38, R373). -/
def State.pick (s : State) (c : Candidate) : State :=
  let i : TrapAt := { word := 0, idx := 0, dest := 0xF0, start := c.pc, mid := false, coll := false, fetch := true, detail := true, addrs := [] }
  match s.fetchWords c.team c.pc [] 25 with
  | (s, .error (line, f)) =>
    if f.cause = .residency then
      if c.team.kind = .vector then s.fetchResidency c.team c.lanes c.pc line
      else s.parkPick c i .fetchResidency Cause.fetchResidency.openW9 line
    else s.parkPick c i f.cause f.w9 line
  | (s, .ok ws) =>
    match legCheck c.team.allot ws with
    | .ok leg => s.startGroup c leg
    | .error e =>
      s.parkPick c { i with word := ws.getD e.word 0, idx := e.idx, dest := e.dest, fetch := false, detail := false } e.cause e.w9
        (c.pc + BitVec.ofNat 64 (8 * e.word))

/-- GROUP_PICK (R97, R98). -/
def execGroupPick (s : State) : Out :=
  match s.occ with
  | .laneBlock core lb => .next (match s.nextPick core lb with | some c => s.pick c | none => s)
  | _ => .fault .noIssuer

/-! ### Exits (R102-R106) -/

/-- How a thread leaves its leg. -/
inductive Exit where
  /-- to a leg start, which is tested when the exit is taken; with the saddlebag and its pointer after a push or a pop -/
  | go (pc : Word64) (taken : Bool) (bag : Option (Memory × Word32))
  | exit
  | fault (f : LaneFault)
  deriving DecidableEq, Repr

/-- The address of the word after the trailer, and the destination of its offset (R33, R102). -/
def Act.after' (a : Act) : Word64 := a.grp.start + BitVec.ofNat 64 (8 * a.grp.leg.length)
def Act.target (a : Act) (w : TW) : Word64 := a.after' + (w.target.signExtend 64 <<< 3)

/-- A fault of a trailer: at the leg boundary, with the trailer and its count in the record (R104). -/
def exitFault (lane : Nat) (c : Cause) (addr : Word64) : Exit := .fault (laneFault lane c c.openW9 addr)

/-- A target read from registers or the stack must be aligned (R102). -/
def aligned (lane : Nat) (x : Word64) (k : Exit) : Exit := if x.toNat % 8 ≠ 0 then exitFault lane .misaligned x else k

/-- CALL and CALLX push the return address (R104, R189). -/
def Thread.push (th : Thread) (lane : Nat) (ret dest : Word64) : Exit :=
  if th.bsp.toNat < 8 then exitFault lane .saddlebagBound 0
  else .go dest true (some (writeBytes th.bag (th.bsp.toNat - 8) (toBytes 8 ret.toNat), th.bsp - 8))

/-- RET pops the return address (R104, R189). -/
def Thread.pop (th : Thread) (lane : Nat) : Exit :=
  if th.bsp.toNat + 8 > th.bagBytes then exitFault lane .saddlebagBound 0
  else
    let x := BitVec.ofNat 64 (ofBytes (readBytes th.bag th.bsp.toNat 8))
    aligned lane x (.go x true (some (th.bag, th.bsp + 8)))

/-- The pair of v registers at a code. -/
def Thread.pairAt (th : Thread) (c : Code) : Word64 := (th.vreg (c.toNat + 1)).read ++ (th.vreg c.toNat).read

/-- The target pair of BRX and CALLX (R32). -/
def trailPair (w : TW) : Code := w.target.extractLsb' 16 8

/-- The awaits of a trailer: three, or the two that follow a LOOP's counter (R32). -/
def trailAwaits (w : TW) (loop : Bool) : List Code := ((if loop then [] else [w.a0]) ++ [w.a1, w.a2]).filter (· ≠ 0xF0)

/-- What the destination of a taken exit is found to be (R36, R373). -/
inductive DestTest where
  | start
  | bad
  | fetch (f : XFault) (line : Word64)
  deriving DecidableEq, Repr

/-- Tests that a destination is a leg start: it is no trailer, and it is the first word of its code object or the word before it is
a trailer. A fault of that word's line is reported here; a destination whose own line cannot be fetched is reported by the pick of
its leg, which is then its first consumer (R240). The lines that it reads stay in the cache only when `keep` says so. -/
def State.destTest (s : State) (t : Team) (dest : Word64) (keep : Bool) : State × DestTest :=
  let own : State × Bool := match s.fetchLine t dest keep with
    | (s1, .ok l) => (s1, isTrailer (lineWord l dest))
    | (_, .error _) => (s, false)
  if own.2 then (own.1, .bad)
  else if !t.agent.bare && decide (field dest 39 0 = 0) then (own.1, .start)
  else
    match own.1.fetchLine t (dest - 8) keep with
    | (s, .error f) => (s, .fetch f (lineOf (dest - 8)))
    | (s, .ok l) => (s, if isTrailer (lineWord l (dest - 8)) then .start else .bad)

/-- What the lanes of a trailer have come to. -/
structure Leave where
  lane : Nat
  exit : Exit
  test : DestTest
  deriving DecidableEq, Repr

/-- The exits of lanes, each with the test of its destination. A lane with an acquire that has not performed leaves nothing of the test
in the cache: the lines of its next leg are fetched after that acquire (R374, R375). -/
def State.testExits (s : State) (key : Nat) (t : Team) : List (Nat × Exit) → State × List Leave
  | [] => (s, [])
  | (l, e) :: es =>
    let (s, d) := match e with
      | .go pc true _ => s.destTest t pc (!s.acquiring key t l)
      | _ => (s, .start)
    let (s, ls) := s.testExits key t es
    (s, { lane := l, exit := e, test := d } :: ls)

/-- The fault that a lane's leaving raises; an absent granule before a vector team's destination saves the block instead. -/
def Leave.fault? (l : Leave) (kind : Kind) : Option LaneFault :=
  match l.exit with
  | .fault f => some f
  | .go pc _ _ =>
    match l.test with
    | .bad => some (laneFault l.lane .badBranchTarget Cause.badBranchTarget.openW9 pc)
    | .fetch f line =>
      if f.cause = .residency then
        if kind = .vector then none else some (laneFault l.lane .fetchResidency Cause.fetchResidency.openW9 line)
      else some (laneFault l.lane f.cause f.w9 line)
    | .start => none
  | .exit => none

/-- Whether a lane's destination awaits an absent granule. -/
def Leave.absent (l : Leave) : Option Word64 :=
  match l.exit, l.test with
  | .go .., .fetch f line => if f.cause = .residency then some line else none
  | _, _ => none

/-- A thread past its exit: at its next leg start, held by its awaits and its meeting register; `push` says that its stack
changes. -/
def Thread.leave (th : Thread) (pc : Word64) (awaits : List Code) (bag : Option (Memory × Word32)) (clock : Nat) : Thread :=
  let th := match bag with | some (b, p) => { th with bag := b, bsp := p } | none => th
  ({ th with pc := pc, awaits := awaits } : Thread).atStart clock

/-- The end of a thread (R105). -/
def State.exitLane (s : State) (key lane : Nat) : State :=
  match tget s.teams key with
  | none => s
  | some t =>
    let keep (p : Pend) : Bool := decide (p.lane ≠ lane) || (match p.dest with | .s .. => true | _ => false)
    let owner := t.owner key lane
    let drops := (t.drops.map fun d => { d with lanes := d.lanes.filter fun e => decide (e.1 ≠ lane) }).filter fun d => !d.lanes.isEmpty
    let t1 : Team := { t with m := t.m.map fun x => x &&& ~~~(BitVec.twoPow 64 lane), pend := t.pend.filter keep, drops := drops }
    let s1 := ((s.endTandem fun k l => decide (k = key ∧ l = lane)).updTeam key fun t =>
      { t1.updThread lane fun th => { th with stat := .exited, awaits := [] } with groups := t.groups }).dropWatch key lane
    { s1 with held := s1.held.map fun h =>
        if h.engine = none ∧ !h.dev ∧ h.owner = owner then { h with live := false } else h }

/-- Frees the slot of a vector team whose last thread has exited, or ends a rein core's program (R105, R269). -/
def State.freeTeam (s : State) (key : Nat) : State :=
  match tget s.teams key with
  | none => s
  | some t =>
    if t.threads.any fun (th : Thread) => decide (th.stat ≠ .exited) then s
    else
      match t.kind with
      | .scalar => s
      | .rein => (s.releaseRuns (hitchOf t.core)).settleHitch (hitchOf t.core)
      | .vector =>
        let die := dieOf t.core
        let s1 := (({ s with teams := tdel s.teams key } : State).freeShare t.block).settleBlock t.block
        s1.refreshSlots die

/-- Traps RELOCATION_WAIT for lanes at a leg boundary whose held writes were dropped: a record for each instruction (R219). -/
def State.takeDrops (s : State) (key : Nat) (at' : BitVec 64) : State :=
  match tget s.teams key with
  | none => s
  | some t =>
    let r := t.drops.foldl (fun (st : State × BitVec 64) d =>
      let hit := d.lanes.filter fun e => st.2.getLsbD e.1
      let fs := hit.map fun e => laneFault e.1 .relocationWait (BitVec.ofNat 32 e.2.1) e.2.2
      match fs.head? with
      | none => st
      | some f =>
        let m := laneMask (hit.map (·.1))
        let i : TrapAt := { word := d.word, idx := d.w8.toNat % 32, dest := d.w8.extractLsb' 8 8, start := d.start, mid := false, coll := false
                            fetch := false, detail := true, addrs := [] }
        let s1 := (st.1.trap key i m fs f fun _ => .leg).updTeam key fun t => { t with
          drops := (t.drops.map fun e => if e.start = d.start ∧ e.word = d.word ∧ e.w8 = d.w8 then
            { e with lanes := e.lanes.filter fun x => !m.getLsbD x.1 } else e).filter fun e => !e.lanes.isEmpty }
        (s1, st.2 &&& ~~~m)) (s, at')
    r.1

/-- The lanes of a mask that stand at a leg start. -/
def Team.standing (t : Team) (m : BitVec 64) : BitVec 64 :=
  laneMask ((laneList m).filter fun l => match t.threads[l]? with | some th => decide (th.stat = .atLeg ∨ th.stat = .meet) | none => false)

/-- Traps SINGLE_STEP after a trailer: a record for each next leg start (R363). -/
def State.singleStep (s : State) (key : Nat) (i : TrapAt) (lanes : BitVec 64) : State :=
  match tget s.teams key with
  | none => s
  | some t =>
    if !t.step || decide (t.kind = .scalar) then s
    else
      let ls := laneList (t.standing lanes)
      let pcOf (l : Nat) : Word64 := match t.threads[l]? with | some th => th.pc | none => 0
      ((ls.map pcOf).eraseDups).foldl (fun s pc =>
        let fs := (ls.filter fun l => decide (pcOf l = pc)).map fun l => laneFault l .singleStep Cause.singleStep.openW9 pc
        match fs.head? with
        | some f => s.trap key { i with detail := false, fetch := false } (laneMask (fs.map LaneFault.lane)) fs f fun _ => .leg
        | none => s) s

/-- A team with a register of its address space set. -/
def Team.setOrt (t : Team) (n : Nat) (x : Word64) : Team :=
  match n with
  | 0x040 => { t with ortBase := x }
  | 0x041 => { t with ortSize := low32 x }
  | _ => { t with asid := low32 x }

/-- The address-space registers that some lanes have written in a leg take effect at its end, in the order of the writes (R206). -/
def Team.adopt (t : Team) (lanes : BitVec 64) : Team :=
  { (t.ortNext.filter fun e => lanes.getLsbD e.1).foldl (fun t e => t.setOrt e.2.1 e.2.2) t with
    ortNext := t.ortNext.filter fun e => !lanes.getLsbD e.1 }

/-- The issuing group leaves its leg, each lane by its exit, under new awaits or those it has. `counter` says what the trailer writes to its counter: a scalar lane
that traps has no effect (R13), and stands before the exit. -/
def State.leaveLeg (s : State) (a : Act) (awaits : Option (List Code)) (counter : State → State) (es : List (Nat × Exit)) : State :=
  let s0 := s.updTeam a.key fun t => t.adopt a.grp.lanes
  let t := (tget s0.teams a.key).getD a.team
  let (s1, ls) := s0.testExits a.key t es
  let faults := ls.filterMap fun l => l.fault? t.kind
  let i : TrapAt := { a.trapAt 0xF0 with mid := false, fetch := match ls.find? fun l => (l.fault? t.kind).isSome with
    | some l => (match l.exit, l.test with | .go .., .fetch .. => true | _, _ => false)
    | none => false }
  match t.kind, faults with
  | .scalar, f :: _ => s1.trap a.key i 1 faults f fun _ => a.here
  | _, _ =>
    -- the threads move, the group is gone
    let s2 := (counter s1).updTeam a.key fun t =>
      let t := { t with groups := t.groups.eraseIdx a.g }
      ls.foldl (fun t l => match l.exit with
        | .go pc _ bag => t.updThread l.lane fun th => th.leave pc (awaits.getD th.awaits) (if l.test = .bad then none else bag) s.clock
        | _ => t) t
    let s3 := ls.foldl (fun s l => match l.exit with | .exit => s.exitLane a.key l.lane | _ => s) s2
    let here (lane : Nat) : Point :=
      match (ls.find? fun (l : Leave) => decide (l.lane = lane)).map Leave.exit with
      | some (.go ..) => .taken a.grp.start a.grp.leg a.grp.pos a.grp.idx
      | _ => a.here
    let s4 := match faults with
      | f :: _ => s3.trap a.key i (laneMask (faults.map LaneFault.lane)) faults f here
      | [] => s3
    let waits := ls.filter fun l => l.absent.isSome ∧ (l.fault? t.kind).isNone
    let s5 := match waits.findSome? Leave.absent with
      | some line =>
        let m := laneMask (waits.map Leave.lane)
        (s4.updTeam a.key fun t => t.resumeIn m { a.grp with lanes := m, hold := .dest, since := s.clock }).fetchResidency
          t m a.grp.start line
      | none => s4
    let went := laneMask (ls.filterMap fun l => match l.exit with
      | .go .. => if (l.fault? t.kind).isSome ∨ l.absent.isSome then none else some l.lane
      | _ => none)
    let s6 := (((s5.takeDrops a.key went).singleStep a.key i went).updTeam a.key fun t => t.meetAwaits s.clock).settleTeam a.key
    (s6.trimActive t.core (t.slot / 8)).freeTeam a.key

/-- A trailer issues for its group (R102). `ready` says whether a lane's target or counter can be read, `exit` how a lane whose
guard passes leaves, and `counter` what the lanes that pass write. A lane whose guard fails falls through. -/
def State.trailer (s : State) (w : TW) (loop : Bool) (ready : Team → Thread → Bool) (exit : Act → Nat → Thread → Exit)
    (counter : Act → List Nat → State → State) : Out :=
  s.asGroup fun a =>
    let awaits := trailAwaits w loop
    if a.grp.hold = .dest then
      s.leaveLeg a none id ((laneList a.grp.lanes).map fun l => (l, .go (match a.team.threads[l]? with | some th => th.pc | none => 0) true none))
    else if decide (a.team.kind = .scalar) && (s.core a.team.core).sret then
      (s.updTeam a.key fun t => t.adopt a.grp.lanes).returnFromHandler a.team.core awaits
    else
      let pass (l : Nat) : Option Thread := (a.team.threads[l]?).bind fun th => if th.guard w.gs w.gp then some th else none
      let ls := laneList a.grp.lanes
      if ls.any fun l => match pass l with | some th => !ready a.team th | none => false then s.holdAt a .stall
      else
        s.leaveLeg a (some awaits) (counter a (ls.filter fun l => (pass l).isSome)) (ls.map fun l =>
          (l, match pass l with | some th => exit a l th | none => .go a.after' false none))

/-- A trailer without registers to read. -/
def noReads (_ : Team) (_ : Thread) : Bool := true
def noWrite (_ : Act) (_ : List Nat) (s : State) : State := s

def execFall (w : TW) (s : State) : Out := s.trailer w false noReads (fun a _ _ => .go a.after' false none) noWrite
def execBra (w : TW) (s : State) : Out := s.trailer w false noReads (fun a _ _ => .go (a.target w) true none) noWrite

/-- Whether the target pair of a trailer is full. -/
def pairReady (w : TW) (_ : Team) (th : Thread) : Bool := (th.vreg (trailPair w).toNat).ready && (th.vreg ((trailPair w).toNat + 1)).ready

def execBrx (w : TW) (s : State) : Out :=
  s.trailer w false (pairReady w) (fun _ l th => aligned l (th.pairAt (trailPair w)) (.go (th.pairAt (trailPair w)) true none)) noWrite
def execCall (w : TW) (s : State) : Out := s.trailer w false noReads (fun a l th => th.push l a.after' (a.target w)) noWrite
/-- A misaligned target is reported before a push beyond the stack (DESIGN CHOICE, log 63: R104 gives no order of the two). -/
def execCallx (w : TW) (s : State) : Out :=
  s.trailer w false (pairReady w) (fun a l th => aligned l (th.pairAt (trailPair w)) (th.push l a.after' (th.pairAt (trailPair w)))) noWrite
def execRet (w : TW) (s : State) : Out := s.trailer w false noReads (fun _ l th => th.pop l) noWrite
def execExit (w : TW) (s : State) : Out := s.trailer w false noReads (fun _ _ _ => .exit) noWrite

/-- The LOOP counter of a thread: its own v register, or the team's s register (R103). -/
def trailCounter (w : TW) (t : Team) (th : Thread) : Word32 :=
  if Code.isS w.a0 then (match t.s[w.a0.toNat - 0xE0]? with | some x => x.val | none => 0) else (th.vreg w.a0.toNat).read

/-- LOOP (R103): the counter is decremented, and the exit taken unless it becomes 0; an s counter once for the group. -/
def execLoop (w : TW) (s : State) : Out :=
  s.trailer w true
    (fun t th => if Code.isS w.a0 then (match t.s[w.a0.toNat - 0xE0]? with | some x => x.full | none => true) else (th.vreg w.a0.toNat).ready)
    (fun a _ th => if trailCounter w a.team th - 1 ≠ 0 then .go (a.target w) true none else .go a.after' false none)
    fun a ls s =>
      let new (l : Nat) : Word32 := match a.team.threads[l]? with | some th => trailCounter w a.team th - 1 | none => 0
      if Code.isS w.a0 then
        match ls with
        | l :: _ => s.updTeam a.key fun t => t.writeLoc l (.s (w.a0.toNat - 0xE0)) [new l]
        | [] => s
      else ls.foldl (fun s l => s.updTeam a.key fun t => t.writeLoc l (.v w.a0.toNat) [new l]) s

/-! ### After every step -/

/-- What holds of every team after a step: threads whose awaits are met are ready, the meeting holds and mask waits that are
complete are released, and the rendezvous that are complete perform (R35, R107, R111, R112). -/
def State.settle (s : State) : State :=
  s.teams.foldl (fun s e =>
    ((s.updTeam e.1 fun t => t.meetAwaits s.clock).settleTeam e.1).settleCross e.1 e.2.groups.length) s

end Sys2Proof.Machine
end

