-- ==== Sys2Proof/Machine/Engine.lean ====
section
/-! DEFINITION. Copy queues at work: taking a command, its end or stop with the reports and fault signals, tensor shape records,
and the window commands CWIN, CWINA, CFILL, CSLOT and the drain (spec/13_copy_engines.md R288-R299, R308-R312;
spec/12_hitch_matrix.md R283). -/

namespace Sys2Proof.Machine

/-! ### A command in progress -/

/-- The queue whose command a step performs: die, die-local number, bound block, command, and its first element not performed. -/
structure QAct where
  die : Nat
  q : Nat
  blk : Nat
  entry : Entry
  elem : Nat
  deriving DecidableEq, Repr

/-- Who makes the accesses of a command: its engine, in the translation context of its source; supervisor-only objects let in every copy
engine (R207, R289). -/
def engineAgent (die : Nat) (c : Ctx) : Agent := dieAgent die c true

def QAct.agent (a : QAct) : Agent := engineAgent a.die a.entry.ctx

/-- A fault that stops a queue: cause, detail and faulting address (R310). -/
structure EFault where
  cause : Cause
  detail : Nat
  addr : Word64
  deriving DecidableEq, Repr

/-- A failed access of an element. -/
def xStop (f : XFault) (va : Word64) : EFault := { cause := f.cause, detail := f.w9.toNat, addr := va }

/-- ENGINE_PROGRAM with its detail (R309). -/
def programStop (d : Nat) : EFault := { cause := .engineProgram, detail := d, addr := 0 }

/-- What a turn of a command or of one element comes to. -/
inductive CmdRes where
  | done (s : State)
  | wait (s : State)
  | stop (s : State) (f : EFault)

/-- The hitch of the block that a queue is bound to (R242). -/
def State.hitchOfBlock (s : State) (blk : Nat) : Nat :=
  match tget s.blocks blk with | some b => hitchOf (b.cores.headD 0) | none => 0

/-! ### Stops (R310) -/

/-- A CSIG that can be performed: its command. -/
def Entry.signal? (e : Entry) : Option Cmd :=
  if e.drain.isSome then none
  else
    match decodeCmd e.word e.extra with
    | .ok (.csig c) =>
      let f := c.fields.toNat
      if f / 2 ^ 6 = 0 ∧ 2 ≤ f % 8 ∧ f % 8 ≤ 4 ∧ f / 8 % 4 ≤ 1 then some c else none
    | _ => none

/-- The place of an atomic of a queue, with its effective scope and the faults of R256 before the last (R303). -/
def State.enginePlace (s : State) (die : Nat) (c : Ctx) (va : Word64) (scope n : Nat) (u : Use) : State × Except XFault (Xl × Nat) :=
  let ag := engineAgent die c
  match s.findRecord ag (field va 63 40) with
  | (s, .error f) => (s, .error f)
  | (s, .ok r) =>
    if scope = 4 ∧ r.kind ≠ 5 then (s, .error { cause := .permission, w9 := 0 })
    else
      match r.refuses ag u with
      | some w9 => (s, .error { cause := .permission, w9 := w9 })
      | none =>
        match s.xlBytes ag (field va 63 40) r (field va 39 0) n n with
        | (s, .ok x) => (s, .ok (x, effScope x scope))
        | (s, .error f) => (s, .error f)

/-- The place of a releasing atomic of a queue, with the last faults of R256 and the scope check of its line, which comes to the unit
that performs it (R252, R253, R303); one at a moving granule is checked when it performs (R219). -/
def State.signalPlace (s : State) (die blk : Nat) (c : Ctx) (va : Word64) (scope n : Nat) : State × Except XFault Xl :=
  match s.enginePlace die c va scope n .atom with
  | (s, .error f) => (s, .error f)
  | (s, .ok (x, eff)) =>
    let hitch := s.hitchOfBlock blk
    match s.admitAt (s.degrades blk) hitch x n eff (if x.moving then 0 else 2) (!x.moving) fun s => s.busFault die x n true with
    | (s, .error f) => (s, .error f)
    | (s, .ok stands) => (if x.moving then s else s.claimSpot hitch ((Spot.glob x eff).under stands), .ok x)

/-- Holds a write of a queue at a moving granule (R219). -/
def State.holdEngine (s : State) (die q : Nat) (c : Ctx) (va : Word64) (x : Xl) (h : Held → Held) : State :=
  let base : Held :=
    { id := s.nextId, asid := c.asid, ortBase := c.ortBase, ortSize := c.ortSize, va := va, pa := x.pa, entryAt := x.entryAt
      op := .exch, plain := true, bytes := [], width := 0, signed := false, data := 0, cmp := 0, dev := false, key := die * 32 + q
      lane := 0, engine := some (die, q), dest := .none, start := 0, word := 0, w8 := 0, gran := x.gran, since := s.clock
      limit := c.reloc, keySlot := x.key, live := true, acq := false, scope := 3, order := 0, hitch := 0, degrade := false, coord := none
      owner := (0, 2 ^ 20 + die * 32 + q), launch := none
      mode := c.mode, vector := false, byEngine := true, tab := s.queueTab die q }
  { s with held := s.held ++ [h base], nextId := s.nextId + 1 }

/-- The write of a held CSIG as a fault signal, after its queue has stopped with a cause and an address; one that faults
writes nothing and counts in the queue's region (R310). -/
def State.faultSignal (s : State) (die q blk : Nat) (cause : BitVec 8) (addr : Word64) (e : Entry) (c : Cmd) : State :=
  let f := c.fields.toNat
  let n := if f / 2 ^ 5 % 2 = 1 then 8 else 4
  let v : Word64 := BitVec.ofNat 64 (2 ^ (8 * n - 1) + cause.toNat)
  let va := c.extra.getD 0 0
  let owner := (s.queue die q).owner.toNat
  match s.signalPlace die blk e.ctx va (f % 8) n with
  | (s, .error _) => s.regionFault (s.queueTab die q) owner
  | (s, .ok x) =>
    if x.moving then
      s.holdEngine die q e.ctx va x fun h =>
        { h with engine := none, dev := true, plain := false, width := n, data := v, cmp := addr, limit := 0, live := false
                 scope := f % 8, order := 2, hitch := s.hitchOfBlock blk, degrade := s.degrades blk }
    else
      match s.rmw die x n .exch false v 0 false with
      | (s, .error _) => s.regionFault (s.queueTab die q) owner
      | (s, .ok _) => s.markSignal x.pa n (cause, die * 32 + q, addr)

/-- The party of an open fork of a block that a die-local queue is: the fork's offset and the party's number. -/
def State.partyOf (s : State) (blk q : Nat) : Option (Nat × Nat) :=
  (tget s.blocks blk).bind fun b => b.forks.findSome? fun f =>
    match f.partyOf q with
    | some i => if f.ended.getLsbD i then none else some (f.off, i)
    | none => none

/-- Writes the first stop of a fork's queues into its rendezvous object (R315). -/
def State.reportStop (s : State) (blk q : Nat) (cause : BitVec 8) : State :=
  match s.partyOf blk q with
  | some (off, i) =>
    s.updRdv blk off 1 fun w => if w.toNat % 256 = 0 then BitVec.ofNat 32 (cause.toNat + (i - 1) * 2 ^ 8) else w
  | none => s

/-- Stops a queue with a fault (R310): the queue table and the rendezvous object record it, poison counts in the region, and the
CSIGs in the FIFO perform as fault signals. -/
def State.stopQueue (s : State) (die q : Nat) (f : EFault) : State :=
  let k := s.queue die q
  let blk := k.block.getD 0
  let code := f.cause.code
  let sigs := k.fifo.filterMap fun e => e.signal?.map fun c => (e, c)
  let s1 := (s.withdrawQueue die q).updQueue die q fun k => { k with
    state := .stopped, cause := code, detail := BitVec.ofNat 24 f.detail, addr := f.addr
    command := (match k.cur with | some e => e.word | none => 0), fifo := k.fifo.filter fun e => e.signal?.isNone
    sent := none, tries := 0, ringWait := none }
  let s2 := s1.reportStop blk q code
  let s3 := if f.cause = .deviceError ∧ (f.detail = 1 ∨ f.detail = 3) then s2.regionFault (s2.queueTab die q) k.owner.toNat else s2
  sigs.foldl (fun s e => s.faultSignal die q blk code f.addr e.1 e.2) s3

/-! ### The end of a command -/

/-- Ends a command that has performed: a marked one counts (R41), and a queue with nothing more is unbound (R289, R308). -/
def State.endCommand (s : State) (die q : Nat) : State :=
  (s.updQueue die q fun k =>
    let mark := match k.cur with | some e => e.drain.isNone && e.word.getLsbD 48 | none => false
    { k with cur := none, elem := 0, sent := none, tries := 0, ringWait := none
             progress := if mark then k.progress + 1 else k.progress }).settleQueue die q

def State.endTurn (die q : Nat) (r : CmdRes) : State :=
  match r with
  | .done s => s.endCommand die q
  | .wait s => s
  | .stop s f => s.stopQueue die q f

/-- The queue's command in progress, when the queue is bound and has one. -/
def State.queueAct (s : State) (die q : Nat) : Option QAct :=
  let k := s.queue die q
  match k.cur, k.block with
  | some e, some b => if k.state = .bound then some { die := die, q := q, blk := b, entry := e, elem := k.elem } else none
  | _, _ => none

/-- Whether a write of a queue is held: its element waits (R219). -/
def State.queueHeld (s : State) (die q : Nat) : Bool := s.held.any fun h => decide (h.engine = some (die, q))

/-- A turn of the command of the issuing queue. -/
def State.asQueue (s : State) (f : QAct → State → CmdRes) : Out :=
  match s.issuer with
  | .queue die q =>
    match s.queueAct die q with
    | some a => if s.queueHeld die q then .next s else .next (State.endTurn die q (f a s))
    | none => .fault .noIssuer
  | _ => .fault .noIssuer

/-- A turn of a command whose field bits outside `mask` must be 0 (R297, R309). A command that is barred in another way too, as a CZERO
taken in mode U, reports ENGINE_PROGRAM first (DESIGN CHOICE, log 75: R42 and R297 give no order of the two). -/
def State.command (s : State) (c : Cmd) (mask : BitVec 48) (f : QAct → State → CmdRes) : Out :=
  s.asQueue fun a s => if c.fields &&& ~~~mask ≠ 0 then .stop s (programStop 2) else f a s

/-- Bits of a command's fields, and its extra words. -/
def cmdFld (c : Cmd) (hi lo : Nat) : Nat := c.fields.toNat / 2 ^ lo % 2 ^ (hi + 1 - lo)
def cmdWord (c : Cmd) (i : Nat) : Word64 := c.extra.getD i 0

/-- Performs `n` elements from element `k` on; the queue keeps the first that is not performed (R310). -/
def runElems (die q : Nat) (f : State → Nat → CmdRes) : Nat → Nat → State → CmdRes
  | 0, _, s => .done s
  | n + 1, k, s =>
    match f s k with
    | .done s => runElems die q f n (k + 1) s
    | .wait s => .wait (s.updQueue die q fun x => { x with elem := k })
    | .stop s e => .stop (s.updQueue die q fun x => { x with elem := k }) e

/-! ### Taking a command (R290, R305) -/

/-- Reads `n` bytes of one access for an engine. -/
def State.engineRead (s : State) (die : Nat) (c : Ctx) (va : Word64) (n : Nat) : State × Except EFault (List Byte) :=
  match s.translate (engineAgent die c) va n n .load with
  | (s, .error f) => (s, .error (xStop f va))
  | (s, .ok x) =>
    match s.busRead die x n with
    | (s, .ok bs) => (s, .ok bs)
    | (s, .error f) => (s, .error (xStop f va))

/-- Reads `k` units of `n` bytes from an address up, as one list. -/
def State.engineUnits (s : State) (die : Nat) (c : Ctx) (va : Word64) (n : Nat) : Nat → State × Except EFault (List Byte)
  | 0 => (s, .ok [])
  | k + 1 =>
    match s.engineUnits die c va n k with
    | (s, .error f) => (s, .error f)
    | (s, .ok bs) =>
      match s.engineRead die c (va + BitVec.ofNat 64 (n * k)) n with
      | (s, .error f) => (s, .error f)
      | (s, .ok b) => (s, .ok (bs ++ b))

/-- Doubleword `i` of bytes. -/
def doubleAt (bs : List Byte) (i : Nat) : Word64 := BitVec.ofNat 64 (ofBytes ((bs.drop (8 * i)).take 8))

/-- The extra words of a program word: as many as the word gives, when the word passes R42. -/
def progExtra (w : Word64) : Nat :=
  if field w 63 58 > 12 ∨ field w 55 50 ≠ 0 ∨ field w 57 56 ≠ cmdExtra (field w 63 58) (w.getLsbD 2) then 0 else field w 57 56

/-- A queue that is bound to a placed block and performs no command takes its next: from its FIFO, else from its program; a
program that cannot be read stops it, with the command word where that was read (R290, R310, R314, R318). -/
def State.takeCommand (s : State) (die q : Nat) : State :=
  let k := s.queue die q
  let placed := match k.block.bind fun b => tget s.blocks b with | some b => decide (b.stat = .placed) | none => false
  if k.state ≠ .bound ∨ k.cur.isSome ∨ !placed then s
  else
    match k.fifo, k.prog with
    | e :: rest, _ => s.updQueue die q fun k => { k with fifo := rest, cur := some e, elem := 0 }
    | [], none => s
    | [], some (pc, c) =>
      match s.engineRead die c pc 8 with
      | (s, .error f) => s.stopQueue die q f
      | (s, .ok bs) =>
        let w := doubleAt bs 0
        let n := progExtra w
        match s.engineUnits die c (pc + 8) 8 n with
        | (s, .error f) => (s.stopQueue die q f).updQueue die q fun k => { k with command := w }
        | (s, .ok xs) =>
          let e : Entry := { word := w, extra := (List.range n).map (doubleAt xs), tsr := none, ctx := c, drain := none, hitch := 0
                             pc := some pc, rows := [], unlocked := false }
          s.updQueue die q fun k => { k with cur := some e, elem := 0, prog := some (pc + BitVec.ofNat 64 (8 * (n + 1)), c) }

/-! ### Tensor shape records (R292-R295) -/

/-- A tensor shape record: its 24 words. -/
abbrev Tsr := List Word32

def tsrW (t : Tsr) (i : Nat) : Word32 := t.getD i 0
def tsrFld (t : Tsr) (i hi lo : Nat) : Nat := dfld (tsrW t i) hi lo
def tsrRank (t : Tsr) : Nat := tsrFld t 0 3 0
def tsrFmt (t : Tsr) : Nat := tsrFld t 0 7 4
def tsrBits (t : Tsr) : Nat := fmtBits (tsrFmt t)
def tsrEdge (t : Tsr) : Nat := tsrFld t 0 9 8
def tsrAdd (t : Tsr) : Bool := (tsrW t 0).getLsbD 10
def tsrSwap (t : Tsr) : Bool := (tsrW t 0).getLsbD 11
def tsrOrigin (t : Tsr) : Word64 := tsrW t 2 ++ tsrW t 1
def tsrScratch (t : Tsr) : Bool := decide (tsrFld t 2 31 8 = scratchHandle)
def tsrExt (t : Tsr) (k : Nat) : Nat := (tsrW t (3 + k)).toNat
def tsrStride (t : Tsr) (k : Nat) : Nat := if k = 0 then 1 else (tsrW t (7 + k)).toNat
def tsrOff (t : Tsr) (k : Nat) : Int := (tsrW t (12 + k)).toInt
def tsrSize (t : Tsr) (k : Nat) : Nat := tsrFld t (17 + k / 2) (16 * (k % 2) + 15) (16 * (k % 2))
def tsrDest (t : Tsr) : Nat := tsrFld t 22 23 0
def tsrPitch (t : Tsr) : Nat := tsrFld t 22 31 24
/-- Bytes that an access of an element takes. -/
def tsrBytes (t : Tsr) : Nat := max 1 (tsrBits t / 8)
def tsrFill (t : Tsr) : Nat := (tsrW t 21).toNat % 2 ^ tsrBits t

/-- Elements of the window. -/
def tsrCount (t : Tsr) : Nat := tsrSize t 0 * tsrSize t 1 * tsrSize t 2 * tsrSize t 3 * tsrSize t 4

/-- Whether word `i` of a record holds a nonzero reserved field (R292, R293). -/
def tsrReserved (t : Tsr) (i : Nat) : Bool :=
  match i with
  | 0 => decide (tsrFld t 0 15 12 ≠ 0)
  | 2 => tsrScratch t && decide (tsrFld t 2 7 0 ≠ 0)
  | 19 => decide (tsrFld t 19 31 16 ≠ 0)
  | 20 => decide (tsrFld t 20 31 16 ≠ 0)
  | 21 => decide ((tsrW t 21).toNat / 2 ^ tsrBits t ≠ 0 ∧ tsrBits t ≠ 0)
  | 23 => decide (tsrW t 23 ≠ 0)
  | _ => false

/-- Whether window size k is 0 or ill set. -/
def tsrSizeBad (t : Tsr) (k : Nat) : Bool := decide (tsrSize t k = 0 ∨ (tsrRank t ≤ k ∧ tsrSize t k ≠ 1))

/-- Whether a range condition charged to word `i` fails (R293). -/
def tsrRange (t : Tsr) (i : Nat) : Bool :=
  let r := tsrRank t
  if i = 0 then
    decide (tsrFld t 0 31 16 ≠ 1 ∨ r = 0 ∨ r > 5 ∨ tsrBits t = 0) || (tsrAdd t && decide (tsrFmt t ≠ 0))
  else if 3 ≤ i ∧ i ≤ 7 then
    (if i - 3 < r then decide (tsrExt t (i - 3) = 0) else decide (tsrExt t (i - 3) ≠ 1))
  else if 8 ≤ i ∧ i ≤ 11 then
    (if i - 7 < r then
      decide (tsrStride t (i - 7) < tsrExt t (i - 8) * tsrStride t (i - 8) ∨ (tsrBits t = 4 ∧ tsrStride t (i - 7) % 2 ≠ 0))
    else decide (tsrStride t (i - 7) ≠ 0))
  else if 12 ≤ i ∧ i ≤ 16 then
    decide (r ≤ i - 12 ∧ tsrW t i ≠ 0) || decide (i = 12 ∧ tsrBits t = 4 ∧ tsrOff t 0 % 2 ≠ 0)
  else if i = 17 then
    tsrSizeBad t 0 || tsrSizeBad t 1 || decide (tsrBits t = 4 ∧ tsrSize t 0 % 2 ≠ 0)
  else if i = 18 then tsrSizeBad t 2 || tsrSizeBad t 3
  else if i = 19 then tsrSizeBad t 4
  else if i = 20 then
    let g := tsrFld t 20 4 0
    let b := tsrFld t 20 9 5
    let sw := tsrFld t 20 15 10
    decide (g > 12 ∨ b > 5 ∨ sw > 23) || decide (b = 0 ∧ (g ≠ 0 ∨ sw ≠ 0))
      || decide (b ≠ 0 ∧ (8 * 2 ^ g < tsrBits t ∨ sw < g + b))
  else if i = 22 then
    decide (tsrPitch t > 20 ∨ (if tsrSwap t then tsrSize t 1 else tsrSize t 0) * tsrBits t > 8 * 2 ^ tsrPitch t)
  else false

/-- The fault of a record: its lowest word that fails, a reserved field before a range (R293). The pitch, swizzle and destination
of a record of CWINA must be 0, in place of their range conditions (R299). -/
def tsrFault (t : Tsr) (plain : Bool) : Option EFault :=
  (List.range 24).findSome? fun i =>
    let range := if plain && (i == 20 || i == 22) then decide (tsrW t i ≠ 0) else tsrRange t i
    if tsrReserved t i then some { cause := .tsrReserved, detail := i, addr := 0 }
    else if range then some { cause := .tsrRange, detail := i, addr := 0 }
    else none

/-- The record at an address that must be a multiple of 32 (R292, R298). -/
def State.readTsr (s : State) (a : QAct) (va : Word64) : State × Except EFault Tsr :=
  if va.toNat % 32 ≠ 0 then (s, .error { cause := .misaligned, detail := 0, addr := va })
  else
    match s.engineUnits a.die a.entry.ctx va 4 24 with
    | (s, .ok bs) => (s, .ok (bytesWords 24 bs))
    | (s, .error f) => (s, .error f)

/-- The coordinates j0 to j4 of window element `i`, j0 varying fastest (R296). -/
def winIndex (n : Nat → Nat) (i : Nat) : List Nat :=
  [i % n 0, i / n 0 % n 1, i / n 0 / n 1 % n 2, i / n 0 / n 1 / n 2 % n 3, i / n 0 / n 1 / n 2 / n 3]

/-- Where a window element stands in its tensor (R294). -/
inductive Elem where
  | at' (l : Nat)
  | outside
  | fault (k : Nat) (addr : Word64)
  deriving DecidableEq, Repr

/-- The bytes from the origin to a logical index. -/
def tsrBytesTo (t : Tsr) (l : Int) : Int := l * (tsrBits t : Int) / 8

/-- The place of window element j under the edge mode (R294). -/
def tsrElem (t : Tsr) (j : List Nat) : Elem :=
  let x (k : Nat) : Int := tsrOff t k + (j.getD k 0 : Nat)
  let lin (y : Nat → Int) : Int := y 0 + y 1 * (tsrStride t 1 : Nat) + y 2 * (tsrStride t 2 : Nat) + y 3 * (tsrStride t 3 : Nat) + y 4 * (tsrStride t 4 : Nat)
  match [0, 1, 2, 3, 4].find? fun k => decide (x k < 0 ∨ x k ≥ (tsrExt t k : Nat)) with
  | none => .at' (lin x).toNat
  | some k =>
    if tsrEdge t = 3 then .fault k (tsrOrigin t + BitVec.ofInt 64 (tsrBytesTo t (lin x)))
    else if tsrEdge t = 2 then .at' (lin fun k => x k % (tsrExt t k : Nat)).toNat
    else .outside

/-- Destination byte of window element j, from the destination offset up, and its nibble (R295). -/
def tsrPlace (t : Tsr) (j : List Nat) : Nat × Nat :=
  let n (k : Nat) : Nat := tsrSize t k
  let d (k : Nat) : Nat := j.getD k 0
  let hi := d 2 + n 2 * (d 3 + n 3 * d 4)
  let r := if tsrSwap t then d 0 + n 0 * hi else d 1 + n 1 * hi
  let col := if tsrSwap t then d 1 else d 0
  let y := r * 2 ^ tsrPitch t + col * tsrBits t / 8
  let g := tsrFld t 20 4 0
  let b := tsrFld t 20 9 5
  let f := y / 2 ^ g % 2 ^ b
  let q := y / 2 ^ tsrFld t 20 15 10 % 2 ^ b
  (y - f * 2 ^ g + (f ^^^ q) * 2 ^ g, if tsrBits t = 4 then col % 2 else 0)

/-! ### Elements -/

/-- Bytes with one nibble replaced. -/
def setNibble (b : Byte) (i v : Nat) : Byte :=
  if i = 0 then (b &&& 0xF0) ||| BitVec.ofNat 8 (v % 16) else (b &&& 0x0F) ||| BitVec.ofNat 8 (v % 16 * 16)

/-- An element's value from its bytes, and its bytes from its value and the bytes that stood there (R81). -/
def elemOf (t : Tsr) (bs : List Byte) (nib : Nat) : Nat := if tsrBits t = 4 then ofBytes bs / 16 ^ nib % 16 else ofBytes bs
def elemBytes (t : Tsr) (old : List Byte) (nib v : Nat) : List Byte :=
  if tsrBits t = 4 then [setNibble (old.getD 0 0) nib v] else toBytes (tsrBytes t) v

/-- The virtual address of a logical index. -/
def tsrVa (t : Tsr) (l : Nat) : Word64 := tsrOrigin t + BitVec.ofNat 64 (l * tsrBits t / 8)

/-- Reads the element at a logical index of a tensor in memory. -/
def State.tensorRead (s : State) (a : QAct) (t : Tsr) (l : Nat) : State × Except EFault Nat :=
  match s.engineRead a.die a.entry.ctx (tsrVa t l) (tsrBytes t) with
  | (s, .ok bs) => (s, .ok (elemOf t bs (l % 2)))
  | (s, .error f) => (s, .error f)

/-- Writes the element at a logical index of a tensor in memory, or adds to it as a relaxed AFADD.dev (R296); a write at a moving
granule is held (R219). -/
def State.tensorWrite (s : State) (a : QAct) (t : Tsr) (l v : Nat) : CmdRes :=
  let va := tsrVa t l
  match s.translate a.agent va (tsrBytes t) (tsrBytes t) (if tsrAdd t then .atom else .store) with
  | (s, .error f) => .stop s (xStop f va)
  | (s, .ok x) =>
    if x.moving then .wait (s.holdEngine a.die a.q a.entry.ctx va x id)
    else if tsrAdd t then
      match s.rmw a.die x 4 .fadd false (BitVec.ofNat 64 v) 0 with
      | (s, .ok _) => .done s
      | (s, .error f) => .stop s (xStop f va)
    else
      match s.busWrite a.die x (elemBytes t (s.homeRead x.pa (tsrBytes t) x.key) (l % 2) v) with
      | (s, none) => .done s
      | (s, some f) => .stop s (xStop f va)

/-- Reads and writes an element in a block's scratchpad. -/
def State.scratchElem (s : State) (t : Tsr) (blk off nib : Nat) : State × Nat :=
  let r := s.scratchRead blk off (tsrBytes t)
  (r.1, elemOf t r.2 nib)

def State.putScratch (s : State) (t : Tsr) (blk off nib v : Nat) : State :=
  let r := s.scratchRead blk off (tsrBytes t)
  r.1.scratchWrite blk off (elemBytes t r.2 nib v)

/-- Writes an element into the operand memory of a hitch. -/
def State.putSlot (s : State) (t : Tsr) (hitch off nib v : Nat) : State :=
  s.updHitch hitch fun h => { h with mem := writeBytes h.mem off (elemBytes t (readBytes h.mem off (tsrBytes t)) nib v) }

/-! ### CWIN, CFILL and CSLOT (R298) -/

/-- The record of a command: the inline one, or the record in memory, checked. -/
def State.commandTsr (s : State) (a : QAct) (c : Cmd) : State × Except EFault Tsr :=
  let r : State × Except EFault Tsr :=
    if c.fields.getLsbD 2 then (s, match a.entry.tsr with | some t => .ok t | none => .error (programStop 3))
    else s.readTsr a (cmdWord c 0)
  match r with
  | (s, .error f) => (s, .error f)
  | (s, .ok t) => (s, match tsrFault t false with | some f => .error f | none => .ok t)

/-- PERMISSION for a record whose origin is the scratchpad handle. -/
def originStop : EFault := { cause := .permission, detail := 0, addr := 0 }

/-- The window elements with their destinations. -/
def tsrPlaces (t : Tsr) : List Nat :=
  (List.range (tsrCount t)).map fun i => tsrDest t + (tsrPlace t (winIndex (tsrSize t) i)).1

/-- The destination check of R295 for the bound window. -/
def State.scratchStop (s : State) (a : QAct) (t : Tsr) : Option EFault :=
  let limit := s.windowLimit a.blk 0
  if (tsrPlaces t).any fun y => decide (y + tsrBytes t > limit) then some { cause := .scratchBound, detail := 0, addr := 0 } else none

/-- The places of the window elements that a delivery writes: those inside the extents, and those that take the fill value (R294). -/
def tsrWritten (t : Tsr) : List Nat :=
  (List.range (tsrCount t)).filterMap fun i =>
    let j := winIndex (tsrSize t) i
    let y := tsrDest t + (tsrPlace t j).1
    match tsrElem t j with
    | .at' _ => some y
    | .outside => if tsrEdge t = 1 then some y else none
    | .fault .. => none

/-- The destination checks of a window in operand memory: the bounds of its image, and the claims of the slots that it writes (R295,
R298). -/
def State.slotStop (s : State) (hitch : Nat) (asid : Word32) (t : Tsr) : Option EFault :=
  let n := tsrBytes t
  if (tsrPlaces t).any fun y => decide (y + n > 2 ^ 21) then some { cause := .matrixRange, detail := 3, addr := 0 }
  else
    let slots := ((tsrWritten t).map fun y => [y / 16384, (y + n - 1) / 16384]).flatten
    (slots.foldl (fun best k => if s.slotClaimed hitch k asid then best
      else match best with | some b => some (min b k) | none => some k) none).map fun k => { cause := .slotNotClaimed, detail := k, addr := 0 }

/-- Runs the elements of a window from the first not performed: `f` takes the state, the element's place in the tensor, and its
destination byte and nibble. -/
def State.overWindow (s : State) (a : QAct) (t : Tsr) (f : State → Elem → Nat → Nat → CmdRes) : CmdRes :=
  runElems a.die a.q (fun s i =>
    let j := winIndex (tsrSize t) i
    let y := tsrPlace t j
    f s (tsrElem t j) (tsrDest t + y.1) y.2) (tsrCount t - a.elem) a.elem s

/-- A fault of the edge mode (R294). -/
def shapeStop (k : Nat) (addr : Word64) : EFault := { cause := .outOfShape, detail := k, addr := addr }

/-- Delivers a window element to a destination: its value from the tensor, or the fill value (R294). -/
def State.deliver (s : State) (a : QAct) (t : Tsr) (e : Elem) (put : State → Nat → State) : CmdRes :=
  match e with
  | .fault k va => .stop s (shapeStop k va)
  | .outside => .done (if tsrEdge t = 1 then put s (tsrFill t) else s)
  | .at' l =>
    match s.tensorRead a t l with
    | (s, .ok v) => .done (put s v)
    | (s, .error f) => .stop s f

/-- Stores a value at a window element of a tensor in memory (R294). -/
def State.storeElem (s : State) (a : QAct) (t : Tsr) (e : Elem) (v : Nat) : CmdRes :=
  match e with
  | .fault k va => .stop s (shapeStop k va)
  | .outside => .done s
  | .at' l => s.tensorWrite a t l v

def execCwin (c : Cmd) (s : State) : Out :=
  s.command c 0x7 fun a s =>
    if cmdFld c 1 0 > 1 then .stop s (programStop 3)
    else
      match s.commandTsr a c with
      | (s, .error f) => .stop s f
      | (s, .ok t) =>
        if tsrScratch t then .stop s originStop
        else
          match s.scratchStop a t with
          | some f => .stop s f
          | none =>
            if cmdFld c 1 0 = 0 then
              s.overWindow a t fun s e y nib => s.deliver a t e fun s v => s.putScratch t a.blk y nib v
            else
              s.overWindow a t fun s e y nib =>
                let r := s.scratchElem t a.blk y nib
                r.1.storeElem a t e r.2

def execCfill (c : Cmd) (s : State) : Out :=
  s.command c 0x5 fun a s =>
    match s.commandTsr a c with
    | (s, .error f) => .stop s f
    | (s, .ok t) =>
      if c.fields.getLsbD 0 then
        match s.scratchStop a t with
        | some f => .stop s f
        | none => s.overWindow a t fun s _ y nib => .done (s.putScratch t a.blk y nib (tsrFill t))
      else if tsrScratch t then .stop s originStop
      else s.overWindow a t fun s e _ _ => s.storeElem a t e (tsrFill t)

def execCslot (c : Cmd) (s : State) : Out :=
  s.command c 0x4 fun a s =>
    match s.commandTsr a c with
    | (s, .error f) => .stop s f
    | (s, .ok t) =>
      let hitch := s.hitchOfBlock a.blk
      if tsrScratch t then .stop s originStop
      else
        match s.slotStop hitch a.entry.ctx.asid t with
        | some f => .stop s f
        | none => s.overWindow a t fun s e y nib => s.deliver a t e fun s v => s.putSlot t hitch y nib v

/-! ### CWINA (R299) -/

/-- Window sizes with the transpose bit taken into account, and the window element of an element so numbered. -/
def viewSize (t : Tsr) (k : Nat) : Nat := if tsrSwap t then tsrSize t (if k = 0 then 1 else if k = 1 then 0 else k) else tsrSize t k
def viewElem (t : Tsr) (i : Nat) : Elem :=
  let j := winIndex (viewSize t) i
  tsrElem t (if tsrSwap t then [j.getD 1 0, j.getD 0 0, j.getD 2 0, j.getD 3 0, j.getD 4 0] else j)

/-- The lowest word by which two records of CWINA differ where they must agree. -/
def pairStop (x y : Tsr) : Option EFault :=
  let r (d : Nat) : Option EFault := some { cause := .tsrRange, detail := d, addr := 0 }
  if tsrFmt x ≠ tsrFmt y then r 0
  else if viewSize x 0 ≠ viewSize y 0 ∨ viewSize x 1 ≠ viewSize y 1 then r 17
  else if tsrSize x 2 ≠ tsrSize y 2 ∨ tsrSize x 3 ≠ tsrSize y 3 then r 18
  else if tsrSize x 4 ≠ tsrSize y 4 then r 19
  else none

/-- The place in the bound window of a logical index of a record whose origin is the scratchpad handle. -/
def State.viewPlace (s : State) (a : QAct) (t : Tsr) (l : Nat) : Option (Nat × Nat) :=
  s.window a.blk ((tsrW t 1).toNat + l * tsrBits t / 8) (tsrBytes t)

def boundStop : EFault := { cause := .scratchBound, detail := 0, addr := 0 }

/-- Whether an element of a scratchpad window falls outside the bound window. -/
def State.viewStop (s : State) (a : QAct) (t : Tsr) : Option EFault :=
  if tsrScratch t && (List.range (tsrCount t)).any fun i =>
      match viewElem t i with | .at' l => (s.viewPlace a t l).isNone | _ => false then some boundStop
  else none

/-- Reads source element `i`: none when nothing is delivered. -/
def State.viewRead (s : State) (a : QAct) (t : Tsr) (i : Nat) : State × Except EFault (Option Nat) :=
  match viewElem t i with
  | .fault k va => (s, .error (shapeStop k va))
  | .outside => (s, .ok (if tsrEdge t = 1 then some (tsrFill t) else none))
  | .at' l =>
    if tsrScratch t then
      match s.viewPlace a t l with
      | some (b, o) => let r := s.scratchElem t b o (l % 2)
                       (r.1, .ok (some r.2))
      | none => (s, .error boundStop)
    else
      match s.tensorRead a t l with
      | (s, .ok v) => (s, .ok (some v))
      | (s, .error f) => (s, .error f)

/-- Writes destination element `i`. -/
def State.viewWrite (s : State) (a : QAct) (t : Tsr) (i v : Nat) : CmdRes :=
  match viewElem t i with
  | .fault k va => .stop s (shapeStop k va)
  | .outside => .done s
  | .at' l =>
    if tsrScratch t then
      match s.viewPlace a t l with
      | some (b, o) => .done (s.putScratch t b o (l % 2) v)
      | none => .stop s boundStop
    else s.tensorWrite a t l v

/-- Copies the elements of a window, each from the state `from_` when the source is read before any write. -/
def State.copyView (s : State) (a : QAct) (x y : Tsr) (before : Option State) : CmdRes :=
  runElems a.die a.q (fun s i =>
    let r : State × Except EFault (Option Nat) := match before with
      | some b => (s, (b.viewRead a x i).2)
      | none => s.viewRead a x i
    match r with
    | (s, .error f) => .stop s f
    | (s, .ok none) => (match viewElem y i with | .fault k va => .stop s (shapeStop k va) | _ => .done s)
    | (s, .ok (some v)) => s.viewWrite a y i v) (tsrCount x - a.elem) a.elem s

def execCwina (c : Cmd) (s : State) : Out :=
  s.command c 0 fun a s =>
    match s.readTsr a (cmdWord c 0) with
    | (s, .error f) => .stop s f
    | (s, .ok x) =>
      match tsrFault x true with
      | some f => .stop s f
      | none =>
        match s.readTsr a (cmdWord c 1) with
        | (s, .error f) => .stop s f
        | (s, .ok y) =>
          match (tsrFault y true).or (pairStop x y) with
          | some f => .stop s f
          | none =>
            match (s.viewStop a x).or (s.viewStop a y) with
            | some f => .stop s f
            | none => s.copyView a x y (if tsrScratch x && tsrScratch y then some s else none)

/-! ### Drains (R283) -/

/-- The fault of a record for a drain of some rows: R293, then the conditions of R283. -/
def drainFault (t : Tsr) (rows : Nat) : Option EFault :=
  (tsrFault t false).or
    (let r (d : Nat) : Option EFault := some { cause := .tsrRange, detail := d, addr := 0 }
     if tsrFmt t > 2 then r 0
     else if tsrSize t 0 > 256 ∨ tsrSize t 1 ≠ rows then r 17
     else if tsrSize t 2 ≠ 1 ∨ tsrSize t 3 ≠ 1 then r 18
     else if tsrSize t 4 ≠ 1 then r 19
     else none)

/-- The rows of a drain, 256 words each. -/
def Hitch.rowWords (h : Hitch) (d : Word32) : List Word32 :=
  ((accRows d).map fun r => (List.range 256).map fun j => (tget h.acc (r * 256 + j)).getD 0).flatten

/-- The element of a drained accumulator word in the record's format: RoundNE with subnormals kept. -/
def drainElem (t : Tsr) (x : Word32) : Nat := if tsrFmt t = 0 then x.toNat else cvt (tsrFmt t) .rn false (fp32.read x.toNat)

/-- The rows of a drain unlocked, once. -/
def State.unlockDrain (s : State) (a : QAct) (d : Word32) : State :=
  if a.entry.unlocked then s
  else (s.unlockRows a.entry.hitch d).updQueue a.die a.q fun k => { k with cur := k.cur.map fun e => { e with unlocked := true } }

/-- A turn of a drain: the record is checked, the rows are read and unlocked, and the elements are written or added. A record that
fails a check unlocks them too; one that cannot be read does not. -/
def State.drain (s : State) (a : QAct) (d : Word32) (at' : Word64) : CmdRes :=
  let got : State × Except EFault Tsr := match a.entry.tsr with
    | some t => (s, .ok t)
    | none => s.readTsr a at'
  match got with
  | (s, .error f) => .stop s f
  | (s, .ok t) =>
    match drainFault t (accRows d).length with
    | some f => .stop (s.unlockDrain a d) f
    | none =>
      let rows := if a.entry.rows.isEmpty then (s.hitch a.entry.hitch).rowWords d else a.entry.rows
      let s := (s.unlockDrain a d).updQueue a.die a.q fun k => { k with cur := k.cur.map fun e => { e with rows := rows } }
      if tsrScratch t then .stop s originStop
      else
        runElems a.die a.q (fun s i =>
          let j := winIndex (tsrSize t) i
          s.storeElem a t (tsrElem t j) (drainElem t (rows.getD (j.getD 1 0 * 256 + j.getD 0 0) 0))) (tsrCount t - a.elem) a.elem s

/-- DRAIN_PERFORM: a drain that its queue has taken performs. -/
def execDrainPerform (s : State) : Out :=
  match s.occ with
  | .queue die q =>
    match s.queueAct die q with
    | some a =>
      (match a.entry.drain with
      | some (d, at') => if s.queueHeld die q then .next s else .next (State.endTurn die q (s.drain a d at'))
      | none => .next s)
    | none => .next s
  | _ => .fault .noIssuer

end Sys2Proof.Machine
end

