-- ==== Sys2Proof/Machine/Command.lean ====
section
/-! DEFINITION. The other copy commands and the events of queues, held writes and other modules
(spec/13_copy_engines.md R300-R308; spec/09_objects_and_translation.md R219; spec/17_package_links_boot.md R386, R387). -/

namespace Sys2Proof.Machine

/-- Reads `n` bytes one by one for an engine, whatever the object's layout. -/
def State.engineBytes (s : State) (a : QAct) (va : Word64) (n : Nat) : State × Except EFault (List Byte) :=
  s.engineUnits a.die a.entry.ctx va 1 n

/-- Writes one byte for an engine; a write at a moving granule is held (R219). -/
def State.engineByte (s : State) (a : QAct) (va : Word64) (b : Byte) : CmdRes :=
  match s.translate a.agent va 1 1 .store with
  | (s, .error f) => .stop s (xStop f va)
  | (s, .ok x) =>
    if x.moving then .wait (s.holdEngine a.die a.q a.entry.ctx va x id)
    else
      match s.busWrite a.die x [b] with
      | (s, none) => .done s
      | (s, some f) => .stop s (xStop f va)

/-! ### CMCAST (R300) -/

/-- A destination of a multicast: the operand memory of a hitch, or the window of a block. -/
inductive Target where
  | hitch (h : Nat)
  | block (b : Nat)
  deriving DecidableEq, Repr

/-- The destinations that a mask names; none when it names one that does not exist. -/
def State.targets (s : State) (a : QAct) (kind mask : Nat) : Option (List Target) :=
  let bits := (List.range 24).filter fun i => decide (mask / 2 ^ i % 2 = 1)
  if mask = 0 then none
  else if kind = 0 then some (bits.map fun i => .hitch (a.die * 24 + i))
  else
    match (tget s.blocks a.blk).bind fun b => b.nblk.bind fun _ => tget s.nbhds b.nbhd with
    | some nb => bits.mapM fun i => nb.blocks[i]?.map .block
    | none => if mask = 1 then some [.block a.blk] else none

/-- The check of one destination for `n` bytes at offset `d`. -/
def State.targetStop (s : State) (a : QAct) (d n : Nat) (t : Target) : Option EFault :=
  match t with
  | .block b => if d + n > s.windowLimit b 0 then some boundStop else none
  | .hitch h =>
    if d + n > 2 ^ 21 then some { cause := .matrixRange, detail := 3, addr := 0 }
    else
      ((List.range (ceilDiv (d + n) 16384 - d / 16384)).map (d / 16384 + ·)).findSome? fun k =>
        if s.slotClaimed h k a.entry.ctx.asid then none else some { cause := .slotNotClaimed, detail := k, addr := 0 }

/-- Writes bytes at an offset of a destination. -/
def State.toTarget (s : State) (d : Nat) (bs : List Byte) (t : Target) : State :=
  match t with
  | .hitch h => s.updHitch h fun k => { k with mem := writeBytes k.mem d bs }
  | .block b => s.scratchWrite b d bs

def execCmcast (c : Cmd) (s : State) : Out :=
  s.command c 0x3FFFFFF fun a s =>
    let kind := cmdFld c 25 24
    let src := cmdWord c 0
    let n := field (cmdWord c 1) 31 0
    let d := field (cmdWord c 1) 63 32
    if kind > 1 then .stop s (programStop 3)
    else if src.toNat % 16 ≠ 0 ∨ n % 16 ≠ 0 ∨ d % 16 ≠ 0 ∨ n < 16 ∨ n > 2 ^ 31 then .stop s { cause := .misaligned, detail := 0, addr := src }
    else
      match s.targets a kind (cmdFld c 23 0) with
      | none => .stop s (programStop 3)
      | some ts =>
        match ts.findSome? fun t => s.targetStop a d n t with
        | some f => .stop s f
        | none =>
          runElems a.die a.q (fun s i =>
            match s.engineBytes a (src + BitVec.ofNat 64 (16 * i)) 16 with
            | (s, .error f) => .stop s f
            | (s, .ok bs) => .done (ts.foldl (fun s t => s.toTarget (d + 16 * i) bs t) s)) (n / 16 - a.elem) a.elem s

/-! ### CRING (R301) -/

def ringStop : EFault := { cause := .ringInvalid, detail := 0, addr := 0 }

/-- Whether an earlier request of the producer role waits on a ring (R202). -/
def State.producerAhead (s : State) (blk off order : Nat) : Bool :=
  s.engineAhead blk off order ||
    match s.oldestPend fun p => decide (p.wait = .ring blk off true) with
    | some (k, _, _) => decide (k < order)
    | none => false

/-- Writes bytes from a window offset of a block up, block by block of its neighbourhood (R195). -/
def State.windowWrite (s : State) (blk e : Nat) (bs : List Byte) : Nat → State
  | 0 => s
  | n + 1 =>
    match s.window blk e 1 with
    | some (b, o) =>
      let k := max 1 (((tget s.blocks b).map fun b => b.window - o).getD 0)
      if bs.length ≤ k then s.scratchWrite b o bs else (s.scratchWrite b o (bs.take k)).windowWrite blk (e + k) (bs.drop k) n
    | none => s

/-- One slot of a CRING: it is taken, filled from the source and released, or the queue joins the ring's waiters. -/
def State.ringSlot (s : State) (a : QAct) (e : Nat) (src : Word64) (i : Nat) : CmdRes :=
  match s.window a.blk e 32 with
  | none => .stop s boundStop
  | some (b, o) =>
    let r := s.ringAt b o
    let order := match (s.queue a.die a.q).ringWait with | some (_, _, k) => k | none => s.nextId
    if !r.ok e (s.windowLimit a.blk e) then .stop s ringStop
    else
      match (if s.producerAhead b o order then none else r.take true) with
      | none =>
        .wait ({ s with nextId := s.nextId + 1 }.updQueue a.die a.q fun k => { k with ringWait := some (b, o, order) })
      | some (r', dst) =>
        match s.engineBytes a (src + BitVec.ofNat 64 (r.slot * i)) r.slot with
        | (s, .error f) => .stop s f
        | (s, .ok bs) =>
          -- a neighbourhood has at most 24 blocks (R336)
          let s := (s.setRing r').windowWrite a.blk dst.toNat bs 24
          let s := s.updQueue a.die a.q fun k => { k with ringWait := none }
          let r2 := s.ringAt b o
          if !r2.ok e (s.windowLimit a.blk e) ∨ r2.filled + r2.free + 1 > r2.count then .stop s ringStop
          else .done ((s.setRing { r2 with filled := r2.filled + 1 }).ringWake b o)

def execCring (c : Cmd) (s : State) : Out :=
  s.command c 0xFFFFFFFFFFFF fun a s =>
    let e := cmdFld c 31 0
    let n := cmdFld c 47 32
    if n = 0 then .stop s (programStop 3)
    else if e % 32 ≠ 0 then .stop s { cause := .misaligned, detail := 0, addr := 0 }
    else runElems a.die a.q (fun s i => s.ringSlot a e (cmdWord c 0) i) (n - a.elem) a.elem s

/-! ### CQF, CSIG and CWAIT (R302-R304) -/

def execCqf (c : Cmd) (s : State) : Out :=
  s.command c 0x1F3F fun a s =>
    let x := cmdWord c 0
    let pts : List (Nat × Nat) := (cmdFld c 4 0, field x 31 0) :: (if cmdFld c 5 5 = 1 then [(cmdFld c 12 8, field x 63 32)] else [])
    if pts.any fun p => decide (p.1 = a.q ∨ (s.queue a.die p.1).state = .stopped) then .stop s (programStop 5)
    else if pts.all fun p => decide (((s.queue a.die p.1).progress - BitVec.ofNat 32 p.2).toNat < 2 ^ 31) then .done s
    else .wait s

def execCsig (c : Cmd) (s : State) : Out :=
  s.command c 0x3F fun a s =>
    let scope := cmdFld c 2 0
    let n := if cmdFld c 5 5 = 1 then 8 else 4
    let va := cmdWord c 0
    if scope < 2 ∨ scope > 4 ∨ cmdFld c 4 3 > 1 then .stop s (programStop 3)
    else
      match s.signalPlace a.die a.blk a.entry.ctx va scope n with
      | (s, .error f) => .stop s (xStop f va)
      | (s, .ok x) =>
        if x.moving then .wait (s.holdEngine a.die a.q a.entry.ctx va x id)
        else
          match s.rmw a.die x n (if cmdFld c 4 3 = 0 then .exch else .add) false (cmdWord c 1) 0 false with
          | (s, .ok _) => .done s
          | (s, .error f) => .stop s (xStop f va)

/-- The registration of a queue. -/
def State.queueWatch (s : State) (a : QAct) : Option Watch :=
  s.watches.find? fun w => w.engine && decide (w.key = a.die * 32 + a.q)

def execCwait (c : Cmd) (s : State) : Out :=
  s.command c 0xFF fun a s =>
    let scope := cmdFld c 2 0
    let n := if cmdFld c 7 7 = 1 then 8 else 4
    let sgn := decide (cmdFld c 6 6 = 1)
    let va := cmdWord c 0
    let old := s.queueWatch a
    let hitch := s.hitchOfBlock a.blk
    let clear (s : State) : State := { s with watches := s.watches.filter fun w => !w.engine || decide (w.key ≠ a.die * 32 + a.q) }
    if scope < 2 ∨ scope > 4 ∨ cmdFld c 5 3 > 5 then .stop s (programStop 3)
    else
      match s.enginePlace a.die a.entry.ctx va scope n .atomRead with
      | (s, .error f) => .stop s (xStop f va)
      | (s1, .ok (x, eff)) =>
        match s1.admitAt (s1.degrades a.blk) hitch x n eff (if old.isSome then 0 else 1) true fun s => s.busFault a.die x n false with
        | (s2, .error f) => .stop s2 (xStop f va)
        | (s2, .ok stands) =>
          let stands := match old with | some w => !w.degraded | none => stands
          let sp := (Spot.glob x eff).under stands
          match (s2.claimSpot hitch sp).spotRead a.die sp n with
          | (s3, .error f) => .stop s3 (xStop f va)
          | (s3, .ok v) =>
            let woken := match old with | some w => w.woken || (!w.registered && decide (s.clock - w.since ≥ 512)) | none => false
            if woken || condHolds (cmdFld c 5 3) sgn n v (cmdWord c 1) then .done (clear s3)
            else
              let u := s3.unitOf hitch sp
              match old with
              | some w => .wait { s3 with watches := s3.moveWatch s3.watches w x.pa u.1 u.2 }
              | none =>
                .wait (s3.addWatch
                  { unit := u.1, scratch := false, loc := x.pa, width := n, cond := cmdFld c 5 3, sgn := sgn, cmp := cmdWord c 1
                    engine := true, key := a.die * 32 + a.q, lane := 0, woken := false, since := s.clock, registered := true
                    degraded := !stands, dest := .none } u.2)

/-! ### CLOOP and CEND (R305, R308) -/

def execCloop (c : Cmd) (s : State) : Out :=
  s.asQueue fun a s =>
    let count := cmdFld c 46 24
    let off : Int := toSigned 24 (cmdFld c 23 0)
    let k := cmdFld c 47 47
    match a.entry.pc with
    | none => .stop s (programStop 4)
    | some pc =>
      if count = 0 ∨ off ≥ 0 then .stop s (programStop 3)
      else
        let x := s.queue a.die a.q
        let n := (if x.armed.getD k false then x.cnt.getD k 0 else count) - 1
        .done (s.updQueue a.die a.q fun x => { x with
          cnt := modAt x.cnt k fun _ => n
          armed := modAt x.armed k fun _ => decide (n > 0)
          prog := if n > 0 then x.prog.map fun p => (pc + 8 + BitVec.ofInt 64 (8 * off), p.2) else x.prog })

def execCend (c : Cmd) (s : State) : Out :=
  s.asQueue fun a s =>
    if a.entry.pc.isNone then .stop s (programStop 4)
    else if c.fields ≠ 0 then .stop s (programStop 2)
    else .done (s.updQueue a.die a.q fun x => { x with prog := none })

/-! ### CZERO (R307) -/

/-- A frame zeroed under a key slot: its bytes, its key, and the lines of it that L2 holds. -/
def State.zeroFrame (s : State) (f key : Nat) : State :=
  let pa := f * 65536
  let k := s.keyOf key
  let splice {α : Type} (t : Tab α) (lo hi : Nat) (mid : Tab α) : Tab α :=
    t.filter (fun e => decide (e.1 < lo)) ++ mid ++ t.filter fun e => decide (hi ≤ e.1)
  let s1 := { s with
    mem := splice s.mem pa (pa + 65536) []
    blockKey := splice s.blockKey (pa / 16) (pa / 16 + 4096) ((List.range 4096).map fun i => (pa / 16 + i, k)) }
  (s1.updDie (homeDie pa) fun d => { d with l2 := d.l2.map fun (l : L2Line) => if l.line / 512 = f then { l with key := key } else l }).wrote
    pa 65536 key

/-- A frame under a key slot, as the place of an access. -/
def frameXl (f key : Nat) : Xl where
  pa := f * 65536
  key := key
  part := 0
  cls := 1
  kind := 0
  gran := 0
  entryAt := 0
  moving := false

def execCzero (c : Cmd) (s : State) : Out :=
  s.command c 0xFFFF00001FFF fun a s =>
    let key := cmdFld c 12 0
    let n := cmdFld c 47 32
    let first := field (cmdWord c 0) 31 0
    if a.entry.ctx.mode = .u then .stop s { cause := .privilegedOp, detail := 0, addr := 0 }
    else if n = 0 then .stop s (programStop 3)
    else if !(List.range n).all fun i => backedFrames (first + i) 1 then .stop s { cause := .deviceError, detail := 2, addr := 0 }
    else if (tget s.keys key).isNone then .stop s { cause := .keyInvalid, detail := key, addr := 0 }
    else
      runElems a.die a.q (fun s i =>
        match s.busFault a.die (frameXl (first + i) key) 128 true with
        | (s, some f) => .stop s (xStop f 0)
        | (s, none) => .done (s.zeroFrame (first + i) key)) (n - a.elem) a.elem s

/-! ### CNET (R306, R386) -/

/-- Clocks in 64 microseconds (R5, R386). -/
def retransmitClocks : Nat := 121600

/-- The translation of the two bytes of element `i` of a CNET: the remote one lies in a system-shared object (R209). -/
def State.netPlaces (s : State) (a : QAct) (c : Cmd) (i : Nat) : State × Except EFault (Xl × Xl) :=
  let get := decide (cmdFld c 0 0 = 1)
  let loc := cmdWord c 0 + BitVec.ofNat 64 i
  let rem := cmdWord c 1 + BitVec.ofNat 64 i
  let dir (w : Bool) : Use := if w then .store else .load
  match s.translate a.agent loc 1 1 (dir get) with
  | (s, .error f) => (s, .error (xStop f loc))
  | (s, .ok x) =>
    match s.translate a.agent rem 1 1 { dir (!get) with kind := some 5 } with
    | (s, .error f) => (s, .error (xStop f rem))
    | (s, .ok y) => (s, .ok (x, y))

/-- Performs byte `i` of a CNET: read on one side, written on the other. -/
def State.netByte (s : State) (a : QAct) (c : Cmd) (i : Nat) : CmdRes :=
  let get := decide (cmdFld c 0 0 = 1)
  match s.netPlaces a c i with
  | (s, .error f) => .stop s f
  | (s, .ok (loc, rem)) =>
    let va (w : Bool) : Word64 := (if w then cmdWord c 0 else cmdWord c 1) + BitVec.ofNat 64 i
    let src := if get then rem else loc
    let dst := if get then loc else rem
    if dst.moving then .wait (s.holdEngine a.die a.q a.entry.ctx (va get) dst id)
    else
      match s.busRead a.die src 1 with
      | (s, .error f) => .stop s (xStop f (va (!get)))
      | (s, .ok bs) =>
        match s.busWrite a.die dst bs with
        | (s, none) => .done s
        | (s, some f) => .stop s (xStop f (va get))

/-- CNET starts its transfer; its bytes perform as they are acknowledged (CNET_ACKNOWLEDGEMENT). -/
def execCnet (c : Cmd) (s : State) : Out :=
  s.asQueue fun a s =>
    if c.fields &&& ~~~0x3 ≠ 0 ∨ !((s.die a.die).featEnabled.getLsbD 2) then .stop s (programStop 2)
    else if a.elem ≥ field (cmdWord c 2) 31 0 then .done s
    else if (s.queue a.die a.q).sent.isSome then .wait s
    else
      match s.netPlaces a c a.elem with
      | (s, .error f) => .stop s f
      | (s, .ok _) => .wait (s.updQueue a.die a.q fun k => { k with sent := some s.clock, tries := 0 })

/-- The CNET that a queue has in progress. -/
def State.netAct (s : State) (die q : Nat) : Option (QAct × Cmd) :=
  (s.queueAct die q).bind fun a =>
    if a.entry.drain.isSome then none
    else match decodeCmd a.entry.word a.entry.extra with | .ok (.cnet c) => some (a, c) | _ => none

/-- CNET_ACKNOWLEDGEMENT: the destination acknowledges the writes of the next `n` bytes; after the last the command has
performed. -/
def execCnetAcknowledgement (s : State) : Out :=
  match s.occ with
  | .ack die q n =>
    match s.netAct die q with
    | some (a, c) =>
      if (s.queue die q).sent.isNone || s.queueHeld die q then .next s
      else
        let total := field (cmdWord c 2) 31 0
        let m := min n (total - a.elem)
        .next (match runElems die q (fun s i => s.netByte a c i) m a.elem s with
          | .done s =>
            let s := s.updQueue die q fun k => { k with elem := a.elem + m, sent := some s.clock, tries := 0 }
            if a.elem + m ≥ total then s.endCommand die q else s
          | r => State.endTurn die q r)
    | none => .next s
  | _ => .fault .noIssuer

/-- UET_RETRANSMIT_TIMEOUT: 64 us without an acknowledgement; the transfer is sent again at most 7 times, then its queue stops. -/
def execUetRetransmitTimeout (s : State) : Out :=
  match s.occ with
  | .queue die q =>
    match s.netAct die q, (s.queue die q).sent with
    | some (a, c), some since =>
      if s.clock - since < retransmitClocks then .next s
      else if (s.queue die q).tries < 7 then
        .next (s.updQueue die q fun k => { k with sent := some s.clock, tries := k.tries + 1 })
      else .next (s.stopQueue die q { cause := .deviceError, detail := 4, addr := cmdWord c 1 + BitVec.ofNat 64 a.elem })
    | _, _ => .next s
  | _ => .fault .noIssuer

/-! ### Held writes dropped (R219) -/

/-- The destination of a dropped atomic is full and dead; a team register reads 0. -/
def Team.deadDest (t : Team) (h : Held) : Team :=
  let t : Team := { t with pend := t.pend.filter fun p => decide (p.wait ≠ .held h.id) }
  match h.dest with
  | .v r n => t.killLoc h.lane n (.v r)
  | .s r n => { t with s := (List.range n).foldl (fun l i => modAt l (r + i) fun _ => { val := 0, full := true }) t.s }
  | _ => t

/-- The lanes of a team at a leg boundary: at a leg start, held there, or parked there (R219). -/
def Team.atBoundary (t : Team) : BitVec 64 :=
  laneMask ((List.range t.threads.length).filter fun l => match t.threads[l]? with
    | some th => (match th.stat with | .atLeg | .meet | .parked _ _ _ _ .leg => true | _ => false)
    | none => false)

/-- The limit of a held write: the one that its thread's team now has, or the one of an engine's context (R219). -/
def State.dropLimit (s : State) (h : Held) : Word32 :=
  if h.engine.isSome then h.limit else match tget s.teams h.key with | some t => t.relocLimit | none => h.limit

/-- Whether a held write has been held past its limit (R219). -/
def State.heldPast (s : State) (h : Held) : Bool :=
  h.live && decide (s.dropLimit h ≠ 0 ∧ s.clock - h.since > (s.dropLimit h).toNat)

/-- HELD_WRITE_DROP: a write held past the limit that its live thread's team now has is dropped, with those of its group and instruction; a
copy engine's write stops its queue. -/
def execHeldWriteDrop (s : State) : Out :=
  match s.occ with
  | .held n =>
    match s.held.find? fun h => decide (h.id = n) with
    | none => .next s
    | some h =>
      if !s.heldPast h then .next s
      else
        match h.engine with
        | some (die, q) => .next (s.stopQueue die q { cause := .relocationWait, detail := h.gran, addr := h.va })
        | none =>
          let mine (k : Held) : Bool :=
            k.live && k.engine.isNone && decide (k.key = h.key ∧ k.start = h.start ∧ k.word = h.word ∧ k.w8 = h.w8 ∧ k.since = h.since)
          let gone := s.held.filter mine
          let d : Drop := { start := h.start, word := h.word, w8 := h.w8, lanes := gone.map fun k => (k.lane, k.gran, k.va) }
          let s := { s with held := s.held.filter fun k => !mine k }.updTeam h.key fun t =>
            let t := gone.foldl Team.deadDest t
            { t with drops := t.drops ++ [d] }
          match tget s.teams h.key with
          | some t => .next (s.takeDrops h.key t.atBoundary)
          | none => .next s
  | _ => .fault .noIssuer

/-! ### Accesses from other modules (R387) -/

/-- The place of a physical access from outside, under key slot 0 (log 11). -/
def outsideXl (pa : Nat) : Xl := { pa := pa, key := 0, part := 0, cls := 1, kind := 5, gran := 0, entryAt := 0, moving := false }

/-- Whether `n` bytes lie in HBM or in the pool. -/
def outsideOk (pa n : Nat) : Bool :=
  match busOf pa, busOf (pa + n - 1) with
  | .hbm a, .hbm b => decide (a = b)
  | .cxl a b, .cxl c d => decide (a = c ∧ b = d)
  | _, _ => false


/-- REMOTE_ATOMIC_ARRIVAL: a system-scope atomic of a peer crosses the dies from the I/O die at which it arrives (R384) and performs at its
home slice; its answer is the old value. -/
def execRemoteAtomicArrival (s : State) : Out :=
  match s.occ with
  | .remoteAtomic r =>
    let n := if r.wide then 8 else 4
    if !outsideOk r.pa n ∨ r.pa % n ≠ 0 ∨ r.op = .scnd then .next (s.answer .refused)
    else
      .next (match s.rmw (16 + r.io) (outsideXl r.pa) n r.op r.signed r.data r.cmp with
        | (s, .ok old) => s.answer (.data (toBytes n old.toNat))
        | (s, .error _) => s.answer .refused)
  | _ => .fault .noIssuer

/-- INBOUND_REMOTE_ACCESS: a put or get of a peer performs at its home; a get is answered with the bytes. -/
def execInboundRemoteAccess (s : State) : Out :=
  match s.occ with
  | .remoteAccess r =>
    let n := if r.put then r.data.length else r.len
    if n = 0 ∨ !outsideOk r.pa n then .next (s.answer .refused)
    else if r.put then
      .next (match s.busWrite (16 + r.io) (outsideXl r.pa) r.data with
        | (s, none) => s.answer .ok
        | (s, some _) => s.answer .refused)
    else
      .next (match s.busRead (16 + r.io) (outsideXl r.pa) n with
        | (s, .ok bs) => s.answer (.data bs)
        | (s, .error _) => s.answer .refused)
  | _ => .fault .noIssuer

end Sys2Proof.Machine
end

