-- ==== Sys2Proof/Machine/Index.lean ====
section
/-! DEFINITION. The index instructions G5 and RKILL (spec/05_register_files.md R129, R137-R141). -/

namespace Sys2Proof.Machine

/-- The index register that an index instruction names. -/
def ixNum (w : F3) : Nat := mdField w.md 2 0

/-- Whether IXSET accepts a value for a thread with `n` v registers (R141). -/
def ixValid (x : Word32) (n : Nat) : Bool :=
  !x.getLsbD 31 && decide (ixMode x ≠ 3) && decide (1 ≤ ixBound x ∧ ixBound x ≤ 192) && decide (ixBase x + ixBound x ≤ n)

def execIxset (w : F3) (s : State) : Out :=
  s.f3Effect 0x140 w fun e =>
    let x := lo32 (e.val 0)
    if ixValid x e.th.v.length then .ok [.ix (ixNum w) x] else .error (.indexSetup, Cause.indexSetup.openW9, 0)

/-- IXGET (R141). Where D is an access through the same index register that steps it, the value written is the one before that step; the
spec does not say which (log 73). -/
def execIxget (w : F3) (s : State) : Out :=
  s.f3Effect 0x141 w fun e => .ok [.write [e.th.ix.getD (ixNum w) 0]]

/-- IXSTEP by an amount: through a bound of 0, modes 1 and 2 trap INDEX_BOUND (R141). -/
def ixStepEff (w : F3) (e : Env) (k : Word32 → Int) : Except (Cause × Word32 × Word64) (List Eff) :=
  let x := e.ix.getD (ixNum w) 0
  if ixBound x = 0 ∧ ixMode x ≠ 0 then .error (.indexBound, BitVec.ofNat 32 (0xC8 + ixNum w), x.setWidth 64)
  else .ok [.ix (ixNum w) (setCursor x (ixAdvance x (k x)))]

def execIxstep (w : F3) (s : State) : Out :=
  s.f3Effect 0x142 w fun e => ixStepEff w e ixStep
/-- The index register steps from the cursor that the read of A left (R138, R141). -/
def execIxstepBy (w : F3) (s : State) : Out :=
  s.f3Effect 0x142 w fun e => ixStepEff w e fun _ => (lo32 (e.val 0)).toInt

def execIxcur (w : F3) (s : State) : Out :=
  s.f3Effect 0x143 w fun e =>
    let x := lo32 (e.val 0)
    if x.toNat ≥ 256 then .error (.indexSetup, Cause.indexSetup.openW9, 0)
    else .ok [.ix (ixNum w) (setCursor (e.ix.getD (ixNum w) 0) x.toNat)]

/-- RKILL (R129): the registers from A, or the window of the index register. -/
def execRkill (w : F3) (s : State) : Out :=
  s.f3Effect 0x144 w fun e =>
    if Code.isV w.a then .ok [.kill w.a.toNat w.md.toNat]
    else
      let x := e.th.ix.getD (w.a.toNat % 8) 0
      .ok [.kill (ixBase x) (ixBound x)]

end Sys2Proof.Machine
end

