-- ==== Sys2Proof/Machine/Dispatch.lean ====
section
/-! DEFINITION. The dispatch: one arm per constructor of `Instr`, one direct call of its meaning each. -/

namespace Sys2Proof.Machine

def exec (i : Instr) (s : State) : Host.Outcome State Fault Refusal :=
  match i with
  | .iadd w => Sys2Proof.Machine.execIadd w s
  | .isub w => Sys2Proof.Machine.execIsub w s
  | .imul w => Sys2Proof.Machine.execImul w s
  | .imad w => Sys2Proof.Machine.execImad w s
  | .imulh w => Sys2Proof.Machine.execImulh w s
  | .imin w => Sys2Proof.Machine.execImin w s
  | .imax w => Sys2Proof.Machine.execImax w s
  | .iabs w => Sys2Proof.Machine.execIabs w s
  | .and w => Sys2Proof.Machine.execAnd w s
  | .or w => Sys2Proof.Machine.execOr w s
  | .xor w => Sys2Proof.Machine.execXor w s
  | .andn w => Sys2Proof.Machine.execAndn w s
  | .shl w => Sys2Proof.Machine.execShl w s
  | .shr w => Sys2Proof.Machine.execShr w s
  | .sar w => Sys2Proof.Machine.execSar w s
  | .rot w => Sys2Proof.Machine.execRot w s
  | .popc w => Sys2Proof.Machine.execPopc w s
  | .clz w => Sys2Proof.Machine.execClz w s
  | .brev w => Sys2Proof.Machine.execBrev w s
  | .bfe w => Sys2Proof.Machine.execBfe w s
  | .bfi w => Sys2Proof.Machine.execBfi w s
  | .sel w => Sys2Proof.Machine.execSel w s
  | .mov w => Sys2Proof.Machine.execMov w s
  | .iadd3 w => Sys2Proof.Machine.execIadd3 w s
  | .lea w => Sys2Proof.Machine.execLea w s
  | .idiv w => Sys2Proof.Machine.execIdiv w s
  | .irem w => Sys2Proof.Machine.execIrem w s
  | .icmp w => Sys2Proof.Machine.execIcmp w s
  | .ucmp w => Sys2Proof.Machine.execUcmp w s
  | .fcmp w => Sys2Proof.Machine.execFcmp w s
  | .plop w => Sys2Proof.Machine.execPlop w s
  | .pmovGet w => Sys2Proof.Machine.execPmovGet w s
  | .pmovSet w => Sys2Proof.Machine.execPmovSet w s
  | .fadd w => Sys2Proof.Machine.execFadd w s
  | .fsub w => Sys2Proof.Machine.execFsub w s
  | .fmul w => Sys2Proof.Machine.execFmul w s
  | .ffma w => Sys2Proof.Machine.execFfma w s
  | .fmin w => Sys2Proof.Machine.execFmin w s
  | .fmax w => Sys2Proof.Machine.execFmax w s
  | .frcp w => Sys2Proof.Machine.execFrcp w s
  | .frsq w => Sys2Proof.Machine.execFrsq w s
  | .fsqrt w => Sys2Proof.Machine.execFsqrt w s
  | .fex2 w => Sys2Proof.Machine.execFex2 w s
  | .flg2 w => Sys2Proof.Machine.execFlg2 w s
  | .fsin w => Sys2Proof.Machine.execFsin w s
  | .fcos w => Sys2Proof.Machine.execFcos w s
  | .frnd w => Sys2Proof.Machine.execFrnd w s
  | .fdiv w => Sys2Proof.Machine.execFdiv w s
  | .fcls w => Sys2Proof.Machine.execFcls w s
  | .cvt w => Sys2Proof.Machine.execCvt w s
  | .pack w => Sys2Proof.Machine.execPack w s
  | .unpk w => Sys2Proof.Machine.execUnpk w s
  | .dp4i w => Sys2Proof.Machine.execDp4i w s
  | .dp8i w => Sys2Proof.Machine.execDp8i w s
  | .dp4f w => Sys2Proof.Machine.execDp4f w s
  | .dp8f w => Sys2Proof.Machine.execDp8f w s
  | .dp2b w => Sys2Proof.Machine.execDp2b w s
  | .pscl w => Sys2Proof.Machine.execPscl w s
  | .prmt w => Sys2Proof.Machine.execPrmt w s
  | .dfrom w => Sys2Proof.Machine.execDfrom w s
  | .dto w => Sys2Proof.Machine.execDto w s
  | .dadd w => Sys2Proof.Machine.execDadd w s
  | .dsub w => Sys2Proof.Machine.execDsub w s
  | .dmix w => Sys2Proof.Machine.execDmix w s
  | .dcos w => Sys2Proof.Machine.execDcos w s
  | .ddot w => Sys2Proof.Machine.execDdot w s
  | .dscl w => Sys2Proof.Machine.execDscl w s
  | .dnrm w => Sys2Proof.Machine.execDnrm w s
  | .dsetn w => Sys2Proof.Machine.execDsetn w s
  | .dproj w => Sys2Proof.Machine.execDproj w s
  | .dmov w => Sys2Proof.Machine.execDmov w s
  | .ixset w => Sys2Proof.Machine.execIxset w s
  | .ixget w => Sys2Proof.Machine.execIxget w s
  | .ixstep w => Sys2Proof.Machine.execIxstep w s
  | .ixstepBy w => Sys2Proof.Machine.execIxstepBy w s
  | .ixcur w => Sys2Proof.Machine.execIxcur w s
  | .rkill w => Sys2Proof.Machine.execRkill w s
  | .shfl w => Sys2Proof.Machine.execShfl w s
  | .vote w => Sys2Proof.Machine.execVote w s
  | .lred w => Sys2Proof.Machine.execLred w s
  | .lscan w => Sys2Proof.Machine.execLscan w s
  | .mjoin w => Sys2Proof.Machine.execMjoin w s
  | .mleave w => Sys2Proof.Machine.execMleave w s
  | .mwait w => Sys2Proof.Machine.execMwait w s
  | .mset w => Sys2Proof.Machine.execMset w s
  | .mget w => Sys2Proof.Machine.execMget w s
  | .meet w => Sys2Proof.Machine.execMeet w s
  | .meetr w => Sys2Proof.Machine.execMeetr w s
  | .aadd w => Sys2Proof.Machine.execAadd w s
  | .amin w => Sys2Proof.Machine.execAmin w s
  | .amax w => Sys2Proof.Machine.execAmax w s
  | .aand w => Sys2Proof.Machine.execAand w s
  | .aor w => Sys2Proof.Machine.execAor w s
  | .axor w => Sys2Proof.Machine.execAxor w s
  | .aexch w => Sys2Proof.Machine.execAexch w s
  | .acas w => Sys2Proof.Machine.execAcas w s
  | .afadd w => Sys2Proof.Machine.execAfadd w s
  | .aaddw w => Sys2Proof.Machine.execAaddw w s
  | .await w => Sys2Proof.Machine.execAwait w s
  | .lres w => Sys2Proof.Machine.execLres w s
  | .scnd w => Sys2Proof.Machine.execScnd w s
  | .fence w => Sys2Proof.Machine.execFence w s
  | .fencer w => Sys2Proof.Machine.execFencer w s
  | .bari w => Sys2Proof.Machine.execBari w s
  | .bara w => Sys2Proof.Machine.execBara w s
  | .barw w => Sys2Proof.Machine.execBarw w s
  | .baraw w => Sys2Proof.Machine.execBaraw w s
  | .rinit w => Sys2Proof.Machine.execRinit w s
  | .racq w => Sys2Proof.Machine.execRacq w s
  | .rrel w => Sys2Proof.Machine.execRrel w s
  | .qpush w => Sys2Proof.Machine.execQpush w s
  | .qpop w => Sys2Proof.Machine.execQpop w s
  | .jdec w => Sys2Proof.Machine.execJdec w s
  | .mclaim w => Sys2Proof.Machine.execMclaim w s
  | .mrels w => Sys2Proof.Machine.execMrels w s
  | .mldw w => Sys2Proof.Machine.execMldw w s
  | .mstream w => Sys2Proof.Machine.execMstream w s
  | .mzero w => Sys2Proof.Machine.execMzero w s
  | .mdrain w => Sys2Proof.Machine.execMdrain w s
  | .msync w => Sys2Proof.Machine.execMsync w s
  | .msyncHand w => Sys2Proof.Machine.execMsyncHand w s
  | .fork w => Sys2Proof.Machine.execFork w s
  | .rdv w => Sys2Proof.Machine.execRdv w s
  | .rdvAbort w => Sys2Proof.Machine.execRdvAbort w s
  | .cpy w => Sys2Proof.Machine.execCpy w s
  | .trap w => Sys2Proof.Machine.execTrap w s
  | .trapBrk w => Sys2Proof.Machine.execTrapBrk w s
  | .sret w => Sys2Proof.Machine.execSret w s
  | .sysrd w => Sys2Proof.Machine.execSysrd w s
  | .syswr w => Sys2Proof.Machine.execSyswr w s
  | .oinv w => Sys2Proof.Machine.execOinv w s
  | .oshoot w => Sys2Proof.Machine.execOshoot w s
  | .iflush w => Sys2Proof.Machine.execIflush w s
  | .idemEnter w => Sys2Proof.Machine.execIdemEnter w s
  | .idemExit w => Sys2Proof.Machine.execIdemExit w s
  | .wfi w => Sys2Proof.Machine.execWfi w s
  | .keyset w => Sys2Proof.Machine.execKeyset w s
  | .keysetClear w => Sys2Proof.Machine.execKeysetClear w s
  | .haltc w => Sys2Proof.Machine.execHaltc w s
  | .haltcRes w => Sys2Proof.Machine.execHaltcRes w s
  | .nop w => Sys2Proof.Machine.execNop w s
  | .tpop w => Sys2Proof.Machine.execTpop w s
  | .tres w => Sys2Proof.Machine.execTres w s
  | .ldc w => Sys2Proof.Machine.execLdc w s
  | .stc w => Sys2Proof.Machine.execStc w s
  | .movi w => Sys2Proof.Machine.execMovi w s
  | .movh w => Sys2Proof.Machine.execMovh w s
  | .iaddi w => Sys2Proof.Machine.execIaddi w s
  | .andi w => Sys2Proof.Machine.execAndi w s
  | .ori w => Sys2Proof.Machine.execOri w s
  | .xori w => Sys2Proof.Machine.execXori w s
  | .icmpi w => Sys2Proof.Machine.execIcmpi w s
  | .faddi w => Sys2Proof.Machine.execFaddi w s
  | .ld w => Sys2Proof.Machine.execLd w s
  | .ldCo w => Sys2Proof.Machine.execLdCo w s
  | .st w => Sys2Proof.Machine.execSt w s
  | .lds w => Sys2Proof.Machine.execLds w s
  | .sts w => Sys2Proof.Machine.execSts w s
  | .ldb w => Sys2Proof.Machine.execLdb w s
  | .stb w => Sys2Proof.Machine.execStb w s
  | .dld w => Sys2Proof.Machine.execDld w s
  | .dst w => Sys2Proof.Machine.execDst w s
  | .slotst w => Sys2Proof.Machine.execSlotst w s
  | .pref w => Sys2Proof.Machine.execPref w s
  | .accld w => Sys2Proof.Machine.execAccld w s
  | .p2Iadd w => Sys2Proof.Machine.execP2Iadd w s
  | .p2Isub w => Sys2Proof.Machine.execP2Isub w s
  | .p2And w => Sys2Proof.Machine.execP2And w s
  | .p2Or w => Sys2Proof.Machine.execP2Or w s
  | .p2Xor w => Sys2Proof.Machine.execP2Xor w s
  | .p2Shl w => Sys2Proof.Machine.execP2Shl w s
  | .p2Shr w => Sys2Proof.Machine.execP2Shr w s
  | .p2Sar w => Sys2Proof.Machine.execP2Sar w s
  | .p2Mov w => Sys2Proof.Machine.execP2Mov w s
  | .p2Movi w => Sys2Proof.Machine.execP2Movi w s
  | .p2Iaddi w => Sys2Proof.Machine.execP2Iaddi w s
  | .p2Imin w => Sys2Proof.Machine.execP2Imin w s
  | .p2Imax w => Sys2Proof.Machine.execP2Imax w s
  | .p2Fadd w => Sys2Proof.Machine.execP2Fadd w s
  | .p2Fsub w => Sys2Proof.Machine.execP2Fsub w s
  | .p2Fmul w => Sys2Proof.Machine.execP2Fmul w s
  | .p2Fmin w => Sys2Proof.Machine.execP2Fmin w s
  | .p2Fmax w => Sys2Proof.Machine.execP2Fmax w s
  | .icmpeq w => Sys2Proof.Machine.execIcmpeq w s
  | .icmplt w => Sys2Proof.Machine.execIcmplt w s
  | .fcmplt w => Sys2Proof.Machine.execFcmplt w s
  | .p2Nop w => Sys2Proof.Machine.execP2Nop w s
  | .fall w => Sys2Proof.Machine.execFall w s
  | .bra w => Sys2Proof.Machine.execBra w s
  | .brx w => Sys2Proof.Machine.execBrx w s
  | .call w => Sys2Proof.Machine.execCall w s
  | .callx w => Sys2Proof.Machine.execCallx w s
  | .ret w => Sys2Proof.Machine.execRet w s
  | .exit w => Sys2Proof.Machine.execExit w s
  | .loop w => Sys2Proof.Machine.execLoop w s
  | .coreSplitWrite w => Sys2Proof.Machine.execCoreSplitWrite w s
  | .bspWrite w => Sys2Proof.Machine.execBspWrite w s
  | .ortRegisterWrite w => Sys2Proof.Machine.execOrtRegisterWrite w s
  | .statusWrite w => Sys2Proof.Machine.execStatusWrite w s
  | .tqBaseWrite w => Sys2Proof.Machine.execTqBaseWrite w s
  | .tqHeadWrite w => Sys2Proof.Machine.execTqHeadWrite w s
  | .tqHandWrite w => Sys2Proof.Machine.execTqHandWrite w s
  | .tqBatchWrite w => Sys2Proof.Machine.execTqBatchWrite w s
  | .intPendingClear w => Sys2Proof.Machine.execIntPendingClear w s
  | .ipiWrite w => Sys2Proof.Machine.execIpiWrite w s
  | .wdtWrite w => Sys2Proof.Machine.execWdtWrite w s
  | .cwin w => Sys2Proof.Machine.execCwin w s
  | .cwina w => Sys2Proof.Machine.execCwina w s
  | .cfill w => Sys2Proof.Machine.execCfill w s
  | .cmcast w => Sys2Proof.Machine.execCmcast w s
  | .cring w => Sys2Proof.Machine.execCring w s
  | .cslot w => Sys2Proof.Machine.execCslot w s
  | .cqf w => Sys2Proof.Machine.execCqf w s
  | .csig w => Sys2Proof.Machine.execCsig w s
  | .cwait w => Sys2Proof.Machine.execCwait w s
  | .cloop w => Sys2Proof.Machine.execCloop w s
  | .cnet w => Sys2Proof.Machine.execCnet w s
  | .czero w => Sys2Proof.Machine.execCzero w s
  | .cend w => Sys2Proof.Machine.execCend w s
  | .crosslaneTimeout => Sys2Proof.Machine.execCrosslaneTimeout s
  | .awaitRetest => Sys2Proof.Machine.execAwaitRetest s
  | .relayWritebackRequest => Sys2Proof.Machine.execRelayWritebackRequest s
  | .mldwPerform => Sys2Proof.Machine.execMldwPerform s
  | .mstreamPerform => Sys2Proof.Machine.execMstreamPerform s
  | .mzeroPerform => Sys2Proof.Machine.execMzeroPerform s
  | .drainHandover => Sys2Proof.Machine.execDrainHandover s
  | .drainPerform => Sys2Proof.Machine.execDrainPerform s
  | .rdvTimeout => Sys2Proof.Machine.execRdvTimeout s
  | .groupPick => Sys2Proof.Machine.execGroupPick s
  | .activeSetJoin => Sys2Proof.Machine.execActiveSetJoin s
  | .resultWriteback => Sys2Proof.Machine.execResultWriteback s
  | .heldWriteRecheck => Sys2Proof.Machine.execHeldWriteRecheck s
  | .heldWriteDrop => Sys2Proof.Machine.execHeldWriteDrop s
  | .coreSplitGrowDone => Sys2Proof.Machine.execCoreSplitGrowDone s
  | .timerCompareMatch => Sys2Proof.Machine.execTimerCompareMatch s
  | .watchdogExpiry => Sys2Proof.Machine.execWatchdogExpiry s
  | .tqAgeExpiry => Sys2Proof.Machine.execTqAgeExpiry s
  | .interruptTake => Sys2Proof.Machine.execInterruptTake s
  | .partitionEntryWrite => Sys2Proof.Machine.execPartitionEntryWrite s
  | .sweepPeriod => Sys2Proof.Machine.execSweepPeriod s
  | .stackCounterReset => Sys2Proof.Machine.execStackCounterReset s
  | .stackNewClear => Sys2Proof.Machine.execStackNewClear s
  | .queueOwnerWrite => Sys2Proof.Machine.execQueueOwnerWrite s
  | .queueRestart => Sys2Proof.Machine.execQueueRestart s
  | .queueDiscard => Sys2Proof.Machine.execQueueDiscard s
  | .dispatcherBlockWrite => Sys2Proof.Machine.execDispatcherBlockWrite s
  | .slotMap => Sys2Proof.Machine.execSlotMap s
  | .slotUnmap => Sys2Proof.Machine.execSlotUnmap s
  | .preemptSave => Sys2Proof.Machine.execPreemptSave s
  | .preemptIdem => Sys2Proof.Machine.execPreemptIdem s
  | .preGraceExpiry => Sys2Proof.Machine.execPreGraceExpiry s
  | .savedResultArrival => Sys2Proof.Machine.execSavedResultArrival s
  | .saveComplete => Sys2Proof.Machine.execSaveComplete s
  | .blockRestore => Sys2Proof.Machine.execBlockRestore s
  | .kick => Sys2Proof.Machine.execKick s
  | .pendingMapClear => Sys2Proof.Machine.execPendingMapClear s
  | .packetTake => Sys2Proof.Machine.execPacketTake s
  | .blockPlace => Sys2Proof.Machine.execBlockPlace s
  | .neighbourhoodPlace => Sys2Proof.Machine.execNeighbourhoodPlace s
  | .phaseChange => Sys2Proof.Machine.execPhaseChange s
  | .signalOnlyPacket => Sys2Proof.Machine.execSignalOnlyPacket s
  | .packetComplete => Sys2Proof.Machine.execPacketComplete s
  | .sequencerError => Sys2Proof.Machine.execSequencerError s
  | .contextStoreWrite => Sys2Proof.Machine.execContextStoreWrite s
  | .featureEnableWrite => Sys2Proof.Machine.execFeatureEnableWrite s
  | .eventBlockWrite => Sys2Proof.Machine.execEventBlockWrite s
  | .inboundWindowWrite => Sys2Proof.Machine.execInboundWindowWrite s
  | .remoteWindowWrite => Sys2Proof.Machine.execRemoteWindowWrite s
  | .ctlsemSupervisorTake => Sys2Proof.Machine.execCtlsemSupervisorTake s
  | .ctlsemSupervisorGive => Sys2Proof.Machine.execCtlsemSupervisorGive s
  | .ctlsemLapse => Sys2Proof.Machine.execCtlsemLapse s
  | .mailboxStatusClear => Sys2Proof.Machine.execMailboxStatusClear s
  | .reportRequest => Sys2Proof.Machine.execReportRequest s
  | .reportDone => Sys2Proof.Machine.execReportDone s
  | .measurementExtend => Sys2Proof.Machine.execMeasurementExtend s
  | .registerWrite => Sys2Proof.Machine.execRegisterWrite s
  | .getStatus => Sys2Proof.Machine.execGetStatus s
  | .getReport => Sys2Proof.Machine.execGetReport s
  | .take => Sys2Proof.Machine.execTake s
  | .give => Sys2Proof.Machine.execGive s
  | .flashWrite => Sys2Proof.Machine.execFlashWrite s
  | .markerSet => Sys2Proof.Machine.execMarkerSet s
  | .powerLimit => Sys2Proof.Machine.execPowerLimit s
  | .reset => Sys2Proof.Machine.execReset s
  | .mailbox => Sys2Proof.Machine.execMailbox s
  | .powerOnBoot => Sys2Proof.Machine.execPowerOnBoot s
  | .bootTakeover => Sys2Proof.Machine.execBootTakeover s
  | .thermalThrottle => Sys2Proof.Machine.execThermalThrottle s
  | .thermalShutdown => Sys2Proof.Machine.execThermalShutdown s
  | .dieLinkFailure => Sys2Proof.Machine.execDieLinkFailure s
  | .hbmUncorrectableError => Sys2Proof.Machine.execHbmUncorrectableError s
  | .patrolScrub => Sys2Proof.Machine.execPatrolScrub s
  | .inboundRequest => Sys2Proof.Machine.execInboundRequest s
  | .msixMessage => Sys2Proof.Machine.execMsixMessage s
  | .pcieCompletionTimeout => Sys2Proof.Machine.execPcieCompletionTimeout s
  | .pcieLinkDown => Sys2Proof.Machine.execPcieLinkDown s
  | .cxlError => Sys2Proof.Machine.execCxlError s
  | .uetRetransmitTimeout => Sys2Proof.Machine.execUetRetransmitTimeout s
  | .remoteAtomicArrival => Sys2Proof.Machine.execRemoteAtomicArrival s
  | .hbmCorrectableError => Sys2Proof.Machine.execHbmCorrectableError s
  | .powerLoss => Sys2Proof.Machine.execPowerLoss s
  | .throttleEnd => Sys2Proof.Machine.execThrottleEnd s
  | .inboundRemoteAccess => Sys2Proof.Machine.execInboundRemoteAccess s
  | .cnetAcknowledgement => Sys2Proof.Machine.execCnetAcknowledgement s

end Sys2Proof.Machine
end

