-- ==== Sys2Proof/Machine/Turn.lean ====
section
/-! DEFINITION. Turns: what one turn of the agenda performs, the turns that the module takes by itself when the agenda is empty,
and the load of one instruction where the next step runs it (log 3, log 6). -/

namespace Sys2Proof.Machine

/-! ### One turn -/

/-- The word at which a group of a team stands. -/
def State.groupWord (s : State) (key g : Nat) : Option Word64 :=
  ((tget s.teams key).bind fun t => t.groups[g]?).bind fun gr => gr.leg[gr.pos]?

/-- A group issues its next word: the decoded instruction performs for it. A leg holds no word that is no instruction (R37). -/
def State.issueTurn (s : State) (key g : Nat) : Out :=
  if !s.mayIssue key g then .next s
  else
    match s.groupWord key g with
    | none => .next s
    | some w =>
      match decode w with
      | .ok i => exec i { s with issuer := .group key g }
      | .error _ => .next s

/-- Whether the block that a queue is bound to is placed: a queue of a saved block takes and performs nothing (R318). -/
def State.queuePlaced (s : State) (die q : Nat) : Bool :=
  match (s.queue die q).block.bind fun b => tget s.blocks b with
  | some b => decide (b.stat = .placed)
  | none => false

/-- The queue performs the command that it holds: a drain, or the decoded command; a word of R42 stops it. -/
def State.performTurn (s : State) (die q : Nat) : Out :=
  match s.queueAct die q with
  | none => .next s
  | some a =>
    if a.entry.drain.isSome then exec .drainPerform { s with issuer := .event (.queue die q) }
    else
      match decodeCmd a.entry.word a.entry.extra with
      | .ok i => exec i { s with issuer := .queue die q }
      | .error _ => .next (s.stopQueue die q (programStop 1))

/-- A queue's turn: it takes a command when it has none, and performs it. -/
def State.queueTurn (s : State) (die q : Nat) : Out :=
  if s.queuePlaced die q then (s.takeCommand die q).performTurn die q else .next s

def State.turn (s : State) (t : Turn) : Out :=
  match t with
  | .issue key g => s.issueTurn key g
  | .queue die q => s.queueTurn die q
  | .event i o => exec i { s with issuer := .event o }
  | .evict core line => .next (s.evictLine core line)
  | .elapse n => .next { s with clock := s.clock + n }

/-- After a turn: what is complete is released, a clock passes, and nobody issues. -/
def State.endStep (s : State) : State := { s.settle with clock := s.clock + 1, issuer := .none }

/-! ### The turns that the module takes by itself (log 3) -/

/-- A turn with whether it is due. -/
abbrev Offer := Bool × Turn

def State.coreOffers (s : State) (c : Nat) (k : Core) : List Offer :=
  [(k.timerDue s.clock && !k.intPending.getLsbD 0, .event .timerCompareMatch (.core c)),
   (k.wdtDue s.clock, .event .watchdogExpiry (.core c)),
   (k.tqAsserts s.clock && !k.intPending.getLsbD 1, .event .tqAgeExpiry (.core c)),
   ((s.interruptAt c).isSome, .event .interruptTake (.core c)),
   (k.splitMoving, .event .coreSplitGrowDone (.core c))]

/-- The turns of a running group: its issue, and the limits of its holds. -/
def State.groupOffers (s : State) (key : Nat) (t : Team) (g : Nat) (gr : Group) : List Offer :=
  let past (n : Nat) : Bool := decide (s.clock - gr.since > n)
  [(s.mayIssue key g, .issue key g)] ++
  match gr.hold with
  | .cross .. => [(decide (t.xltLimit ≠ 0) && past t.xltLimit.toNat, .event .crosslaneTimeout (.group key g))]
  | .wait _ => [(past 511, .event .awaitRetest (.group key g))]
  | .stall | .tandem .. => [(past (s.core t.core).preGrace.toNat, .event .preGraceExpiry (.group key g))]
  | _ => []

def State.teamOffers (s : State) (key : Nat) (t : Team) : List Offer :=
  let c := t.core
  let lb := if t.slot < 32 then t.slot / 8 else t.slot - 28
  [(!s.laneBusy c lb && (s.nextPick c lb).isSome, .event .groupPick (.laneBlock c lb)),
   (!t.active && t.anyReady, .event .activeSetJoin (.laneBlock c lb))]
    ++ (t.groups.zipIdx.map fun e => s.groupOffers key t e.2 e.1).flatten
    ++ t.pend.zipIdx.map fun e =>
        match e.1.wait with
        | .writeback p slot tag => (true, .event .relayWritebackRequest (.team p slot tag))
        | .held _ => (false, .event .resultWriteback (.result key e.2))
        | _ => (true, .event .resultWriteback (.result key e.2))

def Hitch.offers (h : Hitch) (n : Nat) : List Offer :=
  (match h.nextOp with
    | some (_, .ldw ..) => [(true, .event .mldwPerform (.hitch n))]
    | some (_, .stream ..) => [(true, .event .mstreamPerform (.hitch n))]
    | some (_, .zero _) => [(true, .event .mzeroPerform (.hitch n))]
    | _ => [])
    ++ [(h.arrayQ.any ArrOp.isDrain, .event .drainHandover (.hitch n))]

def State.slotOffers (s : State) (die i : Nat) : List Offer :=
  let t := s.slot die i
  [(t.valid && t.known && s.mayTake die t.qcbAt, .event .packetTake (.slot die i)),
   ((s.oldest die i (s.phaseDue die)).isSome, .event .phaseChange (.slot die i)),
   ((s.oldest die i (s.signalDue die)).isSome, .event .signalOnlyPacket (.slot die i)),
   ((s.die die).packets.any fun p => decide (p.slot = i) && s.packetRan p die, .event .packetComplete (.slot die i))]

def State.dieOffers (s : State) (die : Nat) : List Offer :=
  let d := s.die die
  (match s.arbitrate die with
    | some (_, .block ..) => [(true, .event .blockPlace (.die die))]
    | some (_, .nbhd ..) => [(true, .event .neighbourhoodPlace (.die die))]
    | some (i, .restore _) => [(true, .event .blockRestore (.slot die i))]
    | none => [])
    ++ ((List.range 16).map fun i => if (s.slot die i).valid || d.packets.any (fun p => decide (p.slot = i)) then s.slotOffers die i else []).flatten
    ++ (d.queues.zipIdx.map fun q => (decide (q.1.state = .bound), Turn.queue die q.2))
    ++ ((d.l2.filter fun l => d.sweeps l.part (d.partEntry l.part) && !(d.partEntry l.part).w0.getLsbD l.way).map fun l =>
        (s.maySweep die l.slice, .event .sweepPeriod (.slice die l.slice)))

def State.heldOffers (s : State) (h : Held) : List Offer :=
  [(decide (s.clock - h.since ≥ 1024 ∨ granState (s.devDouble h.unitDie h.entryAt) ≠ 2), .event .heldWriteRecheck (.held h.id)),
   (s.heldPast h, .event .heldWriteDrop (.held h.id))]

def State.blockOffers (s : State) (blk : Nat) (b : Block) : List Offer :=
  [(decide (b.stat = .saving) && s.quiet blk, .event .saveComplete (.block blk))]
    ++ (List.range ((b.imageTeams.map fun t => t.pend.length).sum)).map fun n => (true, .event .savedResultArrival (.saved blk n))

/-- Every turn that the module can take by itself. A module that is not up boots first. -/
def State.offers (s : State) : List Offer :=
  [(decide (s.mgmt.boot = .off), .event .powerOnBoot .none), (s.mgmt.reportBusy, .event .reportDone .none),
   (decide ((s.mgmt.holder = 1 ∨ s.mgmt.holder = 2) ∧ s.clock ≥ s.mgmt.lastCmd + twoSeconds), .event .ctlsemLapse .none)]
    ++ (s.cores.map fun e => s.coreOffers e.1 e.2).flatten
    ++ (s.teams.map fun e => s.teamOffers e.1 e.2).flatten
    ++ (s.hitches.map fun e => e.2.offers e.1).flatten
    ++ ((List.range 16).map s.dieOffers).flatten
    ++ (s.held.map s.heldOffers).flatten
    ++ (s.blocks.map fun e => s.blockOffers e.1 e.2).flatten

/-- The turn that the module takes when the agenda is empty: the due turns take their places in rotation by the clock; with none
due, a clock passes. -/
def State.ownTurn (s : State) : Turn :=
  let due := (s.offers.filter fun o => o.1).map fun o => o.2
  (due[s.clock % due.length]?).getD (.elapse 0)

/-- The next turn and the state whose agenda is past it. -/
def State.nextTurn (s : State) : State × Turn :=
  match s.agenda with
  | t :: rest => ({ s with agenda := rest }, t)
  | [] => (s, s.ownTurn)

/-! ### Loading one instruction (log 6) -/

/-- The translation tables of a load, in home memory: an object record table at 0x10000 whose handle 1 is a code object of one
resident granule, with its entry at 0x20000 and its frame at 0x30000. -/
def loadTables : List (Nat × Word64) :=
  [(0x10040, 0x455), (0x10048, 0x20000), (0x10050, 0x10000), (0x20000, 0x30001)]

/-- The address of the loaded words: in the code object, or in home memory for a lane in bare mode. -/
def loadVa : Word64 := 0x0000010000000000
def loadPa : Nat := 0x30000

/-- Stores the tables and the words of a program. -/
def State.loadWords (s : State) (ws : List Word64) : State :=
  let m := loadTables.foldl (fun m e => writeBytes m e.1 (toBytes 8 e.2.toNat)) s.mem
  { s with mem := writeBytes m loadPa ((ws.map fun w => toBytes 8 w.toNat).flatten) }

/-- NOP and FALL words that make a leg of the loaded word. -/
def nopWord : Word64 := packF3 0x2CE { gs := false, gp := 7, d := 0xF0, a := 0xF0, b := 0xF0, c := 0xF0, lu := 0, kw := 0, ns := 0, md := 0 }
def fallWord (count : Nat) : Word64 :=
  packT 0 { gs := false, gp := 7, count := BitVec.ofNat 5 count, rsv := false, target := 0, a0 := 0xF0, a1 := 0xF0, a2 := 0xF0 }

/-- The leg in which a loaded word stands, with its place. -/
def loadLeg (w : Word64) : List Word64 × Nat × Nat :=
  if isTrailer w then ([nopWord, w], 1, 1) else ([w, fallWord (counts w)], 0, 0)

/-- The block for which a loaded instruction runs: one supervisor thread with every allotment at its largest. -/
def loadBlock (rein : Bool) : Block where
  die := 0
  slot := 0
  qcb := 0
  packet := 0
  stat := .placed
  cores := [0]
  threads := 1
  vregs := 192
  dregs := 8
  nbars := 16
  scratchKiB := 64
  bagBytes := 4096
  blk := 0
  nblk := none
  nbhd := 0
  entry := loadVa
  arg := 0
  pktAddr := 0
  region := 0
  policy := false
  mode := .s
  asid := 0
  ortBase := 0x10000
  ortSize := 2
  tab := { die := 0, base := 0, count := 0, sup := 0 }
  charges := []
  path := []
  scratch := []
  parts := [(0, 0)]
  bars := List.replicate 16 (newBarrier 1)
  forks := if rein then [{ off := 0, hitch := 0, die := 0, queues := [], rein := true, ended := 0, path := [] }] else []
  savedTeams := []
  savedQueues := []
  savedHitch := none
  savedRein := none
  reentry := []
  waiting := none
  frames := 0

/-- The lane kind that a loaded word needs: the rein core for G10, the scalar lane for SRET and WFI, else a vector team. -/
def loadKind (w : Word64) : Kind :=
  let op := field w 61 52
  if field w 63 62 ≠ 0 then .vector
  else if 0x280 ≤ op ∧ op ≤ 0x286 then .rein
  else if op = 0x2C4 ∨ op = 0x2CB then .scalar
  else .vector

/-- The lane that runs a loaded word, at its leg. -/
def loadTeam (w : Word64) (clock : Nat) : Nat × Team :=
  let b := loadBlock false
  let th := newThread b.need 0 loadVa 0 0 clock
  let vec := newTeam 0 0 0 b 1 0 clock [th]
  let leg := loadLeg w
  let run (t : Team) (start : Word64) : Team := { t with
    active := true
    threads := t.threads.map fun (th : Thread) => { th with stat := .running }
    groups := [{ lanes := 1, start := start, leg := leg.1, pos := leg.2.1, idx := leg.2.2, hold := .none, since := clock }] }
  match loadKind w with
  | .vector => (teamKey 0 0, run vec loadVa)
  | .rein => (reinKey 0, run (newRein 0 vec loadVa 0 clock) loadVa)
  | .scalar => (scalarKey 0, run (newLane 0 (BitVec.ofNat 64 loadPa) 0 clock) (BitVec.ofNat 64 loadPa))

/-- Loads an instruction word: it stands in memory and in a running group that issues it next. -/
def State.loadWord (s : State) (w : Word64) : State :=
  let t := loadTeam w s.clock
  let rein := decide (loadKind w = .rein)
  let s := (s.loadWords (loadLeg w).1).setTeam t.1 t.2
  let s := if rein then s.updHitch 0 fun h => { h with fork := some (1, 0), asid := some 0 } else s
  let s := if loadKind w = .scalar then s.updCore 0 fun k => { k with started := true } else s
  { s with blocks := tset s.blocks 1 (loadBlock rein), nextId := max s.nextId 2, agenda := [.issue t.1 0] }

/-- Loads a copy command: its words are the program of queue 0 of die 0. -/
def State.loadCommand (s : State) (ws : List Word64) : State :=
  let c : Ctx := { asid := 0, ortBase := 0x10000, ortSize := 2, mode := .s, region := 0, reloc := 0x1000000 }
  let s := (s.loadWords ws).updQueue 0 0 fun k => { k with enabled := true, state := .bound, block := some 1, prog := some (loadVa, c) }
  { s with blocks := tset s.blocks 1 (loadBlock false), nextId := max s.nextId 2, agenda := [.queue 0 0] }

/-- Loads the instruction whose `nbits` low bits are `w`, the bits above them 0, so that the next step runs it. -/
def State.load (s : State) (nbits w : Nat) : State :=
  let ws := (List.range 4).map fun k => BitVec.ofNat 64 (w % 2 ^ nbits / 2 ^ (64 * k))
  match decodeTableWord nbits w with
  | some i =>
    match i.form with
    | .cmd .. => s.loadCommand ws
    | _ => s.loadWord (ws.headD 0)
  | none => s.loadWord (ws.headD 0)

end Sys2Proof.Machine
end

