-- ==== Sys2Proof/Machine/Step.lean ====
section
/-! DEFINITION. The step of the module, and the state in which the next step runs a given instruction. -/

namespace Sys2Proof.Machine

/-- One step: the next turn of the agenda, or the module's own, and what follows it. -/
def step (s : State) : Host.Outcome State Fault Refusal :=
  match s.nextTurn.1.turn s.nextTurn.2 with
  | .next s' => .next s'.endStep
  | .fault f => .fault f
  | .refused r => .refused r

/-- `s` with the instruction whose `nbits` low bits are `w` placed so that the next step runs it (log 6). -/
def State.withFetchWord (s : State) (nbits w : Nat) : State := s.load nbits w

end Sys2Proof.Machine
end

