-- ==== Sys2Proof/Safety.lean ====
section
/-! DEFINITION. What the statements about the machine speak of: the readiness of a word for its group, what its lanes leave, and
what of the state can be read. -/

namespace Sys2Proof.Machine

/-! ### The lanes of the issuing group -/

/-- Whether the guard of a word passes on a lane (R17). -/
def Act.passes (a : Act) (guard : Thread → Bool) (l : Nat) : Bool :=
  match a.team.threads[l]? with
  | some th => guard th
  | none => false

/-- The lanes of the group that have not completed the instruction (R257). -/
def Act.left (a : Act) : BitVec 64 :=
  a.grp.lanes &&& ~~~(match a.grp.hold with | .wait d => d | _ => (0 : BitVec 64))

/-- What the lanes of a mask gather for an operation, ascending. -/
def State.gathered (s : State) (a : Act) (m : BitVec 64) (guard : Thread → Bool) (acc : List Acc) : List Got :=
  (laneList m).map fun l => s.gather a l (a.passes guard l) acc

/-- What a lane has gathered when its guard passes and no operand faults or waits. -/
def Got.input? : Got → Option LaneIn
  | .ok i => some i
  | _ => none

/-- A lane whose guard fails. -/
def Got.isSkip : Got → Bool
  | .skip => true
  | _ => false

/-- A word is ready: no lane of the mask faults or waits for an operand, and `ins` are the operands of the lanes whose guards
pass, in ascending order. -/
def State.ready (s : State) (a : Act) (m : BitVec 64) (guard : Thread → Bool) (acc : List Acc) (ins : List LaneIn) : Prop :=
  (∀ g ∈ s.gathered a m guard acc, g.isSkip = true ∨ g.input?.isSome = true) ∧
    (s.gathered a m guard acc).filterMap Got.input? = ins

/-- The destination that a lane has named first: its location and count of registers. -/
def LaneIn.dst0 (i : LaneIn) : Loc × Nat := i.dst.getD 0 (.zero, 0)

/-- The lowest performing lane (R133). -/
def leadLane (ins : List LaneIn) : Option Nat := ins.head?.map (·.lane)

/-- The lowest lane that performs a word lane by lane, the lanes that have completed it included (R133, R134). -/
def Act.lead (a : Act) (gs : Bool) (gp : BitVec 3) : Option Nat :=
  (laneList (a.grp.lanes ||| (match a.grp.hold with | .wait d => d | _ => (0 : BitVec 64)))).find? fun l => a.passes (fun th => th.guard gs gp) l

/-! ### Value words -/

/-- Every performing lane's index registers and last-use kills (R24, R138). -/
def State.commitAll (s : State) (key : Nat) (ins : List LaneIn) : State := ins.foldl (fun s i => s.commitLane key i) s

/-- Every performing lane's effects, in ascending lane order. -/
def State.effectAll (s : State) (key : Nat) (ins : List LaneIn) (eff : LaneIn → List Eff) : State :=
  ins.foldl (fun s i => (eff i).foldl (fun s x => s.applyEff key i.lane (decide (leadLane ins = some i.lane)) i.dst0 x) s) s

/-- A word of one value operation performed by its group: every read and last-use kill, then every write, and the group moves
past the word (R24, R98). -/
def State.performed (s : State) (a : Act) (ins : List LaneIn) (eff : LaneIn → List Eff) : State :=
  ((s.commitAll a.key ins).effectAll a.key ins eff).advance a

/-- What a lane has gathered for an operation, if it performs it. -/
def atLane (ins : List LaneIn) (l : Nat) : Option LaneIn := ins.find? fun i => decide (i.lane = l)

/-- An operation of a word as its group performs it: the performing lanes' operands and effects, and the effects on a thread whose
guard fails. -/
structure Op where
  ins : List LaneIn
  eff : LaneIn → List Eff
  els : Thread → List Eff

/-- The index registers and last-use kills of a lane for one operation. -/
def State.opCommit (s : State) (a : Act) (l : Nat) (o : Op) : State :=
  match atLane o.ins l with
  | some i => s.commitLane a.key i
  | none => s

/-- The effects of one operation on a lane. -/
def State.opEffect (s : State) (a : Act) (l : Nat) (o : Op) : State :=
  match atLane o.ins l with
  | some i => (o.eff i).foldl (fun s x => s.applyEff a.key l (decide (leadLane o.ins = some l)) i.dst0 x) s
  | none =>
    match a.team.threads[l]? with
    | some th => (o.els th).foldl (fun s x => s.applyEff a.key l false (.zero, 0) x) s
    | none => s

/-- A word of several operations performed by its group: the reads and last-use kills of every operation, then the writes,
operation by operation in each lane, and the group moves past the word (R24, R30). -/
def State.performedOps (s : State) (a : Act) (ops : List Op) : State :=
  let s1 := (laneList a.grp.lanes).foldl (fun s l => ops.foldl (fun s o => s.opCommit a l o) s) s
  ((laneList a.grp.lanes).foldl (fun s l => ops.foldl (fun s o => s.opEffect a l o) s) s1).advance a

/-- An F3 word of a value operation is ready for the issuing group: its form is one of the table, its lanes have their operands. -/
def State.readyF3 (s : State) (a : Act) (op : Nat) (w : F3) (ins : List LaneIn) : Prop :=
  s.act = some a ∧ (∃ g, f3Sig op w = some g ∧ g.bad = false) ∧
    s.ready a a.grp.lanes (fun th => th.guard w.gs w.gp) (f3Acc op w) ins

/-- As `readyF3` for an X word. -/
def State.readyX (s : State) (a : Act) (op : Nat) (w : XW) (ins : List LaneIn) : Prop :=
  s.act = some a ∧ (∃ g, xSig op w = some g ∧ g.bad = false) ∧
    s.ready a a.grp.lanes (fun th => th.guard w.gs w.gp) (xAcc op w) ins

/-- The thread on a lane of the issuing team. -/
def Act.lane? (a : Act) (l : Nat) : Option Thread := a.team.threads[l]?

/-- One result of 32 bits, or of 64 bits as the words of a pair (R23). -/
def on1 (wide : Bool) (f : (n : Nat) → BitVec n → BitVec n) (a : List Word32) : List Word32 :=
  if wide then words64 (f 64 (lo64 a)) else [f 32 (lo32 a)]

def on2 (wide : Bool) (f : (n : Nat) → BitVec n → BitVec n → BitVec n) (a b : List Word32) : List Word32 :=
  if wide then words64 (f 64 (lo64 a) (lo64 b)) else [f 32 (lo32 a) (lo32 b)]

def on3 (wide : Bool) (f : (n : Nat) → BitVec n → BitVec n → BitVec n → BitVec n) (a b c : List Word32) : List Word32 :=
  if wide then words64 (f 64 (lo64 a) (lo64 b) (lo64 c)) else [f 32 (lo32 a) (lo32 b) (lo32 c)]

/-! ### Predicates and comparisons -/

/-- The predicates p0 to p6 with the given values. -/
def packPreds (f : Nat → Bool) : BitVec 7 :=
  (List.range 7).foldl (fun x k => if f k then x ||| BitVec.twoPow 7 k else x) 0

/-- The predicates of a thread after a compare with result `c` under a combining type, by the table of R144: p1 is written first,
then p2, and p7 discards. -/
def tablePreds (th : Thread) (p1 p2 ty : Nat) (c : Bool) : BitVec 7 :=
  let old1 := th.pred p1
  let old2 := th.pred p2
  let x : Bool × Bool :=
    if ty ≤ 1 then (c, !c)
    else if ty = 2 then (old1 && c, old2 && c)
    else if ty = 3 then (old1 && !c, old2 && !c)
    else if ty = 4 then (old1 || c, old2 || c)
    else if ty = 5 then (old1 || !c, old2 || !c)
    else if ty = 6 then (old1 && c, old2 || c)
    else (old1 && !c, old2 || !c)
  packPreds fun k => if k = p2 then x.2 else if k = p1 then x.1 else th.p.getLsbD k

/-- A compare as an operation: the predicates of a passing thread by its result, and the .setz clearing of the others (R144). -/
def compareOp (a : Act) (ins : List LaneIn) (p1 p2 ty : Nat) (c : LaneIn → Bool) : Op where
  ins := ins
  eff := fun i => match a.lane? i.lane with
    | some th => [.preds (tablePreds th p1 p2 ty (c i))]
    | none => []
  els := fun th => if ty = 1 then [.preds (packPreds fun k => decide (k ≠ p1 ∧ k ≠ p2) && th.p.getLsbD k)] else []

/-- The integer conditions .eq, .ne, .lt, .le, .gt and .ge (R145). -/
def intHolds {n : Nat} (sgn : Bool) (cond : Nat) (x y : BitVec n) : Bool :=
  let lt (x y : BitVec n) : Bool := if sgn then x.slt y else x.ult y
  if cond = 0 then decide (x = y) else if cond = 1 then decide (x ≠ y) else if cond = 2 then lt x y
  else if cond = 3 then !lt y x else if cond = 4 then lt y x else !lt x y

/-- The magnitude bits of an FP32 code, a subnormal's 0 with .fz (R86). -/
def fpMag (fz : Bool) (x : Word32) : Nat :=
  let m := x.toNat % 2 ^ 31
  if fz ∧ m < 2 ^ 23 then 0 else m

/-- The place of an FP32 code in the order of the numbers; both zeros stand at 0 (R72). -/
def fpKey (fz : Bool) (x : Word32) : Int := if x.msb then -(fpMag fz x : Int) else fpMag fz x

/-- The FP32 conditions of R146. -/
def fpHolds (cond : Nat) (fz : Bool) (x y : Word32) : Bool :=
  let nan := decide (fpMag fz x > 0x7F800000 ∨ fpMag fz y > 0x7F800000)
  let lt := decide (fpKey fz x < fpKey fz y)
  let eq := decide (fpKey fz x = fpKey fz y)
  let gt := decide (fpKey fz x > fpKey fz y)
  if cond = 0 then !nan && eq
  else if cond = 1 then !nan && !eq
  else if cond = 2 then !nan && lt
  else if cond = 3 then !nan && (lt || eq)
  else if cond = 4 then !nan && gt
  else if cond = 5 then !nan && (gt || eq)
  else if cond = 6 then !nan
  else if cond = 7 then nan
  else if cond = 8 then nan || eq
  else if cond = 9 then nan || !eq
  else if cond = 10 then nan || lt
  else if cond = 11 then nan || lt || eq
  else if cond = 12 then nan || gt
  else nan || gt || eq

/-- The effect of a P2 half on the words that it has read: A, then B (R30, R169). -/
def halfEffect (a : Act) (o : P2Op) (h : P2H) (i : LaneIn) : List Eff :=
  let x := lo32 (i.vals.getD 0 [])
  let y := lo32 (i.vals.getD 1 [])
  let fp (f : FVal → FVal → Nat) : List Eff := [.write [BitVec.ofNat 32 (f (fp32.read x.toNat) (fp32.read y.toNat))]]
  let cmp (c : Bool) : List Eff := match a.lane? i.lane with
    | some th => [.preds (packPreds fun k => if k = 1 then !c else if k = 0 then c else th.p.getLsbD k)]
    | none => []
  match o with
  | .iadd => [.write [x + y]]
  | .isub => [.write [x - y]]
  | .and => [.write [x &&& y]]
  | .or => [.write [x ||| y]]
  | .xor => [.write [x ^^^ y]]
  | .shl => [.write [x <<< y.toNat]]
  | .shr => [.write [x >>> y.toNat]]
  | .sar => [.write [x.sshiftRight y.toNat]]
  | .mov => [.write [x]]
  | .movi => [.write [h.imm.signExtend 32]]
  | .iaddi => [.write [x + h.imm.signExtend 32]]
  | .imin => [.write [if y.slt x then y else x]]
  | .imax => [.write [if x.slt y then y else x]]
  | .fadd => fp (fp32.add .rn false)
  | .fsub => fp fun x y => fp32.add .rn false x y.neg
  | .fmul => fp (fp32.mul .rn false)
  | .fmin => fp (fp32.minmax false)
  | .fmax => fp (fp32.minmax true)
  | .icmpeq => cmp (decide (x = y))
  | .icmplt => cmp (x.slt y)
  | .fcmplt => cmp (fpHolds 2 false x y)
  | .nop => []

/-! ### Floating-point words -/

/-- The format of a G2 or PSCL modifier: FP32, or a pair of FP16 or BF16 elements (R158). -/
def fpFormat (md : BitVec 8) : Ieee := if mdField md 1 0 = 0 then fp32 else if mdField md 1 0 = 1 then fp16 else bf16

/-- The bits of element `k` of a word. -/
def fpBits (md : BitVec 8) (k : Nat) (x : List Word32) : Nat :=
  if mdField md 1 0 = 0 then (lo32 x).toNat else ((lo32 x).extractLsb' (16 * k) 16).toNat

/-- Element `k` of a source: negated by modifier bit `neg`, then with .fz a subnormal becomes a zero of its sign (R159). -/
def fpSource (md : BitVec 8) (neg k : Nat) (x : List Word32) : FVal :=
  let v := (fpFormat md).read (fpBits md k x)
  let v := if md.getLsbD neg then v.neg else v
  if md.getLsbD 4 && (fpFormat md).subnormal v then .fin v.sign 0 0 else v

/-- The rounding mode of modifier [3:2] (R52). -/
def fpMode (md : BitVec 8) : Rnd :=
  if mdField md 3 2 = 0 then .rn else if mdField md 3 2 = 1 then .rz else if mdField md 3 2 = 2 then .ru else .rd

/-- The result word: one FP32 code, or the codes of both elements (R81, R158). -/
def fpResult (md : BitVec 8) (r : Nat → Nat) : List Word32 :=
  if mdField md 1 0 = 0 then [BitVec.ofNat 32 (r 0)] else [BitVec.ofNat 16 (r 1) ++ BitVec.ofNat 16 (r 0)]

/-! ### Cross-lane instructions -/

/-- The words of A of a present member: a lane that must arrive, whose guard passed (R112). -/
def presentA (ls : List CrossLane) (must : BitVec 64) (l : Nat) : Option (List Word32) :=
  if must.getLsbD l then
    (ls.filterMap fun c => if c.lane = l then c.got.input? else none).getLast?.map fun i => i.vals.getD 0 []
  else none

/-- The stored contents of `n` registers of a lane (R113). -/
def storedA (t : Team) (r n l : Nat) : List Word32 :=
  match t.threads[l]? with
  | some th => (List.range n).map fun k => (th.vreg (r + k)).read
  | none => List.replicate n 0

/-- The words that a performing lane receives for D, and for B of an LSCAN: `a` gives the words of A of the present members, `stored`
the stored contents of A in any lane (R117-R119); a SHFL without a source lane reads its own. -/
def crossWords (op : Nat) (w : F3) (snap : BitVec 64) (a : Nat → Option (List Word32)) (stored : Nat → List Word32) (i : LaneIn) :
    List Word32 × List Word32 :=
  let yes (l : Nat) : Bool := match a l with | some x => decide (lo32 x ≠ 0) | none => false
  let code := mdField w.md 7 4
  let x (l : Nat) : Option Word32 := (a l).map fun ws => foldCanon code (lo32 ws)
  let fold (n : Nat) : Word32 := (((List.range n).map x).foldl (foldNode code) none).getD (foldIdentity code)
  if op = 0x180 then
    let b : Int := (lo32 ((i.vals.getLast?).getD [])).toNat
    let src : Int := if mdField w.md 5 4 = 0 then b else if mdField w.md 5 4 = 1 then i.lane - b
      else if mdField w.md 5 4 = 2 then i.lane + b else (i.lane ^^^ b.toNat : Nat)
    let l : Nat := if src < 0 ∨ 63 < src then i.lane else src.toNat
    ((a l).getD (stored l), [])
  else if op = 0x181 then
    (if mdField w.md 5 4 = 0 then [if (List.range 64).any yes then 1 else 0]
      else if mdField w.md 5 4 = 1 then [if (List.range 64).all fun l => !snap.getLsbD l || yes l then 1 else 0]
      else if mdField w.md 5 4 = 2 then [BitVec.ofNat 32 ((List.range 64).countP yes)]
      else words64 (laneMask ((List.range 64).filter yes)), [])
  else if op = 0x182 then
    ([if 8 ≤ code ∧ code ≤ 10 then (foldTree code ((List.range 64).map x)).getD (foldIdentity code) else fold 64], [])
  else ([fold (i.lane + 1)], [fold i.lane])

/-- A cross-lane instruction performed by the groups `gs` of a team: the reads of every performing lane, then its results, and
each group moves past the word (R112). -/
def State.crossed (s : State) (key op : Nat) (gs : List Nat) (ls : List CrossLane) (res : LaneIn → List Word32 × List Word32) :
    State :=
  let lead (c : CrossLane) : Bool :=
    decide ((ls.find? fun d => decide (d.g = c.g) && d.got.input?.isSome).map (·.lane) = some c.lane)
  let s1 := ls.foldl (fun s c => match c.got.input? with | some i => s.commitLane key i | none => s) s
  let s2 := ls.foldl (fun s c =>
    match c.got.input? with
    | some i =>
      let s := s.writeDst key c.lane (lead c) ((i.dst.getLast?).getD (.zero, 0)).1 (res i).1
      if op = 0x183 then s.writeDst key c.lane (lead c) i.dst0.1 (res i).2 else s
    | none => s) s1
  gs.foldl (fun s g => s.updGroup key g fun gr => { gr with pos := gr.pos + 1, idx := gr.idx + 1, hold := .none }) s2

/-! ### Instructions that perform lane by lane -/

/-- The performing lanes one after the other: `R i lead s t` says that the lane with operands `i` takes `s` to `t`. -/
inductive LaneChain (R : LaneIn → Bool → State → State → Prop) (lead : Option Nat) : List LaneIn → State → State → Prop where
  | nil (s : State) : LaneChain R lead [] s s
  | cons {i : LaneIn} {is : List LaneIn} {s u t : State} (h : R i (decide (lead = some i.lane)) s u)
      (tl : LaneChain R lead is u t) : LaneChain R lead (i :: is) s t

/-- An X word that performs lane by lane is ready: its form is one of the table, and its lanes that are left have their operands. -/
def State.lanesX (s : State) (a : Act) (op : Nat) (w : XW) (ins : List LaneIn) : Prop :=
  s.act = some a ∧ (∃ g, xSig op w = some g ∧ g.bad = false) ∧
    s.ready a a.left (fun th => th.guard w.gs w.gp) (xAcc op w) ins

/-- As `lanesX` for an F3 word. -/
def State.lanesF3 (s : State) (a : Act) (op : Nat) (w : F3) (ins : List LaneIn) : Prop :=
  s.act = some a ∧ (∃ g, f3Sig op w = some g ∧ g.bad = false) ∧
    s.ready a a.left (fun th => th.guard w.gs w.gp) (f3Acc op w) ins

/-! ### Memory accesses -/

/-- The words of a loaded value of 1, 2, 4, 8 or 16 bytes, in little-endian order, zero- or sign-extended (R7, R26). -/
def loadedWords (n : Nat) (sx : Bool) (bs : List Byte) : List Word32 :=
  let b (k : Nat) : Byte := bs.getD k 0
  if n = 1 then [if sx then (b 0).signExtend 32 else (b 0).setWidth 32]
  else if n = 2 then [if sx then (b 1 ++ b 0).signExtend 32 else (b 1 ++ b 0).setWidth 32]
  else (List.range (n / 4)).map fun k => b (4 * k + 3) ++ b (4 * k + 2) ++ b (4 * k + 1) ++ b (4 * k)

/-- The low `n` bytes of the words of a source, in little-endian order. -/
def storedBytes (n : Nat) (ws : List Word32) : List Byte :=
  (List.range n).map fun k => (ws.getD (k / 4) 0).extractLsb' (8 * (k % 4)) 8

/-- The effective address of a global access: the pair A plus the signed 24-bit offset (R26, R222). -/
def globalAddr (w : XW) (i : LaneIn) : Word64 := lo64 (i.val 0) + (w.imm.extractLsb' 8 24).signExtend 64

/-- The effective offset of a scratchpad or saddlebag access (R190, R197). -/
def localAddr (w : XW) (i : LaneIn) : Word32 := lo32 (i.val 0) + (w.imm.extractLsb' 8 24).signExtend 32

/-- Size in bytes, policy and sign extension of an access (R26). -/
def accSize (w : XW) : Nat := 2 ^ (w.imm.extractLsb' 0 3).toNat
def accPolicy (w : XW) : Nat := (w.imm.extractLsb' 4 2).toNat
def accSigned (w : XW) : Bool := w.imm.getLsbD 3

/-- A lane's long-latency result: its reads are committed and its destination is pending (R40, R124). -/
def State.laneResult (s : State) (a : Act) (i : LaneIn) (lead : Bool) (ws : List Word32) : State :=
  (s.commitLane a.key i).pendDst a.key i.lane lead i.dest.1 i.dest.2 ws .ready

/-! ### Atomics -/

/-- The value of a source of a G8 word at its width. -/
def g8Src (m : Nat) (ws : List Word32) : BitVec m := (lo64 ws).setWidth m

/-- The words of a value of `m` bits. -/
def valueWords {m : Nat} (x : BitVec m) : List Word32 := (List.range (m / 32)).map fun k => x.extractLsb' (32 * k) 32

/-- The new value at a location by the table of R254; none where nothing is written. -/
def atomTable {m : Nat} (op : AtomOp) (sgn : Bool) (old b c : BitVec m) : Option (BitVec m) :=
  let lt (x y : BitVec m) : Bool := if sgn then x.slt y else x.ult y
  match op with
  | .add | .addw => some (old + b)
  | .min => some (if lt b old then b else old)
  | .max => some (if lt old b then b else old)
  | .and => some (old &&& b)
  | .or => some (old ||| b)
  | .xor => some (old ^^^ b)
  | .exch => some b
  | .cas => if old = c then some b else none
  | .fadd => some (BitVec.ofNat m (fp32.add .rn false (fp32.read (old.setWidth 32).toNat) (fp32.read (b.setWidth 32).toNat)))
  | .scnd => none

/-- Whether the new value of an AADDW reaches or crosses its threshold (R258). -/
def thresholdMet {m : Nat} (sgn : Bool) (old new c : BitVec m) : Bool :=
  let lt (x y : BitVec m) : Bool := if sgn then x.slt y else x.ult y
  decide (new = c) || (lt old c && lt c new) || (lt new c && lt c old)

/-- One lane's atomic at its place, from the state `s` after its checks to `t`: the words and the readiness of its result. A location
in HBM or the pool performs after the release, where its line comes to its unit, and the acquire follows; one in a moving granule is a
held write, whose result an s destination takes from the lowest lane alone (R133, R219, R243, R244, R247, R255). -/
def State.atomicAt (s : State) (a : Act) (w : F3) (op : AtomOp) (i : LaneIn) (lead : Bool) (m : Nat) (ordered : Bool) (sp : Spot)
    (t : State) (ws : List Word32) (wt : Wait) : Prop :=
  let sgn := w.md.getLsbD 5
  let b : BitVec m := g8Src m (i.val 1)
  let c : BitVec m := g8Src m (i.val 2)
  let all (_ : Nat) : Bool := true
  let rel := ordered && w.md.getLsbD 4
  let acq := ordered && w.md.getLsbD 3
  let die := dieOf a.team.core
  match sp with
  | .scratch blk off => ∃ s1 bs, s.scratchRead blk off (m / 8) = (s1, bs) ∧
      let old := BitVec.ofNat m (ofBytes bs)
      ws = valueWords old ∧ wt = .ready ∧
      t = match atomTable op sgn old b c with
        | some v =>
          let u := s1.scratchWrite blk off (toBytes (m / 8) v.toNat)
          if op = .addw ∧ thresholdMet sgn old v c then u.wake true (blk * 2 ^ 32 + off) (m / 8) else u
        | none => s1
  | .glob x eff =>
    if x.moving then
      ws = List.replicate (m / 32) 0 ∧ wt = .held s.nextId ∧
      t = (if rel then s.releaseIn a all else s).hold a i.lane (lo64 (i.val 0)) x (if w.md.getLsbD 7 then w.d else 0xF0) fun h =>
        { h with op := op, plain := false, width := m / 8, signed := sgn, data := b.setWidth 64, cmp := c.setWidth 64, acq := acq
                 scope := eff, order := mdField w.md 4 3
                 dest := if w.md.getLsbD 7 = false ∨ i.dest.1.isS = true ∧ lead = false then .none else i.dest.1.dest i.dest.2 }
    else
      let s1 := (if rel then s.releaseIn a all else s).claimSpot (hitchOf a.team.core) sp
      ∃ s2 s3 s4 bs, s1.busFault die x (m / 8) true = (s2, none) ∧ s2.busRead die x (m / 8) false = (s3, .ok bs) ∧
      let old := BitVec.ofNat m (ofBytes bs)
      ws = valueWords old ∧ wt = .ready ∧ (acq = true → s.faultMark sp (m / 8) = none) ∧
      (match atomTable op sgn old b c with
        | some v => ∃ s5, s3.busWrite die x (toBytes (m / 8) v.toNat) false = (s5, none) ∧
          s4 = if op = .addw ∧ thresholdMet sgn old v c then s5.wake false x.pa (m / 8) else s5
        | none => s4 = s3) ∧
      t = if acq then s4.acquireIn a all else s4

/-- A lane's place, neither waiting for a held write nor refused by the scope checker or a last fault: where it performs, and whether
its acquire and release stand. `read` says whether it reads the location. -/
def State.placed (s : State) (a : Act) (w : F3) (i : LaneIn) (n : Nat) (u : Use) (rel read : Bool) (s1 : State) (sp : Spot)
    (ordered : Bool) : Prop :=
  ∃ s0 at', s.place a.team i.lane (lo64 (i.val 0)) (mdField w.md 2 0) n u = (s0, .ok at') ∧
    s.spotWaits a i.lane (lo64 (i.val 0)) at' rel = false ∧
    s0.admitLane a i.lane (lo64 (i.val 0)) at' n (mdField w.md 4 3) read u.write = (s1, .ok (sp, ordered))

/-! ### Copy commands -/

/-- The issuing queue performs its command: it is bound, has one, and no write of it is held (R219, R290). -/
def State.queueReady (s : State) (a : QAct) : Prop :=
  s.issuer = .queue a.die a.q ∧ s.queueAct a.die a.q = some a ∧ s.queueHeld a.die a.q = false

/-- `n` elements from element `k` on, one after the other: `R k s t` says that element `k` takes `s` to `t`. -/
inductive ElemChain (R : Nat → State → State → Prop) : Nat → Nat → State → State → Prop where
  | nil (k : Nat) (s : State) : ElemChain R 0 k s s
  | cons {n k : Nat} {s u t : State} (h : R k s u) (tl : ElemChain R n (k + 1) u t) : ElemChain R (n + 1) k s t

/-- Every field bit of a command outside a mask is 0. -/
def cmdFits (c : Cmd) (mask : BitVec 48) : Prop := c.fields &&& ~~~mask = 0

/-- The elements of a window, from the first that is not performed: `R` takes the element's place in the tensor, and its
destination byte and nibble (R293-R295). -/
def State.windowChain (s : State) (a : QAct) (r : Tsr) (R : Elem → Nat → Nat → State → State → Prop) (t : State) : Prop :=
  ElemChain (fun i s t =>
    let j := winIndex (tsrSize r) i
    R (tsrElem r j) (tsrDest r + (tsrPlace r j).1) (tsrPlace r j).2 s t) (tsrCount r - a.elem) a.elem s t

/-- A window element is delivered: its value from the tensor, or the fill value of edge mode 1 (R294). -/
def delivered (a : QAct) (r : Tsr) (put : State → Nat → State) (e : Elem) (s t : State) : Prop :=
  match e with
  | .at' l => ∃ u v, s.tensorRead a r l = (u, .ok v) ∧ t = put u v
  | .outside => t = if tsrEdge r = 1 then put s (tsrFill r) else s
  | .fault .. => False

/-- A value is stored at a window element of a tensor in memory; one outside the tensor is left out (R294). -/
def stored (a : QAct) (r : Tsr) (v : Nat) (e : Elem) (s t : State) : Prop :=
  match e with
  | .at' l => s.tensorWrite a r l v = .done t
  | .outside => t = s
  | .fault .. => False

/-! ### Exits of a leg -/

/-- How a lane leaves by a trailer: `f` where its guard passes, else to the word after the trailer (R102). -/
def Act.exits (a : Act) (w : TW) (f : Nat → Thread → Exit) : List (Nat × Exit) :=
  (laneList a.grp.lanes).map fun l => (l, match a.lane? l with
    | some th => if th.guard w.gs w.gp then f l th else .go a.after' false none
    | none => .go a.after' false none)

/-- The group leaves its leg by exits without a fault, each taken one to a leg start: what the trailer writes to its counter, then
the threads stand at their destinations under the awaits, the group is gone, exited threads have ended, and what follows a leg
boundary follows: awaits that are full and a meeting that is complete release their threads before the team may have to leave the
active set (R36, R100, R102, R105, R107, R206, R219, R363). -/
def State.departs (s : State) (a : Act) (awaits : List Code) (counter : State → State) (es : List (Nat × Exit)) (t : State) : Prop :=
  let s0 := s.updTeam a.key fun t => t.adopt a.grp.lanes
  ∃ team u ls, tget s0.teams a.key = some team ∧ s0.testExits a.key team es = (u, ls) ∧ (∀ l ∈ ls, l.test = .start) ∧ (∀ e ∈ es, ∀ f, e.2 ≠ .fault f) ∧
    let moved := (counter u).updTeam a.key fun t => es.foldl (fun t e => match e.2 with
        | .go pc _ bag => t.updThread e.1 fun th => th.leave pc awaits bag s.clock
        | _ => t) { t with groups := t.groups.eraseIdx a.g }
    let left := es.foldl (fun s e => match e.2 with | .exit => s.exitLane a.key e.1 | _ => s) moved
    let went := laneMask (es.filterMap fun e => match e.2 with | .go .. => some e.1 | _ => none)
    let stepped := (left.takeDrops a.key went).singleStep a.key { a.trapAt 0xF0 with mid := false } went
    t = (((stepped.updTeam a.key fun t => t.meetAwaits s.clock).settleTeam a.key).trimActive team.core (team.slot / 8)).freeTeam a.key

/-! ### System registers -/

/-- The system registers: number, width in bytes, and who may access each: 0 every team, 1 supervisor mode, 2 the scalar lane alone
(R346). -/
def sysTable : List (Nat × Nat × Nat) :=
  [(0x010, 4, 0), (0x020, 8, 1), (0x021, 4, 1), (0x022, 4, 0), (0x023, 4, 1), (0x024, 4, 1), (0x025, 4, 1), (0x030, 8, 0),
   (0x031, 8, 2), (0x032, 4, 2), (0x033, 4, 2), (0x034, 8, 2), (0x035, 8, 2), (0x036, 4, 2), (0x037, 8, 2), (0x038, 4, 2),
   (0x039, 4, 2), (0x040, 8, 1), (0x041, 4, 1), (0x042, 4, 1), (0x050, 4, 0), (0x060, 4, 0), (0x070, 4, 1), (0x071, 4, 1),
   (0x072, 4, 1), (0x073, 4, 1), (0x080, 4, 0)]

/-- Whether a thread of a team may access register `n` in a form (R192, R345, R346). -/
def Team.mayAccess (t : Team) (n : Nat) (wide write : Bool) : Prop :=
  ∃ who, (n, (if wide then 8 else 4), who) ∈ sysTable ∧ (who = 1 → t.mode = .s) ∧ (who = 2 → t.kind = .scalar) ∧
    (n = 0x050 → write = true → t.mode = .s)

/-- The number of a register in a SYSRD or SYSWR word (R345). -/
def sysReg (w : F3) : Nat := ((w.b.extractLsb' 0 4 : BitVec 4) ++ w.c : BitVec 12).toNat

/-! ### What a core sees of memory -/

/-- The byte that a core's cached access meets at a physical address: the byte of its L1 line under that key slot where it is present,
else the byte at home (R245, R251). -/
def State.seen (s : State) (c pa key : Nat) : Byte :=
  match (s.core c).l1Line (pa / 128) with
  | some l => if l.key = key ∧ l.present.getLsbD (pa % 128) then l.byte (pa % 128) else (s.homeRead pa 1 key).getD 0 0
  | none => (s.homeRead pa 1 key).getD 0 0

/-- The form of an L1: a line stands there once, and its dirty bytes are present. -/
def Core.l1Form (k : Core) : Prop := (k.l1.map fun l => l.line).Nodup ∧ ∀ l ∈ k.l1, l.dirty &&& ~~~l.present = 0

/-- Whether the L1 of a core holds a byte dirty. -/
def State.dirtyAt (s : State) (c pa : Nat) : Prop := ∃ l ∈ (s.core c).l1, l.line = pa / 128 ∧ l.dirty.getLsbD (pa % 128) = true

/-- What an access through a core's L1 under a key slot leaves, when it stores the bytes of `stored`, those of `out` at their home: the
core sees them; other cores keep their L1; home bytes stay but those of `out` and those that were dirty in the L1 and leave it; and
under its key the core sees every other byte as before, but for a byte that has left the L1, clean or lost over a failed link, which
it sees as it is at home (R222, R239, R245, R251; log 66). -/
def State.cacheFrame (s t : State) (c key : Nat) (stored : Nat → Option Byte) (out : Nat → Prop) : Prop :=
  (∀ c', c' ≠ c → t.core c' = s.core c') ∧
  (∀ a n k, (∀ i, s.dirtyAt c i ∨ out i → i / 16 ∉ blocksOf a n) → t.homeRead a n k = s.homeRead a n k) ∧
  (∀ a b, stored a = some b → t.seen c a key = b) ∧
  ∀ a, stored a = none → (∀ l ∈ (s.core c).l1, l.line = a / 128 → l.key = key) →
    t.seen c a key = s.seen c a key ∨ ((¬ s.dirtyAt c a ∨ s.cutOff (dieOf c) (a / 128 * 128) = true) ∧ t.seen c a key = (s.homeRead a 1 key).getD 0 0)

end Sys2Proof.Machine
end

