-- ==== Sys2Proof/WellFormed.lean ====
section
/-! DEFINITION. Well-formed instructions: the fields select the instruction's own row of the table, and some lane admits it in
its leg (R19-R34, R37, R45, R268, R344); a copy command holds what its encoding gives it room for (R41, R42). -/

namespace Sys2Proof

open Machine

/-- The widest allotment of a kind of lane, in supervisor mode (R21, R268, R344). -/
def widest (k : Kind) : Allot :=
  { kind := k, mode := .s, vregs := if k = .vector then 192 else 64, dregs := if k = .vector then 8 else 0 }

/-- A trailer's count is 1 to 24 (R31, R37). -/
def Instr.countOk (i : Instr) : Bool :=
  match i.form with
  | .t _ w => decide (1 ≤ w.count.toNat ∧ w.count.toNat ≤ 24)
  | _ => true

/-- An instruction word that a thread's leg check admits as the first instruction of a leg, or as its trailer (R37). -/
def Instr.admitted (al : Allot) (i : Instr) : Bool :=
  i.ownRow && i.countOk && (match i.form with | .cmd _ _ => false | _ => (instrFails al [] true i).isEmpty)

/-- A copy command with its own count of extra words (R41). -/
def Instr.command (i : Instr) : Bool :=
  i.ownRow && (match i.form with | .cmd _ _ => true | _ => false)

/-- An instruction of the device's encodings: some lane admits the word, or it is a copy command. An event stands in no
encoding. -/
def Instr.wellFormed (i : Instr) : Bool :=
  i.command || i.admitted (widest .vector) || i.admitted (widest .scalar) || i.admitted (widest .rein)

end Sys2Proof
end

