-- ==== Sys2Proof/Certificates/Slice0/Obligations.lean ====
section
/-! DEFINITION. The statements about the machine. -/

open Sys2Proof Sys2Proof.Machine

/-! ### Integer instructions -/

/-- R153: IADD, ISUB, IMUL, IMAD, IMULH, IMIN, IMAX, IABS and IADD3 complete with the result of the table, in every width and
saturation form. -/
def Obligations.IntegerArithmetic : Prop :=
  ∀ (s : State) (a : Act) (w : F3) (ins : List LaneIn),
    (s.readyF3 a 0x000 w ins → exec (.iadd w) s = .next (s.performed a ins fun i =>
      [.write (on2 (w.md.getLsbD 0) (fun n x y =>
        if mdField w.md 2 1 = 1 then BitVec.ofInt n (max (-2 ^ (n - 1)) (min (x.toInt + y.toInt) (2 ^ (n - 1) - 1)))
        else if mdField w.md 2 1 = 2 then BitVec.ofNat n (min (x.toNat + y.toNat) (2 ^ n - 1))
        else x + y) (i.val 0) (i.val 1))])) ∧
    (s.readyF3 a 0x001 w ins → exec (.isub w) s = .next (s.performed a ins fun i =>
      [.write (on2 (w.md.getLsbD 0) (fun n x y =>
        if mdField w.md 2 1 = 1 then BitVec.ofInt n (max (-2 ^ (n - 1)) (min (x.toInt - y.toInt) (2 ^ (n - 1) - 1)))
        else if mdField w.md 2 1 = 2 then BitVec.ofNat n (x.toNat - y.toNat)
        else x - y) (i.val 0) (i.val 1))])) ∧
    (s.readyF3 a 0x002 w ins → exec (.imul w) s = .next (s.performed a ins fun i =>
      [.write (on2 (w.md.getLsbD 0) (fun _ x y => x * y) (i.val 0) (i.val 1))])) ∧
    (s.readyF3 a 0x003 w ins → exec (.imad w) s = .next (s.performed a ins fun i =>
      [.write (if w.md.getLsbD 1 then
          let ext (x : Word32) : Word64 := if w.md.getLsbD 2 then x.setWidth 64 else x.signExtend 64
          words64 (ext (lo32 (i.val 0)) * ext (lo32 (i.val 1)) + lo64 (i.val 2))
        else on3 (w.md.getLsbD 0) (fun _ x y z => x * y + z) (i.val 0) (i.val 1) (i.val 2))])) ∧
    (s.readyF3 a 0x004 w ins → exec (.imulh w) s = .next (s.performed a ins fun i =>
      [.write (on2 (w.md.getLsbD 0) (fun n x y =>
        let ext (x : BitVec n) : BitVec (2 * n) := if w.md.getLsbD 2 then x.setWidth (2 * n) else x.signExtend (2 * n)
        ((ext x * ext y) >>> n).setWidth n) (i.val 0) (i.val 1))])) ∧
    (s.readyF3 a 0x005 w ins → exec (.imin w) s = .next (s.performed a ins fun i =>
      [.write (on2 (w.md.getLsbD 0) (fun _ x y =>
        if (if w.md.getLsbD 2 then y.ult x else y.slt x) then y else x) (i.val 0) (i.val 1))])) ∧
    (s.readyF3 a 0x006 w ins → exec (.imax w) s = .next (s.performed a ins fun i =>
      [.write (on2 (w.md.getLsbD 0) (fun _ x y =>
        if (if w.md.getLsbD 2 then x.ult y else x.slt y) then y else x) (i.val 0) (i.val 1))])) ∧
    (s.readyF3 a 0x007 w ins → exec (.iabs w) s = .next (s.performed a ins fun i =>
      [.write (on1 (w.md.getLsbD 0) (fun n x =>
        if w.md.getLsbD 1 ∧ x = BitVec.intMin n then BitVec.intMax n else if x.msb then -x else x) (i.val 0))])) ∧
    (s.readyF3 a 0x017 w ins → exec (.iadd3 w) s = .next (s.performed a ins fun i =>
      [.write (on3 (w.md.getLsbD 0) (fun _ x y z => x + y + z) (i.val 0) (i.val 1) (i.val 2))]))

/-- R153, R154: AND, OR, XOR, ANDN, SHL, SHR, SAR and ROT complete with the result of the table, with .mask and .right. -/
def Obligations.LogicAndShifts : Prop :=
  ∀ (s : State) (a : Act) (w : F3) (ins : List LaneIn),
    (s.readyF3 a 0x008 w ins → exec (.and w) s = .next (s.performed a ins fun i =>
      [.write (on2 (w.md.getLsbD 0) (fun _ x y => x &&& y) (i.val 0) (i.val 1))])) ∧
    (s.readyF3 a 0x009 w ins → exec (.or w) s = .next (s.performed a ins fun i =>
      [.write (on2 (w.md.getLsbD 0) (fun _ x y => x ||| y) (i.val 0) (i.val 1))])) ∧
    (s.readyF3 a 0x00A w ins → exec (.xor w) s = .next (s.performed a ins fun i =>
      [.write (on2 (w.md.getLsbD 0) (fun _ x y => x ^^^ y) (i.val 0) (i.val 1))])) ∧
    (s.readyF3 a 0x00B w ins → exec (.andn w) s = .next (s.performed a ins fun i =>
      [.write (on2 (w.md.getLsbD 0) (fun _ x y => x &&& ~~~y) (i.val 0) (i.val 1))])) ∧
    (s.readyF3 a 0x00C w ins → exec (.shl w) s = .next (s.performed a ins fun i =>
      [.write (on1 (w.md.getLsbD 0) (fun n x =>
        x <<< (if w.md.getLsbD 1 then (lo32 (i.val 1)).toNat % n else (lo32 (i.val 1)).toNat)) (i.val 0))])) ∧
    (s.readyF3 a 0x00D w ins → exec (.shr w) s = .next (s.performed a ins fun i =>
      [.write (on1 (w.md.getLsbD 0) (fun n x =>
        x >>> (if w.md.getLsbD 1 then (lo32 (i.val 1)).toNat % n else (lo32 (i.val 1)).toNat)) (i.val 0))])) ∧
    (s.readyF3 a 0x00E w ins → exec (.sar w) s = .next (s.performed a ins fun i =>
      [.write (on1 (w.md.getLsbD 0) (fun n x =>
        x.sshiftRight (if w.md.getLsbD 1 then (lo32 (i.val 1)).toNat % n else (lo32 (i.val 1)).toNat)) (i.val 0))])) ∧
    (s.readyF3 a 0x00F w ins → exec (.rot w) s = .next (s.performed a ins fun i =>
      [.write (on1 (w.md.getLsbD 0) (fun n x =>
        if w.md.getLsbD 1 then x.rotateRight ((lo32 (i.val 1)).toNat % n) else x.rotateLeft ((lo32 (i.val 1)).toNat % n))
        (i.val 0))]))

/-- R153, R155: POPC, CLZ, BREV, BFE and BFI complete with a result that has the table's value (POPC counts the set bits, CLZ
counts the zeros above the highest set bit, BREV mirrors the bits). -/
def Obligations.BitFields : Prop :=
  ∀ (s : State) (a : Act) (w : F3) (ins : List LaneIn),
    (s.readyF3 a 0x010 w ins → exec (.popc w) s = .next (s.performed a ins fun i =>
      [.write [if w.md.getLsbD 0 then BitVec.ofNat 32 ((List.range 64).countP fun k => (lo64 (i.val 0)).getLsbD k)
        else BitVec.ofNat 32 ((List.range 32).countP fun k => (lo32 (i.val 0)).getLsbD k)]])) ∧
    (∃ f : (n : Nat) → BitVec n → Nat,
      (∀ n x, f n x ≤ n ∧ (∀ k, n - f n x ≤ k → k < n → x.getLsbD k = false) ∧ (f n x < n → x.getLsbD (n - 1 - f n x) = true)) ∧
      (s.readyF3 a 0x011 w ins → exec (.clz w) s = .next (s.performed a ins fun i =>
        [.write [BitVec.ofNat 32 (if w.md.getLsbD 0 then f 64 (lo64 (i.val 0)) else f 32 (lo32 (i.val 0)))]]))) ∧
    (s.readyF3 a 0x012 w ins → exec (.brev w) s = .next (s.performed a ins fun i =>
      [.write (on1 (w.md.getLsbD 0) (fun _ x => x.reverse) (i.val 0))])) ∧
    (s.readyF3 a 0x013 w ins → exec (.bfe w) s = .next (s.performed a ins fun i =>
      let q := min ((lo32 (i.val 1)).extractLsb' 0 8).toNat 32
      let n := min ((lo32 (i.val 1)).extractLsb' 8 8).toNat 32
      let f := ((lo32 (i.val 0)) >>> q).setWidth n
      [.write [if w.md.getLsbD 2 then f.signExtend 32 else f.setWidth 32]])) ∧
    (s.readyF3 a 0x014 w ins → exec (.bfi w) s = .next (s.performed a ins fun i =>
      let q := min ((lo32 (i.val 2)).extractLsb' 0 8).toNat 32
      let n := min ((lo32 (i.val 2)).extractLsb' 8 8).toNat 32
      let m : Word32 := ((BitVec.allOnes n).setWidth 32) <<< q
      [.write [(lo32 (i.val 0) &&& ~~~m) ||| ((lo32 (i.val 1) <<< q) &&& m)]]))

/-- R135, R136, R156, R168: MOV, SEL, LEA and the X immediates MOVI, MOVH, IADDI, ANDI, ORI, XORI and FADDI complete with their
results; MOVH writes the register after the one that D names. -/
def Obligations.MovesAndImmediates : Prop :=
  (∀ (s : State) (a : Act) (w : F3) (ins : List LaneIn),
    (s.readyF3 a 0x016 w ins → exec (.mov w) s = .next (s.performed a ins fun i => [.write (i.val 0)])) ∧
    (s.readyF3 a 0x015 w ins → exec (.sel w) s = .next (s.performed a ins fun i =>
      let p := match a.lane? i.lane with | some th => th.pred (mdField w.md 2 0) | none => false
      [.write (if p ≠ w.md.getLsbD 3 then i.val 0 else i.val 1)])) ∧
    (s.readyF3 a 0x018 w ins → exec (.lea w) s = .next (s.performed a ins fun i =>
      let x := lo64 (i.val 0)
      let b : Word64 := if w.md.getLsbD 3 then (lo32 (i.val 1)).setWidth 64 else (lo32 (i.val 1)).signExtend 64
      let y := x + (b <<< mdField w.md 2 0)
      [.write (words64 (if w.md.getLsbD 4 then x.extractLsb' 40 24 ++ y.extractLsb' 0 40 else y))]))) ∧
  (∀ (s : State) (a : Act) (w : XW) (ins : List LaneIn),
    (s.readyX a 0 w ins → exec (.movi w) s = .next (s.performed a ins fun _ => [.write [w.imm]])) ∧
    (s.readyX a 1 w ins → exec (.movh w) s = .next (s.performed a ins fun _ => [.write [w.imm]]) ∧
      xAcc 1 w = [{ code := w.d + 1, n := 1, kw := true, lu := false, nb := 0, write := true }]) ∧
    (s.readyX a 2 w ins → exec (.iaddi w) s = .next (s.performed a ins fun i => [.write [lo32 (i.val 0) + w.imm]])) ∧
    (s.readyX a 3 w ins → exec (.andi w) s = .next (s.performed a ins fun i => [.write [lo32 (i.val 0) &&& w.imm]])) ∧
    (s.readyX a 4 w ins → exec (.ori w) s = .next (s.performed a ins fun i => [.write [lo32 (i.val 0) ||| w.imm]])) ∧
    (s.readyX a 5 w ins → exec (.xori w) s = .next (s.performed a ins fun i => [.write [lo32 (i.val 0) ^^^ w.imm]])) ∧
    (s.readyX a 7 w ins → exec (.faddi w) s = .next (s.performed a ins fun i =>
      [.write [BitVec.ofNat 32 (fp32.add .rn false (fp32.read (lo32 (i.val 0)).toNat) (fp32.read w.imm.toNat))]])))

/-- R157: IDIV and IREM complete, and their results are pending: the quotient toward zero and the remainder of the sign of A,
all ones and A for a zero divisor, A and 0 for the most negative value by minus one, and read as unsigned with .u; neither traps
on a value. A temporary as D fails the leg check with BAD_OPERAND_CODE. -/
def Obligations.Division : Prop :=
  (∀ (al : Allot) (pend : List Touch) (first : Bool) (op : Nat) (w : F3), op ∈ [0x019, 0x01A] →
    0xC0 ≤ w.d.toNat → w.d.toNat ≤ 0xC5 → ∃ f ∈ f3Fails al pend first op w, f.cause = .badOperandCode) ∧
  ∀ (s : State) (a : Act) (w : F3) (ins : List LaneIn),
    (s.readyF3 a 0x019 w ins → exec (.idiv w) s = .next (s.performed a ins fun i =>
      [.long (on2 (w.md.getLsbD 0) (fun n x y =>
        if y = 0 then BitVec.allOnes n else if w.md.getLsbD 2 then x.udiv y else x.sdiv y) (i.val 0) (i.val 1))])) ∧
    (s.readyF3 a 0x01A w ins → exec (.irem w) s = .next (s.performed a ins fun i =>
      [.long (on2 (w.md.getLsbD 0) (fun _ x y =>
        if y = 0 then x else if w.md.getLsbD 2 then x.umod y else x.srem y) (i.val 0) (i.val 1))]))

/-! ### Compares and predicates -/

/-- R144-R147: ICMP, UCMP, FCMP and ICMPI complete with both predicates of every thread whose guard passes by the table of
combining types, and .setz clears both predicates of the others. -/
def Obligations.Compares : Prop :=
  (∀ (s : State) (a : Act) (w : F3) (ins : List LaneIn),
    (s.readyF3 a 0x040 w ins → exec (.icmp w) s = .next (s.performedOps a
      [compareOp a ins (mdField w.d 7 4) (mdField w.d 3 0) (mdField w.md 2 0) fun i =>
        if w.md.getLsbD 7 then intHolds true (mdField w.md 6 3) (lo64 (i.val 0)) (lo64 (i.val 1))
        else intHolds true (mdField w.md 6 3) (lo32 (i.val 0)) (lo32 (i.val 1))])) ∧
    (s.readyF3 a 0x041 w ins → exec (.ucmp w) s = .next (s.performedOps a
      [compareOp a ins (mdField w.d 7 4) (mdField w.d 3 0) (mdField w.md 2 0) fun i =>
        if w.md.getLsbD 7 then intHolds false (mdField w.md 6 3) (lo64 (i.val 0)) (lo64 (i.val 1))
        else intHolds false (mdField w.md 6 3) (lo32 (i.val 0)) (lo32 (i.val 1))])) ∧
    (s.readyF3 a 0x042 w ins → exec (.fcmp w) s = .next (s.performedOps a
      [compareOp a ins (mdField w.d 7 4) (mdField w.d 3 0) (mdField w.md 2 0) fun i =>
        fpHolds (mdField w.md 6 3) (w.md.getLsbD 7) (lo32 (i.val 0)) (lo32 (i.val 1))]))) ∧
  (∀ (s : State) (a : Act) (w : XW) (ins : List LaneIn),
    s.readyX a 6 w ins → exec (.icmpi w) s = .next (s.performedOps a
      [compareOp a ins (mdField w.d 7 4) (mdField w.d 3 0) (w.imm.extractLsb' 4 3).toNat fun i =>
        intHolds (!w.imm.getLsbD 11) (w.imm.extractLsb' 7 4).toNat (lo32 (i.val 0)) ((w.imm.extractLsb' 12 20).signExtend 32)]))

/-- R148, R149: PLOP, PMOV.get and PMOV.set complete: the truth table's bit and its inverse into p1 and p2, in that order, the
predicates with p7 as 1 into D, and the masked predicates from A. A thread whose guard fails writes nothing. A PLOP field that
is no predicate number, or a last-use bit, keep-wait bit or neighbour select of PLOP, and a modifier of PMOV.get other than 0,
fail the leg check with RESERVED_FIELD. -/
def Obligations.PredicateMoves : Prop :=
  (∀ (al : Allot) (pend : List Touch) (first : Bool) (w : F3),
    let reserved (op : Nat) : Prop := ∃ f ∈ f3Fails al pend first op w, f.cause = .reservedField
    (7 < w.a.toNat ∨ 7 < w.b.toNat ∨ 7 < w.c.toNat ∨ 7 < mdField w.d 7 4 ∨ 7 < mdField w.d 3 0 ∨ w.lu ≠ 0 ∨ w.kw ≠ 0 ∨ w.ns ≠ 0 →
      reserved 0x043) ∧
    (w.md.getLsbD 0 = false → w.md ≠ 0 → reserved 0x044) ∧
    (w.b ≠ 0xF0 ∨ w.c ≠ 0xF0 ∨ (w.md.getLsbD 0 = false ∧ w.a ≠ 0xF0) ∨ (w.md.getLsbD 0 = true ∧ w.d ≠ 0xF0) → reserved 0x044)) ∧
  ∀ (s : State) (a : Act) (w : F3) (ins : List LaneIn),
    (s.readyF3 a 0x043 w ins → exec (.plop w) s = .next (s.performed a ins fun i =>
      match a.lane? i.lane with
      | some th =>
        let f := w.md.getLsbD (4 * (th.pred w.a.toNat).toNat + 2 * (th.pred w.b.toNat).toNat + (th.pred w.c.toNat).toNat)
        [.preds (packPreds fun k => if k = mdField w.d 3 0 then !f else if k = mdField w.d 7 4 then f else th.p.getLsbD k)]
      | none => [])) ∧
    (s.readyF3 a 0x044 w ins → w.md.getLsbD 0 = false → exec (.pmovGet w) s = .next (s.performed a ins fun i =>
      match a.lane? i.lane with
      | some th => [.write [(0 : BitVec 24) ++ (1 : BitVec 1) ++ th.p]]
      | none => [])) ∧
    (s.readyF3 a 0x044 w ins → w.md.getLsbD 0 = true → exec (.pmovSet w) s = .next (s.performed a ins fun i =>
      match a.lane? i.lane with
      | some th => [.preds (packPreds fun k => if w.md.getLsbD (k + 1) then (lo32 (i.val 0)).getLsbD k else th.p.getLsbD k)]
      | none => []))

/-! ### P2 words -/

/-- R30, R169: a P2 word of every pair of ops completes: both halves read under their own guards, then both take effect, each as
its full form with modifier 0. -/
def Obligations.PairWords : Prop :=
  ∀ (s : State) (a : Act) (o : P2Op) (w : P2W) (hi lo : List LaneIn), s.act = some a →
    s.ready a a.grp.lanes (fun th => decide (o ≠ .nop) && th.guardP2 w.hi.g) (p2Acc o w.hi) hi →
    s.ready a a.grp.lanes (fun th => decide (w.lop ≠ .nop) && th.guardP2 w.lo.g) (p2Acc w.lop w.lo) lo →
    exec (p2Instr o w) s = .next (s.performedOps a
      [{ ins := hi, eff := halfEffect a o w.hi, els := fun _ => [] },
       { ins := lo, eff := halfEffect a w.lop w.lo, els := fun _ => [] }])

/-! ### Floating-point instructions -/

/-- R158-R160, R162: FADD, FSUB, FMUL, FFMA, FMIN, FMAX, FRND and FCLS complete with each element computed alone from its sources,
negated and flushed as the modifier says. -/
def Obligations.FloatingPoint : Prop :=
  ∀ (s : State) (a : Act) (w : F3) (ins : List LaneIn),
    let f := fpFormat w.md
    let md := fpMode w.md
    let fz := w.md.getLsbD 4
    let src (neg j k : Nat) (i : LaneIn) : FVal := fpSource w.md neg k (i.val j)
    (s.readyF3 a 0x080 w ins → exec (.fadd w) s = .next (s.performed a ins fun i =>
      [.write (fpResult w.md fun k => f.add md fz (src 5 0 k i) (src 6 1 k i))])) ∧
    (s.readyF3 a 0x081 w ins → exec (.fsub w) s = .next (s.performed a ins fun i =>
      [.write (fpResult w.md fun k => f.add md fz (src 5 0 k i) (src 6 1 k i).neg)])) ∧
    (s.readyF3 a 0x082 w ins → exec (.fmul w) s = .next (s.performed a ins fun i =>
      [.write (fpResult w.md fun k => f.mul md fz (src 5 0 k i) (src 6 1 k i))])) ∧
    (s.readyF3 a 0x083 w ins → exec (.ffma w) s = .next (s.performed a ins fun i =>
      [.write (fpResult w.md fun k => f.fma md fz (src 5 0 k i) (src 6 1 k i) (src 7 2 k i))])) ∧
    (s.readyF3 a 0x084 w ins → exec (.fmin w) s = .next (s.performed a ins fun i =>
      [.write (fpResult w.md fun k => f.minmax false (src 5 0 k i) (src 6 1 k i))])) ∧
    (s.readyF3 a 0x085 w ins → exec (.fmax w) s = .next (s.performed a ins fun i =>
      [.write (fpResult w.md fun k => f.minmax true (src 5 0 k i) (src 6 1 k i))])) ∧
    (s.readyF3 a 0x08D w ins → exec (.frnd w) s = .next (s.performed a ins fun i =>
      [.write (fpResult w.md fun k => f.rint md fz (src 5 0 k i))])) ∧
    (s.readyF3 a 0x08F w ins → exec (.fcls w) s = .next (s.performed a ins fun i =>
      [.write (fpResult w.md fun k => f.classMask (fpBits w.md k (i.val 0)))]))

/-- R158, R159, R161, R40: FRCP, FRSQ, FSQRT, FEX2, FLG2, FSIN, FCOS and FDIV complete with pending results, each element
computed alone. R161: the special inputs of FRCP, FRSQ, FEX2, FLG2, FSIN and FCOS, in every format and with or without .fz. A
result that two rounding steps bound is the model's interval (log 15). -/
def Obligations.SpecialFunctions : Prop :=
  (∀ (s : State) (a : Act) (w : F3) (ins : List LaneIn),
    let f := fpFormat w.md
    let fz := w.md.getLsbD 4
    let src (neg j k : Nat) (i : LaneIn) : FVal := fpSource w.md neg k (i.val j)
    (s.readyF3 a 0x086 w ins → exec (.frcp w) s = .next (s.performed a ins fun i =>
      [.long (fpResult w.md fun k => f.rcp fz (src 5 0 k i))])) ∧
    (s.readyF3 a 0x087 w ins → exec (.frsq w) s = .next (s.performed a ins fun i =>
      [.long (fpResult w.md fun k => f.rsq fz (src 5 0 k i))])) ∧
    (s.readyF3 a 0x088 w ins → exec (.fsqrt w) s = .next (s.performed a ins fun i =>
      [.long (fpResult w.md fun k => f.sqrt (fpMode w.md) fz (src 5 0 k i))])) ∧
    (s.readyF3 a 0x089 w ins → exec (.fex2 w) s = .next (s.performed a ins fun i =>
      [.long (fpResult w.md fun k => f.ex2 fz (src 5 0 k i))])) ∧
    (s.readyF3 a 0x08A w ins → exec (.flg2 w) s = .next (s.performed a ins fun i =>
      [.long (fpResult w.md fun k => f.lg2 fz (src 5 0 k i))])) ∧
    (s.readyF3 a 0x08B w ins → exec (.fsin w) s = .next (s.performed a ins fun i =>
      [.long (fpResult w.md fun k => f.sin fz (src 5 0 k i))])) ∧
    (s.readyF3 a 0x08C w ins → exec (.fcos w) s = .next (s.performed a ins fun i =>
      [.long (fpResult w.md fun k => f.cos fz (src 5 0 k i))])) ∧
    (s.readyF3 a 0x08E w ins → exec (.fdiv w) s = .next (s.performed a ins fun i =>
      [.long (fpResult w.md fun k => f.div (fpMode w.md) fz (src 5 0 k i) (src 6 1 k i))]))) ∧
  (∀ f ∈ [fp32, fp16, bf16], ∀ fz : Bool,
    (∀ s, f.rcp fz (f.read (f.zero s)) = f.inf s ∧ f.rcp fz (f.read (f.inf s)) = f.zero s) ∧
    (∀ s, f.rsq fz (f.read (f.zero s)) = f.inf s) ∧ f.rsq fz (f.read (f.inf false)) = f.zero false ∧
    (∀ s, f.ex2 fz (f.read (f.zero s)) = f.pack false (f.maxField / 2) 0 ∧
      f.cos fz (f.read (f.zero s)) = f.pack false (f.maxField / 2) 0) ∧
    f.ex2 fz (f.read (f.inf false)) = f.inf false ∧ f.ex2 fz (f.read (f.inf true)) = f.zero false ∧
    (∀ s, f.lg2 fz (f.read (f.zero s)) = f.inf true) ∧ f.lg2 fz (f.read (f.inf false)) = f.inf false ∧
    (∀ s, f.sin fz (f.read (f.zero s)) = f.zero s) ∧
    (∀ s, f.sin fz (f.read (f.inf s)) = f.nan ∧ f.cos fz (f.read (f.inf s)) = f.nan) ∧
    (∀ m e, m ≠ 0 → f.rsq fz (.fin true m e) = f.nan ∧ f.lg2 fz (.fin true m e) = f.nan) ∧
    f.rsq fz (f.read (f.inf true)) = f.nan ∧ f.lg2 fz (f.read (f.inf true)) = f.nan ∧
    (∀ g ∈ [Ieee.rcp f fz, Ieee.rsq f fz, Ieee.ex2 f fz, Ieee.lg2 f fz, Ieee.sin f fz, Ieee.cos f fz], g .nan = f.nan))

/-- R163-R166: CVT, PACK, UNPK, PSCL and PRMT complete with their results. -/
def Obligations.ConvertAndPack : Prop :=
  ∀ (s : State) (a : Act) (w : F3) (ins : List LaneIn),
    (s.readyF3 a 0x0C0 w ins → exec (.cvt w) s = .next (s.performed a ins fun i =>
      let dst := mdField w.md 3 0
      let src := mdField w.md 7 4
      let code := (lo32 (i.val 0)).toNat / 2 ^ (mdField w.c 6 4 * fmtBits src) % 2 ^ fmtBits src
      let x := readElem src code
      let x := if w.c.getLsbD 2 && decide (src ≤ 2) && (fmtIeee src).subnormal x then .fin x.sign 0 0 else x
      let y := if w.c.getLsbD 3 then ofSigned (fmtBits dst) (toSigned (fmtBits src) code)
        else cvt dst (Rnd.ofBits (w.c.extractLsb' 0 2)) (w.c.getLsbD 2) x
      [.write [BitVec.ofNat 32 (placeElem dst y)]])) ∧
    (s.readyF3 a 0x0C1 w ins → exec (.pack w) s = .next (s.performed a ins fun i =>
      let n := fmtBits (mdField w.md 3 0)
      let k := mdField w.md 6 4
      let m : Word32 := ((BitVec.allOnes n).setWidth 32) <<< (n * k)
      [.write [(lo32 (i.val 1) &&& ~~~m) ||| ((lo32 (i.val 0) <<< (n * k)) &&& m)]])) ∧
    (s.readyF3 a 0x0C2 w ins → exec (.unpk w) s = .next (s.performed a ins fun i =>
      let c := mdField w.md 3 0
      let code := (lo32 (i.val 0)).toNat / 2 ^ (mdField w.md 6 4 * fmtBits c) % 2 ^ fmtBits c
      [.write [BitVec.ofNat 32 (if w.md.getLsbD 7 then code
        else if c ≤ 5 ∨ c = 11 then cvt 0 .rn false (readElem c code) else cvt 8 .rn false (readElem c code))]])) ∧
    (s.readyF3 a 0x0C8 w ins → exec (.pscl w) s = .next (s.performed a ins fun i =>
      let f := fpFormat w.md
      [.write (fpResult w.md fun k => f.write (fpMode w.md) (w.md.getLsbD 4)
        (match fpSource (w.md &&& 0x1F) 5 k (i.val 0), readElem 11 ((lo32 (i.val 1)).extractLsb' 0 8).toNat with
          | .fin neg m x, .fin _ n y => .fin neg (m * n) (x + y)
          | x, _ => x))])) ∧
    (s.readyF3 a 0x0C9 w ins → exec (.prmt w) s = .next (s.performed a ins fun i =>
      let x : Word64 := lo32 (i.val 1) ++ lo32 (i.val 0)
      let byte (j : Nat) : Byte :=
        let q := ((lo32 (i.val 2)).extractLsb' (4 * j) 4).toNat
        let y := x.extractLsb' (8 * (q % 8)) 8
        if q ≥ 8 then (if y.msb then 0xFF else 0) else y
      [.write [byte 3 ++ byte 2 ++ byte 1 ++ byte 0]]))

/-- R88, R89, R167: DP4I, DP8I, DP4F, DP8F and DP2B complete: an exact integer sum, wrapped or saturated, and an exact sum of
products and C that is rounded once. -/
def Obligations.DotProducts : Prop :=
  ∀ (s : State) (a : Act) (w : F3) (ins : List LaneIn),
    let int (ca cb n : Nat) (i : LaneIn) : List Eff :=
      let el (c j k : Nat) : Int :=
        if c = 10 then ((lo32 (i.val j)).extractLsb' (8 * k) 8).toInt
        else if c = 6 then max (-127) ((lo32 (i.val j)).extractLsb' (8 * k) 8).toInt
        else max (-7) ((lo32 (i.val j)).extractLsb' (4 * k) 4).toInt
      let x := ((List.range n).map fun k => el ca 0 k * el cb 1 k).sum + (lo32 (i.val 2)).toInt
      [.write [BitVec.ofInt 32 (if w.md.getLsbD 2 then max (-2 ^ 31) (min x (2 ^ 31 - 1)) else x)]]
    let fp (ca cb n : Nat) (flush : Bool) (i : LaneIn) : List Eff :=
      let z (x : FVal) (f : Ieee) : FVal := if w.md.getLsbD 4 && f.subnormal x then .fin x.sign 0 0 else x
      let el (c j k : Nat) : FVal :=
        let x := readElem c ((lo32 (i.val j)).toNat / 2 ^ (k * fmtBits c) % 2 ^ fmtBits c)
        if flush then z x (fmtIeee c) else x
      [.write [BitVec.ofNat 32 (dotSum (fpMode w.md) (w.md.getLsbD 4) ((List.range n).map fun k => (el ca 0 k, el cb 1 k))
        (z (fp32.read (lo32 (i.val 2)).toNat) fp32))]]
    (s.readyF3 a 0x0C3 w ins → exec (.dp4i w) s = .next (s.performed a ins
      (int (if w.md.getLsbD 0 then 6 else 10) (if w.md.getLsbD 1 then 6 else 10) 4))) ∧
    (s.readyF3 a 0x0C4 w ins → exec (.dp8i w) s = .next (s.performed a ins (int 7 7 8))) ∧
    (s.readyF3 a 0x0C5 w ins → exec (.dp4f w) s = .next (s.performed a ins
      (fp (if w.md.getLsbD 0 then 4 else 3) (if w.md.getLsbD 1 then 4 else 3) 4 false))) ∧
    (s.readyF3 a 0x0C6 w ins → exec (.dp8f w) s = .next (s.performed a ins (fp 5 5 8 false))) ∧
    (s.readyF3 a 0x0C7 w ins → exec (.dp2b w) s = .next (s.performed a ins
      (fp (if w.md.getLsbD 0 then 1 else 2) (if w.md.getLsbD 0 then 1 else 2) 2 true)))

/-! ### Directions -/

/-- R176, R178-R183: the direction instructions complete. DFROM, DADD, DSUB, DMIX, DNRM and DPROJ leave their direction pending,
DSCL and DMOV write it at once, DSETN writes the norm entry alone, and DTO, DCOS and DDOT write registers; a result of InvalidCode
by a range sets DIRRANGE. -/
def Obligations.Directions : Prop :=
  ∀ (s : State) (a : Act) (w : F3) (ins : List LaneIn),
    let d (k : Nat) (i : LaneIn) : Dirn := Dirn.ofWords (2 ^ mdField w.md 1 0) (i.val k)
    let flag (r : DirRes) : List Eff := if r.range then [.dirRange] else []
    let long (r : DirRes) : List Eff := flag r ++ [.dirLong (codesWords r.codes) r.norm]
    let now (r : DirRes) : List Eff := flag r ++ [.dir (codesWords r.codes) r.norm]
    (s.readyF3 a 0x100 w ins → exec (.dfrom w) s = .next (s.performed a ins fun i => long (dirFrom (i.val 0)))) ∧
    (s.readyF3 a 0x101 w ins → exec (.dto w) s = .next (s.performed a ins fun i =>
      [.write (if w.md.getLsbD 3 then [(d 0 i).norm.signExtend 32]
        else (d 0 i).vals.map fun v =>
          if (d 0 i).norm = 0x7FFF then BitVec.ofNat 32 fp32.nan
          else if w.md.getLsbD 2 then BitVec.ofNat 32 (fp32.roundDyad .rn false false v)
          else scaledFp32 v (d 0 i).norm.toInt)])) ∧
    (s.readyF3 a 0x102 w ins → exec (.dadd w) s = .next (s.performed a ins fun i => long (dirAdd false (d 0 i) (d 1 i)))) ∧
    (s.readyF3 a 0x103 w ins → exec (.dsub w) s = .next (s.performed a ins fun i => long (dirAdd true (d 0 i) (d 1 i)))) ∧
    (s.readyF3 a 0x104 w ins → exec (.dmix w) s = .next (s.performed a ins fun i =>
      long (dirMix (d 0 i) (d 1 i) (lo32 (i.val 2))))) ∧
    (s.readyF3 a 0x105 w ins → exec (.dcos w) s = .next (s.performed a ins fun i =>
      [.write [dirCos (w.md.getLsbD 2) (d 0 i) (d 1 i)]])) ∧
    (s.readyF3 a 0x106 w ins → exec (.ddot w) s = .next (s.performed a ins fun i =>
      [.write [if (d 0 i).norm = 0x7FFF ∨ (d 1 i).norm = 0x7FFF then BitVec.ofNat 32 fp32.nan
        else scaledFp32 { m := ((d 0 i).codes.zip (d 1 i).codes).foldl (fun x p => x + p.1 * p.2) 0, e := -28 }
          ((d 0 i).norm.toInt + (d 1 i).norm.toInt)]])) ∧
    (s.readyF3 a 0x107 w ins → exec (.dscl w) s = .next (s.performed a ins fun i =>
      now (dirScale (w.md.getLsbD 2) (d 0 i) (lo32 (i.val 1))))) ∧
    (s.readyF3 a 0x108 w ins → exec (.dnrm w) s = .next (s.performed a ins fun i => long (dirNorm (d 0 i)))) ∧
    (s.readyF3 a 0x109 w ins → exec (.dsetn w) s = .next (s.performed a ins fun i =>
      [.norm ((lo32 (i.val 0)).extractLsb' 0 16)])) ∧
    (s.readyF3 a 0x10A w ins → exec (.dproj w) s = .next (s.performed a ins fun i =>
      long (dirProj (w.md.getLsbD 2) (d 0 i) (d 1 i)))) ∧
    (s.readyF3 a 0x10B w ins → exec (.dmov w) s = .next (s.performed a ins fun i =>
      [.dir (codesWords (if w.md.getLsbD 2 then (d 0 i).stored.map fun k => min (-k) 32767 else (d 0 i).stored)) (d 0 i).norm]))

/-! ### Index registers and RKILL -/

/-- R129, R137, R138, R141: IXSET, IXGET, IXSTEP, IXSTEP.by, IXCUR and RKILL complete on the values that they accept. That IXGET
gives the register as it stands before the step of an access by its own D is the model's choice (log 73). -/
def Obligations.IndexRegisters : Prop :=
  ∀ (s : State) (a : Act) (w : F3) (ins : List LaneIn),
    let n := mdField w.md 2 0
    let x (i : LaneIn) : Word32 := i.ix.getD n 0
    let byte (v : Word32) (k : Nat) : Nat := (v.extractLsb' (8 * k) 8).toNat
    let mode (v : Word32) : Nat := (v.extractLsb' 29 2).toNat
    let moved (v : Word32) (k : Int) : Nat :=
      let y := (byte v 2 : Int) + k
      if mode v = 0 then (y % 256).toNat
      else if mode v = 1 then (y % (byte v 1 : Int)).toNat
      else (max 0 (min y ((byte v 1 : Int) - 1))).toNat
    let cursor (v : Word32) (c : Nat) : Word32 := v.extractLsb' 24 8 ++ BitVec.ofNat 8 c ++ v.extractLsb' 0 16
    (s.readyF3 a 0x140 w ins →
      (∀ i ∈ ins, ∀ th, a.lane? i.lane = some th →
        let v := lo32 (i.val 0)
        v.msb = false ∧ mode v ≠ 3 ∧ 1 ≤ byte v 1 ∧ byte v 1 ≤ 192 ∧ byte v 0 + byte v 1 ≤ th.v.length) →
      exec (.ixset w) s = .next (s.performed a ins fun i => [.ix n (lo32 (i.val 0))])) ∧
    (s.readyF3 a 0x141 w ins → exec (.ixget w) s = .next (s.performed a ins fun i =>
      match a.lane? i.lane with
      | some th => [.write [th.ix.getD n 0]]
      | none => [])) ∧
    (s.readyF3 a 0x142 w ins → (∀ i ∈ ins, byte (x i) 1 ≠ 0 ∨ mode (x i) = 0) →
      exec (.ixstep w) s = .next (s.performed a ins fun i =>
        [.ix n (cursor (x i) (moved (x i) ((x i).extractLsb' 24 5).toInt))])) ∧
    (s.readyF3 a 0x142 w ins → (∀ i ∈ ins, byte (x i) 1 ≠ 0 ∨ mode (x i) = 0) →
      exec (.ixstepBy w) s = .next (s.performed a ins fun i =>
        [.ix n (cursor (x i) (moved (x i) (lo32 (i.val 0)).toInt))])) ∧
    (s.readyF3 a 0x143 w ins → (∀ i ∈ ins, lo32 (i.val 0) < 256) →
      exec (.ixcur w) s = .next (s.performed a ins fun i => [.ix n (cursor (x i) (lo32 (i.val 0)).toNat)])) ∧
    (s.readyF3 a 0x144 w ins → exec (.rkill w) s = .next (s.performed a ins fun i =>
      if w.a.toNat < 0xC0 then [.kill w.a.toNat w.md.toNat]
      else match a.lane? i.lane with
        | some th => [.kill (byte (th.ix.getD (w.a.toNat % 8) 0) 0) (byte (th.ix.getD (w.a.toNat % 8) 0) 1)]
        | none => []))

/-! ### Masks and meeting -/

/-- R107-R111: MJOIN, MLEAVE, MSET, MGET, MEET and MEETR complete; the masks and meeting registers that they change are tested
at once (`settleTeam`). MEETR names the word after the trailer of its leg plus its offset. R111: MWAIT completes at once for a
group none of whose guards pass; else the group is held at its MWAIT, and when every member of the mask waits on it, every group
held at an MWAIT on that mask moves past it in the same clock. R107: the test of a team releases the threads held at a meeting
address exactly when every other thread that names it is held there or has exited: they stand ready at their leg starts, with no
meeting address; every other thread stays as it is. That a lane whose guard fails does not wait at an MWAIT is the model's
reading (log 35). -/
def Obligations.MasksAndMeeting : Prop :=
  (∀ (s : State) (a : Act) (w : F3) (ins : List LaneIn),
    let n := mdField w.md 3 0
    (s.readyF3 a 0x1C0 w ins → exec (.mjoin w) s = .next ((s.performed a ins fun _ => [.join n]).settleTeam a.key)) ∧
    (s.readyF3 a 0x1C1 w ins → exec (.mleave w) s = .next ((s.performed a ins fun _ => [.leave n]).settleTeam a.key)) ∧
    (s.readyF3 a 0x1C3 w ins → exec (.mset w) s = .next ((s.performed a ins fun i =>
      [.mask n (lo64 (i.val 0))]).settleTeam a.key)) ∧
    (s.readyF3 a 0x1C4 w ins → exec (.mget w) s = .next (s.performed a ins fun _ =>
      [.write (words64 (a.team.m.getD n 0))])) ∧
    (s.readyF3 a 0x1C5 w ins → (∀ i ∈ ins, (lo64 (i.val 0)).extractLsb' 0 3 = 0) →
      exec (.meet w) s = .next ((s.performed a ins fun i => [.mt (lo64 (i.val 0))]).settleTeam a.key)) ∧
    (s.readyF3 a 0x1C6 w ins → exec (.meetr w) s = .next ((s.performed a ins fun _ =>
      [.mt (a.grp.start + BitVec.ofNat 64 (8 * a.grp.leg.length) + BitVec.ofInt 64 (8 * (w.b ++ w.c : BitVec 16).toInt))]).settleTeam
        a.key))) ∧
  (∀ (s : State) (a : Act) (w : F3), s.act = some a → unpackF3 a.word = w →
    (∀ t' ∈ a.team.threads, t'.stat ≠ .meet) →
    let n := mdField w.md 3 0
    let wait := laneMask ((laneList a.grp.lanes).filter fun l => a.passes (fun th => th.guard w.gs w.gp) l)
    (wait = 0 → exec (.mwait w) s = .next (s.advance a)) ∧
    (wait ≠ 0 → n < 12 →
      (∀ (j : Nat) (g : Group) (k : Nat), a.team.groups[j]? = some g → j ≠ a.g → g.hold = .mwait k → k = n) →
      let held : List Group := modAt a.team.groups a.g fun g =>
        { g with hold := .mwait n, since := if g.hold = .none then s.clock else g.since }
      let waits (l : Nat) : Prop := ∃ g ∈ held, g.hold = .mwait n ∧ l ∈ laneList g.lanes ∧
        a.passes (fun th => th.guard (unpackF3 (g.leg.getD g.pos 0)).gs (unpackF3 (g.leg.getD g.pos 0)).gp) l = true
      let t (gs : List Group) : State := s.updTeam a.key fun t => { t with groups := gs }
      ((∀ l ∈ laneList (a.team.m.getD n 0), waits l) → exec (.mwait w) s = .next (t (held.map fun g =>
        if g.hold = .mwait n then { g with pos := g.pos + 1, idx := g.idx + 1, hold := .none } else g))) ∧
      ((∃ l ∈ laneList (a.team.m.getD n 0), ¬ waits l) → exec (.mwait w) s = .next (t held)))) ∧
  (∀ (s : State) (key : Nat) (t : Team), tget s.teams key = some t → (∀ g ∈ t.groups, ∀ k, g.hold ≠ .mwait k) →
    ∃ ths, s.settleTeam key = s.updTeam key (fun t => { t with threads := ths }) ∧ ths.length = t.threads.length ∧
      ∀ (l : Nat) (th : Thread), t.threads[l]? = some th → th.stat ≠ .meet ∨ th.mt ≠ 0 →
        ((th.stat = .meet ∧ ∀ o ∈ t.threads, o.mt = th.mt → o.stat = .meet ∨ o.stat = .exited) →
          ths[l]? = some { th with stat := .atLeg, mt := 0, readySince := s.clock }) ∧
        (¬ (th.stat = .meet ∧ ∀ o ∈ t.threads, o.mt = th.mt → o.stat = .meet ∨ o.stat = .exited) → ths[l]? = some th))

/-! ### Cross-lane instructions -/

/-- R112, R113, R115-R119: SHFL, VOTE, LRED and LSCAN complete: at once for the issuing group under %grp, else for every group that is
held at the instruction once every thread that must arrive is in one of them and no lane of them waits for an operand. Every
performing lane's reads come before every result; A is read, waited for and killed by the members that must arrive alone. A lane
that is no such member is read at the perform clock, which is the model's choice (log 60), and so is the order of the two results of
an LSCAN in one register (log 61). -/
def Obligations.CrossLane : Prop :=
  ∀ (s : State) (a : Act) (w : F3) (op : Nat) (mk : F3 → Instr),
    (op, mk) ∈ [(0x180, Instr.shfl), (0x181, Instr.vote), (0x182, Instr.lred), (0x183, Instr.lscan)] →
    s.act = some a → (∀ p q, a.grp.hold ≠ .cross p q) → (∃ g, f3Sig op w = some g ∧ g.bad = false) →
    let n := if op = 0x180 ∧ w.md.getLsbD 6 then 2 else 1
    let fine (t : State) (gs : List Nat) (must : BitVec 64) : Prop :=
      ∀ c ∈ t.crossGather a.key op w gs must, c.got.waits = false ∧ c.got.fault? = none
    let done (t : State) (team : Team) (gs : List Nat) (snap must : BitVec 64) : State :=
      let ls := t.crossGather a.key op w gs must
      t.crossed a.key op gs ls (crossWords op w snap (presentA ls must) (storedA team w.a.toNat n))
    (mdField w.md 3 0 = 13 → fine s [a.g] (a.team.mustArrive a.grp.lanes 0) →
      exec (mk w) s = .next (done s a.team [a.g] a.grp.lanes (a.team.mustArrive a.grp.lanes 0))) ∧
    (mdField w.md 3 0 < 13 → ∀ (snap left : BitVec 64) (t : State) (team : Team),
      a.team.snapshot a.grp.at (mdField w.md 3 0) = (snap, left) →
      (∀ c ∈ s.crossGather a.key op w [a.g] (a.team.mustArrive snap left), c.got.waits = false) →
      t = s.updGroup a.key a.g (fun g => { g with hold := .cross snap left, since := s.clock }) →
      tget t.teams a.key = some team →
      let gs := team.heldAt a.grp.at
      team.snapshot a.grp.at 12 = (snap, left) →
      team.mustArrive snap left &&& ~~~(team.lanesOf gs) = 0 → fine t gs (team.mustArrive snap left) →
      exec (mk w) s = .next (done t team gs snap (team.mustArrive snap left)))

/-! ### Memory instructions -/

/-- R222-R224: LD and LD.co complete when every performing lane's address translates, is readable there and waits behind no
held write and no acquire of its thread: each lane's bytes become its pending result. LD.co reads every lane before any destination is marked. That an
access performs when its instruction issues is the model's (log 5). -/
def Obligations.GlobalLoads : Prop :=
  ∀ (s u t : State) (a : Act) (w : XW) (ins : List LaneIn), s.lanesX a 8 w ins →
    let n := accSize w
    let read (i : LaneIn) (s : State) (r : State × List Byte) : Prop := ∃ s1 x,
      s.translate a.team.agent (globalAddr w i) n n .load = (s1, .ok x) ∧
      s1.coreRead a.team.l1 (dieOf a.team.core) x n (accPolicy w) = (r.1, .ok r.2)
    (LaneChain (fun i lead s t =>
        s.waitsHeld a i.lane (globalAddr w i) n n .load = false ∧ ∃ s1 bs, read i s (s1, bs) ∧
        t = s1.laneResult a i lead (loadedWords n (accSigned w) bs)) (a.lead w.gs w.gp) ins s t →
      exec (.ld w) s = .next (t.advance a)) ∧
    (a.left = a.grp.lanes → (∀ i ∈ ins, s.waitsHeld a i.lane (globalAddr w i) n n .load = false) →
      LaneChain (fun i _ s t => ∃ bs, read i s (t, bs)) (a.lead w.gs w.gp) ins s u →
      LaneChain (fun i lead s t => ∃ s1 bs, read i s (s1, bs) ∧
        t = s1.laneResult a i lead (loadedWords n (accSigned w) bs)) (a.lead w.gs w.gp) ins u t →
      exec (.ldCo w) s = .next (t.advance a))

/-- R222, R223, R225: ST completes when every performing lane's address translates, is writable there and waits behind no held
write: the bytes of its data are written at the translated place (held when the granule moves). PREF completes whatever its
address, and never faults; it changes no home byte but those of dirty bytes that its fills drive out of the core's L1. That an access performs when its instruction issues is the model's (log 5). -/
def Obligations.GlobalStores : Prop :=
  ∀ (s t : State) (a : Act) (w : XW) (ins : List LaneIn),
    let n := accSize w
    (s.lanesX a 9 w ins →
      LaneChain (fun i _ s t =>
        s.waitsHeld a i.lane (globalAddr w i) n n .store = false ∧ ∃ s1 x s2,
          s.translate a.team.agent (globalAddr w i) n n .store = (s1, .ok x) ∧
          s1.writeLane a i.lane (globalAddr w i) x (storedBytes n (i.val 1)) (accPolicy w) = (s2, none) ∧
          t = s2.commitLane a.key i) (a.lead w.gs w.gp) ins s t →
      exec (.st w) s = .next (t.advance a)) ∧
    (s.lanesX a 17 w ins → ∃ u : State, exec (.pref w) s = .next (u.advance a) ∧
      u.held = s.held ∧ u.blocks = s.blocks ∧
      ∀ pa n k, (∀ i, s.dirtyAt a.team.core i → i / 16 ∉ blocksOf pa n) → u.homeRead pa n k = s.homeRead pa n k)

/-- R190, R191, R195, R197: LDS, STS, LDB and STB complete at aligned offsets inside the block's scratchpad window or the
thread's saddlebag. -/
def Obligations.LocalAccesses : Prop :=
  ∀ (s t : State) (a : Act) (w : XW) (ins : List LaneIn),
    let n := accSize w
    let place (i : LaneIn) (s : State) (b o : Nat) : Prop :=
      s.heldAcq a i.lane = false ∧ (localAddr w i).toNat % n = 0 ∧ s.window a.team.block (localAddr w i).toNat n = some (b, o)
    (s.lanesX a 10 w ins → LaneChain (fun i lead s t => ∃ b o blk, place i s b o ∧ tget s.blocks b = some blk ∧
        t = s.laneResult a i lead (loadedWords n (accSigned w) (readBytes blk.scratch o n))) (a.lead w.gs w.gp) ins s t →
      exec (.lds w) s = .next (t.advance a)) ∧
    (s.lanesX a 11 w ins → LaneChain (fun i _ s t => ∃ b o, place i s b o ∧
        t = (s.commitLane a.key i).scratchWrite b o (storedBytes n (i.val 1))) (a.lead w.gs w.gp) ins s t →
      exec (.sts w) s = .next (t.advance a)) ∧
    (s.lanesX a 12 w ins → LaneChain (fun i lead s t => ∃ th, a.lane? i.lane = some th ∧ (localAddr w i).toNat % n = 0 ∧
        (localAddr w i).toNat + n ≤ th.bagBytes ∧
        t = s.laneResult a i lead (loadedWords n (accSigned w) (readBytes th.bag (localAddr w i).toNat n))) (a.lead w.gs w.gp) ins s t →
      exec (.ldb w) s = .next (t.advance a)) ∧
    (s.lanesX a 13 w ins → LaneChain (fun i _ s t => ∃ th, a.lane? i.lane = some th ∧ (localAddr w i).toNat % n = 0 ∧
        (localAddr w i).toNat + n ≤ th.bagBytes ∧
        t = (s.commitLane a.key i).updTeam a.key fun t => t.updThread i.lane fun th =>
          { th with bag := writeBytes th.bag (localAddr w i).toNat (storedBytes n (i.val 1)) }) (a.lead w.gs w.gp) ins s t →
      exec (.stb w) s = .next (t.advance a))

/-- R184-R186: DLD and DST complete when every word of a lane's image translates, waits behind no held write and is readable or
writable: DLD leaves the components and the norm entry pending, DST writes the components as they read and then the norm code. -/
def Obligations.DirectionImages : Prop :=
  ∀ (s t : State) (a : Act) (w : XW) (ins : List LaneIn),
    let k := 8 * 2 ^ (w.imm.extractLsb' 0 2).toNat + 1
    let words (i : LaneIn) (u : Use) (s s1 : State) (xs : List Xl) : Prop :=
      s.xlWords a.team.agent (globalAddr w i) u k = (s1, .ok xs) ∧
        ∀ e ∈ xs.zipIdx, s1.heldBy a i.lane (globalAddr w i + BitVec.ofNat 64 (4 * e.2)) e.1 = false
    (s.lanesX a 14 w ins → LaneChain (fun i lead s t => ∃ s1 xs s2 ws, words i .load s s1 xs ∧
        s1.readWords a (accPolicy w) xs = (s2, .ok ws) ∧
        t = (s2.commitLane a.key i).applyEff a.key i.lane lead i.dest
          (.dirLong (ws.take (k - 1)) ((ws.getD (k - 1) 0).extractLsb' 0 16))) (a.lead w.gs w.gp) ins s t →
      exec (.dld w) s = .next (t.advance a)) ∧
    (s.lanesX a 15 w ins → LaneChain (fun i _ s t => ∃ s1 xs, words i .store s s1 xs ∧
        (∀ x ∈ xs, (s1.busFault (dieOf a.team.core) x 4 true).2 = none) ∧
        let d := Dirn.ofWords (2 ^ (w.imm.extractLsb' 0 2).toNat) (i.val 1)
        t = ((xs.zip (codesWords d.codes ++ [d.norm.setWidth 32])).zipIdx).foldl (fun s e =>
          (s.writeLane a i.lane (globalAddr w i + BitVec.ofNat 64 (4 * e.2)) e.1.1 (storedBytes 4 [e.1.2]) (accPolicy w)).1)
          (s1.commitLane a.key i)) (a.lead w.gs w.gp) ins s t →
      exec (.dst w) s = .next (t.advance a))

/-- R272, R273, R275, R285: SLOTST completes when every performing lane's KiB is in range and in a claimed slot: lane i's 16 bytes
stand at 16 i of its KiB. ACCLD completes with four elements of the hitch's accumulators, row and bank by A plus the immediate. Both
wait for an acquire of their thread that has not performed (R247). -/
def Obligations.OperandSlots : Prop :=
  ∀ (s t : State) (a : Act) (w : XW) (ins : List LaneIn),
    let hitch := hitchOf a.team.core
    let kib (i : LaneIn) : Nat := ((lo32 (i.val 0)).toNat + (w.imm.extractLsb' 0 11).toNat) % 2048
    (s.lanesX a 16 w ins → a.left = a.grp.lanes →
      (∀ i ∈ ins, s.heldAcq a i.lane = false ∧ (lo32 (i.val 0)).toNat < 2048 ∧ s.slotClaimed hitch (kib i / 16) a.team.asid = true) →
      exec (.slotst w) s = .next ((ins.foldl (fun s i => (s.commitLane a.key i).updHitch hitch fun h =>
        { h with mem := writeBytes h.mem (kib i * 1024 + i.lane * 16) (storedBytes 16 (i.val 1)) }) s).advance a)) ∧
    (s.lanesX a 18 w ins → LaneChain (fun i lead s t =>
        let q := ((lo32 (i.val 0)).toNat + (w.imm.extractLsb' 0 9).toNat) % 512
        s.heldAcq a i.lane = false ∧ (lo32 (i.val 0)).toNat < 512 ∧ (s.hitch hitch).asid = some a.team.asid ∧
        t = s.laneResult a i lead ((List.range 4).map fun k => (s.hitch hitch).accAt (q / 256) (q % 256) (4 * i.lane + k)))
        (a.lead w.gs w.gp) ins s t →
      exec (.accld w) s = .next (t.advance a))

/-- R226, R227: LDC and STC complete when no performing lane waits for a coordinate and every lane's coordinates name a run of elements that is in its tensor,
aligned, resident and behind no held write: LDC leaves the run's bits pending in one, two or four registers, STC writes them and
leaves the other bits of a byte that it shares, or is held with its coordinates at a moving granule. -/
def Obligations.CoordinateAccesses : Prop :=
  ∀ (s t : State) (a : Act) (w : F3) (ins : List LaneIn),
    let pol := mdField w.md 6 5
    let run (i : LaneIn) (u : Use) (s s1 : State) (c : CRun) (rank : Nat) : Prop :=
      s.coordRun a (a.thread i.lane) i.lane w (lo64 (i.val 0)) u = (s1, .ok (c, rank)) ∧ s1.heldBy a i.lane c.va c.x = false
    let full (u : Use) : Prop := ∀ i ∈ ins, ∀ v, (s.coordRun a (a.thread i.lane) i.lane w (lo64 (i.val 0)) u).2 ≠ .error (.wait v)
    let commit (s : State) (i : LaneIn) (rank : Nat) : State :=
      s.commitLane a.key { i with kills := i.kills ++ if w.lu.getLsbD 1 then [(.v w.b.toNat, rank)] else [] }
    (s.lanesF3 a 0x300 w ins → full .load → LaneChain (fun i lead s t => ∃ s1 c rank s2 bs, run i .load s s1 c rank ∧
        s1.coreRead a.team.l1 (dieOf a.team.core) c.x c.bytes pol = (s2, .ok bs) ∧
        let x := ofBytes bs / 2 ^ c.bit % 2 ^ c.bits
        t = (commit s2 i rank).pendDst a.key i.lane lead i.dest.1 i.dest.2
          ((List.range (2 ^ mdField w.md 4 3)).map fun k => BitVec.ofNat 32 (x / 2 ^ (32 * k))) .ready) (a.lead w.gs w.gp) ins s t →
      exec (.ldc w) s = .next (t.advance a)) ∧
    (s.lanesF3 a 0x301 w ins → full .store → LaneChain (fun i _ s t => ∃ s1 c rank s2 s3, run i .store s s1 c rank ∧
        s1.busFault (dieOf a.team.core) c.x c.bytes true = (s2, none) ∧
        let data := storedBytes (4 * 2 ^ mdField w.md 4 3) (i.val 1)
        (if c.x.moving then s3 = s2.hold a i.lane c.va c.x 0xF0 fun h => { h with bytes := data, width := c.bytes, coord := some c.coord }
          else if c.bits % 8 = 0 then
            s2.coreWrite a.team.l1 a.key (a.team.tagOf i.lane) (dieOf a.team.core) c.x (data.take (c.bits / 8)) pol = (s3, none)
          else s2.storeBits a i.lane c.x c.bit c.bits (ofBytes data) pol = (s3, none)) ∧
        t = commit s3 i rank) (a.lead w.gs w.gp) ins s t →
      exec (.stc w) s = .next (t.advance a))

/-! ### Atomics, waits, reservations and fences -/

/-- R254, R255, R258: the atomics complete when every performing lane has its place: lane after lane the location takes the new
value of the table, an AADDW that reaches or crosses its threshold wakes the waiters there, and .ret leaves the old value pending. -/
def Obligations.AtomicsComplete : Prop :=
  ∀ (s t : State) (a : Act) (w : F3) (ins : List LaneIn) (opc : Nat) (op : AtomOp) (mk : F3 → Instr),
    (opc, op, mk) ∈ [(0x200, .add, Instr.aadd), (0x201, .min, Instr.amin), (0x202, .max, Instr.amax), (0x203, .and, Instr.aand),
      (0x204, .or, Instr.aor), (0x205, .xor, Instr.axor), (0x206, .exch, Instr.aexch), (0x207, .cas, Instr.acas),
      (0x208, .fadd, Instr.afadd), (0x209, .addw, Instr.aaddw)] →
    let m := if w.md.getLsbD 6 then 64 else 32
    s.lanesF3 a opc w ins →
    LaneChain (fun i lead s t => ∃ s1 sp ordered u ws wt, s.placed a w i (m / 8) .atom (w.md.getLsbD 4) true s1 sp ordered ∧
      s1.atomicAt a w op i lead m ordered sp u ws wt ∧
      t = if w.md.getLsbD 7 then (u.commitLane a.key i).pendDst a.key i.lane lead i.dest.1 i.dest.2 ws wt
          else u.commitLane a.key i) (a.lead w.gs w.gp) ins s t →
    exec (mk w) s = .next (t.advance a)

/-- R257, R259: AWAIT completes when each lane's location satisfies its condition or the lane has been woken: its registration
is withdrawn and .ret writes the value; a destination that its waiting lanes have marked empty does not hold it (`refillGroup`, which
does nothing for lanes without a registration). LRES leaves the value pending and reserves the line of its location; SCND writes its
location and answers 0 when the team's reservation is that line, else answers 1, and clears the reservation. When a held AWAIT
is tested again is the model's order of turns (log 3, log 41). -/
def Obligations.WaitsAndReservations : Prop :=
  ∀ (s t : State) (a : Act) (w : F3) (ins : List LaneIn),
    let m := if w.md.getLsbD 6 then 64 else 32
    let acq (ordered : Bool) : Bool := ordered && w.md.getLsbD 3
    let read (s1 : State) (sp : Spot) (ordered : Bool) (s2 : State) (v : Word64) : Prop :=
      (s1.claimSpot (hitchOf a.team.core) sp).spotRead (dieOf a.team.core) sp (m / 8) = (s2, .ok v) ∧
      (acq ordered = true → s2.faultMark sp (m / 8) = none)
    (s.act = some a → (∀ l ∈ laneList a.grp.lanes, s.watchOf a.key l = none) → s.refillGroup = s) ∧
    (∀ r, r = s.refillGroup → r.lanesF3 a 0x20A w ins → LaneChain (fun i lead s t => ∃ s0 s1 at' sp stands s2 v,
        s.place a.team i.lane (lo64 (i.val 0)) (mdField w.md 2 0) (m / 8) .atomRead = (s0, .ok at') ∧
        s.spotWaits a i.lane (lo64 (i.val 0)) at' false = false ∧
        let order := if (s.watchOf a.key i.lane).isSome then 0 else mdField w.md 4 3
        s0.admitLane a i.lane (lo64 (i.val 0)) at' (m / 8) order true false = (s1, .ok (sp, stands)) ∧
        let ordered := match s.watchOf a.key i.lane with | some x => !x.degraded | none => stands
        let sp := at'.under ordered
        read s1 sp ordered s2 v ∧
        ((∃ x, s.watchOf a.key i.lane = some x ∧ x.woken = true) ∨
          intHolds (w.md.getLsbD 5) w.c.toNat (v.setWidth m) (g8Src m (i.val 1)) = true) ∧
        let u := ((s2.dropWatch a.key i.lane).acquireAt a sp (acq ordered)).commitLane a.key i
        t = if w.md.getLsbD 7 then u.writeDst a.key i.lane lead i.dest.1 (valueWords (v.setWidth m)) else u)
        (a.lead w.gs w.gp) ins r t →
      exec (.await w) s = .next (t.advance a)) ∧
    (s.lanesF3 a 0x20B w ins → LaneChain (fun i lead s t => ∃ s1 sp ordered s2 v,
        s.placed a w i (m / 8) .atomRead false true s1 sp ordered ∧ read s1 sp ordered s2 v ∧
        t = ((s2.updTeam a.key fun t => { t with res := some sp.line }).acquireAt a sp (acq ordered)).laneResult a i lead
          (valueWords (v.setWidth m))) (a.lead w.gs w.gp) ins s t →
      exec (.lres w) s = .next (t.advance a)) ∧
    (s.lanesF3 a 0x20C w ins → LaneChain (fun i lead s t => ∃ s1 sp ordered u f,
        s.placed a w i (m / 8) .atom (w.md.getLsbD 4) false s1 sp ordered ∧ (∀ x e, sp = .glob x e → x.moving = false) ∧
        ((s1.releaseAt a sp (ordered && w.md.getLsbD 4)).claimSpot (hitchOf a.team.core) sp).scndAt (dieOf a.team.core) (some a.key) sp (m / 8) ((g8Src m (i.val 1)).setWidth 64) =
          (u, .ok f) ∧ t = u.laneResult a i lead [f]) (a.lead w.gs w.gp) ins s t →
      exec (.scnd w) s = .next (t.advance a)) ∧
    (∀ (key die blk off n : Nat) (b : Word64) (team : Team), tget s.teams key = some team →
      let clear (s : State) : State := s.updTeam key fun t => { t with res := none }
      (team.res = some (scratchLine blk off) → s.scndAt die (some key) (.scratch blk off) n b =
        (clear (s.scratchWrite blk off (toBytes n b.toNat)), .ok 0)) ∧
      (team.res ≠ some (scratchLine blk off) → s.scndAt die (some key) (.scratch blk off) n b = (clear s, .ok 1)) ∧
      (∀ x e, (team.res = some (x.pa / 128) → (s.busWrite die x (toBytes n b.toNat) false).2 = none →
          s.scndAt die (some key) (.glob x e) n b = (clear (s.busWrite die x (toBytes n b.toNat) false).1, .ok 0)) ∧
        (team.res ≠ some (x.pa / 128) → (s.busFault die x n true).2 = none →
          s.scndAt die (some key) (.glob x e) n b = (clear (s.busFault die x n true).1, .ok 1))))

/-- R260, R261: FENCE and FENCER complete once no write that a release orders, and for an acquire no write at all, is held for
the thread, and no acquire of it is pending: a release writes the team's dirty lines back and an acquire drops the clean bytes,
for a FENCER those of its range alone; .team takes no L1 action and a length of 0 orders nothing. That an acquiring FENCER waits
for every held write of its thread, out of its range too, and writes every dirty line of its team back, is the model's choice (log
68). -/
def Obligations.Fences : Prop :=
  ∀ (s t : State) (a : Act) (w : F3) (ins : List LaneIn),
    let rel := w.md.getLsbD 4
    let acq := w.md.getLsbD 3
    let all (_ : Nat) : Bool := true
    let act (s : State) (back : Bool) (q p : Nat → Bool) : State :=
      if mdField w.md 2 0 = 0 then s
      else
        let u := if back then s.releaseIn a q else s
        if acq then u.acquireIn a p else u
    (s.lanesF3 a 0x20D w ins → LaneChain (fun i _ s t => a.team.acqPending i.lane = false ∧
        (rel = true ∨ acq = true → s.heldAny a i.lane = false) ∧
        t = (act s rel all all).commitLane a.key i) (a.lead w.gs w.gp) ins s t →
      exec (.fence w) s = .next (t.advance a)) ∧
    (s.lanesF3 a 0x20E w ins → LaneChain (fun i _ s t =>
        let base := lo64 (i.val 0)
        let len := (lo32 (i.val 1)).toNat
        let first := (base.extractLsb' 0 40).toNat
        if len = 0 then t = s.commitLane a.key i
        else
          a.team.acqPending i.lane = false ∧ (acq = true → s.heldAny a i.lane = false) ∧
          (rel = true → ∀ h ∈ s.held, h.dev = false → h.engine = none → h.owner = a.team.owner a.key i.lane →
            h.va.extractLsb' 40 24 = base.extractLsb' 40 24 →
            (h.va.extractLsb' 0 40).toNat + h.width ≤ first ∨ first + len ≤ (h.va.extractLsb' 0 40).toNat) ∧
          let range := s.inFenceRange a.team base len
          t = (act s (rel || acq) (if acq then all else range) range).commitLane a.key i) (a.lead w.gs w.gp) ins s t →
      exec (.fencer w) s = .next (t.advance a))

/-! ### Barriers, rings and queues -/

/-- R264-R266: BARI sets a barrier that stands at no arrival to its count and form; BARA completes when every lane's arrival is
accepted, with the arrival's phase pending; BARW once the phase in A has completed; BARAW arrives with the lanes that have not yet,
completes when the phases returned have completed, and else holds its group with them. R266: an arrival counts in the phase, a
second one of its thread in the next, unless the barrier is strict or the thread has one carried; the arrival that makes the count n
completes the phase, and the carried arrivals, in their order, are the arrivals of the next, which completes at once when they are
n. -/
def Obligations.Barriers : Prop :=
  ∀ (s t : State) (a : Act) (w : F3) (ins : List LaneIn),
    let bar := mdField w.md 4 0
    let passed (b : Barrier) (x : Word32) : Prop := 1 ≤ (b.p - x).toNat ∧ (b.p - x).toNat ≤ 2 ^ 31
    let all (_ : Nat) : Bool := true
    let arrives (i : LaneIn) (s t : State) (ph : Word32) : Prop := ∃ r limit b, s.barRef a.team bar = some (r, limit) ∧
      s.heldAny a i.lane = false ∧ (s.bar r).arrive (a.barId i.lane) = some (b, ph) ∧ t = (s.releaseIn a all).setBar r b
    (s.lanesF3 a 0x240 w ins → ∀ i is r limit, ins = i :: is → s.barRef a.team bar = some (r, limit) →
      let n := (lo32 (i.val 0)).toNat
      1 ≤ n → n ≤ limit → (s.bar r).a = 0 → (s.bar r).carried = [] →
      exec (.bari w) s = .next (((s.setBar r { s.bar r with n := n, strict := w.md.getLsbD 5 }).commitAll a.key ins).advance a)) ∧
    (s.lanesF3 a 0x241 w ins → LaneChain (fun i lead s t => ∃ u ph, arrives i s u ph ∧
        t = (u.acquireIn a all).laneResult a i lead [ph]) (a.lead w.gs w.gp) ins s t →
      exec (.bara w) s = .next (t.advance a)) ∧
    (s.lanesF3 a 0x242 w ins → LaneChain (fun i _ s t => ∃ r limit, s.barRef a.team bar = some (r, limit) ∧
        passed (s.bar r) (lo32 (i.val 0)) ∧ t = (s.acquireIn a all).commitLane a.key i) (a.lead w.gs w.gp) ins s t →
      exec (.barw w) s = .next (t.advance a)) ∧
    (s.lanesF3 a 0x243 w ins → ∀ (ph : LaneIn → Word32),
      let prior : List (Nat × Word32) := match a.grp.hold with | .barrier ps => ps | _ => []
      let fresh (i : LaneIn) : Prop := ∀ p ∈ prior, p.1 ≠ i.lane
      (∀ i ∈ ins, ∀ p, prior.find? (fun p => decide (p.1 = i.lane)) = some p → ph i = p.2) →
      LaneChain (fun i _ s t => (fresh i → arrives i s t (ph i)) ∧ (¬ fresh i → t = s)) (a.lead w.gs w.gp) ins s t →
      ∀ phases, phases = prior ++ (ins.filter fun i => decide (∀ p ∈ prior, p.1 ≠ i.lane)).map (fun i => (i.lane, ph i)) →
      ∀ r limit, t.barRef a.team bar = some (r, limit) →
      ((∀ p ∈ phases, passed (t.bar r) p.2) → exec (.baraw w) s = .next
        ((ins.foldl (fun s i => (s.commitLane a.key i).writeDst a.key i.lane (decide (leadLane ins = some i.lane)) i.dest.1 [ph i])
          (if ins = [] then t else t.acquireIn a all)).advance a)) ∧
      ((∃ p ∈ phases, ¬ passed (t.bar r) p.2) → exec (.baraw w) s = .next (t.holdAt a (.barrier phases)))) ∧
    (∀ (b : Barrier) (u : Nat),
      let next : Barrier := { b with p := b.p + 1, a := b.carried.length, arrived := b.carried, carried := [] }
      (u ∉ b.arrived → b.a + 1 ≠ b.n → b.arrive u = some ({ b with arrived := b.arrived ++ [u], a := b.a + 1 }, b.p)) ∧
      (u ∉ b.arrived → b.a + 1 = b.n → b.carried.length ≠ b.n → b.arrive u = some (next, b.p)) ∧
      (u ∉ b.arrived → b.a + 1 = b.n → b.carried.length = b.n →
        b.arrive u = some ({ next with p := b.p + 2, a := 0, arrived := [] }, b.p)) ∧
      (u ∈ b.arrived → b.strict = false → u ∉ b.carried → b.arrive u = some ({ b with carried := b.carried ++ [u] }, b.p + 1)) ∧
      (u ∈ b.arrived → b.strict = true ∨ u ∈ b.carried → b.arrive u = none))

/-- R199-R203: RINIT writes the eight words of a descriptor, the lowest of the lanes that name one alone; RACQ leaves a slot's
offset pending, at once or when one is granted, and RACQ.try answers 0xFFFFFFFF when there is none; RREL adds one to the count
of its side. Each then grants the requests that wait (`ringWake`): while a role's count is not 0, the oldest request of the role
receives the offset of the slot of its index, the count is one less and the index one more, modulo the slots; consumers first; a
producer's not ahead of a copy queue that waits longer. The comparison of a ring's base with its window by the
descriptor's bit is the model's reading (log 23). -/
def Obligations.SlotRings : Prop :=
  ∀ (s t : State) (a : Act) (w : F3) (ins : List LaneIn),
    let prod := w.md.getLsbD 0
    (s.lanesF3 a 0x244 w ins → ∀ (pl : LaneIn → Nat × Nat),
      let fits (s : State) (i : LaneIn) : Prop :=
        let e := (lo32 (i.val 0)).toNat
        let base := (lo32 (i.val 1)).toNat
        let slot := ((lo32 (i.val 2)).extractLsb' 0 16).toNat
        let count := ((lo32 (i.val 2)).extractLsb' 16 16).toNat
        s.ringPlace a.team i.lane (lo32 (i.val 0)) = .ok (pl i) ∧ 16 ≤ slot ∧ slot ≤ 65520 ∧ slot % 16 = 0 ∧ 1 ≤ count ∧
          count ≤ 1024 ∧ base % 16 = 0 ∧ base / 2 ^ 31 = e / 2 ^ 31 ∧
          base % 2 ^ 31 + slot * count ≤ s.windowLimit a.team.block e
      (∀ i ∈ ins, fits s i ∧ s.heldAny a i.lane = false) →
      LaneChain (fun i _ s t => fits s i ∧
        t = if ∃ j ∈ ins, j.lane < i.lane ∧ pl j = pl i then s.commitLane a.key i
          else ((s.commitLane a.key i).scratchWrite (pl i).1 (pl i).2 (wordsBytes [lo32 (i.val 1), lo32 (i.val 2), 0,
            ((lo32 (i.val 2)).extractLsb' 16 16).setWidth 32, 0, 0, 1, 0])).ringWake (pl i).1 (pl i).2) (a.lead w.gs w.gp) ins s t →
      exec (.rinit w) s = .next (t.advance a)) ∧
    (s.lanesF3 a 0x245 w ins → LaneChain (fun i lead s t => ∃ r, s.ringOf a.team i.lane (lo32 (i.val 0)) = .ok r ∧
        s.heldAcq a i.lane = false ∧
        t = if (if prod then r.free else r.filled) = 0 ∧ w.md.getLsbD 1 = true then s.laneResult a i lead [0xFFFFFFFF]
          else ((s.commitLane a.key i).pendDst a.key i.lane lead i.dest.1 i.dest.2 [0] (.ring r.blk r.off prod)).ringWake r.blk r.off)
        (a.lead w.gs w.gp) ins s t →
      exec (.racq w) s = .next (t.advance a)) ∧
    (s.lanesF3 a 0x246 w ins → LaneChain (fun i _ s t => ∃ r, s.ringOf a.team i.lane (lo32 (i.val 0)) = .ok r ∧
        r.filled + r.free < r.count ∧ (prod = true → s.heldAny a i.lane = false) ∧ s.heldAcq a i.lane = false ∧
        t = ((s.commitLane a.key i).setRing
          (if prod then { r with filled := r.filled + 1 } else { r with free := r.free + 1 })).ringWake r.blk r.off)
        (a.lead w.gs w.gp) ins s t →
      exec (.rrel w) s = .next (t.advance a)) ∧
    (∀ (blk off : Nat),
      let r := s.ringAt blk off
      let n := (s.teams.map fun e => e.2.pend.length).sum
      let oldest (role : Bool) : Option (Nat × Nat × Nat) := s.oldestPend fun p => decide (p.wait = .ring blk off role)
      let serves (role : Bool) : Prop := ∃ order key i, oldest role = some (order, key, i) ∧
        (if role then r.free else r.filled) ≠ 0 ∧ (role = true → s.engineAhead blk off order = false)
      (¬ serves false → ¬ serves true → s.ringWake blk off = s) ∧
      ∀ role, serves role → (role = true → ¬ serves false) → ∃ order key i, oldest role = some (order, key, i) ∧
        s.ringWake blk off = ((s.setRing
            (if role then { r with free := r.free - 1, prod := (r.prod + 1) % r.count }
              else { r with filled := r.filled - 1, cons := (r.cons + 1) % r.count })).updPend key i fun p =>
          { p with words := [BitVec.ofNat 32 (r.base + (if role then r.prod else r.cons) * r.slot)], wait := .ready }).ringGrant
            blk off (n - 1)) ∧
    (∀ blk off, s.ringGrant blk off 0 = s) ∧
    (∀ (p : Pend → Bool),
      (s.oldestPend p = none → ∀ e ∈ s.teams, ∀ q ∈ e.2.pend, p q = false) ∧
      ∀ order key i, s.oldestPend p = some (order, key, i) →
        (∃ e ∈ s.teams, e.1 = key ∧ ∃ q, e.2.pend[i]? = some q ∧ p q = true ∧ q.order = order) ∧
        ∀ e ∈ s.teams, ∀ q ∈ e.2.pend, p q = true → order ≤ q.order)

/-- R319, R321-R324: QPUSH writes a record and its side area behind a queue's newest and counts it, QPOP takes the oldest
record or waits for one, and QPOP.try of an empty queue answers zeros; JDEC takes one from a counter above 0 of a block whose
reserved words are 0, and the lane that makes it 0 pushes the block's continuation. The oldest pop that waits takes the record of
the pop count modulo the capacity, and the count is one more: at once, with an acquire and the record's task tag, or after the
write-back of a producer on another core that has deferred its release. The oldest pop that waits, and finds its queue faulty, is
gone: its registers are full and dead and its thread traps for the QPOP where it stands (`failPop`). That a push by a lane or rein
core releases at once (log 24), that a join block with another value in a reserved word is none (log 64), and what a waiting pop that
fails leaves (log 77), is the model's choice. -/
def Obligations.RelayQueues : Prop :=
  ∀ (s t : State) (a : Act) (w : F3) (ins : List LaneIn),
    let die := dieOf a.team.core
    (s.lanesF3 a 0x247 w ins → LaneChain (fun i _ s t => ∃ u,
        (w.md.getLsbD 0 = true → s.heldAny a i.lane = false) ∧ s.heldAcq a i.lane = false ∧
        s.push a i.lane (lo64 (i.val 0)) (i.val 1) (w.md.getLsbD 0)
          (fun s => if w.md.getLsbD 0 then s.deferRelease a i.lane else s) = .ok u ∧ t = u.commitLane a.key i)
        (a.lead w.gs w.gp) ins s t →
      exec (.qpush w) s = .next (t.advance a)) ∧
    (s.lanesF3 a 0x248 w ins → LaneChain (fun i lead s t => ∃ u q, s.heldAcq a i.lane = false ∧
        s.relayAt a.team (lo64 (i.val 0)) .load = (u, .ok q) ∧
        if q.pushed = q.popped ∧ w.md.getLsbD 0 = true then t = u.laneResult a i lead (List.replicate 8 0)
        else q.at'.moving = false ∧ u.popFails a.team (lo64 (i.val 0)) q.at'.pa = none ∧
          t = ((u.commitLane a.key i).pendDst a.key i.lane lead i.dest.1 i.dest.2 (words64 (lo64 (i.val 0)))
            (.relay q.at'.pa a.grp.start a.word (a.w8 w.d))).relayWake q.at'.pa) (a.lead w.gs w.gp) ins s t →
      exec (.qpop w) s = .next (t.advance a)) ∧
    (s.lanesF3 a 0x249 w ins → LaneChain (fun i _ s t => ∃ s1 x s2 bs s3,
        (a.team.kind ≠ .scalar ∨ (lo64 (i.val 0)).extractLsb' 40 24 ≠ 0xFFFFFF) ∧
        s.translate a.team.agent (lo64 (i.val 0)) 64 64 .atom = (s1, .ok x) ∧ s.heldAny a i.lane = false ∧ x.moving = false ∧
        ((s1.releaseIn a fun _ => true).evictOwn a x).busRead die x 64 = (s2, .ok bs) ∧
        let ws := bytesWords 16 bs
        let old := ws.getD 0 0
        (∀ k ∈ [1, 4, 5, 6, 7], ws.getD k 0 = 0) ∧ (0 : Word32).slt old = true ∧ s2.busWrite die x (toBytes 4 (old - 1).toNat) = (s3, none) ∧
        if old = 1 then ∃ s4, (s3.acquireIn a fun _ => true).push a i.lane (ws.getD 3 0 ++ ws.getD 2 0) (ws.drop 8) false id =
            .ok s4 ∧ t = s4.commitLane a.key i
        else t = s3.commitLane a.key i) (a.lead w.gs w.gp) ins s t →
      exec (.jdec w) s = .next (t.advance a)) ∧
    (∀ header, s.relayGrant header 0 = s) ∧
    (∀ header,
      let n := (s.teams.map fun e => e.2.pend.length).sum
      let waits (p : Pend) : Bool := match p.wait with | .relay h .. => decide (h = header) | _ => false
      (s.oldestPend waits = none → s.relayWake header = s) ∧
      ∀ order key i (team : Team) p s1 r, s.oldestPend waits = some (order, key, i) → tget s.teams key = some team →
        team.pend[i]? = some p → s.relayAt team (lo64 p.words) .load = (s1, r) →
        (∀ f u, r = .error f → s1.failPop key i p f = some u → s.relayWake header = u.relayGrant header (n - 1)) ∧
        (∀ q, r = .ok q → q.pushed = q.popped → s.relayWake header = s) ∧
        ∀ q v x s3 bs, r = .ok q → q.pushed ≠ q.popped →
          s1.xlBytes team.agent q.h q.record (64 + 64 * (q.popped.toNat % 2 ^ q.log)) 64 64 = (v, .ok x) → q.at'.moving = false →
          (v.evictFor team x).busRead (dieOf team.core) x 64 = (s3, .ok bs) →
          let ws := bytesWords 16 bs
          let producer := ((ws.getD 8 0).extractLsb' 0 11).toNat
          let s4 := (s3.busWrite (dieOf team.core) { q.at' with pa := q.at'.pa + 16 } (toBytes 8 (q.popped + 1).toNat)).1
          s.relayWake header = State.relayGrant
            (if (ws.getD 9 0).getLsbD 0 = true ∧ producer ≠ team.core then
              s4.updPend key i fun p => { p with
                words := ws.take 8
                wait := .writeback producer ((ws.getD 8 0).extractLsb' 11 5).toNat ((ws.getD 8 0).extractLsb' 16 16) }
            else
              ((match team.l1 with | some c => s4.acquireL1 c fun _ => true | none => s4).updPend key i fun p =>
                { p with words := ws.take 8, wait := .ready }).updTeam key fun t => t.updThread p.lane fun th =>
                  { th with taskTag := (ws.getD 7 0).extractLsb' 0 16 }) header (n - 1))

/-- R319, R321-R323: what a push does to a queue that is not full, whose header and entry are resident: the record's words, the
word of the producer's core, team slot and task tag, the mark of a deferred release and zeros are written at the entry of the
push count, then the count one more, and the pops that wait are granted (`relayWake`). That a scalar lane or rein core is named
by team slot 0, and releases at once, is the model's choice (log 24). -/
def Obligations.PushEffect : Prop :=
  ∀ (s s1 s2 s3 s4 : State) (a : Act) (lane : Nat) (va : Word64) (record : List Word32) (dfr : Bool) (before : State → State)
    (q : Relay) (x : Xl),
    let die := dieOf a.team.core
    let slot := if a.team.kind = .vector then a.team.slot else 0
    let side := BitVec.ofNat 32 (a.team.core + slot * 2 ^ 11 + (a.team.tagOf lane).toNat * 2 ^ 16)
    s.relayAt a.team va .store = (s1, .ok q) → q.pushed - q.popped ≠ BitVec.ofNat 64 (2 ^ q.log) →
    s1.relayEntry a.team q q.pushed = (s2, .ok x) → q.at'.moving = false → x.moving = false →
    (before s2).busWrite die x (wordsBytes (record ++ [side, if dfr then 1 else 0, 0, 0, 0, 0, 0, 0])) = (s3, none) →
    s3.busWrite die { q.at' with pa := q.at'.pa + 8 } (toBytes 8 (q.pushed + 1).toNat) = (s4, none) →
    s.push a lane va record dfr before = .ok (s4.relayWake q.at'.pa)

/-! ### Hitch and matrix -/

/-- R272-R279, R284: MCLAIM takes the lowest aligned free run of slots, zeroes it and answers its first slot, or 0xFFFFFFFF with
.try where there is none; MRELS releases a run; MLDW, MSTREAM, MZERO and MDRAIN enter the array queue once their descriptors,
slots, formats and queue pass; MSYNC completes when the array is empty and no row is locked, and its .hand form when no drain is
queued. R276, R280, R281, R283: an instruction enters the queue once no acquiring atomic of its lane is held; the array performs
the first operation that is no drain once no locked row and no earlier drain stands in its way: a load latches the tile, its
format and column scales, a stream takes one pass for every column of every row, a clear makes its rows +0; the first drain is
handed to its queue with its rows locked. That .try answers so where its charge is exhausted is the model's reading (log 52). -/
def Obligations.MatrixInstructions : Prop :=
  (∀ (s t : State) (a : Act) (w : F3) (ins : List LaneIn),
    let hn := hitchOf a.team.core
    let n := 2 ^ mdField w.md 1 0
    let fld (d : Word32) (hi lo : Nat) : Nat := (d.extractLsb' lo (hi + 1 - lo)).toNat
    let claimed (s : State) (k : Nat) : Prop := ∃ r ∈ (s.hitch hn).runs, r.released = false ∧ r.first ≤ k ∧ k < r.first + r.n
    let free (s : State) (x : Nat) : Prop := ∀ r ∈ (s.hitch hn).runs, x + n ≤ r.first ∨ r.first + r.n ≤ x
    let scaleOk (d : Word32) : Prop := fld d 31 15 = 0 ∧ (d.getLsbD 14 = true → fld d 13 0 = 0) ∧ fld d 7 0 < 128
    let accOk (d : Word32) (rows : Nat) : Prop := fld d 15 9 = 0 ∧ fld d 31 24 = 0 ∧ fld d 7 0 + rows ≤ 256
    let enters (o : ArrOp) (f : Hitch → Hitch) (i : LaneIn) (s t : State) : Prop :=
      s.heldAcq a i.lane = false ∧ (s.hitch hn).arrayQ.length < 16 ∧ t = (s.updHitch hn fun h => f { h with arrayQ := h.arrayQ ++ [o] }).commitLane a.key i
    (s.lanesF3 a 0x280 w ins → LaneChain (fun i lead s t =>
        (∃ x u path, x % n = 0 ∧ x + n ≤ 128 ∧ free s x ∧ (∀ y, y < x → y % n = 0 → ¬ free s y) ∧
          s.tryCharge (s.tabFor (dieOf a.team.core) a.team.block) a.team.region.toNat [(8, n)] = .ok u path ∧
          t = ((u.updHitch hn fun h => { h with
              mem := h.mem.filter fun e => decide (e.1 < x * 16384 ∨ (x + n) * 16384 ≤ e.1)
              runs := h.runs ++ [{ first := x, n := n, released := false, path := path }] }).commitLane a.key i).writeDst a.key i.lane lead
            i.dest.1 [BitVec.ofNat 32 x]) ∨
        (w.md.getLsbD 2 = true ∧ ((∀ x, x % n = 0 → x + n ≤ 128 → ¬ free s x) ∨
            ((∃ x, x % n = 0 ∧ x + n ≤ 128 ∧ free s x) ∧
              s.tryCharge (s.tabFor (dieOf a.team.core) a.team.block) a.team.region.toNat [(8, n)] = .wait)) ∧
          t = (s.commitLane a.key i).writeDst a.key i.lane lead i.dest.1 [0xFFFFFFFF])) (a.lead w.gs w.gp) ins s t →
      exec (.mclaim w) s = .next (t.advance a)) ∧
    (s.lanesF3 a 0x281 w ins → LaneChain (fun i _ s t =>
        let x := (lo32 (i.val 0)).toNat
        x < 128 ∧ x % n = 0 ∧ (∃ r ∈ (s.hitch hn).runs, r.released = false ∧ r.first = x ∧ r.n = n) ∧
        t = ((s.updHitch hn fun h => { h with
          runs := h.runs.map fun r => if r.first = x ∧ r.released = false then { r with released := true } else r }).freeRuns
            hn).commitLane a.key i) (a.lead w.gs w.gp) ins s t →
      exec (.mrels w) s = .next (t.advance a)) ∧
    (s.lanesF3 a 0x282 w ins → LaneChain (fun i _ s t =>
        let wd := lo32 (i.val 0)
        let sd := lo32 (i.val 1)
        fld wd 31 12 = 0 ∧ fld wd 7 0 < 128 ∧ fld wd 7 0 % 2 = 0 ∧ scaleOk sd ∧ (∀ k ∈ (ArrOp.ldw wd sd).slots, claimed s k) ∧
        2 ≤ fld wd 11 8 ∧ fld wd 11 8 ≤ 7 ∧
        enters (.ldw wd sd) (fun h => { h with lastFmt := some (wd.extractLsb' 8 4) }) i s t) (a.lead w.gs w.gp) ins s t →
      exec (.mldw w) s = .next (t.advance a)) ∧
    (s.lanesF3 a 0x283 w ins → LaneChain (fun i _ s t => ∃ f,
        let st := lo32 (i.val 0)
        let sd := lo32 (i.val 1)
        let ad := lo32 (i.val 2)
        fld st 31 28 = 0 ∧ fld st 7 0 < 128 ∧ fld st 7 0 * 16384 + fld st 15 8 * 128 + (fld st 23 16 + 1) * 128 ≤ 2 ^ 21 ∧
        scaleOk sd ∧ accOk ad (fld st 23 16 + 1) ∧ fld ad 23 16 = 0 ∧
        (∀ k ∈ (ArrOp.stream st sd ad).slots, claimed s k) ∧ (s.hitch hn).lastFmt = some f ∧
        2 ≤ fld st 27 24 ∧ fld st 27 24 ≤ 7 ∧ 2 ≤ f.toNat ∧ f.toNat ≤ 7 ∧ fmtBits (fld st 27 24) = fmtBits f.toNat ∧
        enters (.stream st sd ad) id i s t) (a.lead w.gs w.gp) ins s t →
      exec (.mstream w) s = .next (t.advance a)) ∧
    (s.lanesF3 a 0x284 w ins → LaneChain (fun i _ s t =>
        let ad := lo32 (i.val 0)
        accOk ad (fld ad 23 16 + 1) ∧ enters (.zero ad) id i s t) (a.lead w.gs w.gp) ins s t →
      exec (.mzero w) s = .next (t.advance a)) ∧
    (s.lanesF3 a 0x285 w ins → LaneChain (fun i _ s t =>
        let ad := lo32 (i.val 0)
        let q := (lo32 (i.val 1)).toNat
        let k := s.queue (dieOf a.team.core) q
        accOk ad (fld ad 23 16 + 1) ∧ q < 32 ∧ k.owner = a.team.region ∧ k.enabled = true ∧ k.state ≠ .stopped ∧
        enters (if w.md.getLsbD 0 then .drain ad q a.word none (lo64 (i.val 2)) else .drain ad q a.word (some (i.val 2)) 0) id i s t)
        (a.lead w.gs w.gp) ins s t →
      exec (.mdrain w) s = .next (t.advance a)) ∧
    (s.lanesF3 a 0x286 w ins → (s.hitch hn).arrayQ = [] → (s.hitch hn).locked = [] →
      exec (.msync w) s = .next ((s.commitAll a.key ins).advance a)) ∧
    (s.lanesF3 a 0x286 w ins → (∀ o ∈ (s.hitch hn).arrayQ, o.isDrain = false) →
      exec (.msyncHand w) s = .next ((s.commitAll a.key ins).advance a))) ∧
  (∀ (s : State) (n : Nat) (pre post : List ArrOp) (o : ArrOp),
    let h := s.hitch n
    let fld (d : Word32) (hi lo : Nat) : Nat := (d.extractLsb' lo (hi + 1 - lo)).toNat
    let scale (sd : Word32) (k : Nat) : Byte :=
      if sd.getLsbD 14 then 0x7F else byteAt h.mem (fld sd 7 0 * 16384 + fld sd 13 8 * 256 + k)
    let done (h' : Hitch) : State := (s.updHitch n fun _ => { h' with arrayQ := pre ++ post }).settleHitch n
    let turn : Prop := s.occ = .hitch n ∧ h.arrayQ = pre ++ o :: post ∧ (∀ x ∈ pre, x.isDrain = true) ∧
      (∀ r ∈ o.rows, r ∉ h.locked ∧ ∀ x ∈ pre, r ∉ x.rows)
    (∀ wd sd, o = .ldw wd sd → turn → exec .mldwPerform s = .next (done { h with weights := some ({
      fmt := wd.extractLsb' 8 4, tile := readBytes h.mem (fld wd 7 0 * 16384) 32768
      scales := (List.range 256).map (scale sd) } : Weights) })) ∧
    (∀ st sd ad wt, o = .stream st sd ad → turn → h.weights = some wt →
      let rows := fld st 23 16 + 1
      let fmt := fld st 27 24
      let per := 1024 / fmtBits fmt
      let key (j c : Nat) : Nat := (fld ad 8 8 * 256 + fld ad 7 0 + j) * 256 + c
      ∃ h', exec .mstreamPerform s = .next (done h') ∧ h' = { h with acc := h'.acc } ∧
        (h.acc.Pairwise (fun x y => x.1 < y.1) → ∀ j c, j < rows → c < 256 →
          let row := readBytes h.mem (fld st 7 0 * 16384 + fld st 15 8 * 128 + 128 * j) 128
          let pairs := (List.range per).map fun k => (packedElem fmt row k, packedElem wt.fmt.toNat wt.tile (k * 256 + c))
          (tget h'.acc (key j c)).getD 0 = BitVec.ofNat 32 (passSum (if fmt = 2 then 48 else 64) pairs (scale sd j).toNat
            (wt.scales.getD c 0).toNat ((tget h.acc (key j c)).getD 0).toNat)) ∧
        (∀ k, (∀ j c, j < rows → c < 256 → k ≠ key j c) → tget h'.acc k = tget h.acc k)) ∧
    (∀ ad, o = .zero ad → turn → exec .mzeroPerform s = .next (done { h with
      acc := h.acc.filter fun e => !(accRows ad).contains (e.1 / 256) })) ∧
    (∀ ad q word tsr at' blk off team, o = .drain ad q word tsr at' → s.occ = .hitch n → h.arrayQ = pre ++ o :: post →
      (∀ x ∈ pre, x.isDrain = false ∧ ∀ r ∈ accRows ad, r ∉ x.rows) → h.fork = some (blk, off) →
      tget s.teams (reinKey n) = some team →
      let k := s.queue (n / 24) q
      (k.state = .idle ∨ k.block = some blk) → k.fifo.length < 64 →
      exec .drainHandover s = .next (((s.updHitch n fun h => { h with arrayQ := pre ++ post, locked := h.locked ++ accRows ad }).updQueue
        (n / 24) q fun k => { k with
          fifo := k.fifo ++ [{ word := word, extra := [], tsr := tsr, ctx := team.ctx, drain := some (ad, at'), hitch := n, pc := none
                               rows := [], unlocked := false }]
          block := some blk, state := if k.state = .idle then .bound else k.state }).settleHitch n)))

/-! ### Forks, rendezvous and copies -/

/-- R269, R313-R317: FORK completes with the rendezvous object written, its queues bound to their programs and the rein core at
its entry, in the mode, region and address space of the forking thread, with its argument in v0:v1 and every other register 0
and full; RDV completes with 0 once every expected party has ended, and with 1 when the fork is aborted, which its .abort form
does first; CPY appends its command to its queue. R316: a lane held at an RDV whose object is older than its team's limit, with
a party that has not ended, traps RDV_TIMEOUT with those parties in w9 and the object's offset as its address. That a FORK
replaces an earlier fork at its offset is the model's reading (log 45), and so is that an RDV refuses an object whose reserved words
are not 0 (log 64). -/
def Obligations.ForksAndCopies : Prop :=
  (∀ (s t : State) (a : Act) (w : F3) (ins : List LaneIn),
    let die := dieOf a.team.core
    let hn := hitchOf a.team.core
    let blk := a.team.block
    let all (_ : Nat) : Bool := true
    let mine (s : State) (q : Nat) : Prop := (s.queue die q).owner = a.team.region ∧ (s.queue die q).enabled = true
    (s.lanesF3 a 0x2C0 w ins → ∀ i is s1 s2 ds path, ins = i :: is →
      let o := (lo32 (i.val 1)).toNat
      let d := forkDesc ds
      s.readDoubles a (lo64 (i.val 0)) 8 = (s1, .ok ds) → d.reserved = false → (d.rein = true ∨ d.queues ≠ []) → d.queues.Nodup →
      (∀ q ∈ d.queues, mine s1 q ∧ (s1.queue die q).state = .idle) → s1.rdvPlace a.team i.lane (lo32 (i.val 1)) = none →
      (d.rein = true → d.entry.toNat % 8 = 0) → (∀ x ∈ d.progs, x.toNat % 8 = 0) → s.heldAny a i.lane = false →
      (d.rein = true → (s1.hitch hn).fork = none ∧
        s1.tryCharge (s1.tabFor die blk) a.team.region.toNat [(7, 1)] = .ok s2 path) →
      (d.rein = false → s2 = s1 ∧ path = []) →
      let parties := (if d.rein then 1 else 0) + 2 * (2 ^ d.queues.length - 1)
      let numbers := (d.queues.zipIdx.map fun e => e.1 * 2 ^ (8 * e.2)).sum
      let s3 := (s2.releaseIn a all).scratchWrite blk o (wordsBytes ([BitVec.ofNat 32 (parties + hn * 2 ^ 16), 0] ++
        words64 (BitVec.ofNat 64 s.clock) ++ [BitVec.ofNat 32 numbers, 0, 0, 0]))
      let s4 := s3.updBlock blk fun b => { b with forks := b.forks.filter (fun g => decide (g.off ≠ o)) ++
        [{ off := o, hitch := hn, die := die, queues := d.queues, rein := d.rein, ended := 0, path := path }] }
      let s5 := (d.queues.zip d.progs).foldl (fun s e => s.updQueue die e.1 fun k => k.start blk e.2 a.team.ctx) s4
      exec (.fork w) s = .next (((if d.rein then s5.startRein hn a.team o d else s5).commitAll a.key ins).advance a)) ∧
    (∀ mk ∈ [Instr.rdv, Instr.rdvAbort], s.lanesF3 a 0x2C1 w ins → LaneChain (fun i lead s t => ∃ u,
        let o := (lo32 (i.val 0)).toNat
        s.rdvPlace a.team i.lane (lo32 (i.val 0)) = none ∧ s.rdvReserved blk o = false ∧
        u = (if w.md.getLsbD 0 then (s.abortFork blk o).updRdv blk o 0 (· ||| 0x100) else s) ∧
        let w0 := u.scratchWord blk o
        let done (x : Word32) : Prop :=
          t = ((u.acquireIn a all).commitLane a.key i).writeDst a.key i.lane lead i.dest.1 [x]
        ((w0.getLsbD 8 = true ∧ done 1) ∨
          (w0.getLsbD 8 = false ∧ u.rdvStopped die blk o = none ∧ w0.extractLsb' 0 4 &&& ~~~(w0.extractLsb' 4 4) = 0 ∧ done 0)))
        (a.lead w.gs w.gp) ins s t →
      exec (mk w) s = .next (t.advance a)) ∧
    (s.lanesF3 a 0x2C2 w ins → LaneChain (fun i _ s t =>
        let c := lo64 (i.val 0)
        let code := (c.extractLsb' 58 6).toNat
        let q := (lo32 (i.val 1)).toNat
        let k := s.queue die q
        q < 32 ∧ mine s q ∧ k.state ≠ .stopped ∧ (code = 11 → a.team.mode = .s) ∧
        (w.md.getLsbD 0 = true → (code = 0 ∨ code = 2 ∨ code = 5) ∧ c.getLsbD 2 = true) ∧ s.heldAny a i.lane = false ∧
        (k.state = .idle ∨ k.block = some blk) ∧ k.fifo.length < 64 ∧
        t = (((s.releaseIn a all).commitLane a.key i).updQueue die q fun k => { k with
          fifo := k.fifo ++ [{ word := c
                               extra := (List.range (c.extractLsb' 56 2).toNat).map fun k => lo64 ((i.val 0).drop (2 + 2 * k))
                               tsr := if w.md.getLsbD 0 then some (i.val 2) else none, ctx := a.team.ctx, drain := none
                               hitch := hn, pc := none, rows := [], unlocked := false }]
          block := some blk, state := if k.state = .idle then .bound else k.state })) (a.lead w.gs w.gp) ins s t →
      exec (.cpy w) s = .next (t.advance a))) ∧
  (∀ (s : State) (hn off : Nat) (team : Team) (d : ForkDesc), ∃ r th,
    s.startRein hn team off d = (s.updHitch hn fun h => { h with
        acc := [], weights := none, lastFmt := none, asid := some team.asid, fork := some (team.block, off), arrayQ := [] }).setTeam
      (reinKey hn) r ∧
    r.kind = .rein ∧ r.core = hitchCore hn ∧ r.block = team.block ∧ r.mode = team.mode ∧ r.region = team.region ∧ r.asid = team.asid ∧
    r.ortBase = team.ortBase ∧ r.ortSize = team.ortSize ∧ r.threads = [th] ∧ r.groups = [] ∧ r.pend = [] ∧
    r.s = List.replicate 16 { val := 0, full := true } ∧
    th.stat = .atLeg ∧ th.pc = d.entry ∧ th.awaits = [] ∧ th.p = 0 ∧ th.mt = 0 ∧ th.t = List.replicate 6 0 ∧ th.v.length = 64 ∧
    (th.vreg 1).read ++ (th.vreg 0).read = d.arg ∧ (∀ k, 2 ≤ k → (th.vreg k).read = 0) ∧ ∀ k, (th.vreg k).ready = true) ∧
  (∀ (s : State) (a : Act) (w : F3) (i : LaneIn) (key g : Nat) (d : BitVec 64), s.occ = .group key g → s.actOf key g = some a →
    a.grp.hold = .wait d → decode a.word = .ok (.rdv w) →
    s.ready a a.left (fun th => th.guard w.gs w.gp) (f3Acc 0x2C1 w) [i] → w.md.getLsbD 0 = false →
    let o := (lo32 (i.val 0)).toNat
    let w0 := s.scratchWord a.team.block o
    let missing : BitVec 4 := w0.extractLsb' 0 4 &&& ~~~(w0.extractLsb' 4 4)
    s.rdvPlace a.team i.lane (lo32 (i.val 0)) = none → s.rdvReserved a.team.block o = false → w0.getLsbD 8 = false →
    s.rdvStopped (dieOf a.team.core) a.team.block o = none → missing ≠ 0 → a.team.rdvLimit ≠ 0 →
    a.team.rdvLimit.toNat < s.rdvAge a.team.block o →
    exec .rdvTimeout s = .next ((s.faultLanes a (f3Dest 0x2C1 w)
      [{ lane := i.lane, cause := Cause.rdvTimeout.code, w9 := missing.setWidth 32, addr := (lo32 (i.val 0)).setWidth 64 }]).advance a))

/-! ### Copy commands -/

/-- R293-R299: CWIN, CFILL, CSLOT and CWINA perform their window element by element, and DRAIN_PERFORM stores its rows' words;
each then ends its command. That a command performs whole at its turn, up to its stop, is the model's (log 32), and so are the
places that it charges where R293 leaves them open, and that a CWINA between two scratchpad windows reads every source element
before it writes (log 33). -/
def Obligations.WindowCommands : Prop :=
  ∀ (s s1 t : State) (a : QAct) (c : Cmd) (r : Tsr),
    let fld (hi lo : Nat) : Nat := (c.fields.extractLsb' lo (hi + 1 - lo)).toNat
    let ends (x : Host.Outcome State Fault Refusal) : Prop := x = .next (t.endCommand a.die a.q)
    let ready (mask : BitVec 48) : Prop := s.queueReady a ∧ cmdFits c mask ∧ s.commandTsr a c = (s1, .ok r)
    let inWindow : Prop := s1.scratchStop a r = none
    (ready 0x7 → inWindow → tsrScratch r = false → fld 1 0 = 0 →
      s1.windowChain a r (fun e y nib s t => delivered a r (fun s v => s.putScratch r a.blk y nib v) e s t) t → ends (exec (.cwin c) s)) ∧
    (ready 0x7 → inWindow → tsrScratch r = false → fld 1 0 = 1 →
      s1.windowChain a r (fun e y nib s t => stored a r (s.scratchElem r a.blk y nib).2 e (s.scratchElem r a.blk y nib).1 t) t →
      ends (exec (.cwin c) s)) ∧
    (ready 0x5 → fld 0 0 = 1 → inWindow →
      s1.windowChain a r (fun _ y nib s t => t = s.putScratch r a.blk y nib (tsrFill r)) t → ends (exec (.cfill c) s)) ∧
    (ready 0x5 → fld 0 0 = 0 → tsrScratch r = false →
      s1.windowChain a r (fun e _ _ s t => stored a r (tsrFill r) e s t) t → ends (exec (.cfill c) s)) ∧
    (ready 0x4 → tsrScratch r = false →
      s1.slotStop (s1.hitchOfBlock a.blk) a.entry.ctx.asid r = none →
      s1.windowChain a r (fun e y nib s t => delivered a r (fun s v => s.putSlot r (s1.hitchOfBlock a.blk) y nib v) e s t) t →
      ends (exec (.cslot c) s)) ∧
    (∀ s2 y, s.queueReady a → cmdFits c 0 → s.readTsr a (cmdWord c 0) = (s1, .ok r) → tsrFault r true = none →
      s1.readTsr a (cmdWord c 1) = (s2, .ok y) → tsrFault y true = none → pairStop r y = none → s2.viewStop a r = none →
      s2.viewStop a y = none →
      let both := tsrScratch r && tsrScratch y
      ElemChain (fun i s t => ∃ u v, (if both then u = s ∧ (s2.viewRead a r i).2 = .ok v else s.viewRead a r i = (u, .ok v)) ∧
        match v with
        | some v => u.viewWrite a y i v = .done t
        | none => (∀ k va, viewElem y i ≠ .fault k va) ∧ t = u) (tsrCount r - a.elem) a.elem s2 t →
      ends (exec (.cwina c) s)) ∧
    (∀ d at', s.occ = .queue a.die a.q → s.queueAct a.die a.q = some a → s.queueHeld a.die a.q = false →
      a.entry.drain = some (d, at') →
      (match a.entry.tsr with | some x => s1 = s ∧ r = x | none => s.readTsr a at' = (s1, .ok r)) →
      drainFault r (accRows d).length = none → tsrScratch r = false →
      let rows := if a.entry.rows = [] then (s1.hitch a.entry.hitch).rowWords d else a.entry.rows
      ElemChain (fun i s t =>
          let j := winIndex (tsrSize r) i
          let x := rows.getD (j.getD 1 0 * 256 + j.getD 0 0) 0
          stored a r (if tsrFmt r = 0 then x.toNat else cvt (tsrFmt r) .rn false (fp32.read x.toNat)) (tsrElem r j) s t)
        (tsrCount r - a.elem) a.elem
        ((s1.unlockDrain a d).updQueue a.die a.q fun k => { k with cur := k.cur.map fun e => { e with rows := rows } }) t →
      ends (exec .drainPerform s))

/-- R300-R308: CMCAST writes each 16 bytes of its source to every destination; CRING fills slot after slot of its ring; CQF
completes once the counts it names have come to their points, CSIG with its atomic, CWAIT when its location satisfies its
condition or it is woken; CLOOP counts and goes back while the count is above 0; CZERO makes its frames 0 under its key; CEND
ends the program. That a command performs whole at its turn, up to its stop, is the model's (log 32), and so are the order of
its checks and that CMCAST and CRING move bytes one by one (log 33). -/
def Obligations.OtherCommands : Prop :=
  ∀ (s t : State) (a : QAct) (c : Cmd), s.queueReady a →
    let fld (hi lo : Nat) : Nat := (c.fields.extractLsb' lo (hi + 1 - lo)).toNat
    let x (k : Nat) : Word64 := c.extra.getD k 0
    let half (k j : Nat) : Nat := ((x k).extractLsb' (32 * j) 32).toNat
    let ends (t : State) (o : Host.Outcome State Fault Refusal) : Prop := o = .next (t.endCommand a.die a.q)
    (cmdFits c 0x3FFFFFF → ∀ ts, fld 25 24 ≤ 1 → (x 0).toNat % 16 = 0 → half 1 0 % 16 = 0 → half 1 1 % 16 = 0 → 16 ≤ half 1 0 →
      half 1 0 ≤ 2 ^ 31 → s.targets a (fld 25 24) (fld 23 0) = some ts → (∀ d ∈ ts, s.targetStop a (half 1 1) (half 1 0) d = none) →
      ElemChain (fun i s t => ∃ u bs, s.engineBytes a (x 0 + BitVec.ofNat 64 (16 * i)) 16 = (u, .ok bs) ∧
        t = ts.foldl (fun s d => s.toTarget (half 1 1 + 16 * i) bs d) u) (half 1 0 / 16 - a.elem) a.elem s t →
      ends t (exec (.cmcast c) s)) ∧
    (cmdFits c 0xFFFFFFFFFFFF → fld 47 32 ≠ 0 → fld 31 0 % 32 = 0 →
      ElemChain (fun i s t => s.ringSlot a (fld 31 0) (x 0) i = .done t) (fld 47 32 - a.elem) a.elem s t →
      ends t (exec (.cring c) s)) ∧
    (cmdFits c 0x1F3F →
      let met (q n : Nat) : Prop := q ≠ a.q ∧ (s.queue a.die q).state ≠ .stopped ∧
        ((s.queue a.die q).progress - BitVec.ofNat 32 n).toNat < 2 ^ 31
      met (fld 4 0) (half 0 0) → (fld 5 5 = 1 → met (fld 12 8) (half 0 1)) → ends s (exec (.cqf c) s)) ∧
    (cmdFits c 0x3F → 2 ≤ fld 2 0 → fld 2 0 ≤ 4 → fld 4 3 ≤ 1 → ∀ s1 y old,
      let n := if fld 5 5 = 1 then 8 else 4
      s.signalPlace a.die a.blk a.entry.ctx (x 0) (fld 2 0) n = (s1, .ok y) → y.moving = false →
      s1.rmw a.die y n (if fld 4 3 = 0 then .exch else .add) false (x 1) 0 false = (t, .ok old) → ends t (exec (.csig c) s)) ∧
    (cmdFits c 0xFF → 2 ≤ fld 2 0 → fld 2 0 ≤ 4 → fld 5 3 ≤ 5 → ∀ s1 y eff s2 b v,
      let n := if fld 7 7 = 1 then 8 else 4
      let hitch := s.hitchOfBlock a.blk
      s.enginePlace a.die a.entry.ctx (x 0) (fld 2 0) n .atomRead = (s1, .ok (y, eff)) →
      (s1.admitAt (s1.degrades a.blk) hitch y n eff (if (s.queueWatch a).isSome then 0 else 1) true fun s => s.busFault a.die y n false) =
        (s2, .ok b) →
      let sp := (Spot.glob y eff).under (match s.queueWatch a with | some k => !k.degraded | none => b)
      (s2.claimSpot hitch sp).spotRead a.die sp n = (t, .ok v) →
      ((∃ k, s.queueWatch a = some k ∧ (k.woken = true ∨ (k.registered = false ∧ 512 ≤ s.clock - k.since))) ∨
        (if fld 7 7 = 1 then intHolds (decide (fld 6 6 = 1)) (fld 5 3) v (x 1)
          else intHolds (decide (fld 6 6 = 1)) (fld 5 3) (v.setWidth 32) ((x 1).setWidth 32)) = true) →
      ends { t with watches := t.watches.filter fun k => !k.engine || decide (k.key ≠ a.die * 32 + a.q) } (exec (.cwait c) s)) ∧
    (∀ pc, a.entry.pc = some pc → fld 46 24 ≠ 0 → (c.fields.extractLsb' 0 24).toInt < 0 →
      let q := s.queue a.die a.q
      let k := fld 47 47
      let n := (if q.armed.getD k false then q.cnt.getD k 0 else fld 46 24) - 1
      ends (s.updQueue a.die a.q fun q => { q with
        cnt := modAt q.cnt k fun _ => n
        armed := modAt q.armed k fun _ => decide (0 < n)
        prog := if 0 < n then q.prog.map fun p => (pc + 8 + BitVec.ofInt 64 (8 * (c.fields.extractLsb' 0 24).toInt), p.2)
          else q.prog }) (exec (.cloop c) s)) ∧
    (cmdFits c 0xFFFF00001FFF → a.entry.ctx.mode = .s → fld 47 32 ≠ 0 →
      (∀ i, i < fld 47 32 → backedFrames (half 0 0 + i) 1 = true) → (tget s.keys (fld 12 0)).isSome = true →
      ElemChain (fun i s t => ∃ u, s.busFault a.die (frameXl (half 0 0 + i) (fld 12 0)) 128 true = (u, none) ∧
        t = u.zeroFrame (half 0 0 + i) (fld 12 0)) (fld 47 32 - a.elem) a.elem s t →
      ends t (exec (.czero c) s)) ∧
    (∀ pc, a.entry.pc = some pc → c.fields = 0 →
      ends (s.updQueue a.die a.q fun q => { q with prog := none }) (exec (.cend c) s))

/-- R306, R386: CNET starts its transfer; acknowledged bytes perform one after the other and the last ends the command; after
64 microseconds without an acknowledgement the transfer is sent again, and after seven such times its queue stops. When the
bytes of a transfer perform is the model's reading (log 34). -/
def Obligations.RemoteCopies : Prop :=
  ∀ (s t : State) (a : QAct) (c : Cmd),
    let total := ((c.extra.getD 2 0).extractLsb' 0 32).toNat
    let k := s.queue a.die a.q
    (s.queueReady a → cmdFits c 0x3 → (s.die a.die).featEnabled.getLsbD 2 = true →
      (total ≤ a.elem → exec (.cnet c) s = .next (s.endCommand a.die a.q)) ∧
      (a.elem < total → k.sent = none → ∀ xs, s.netPlaces a c a.elem = (t, .ok xs) →
        exec (.cnet c) s = .next (t.updQueue a.die a.q fun k => { k with sent := some t.clock, tries := 0 }))) ∧
    (∀ n, s.occ = .ack a.die a.q n → s.netAct a.die a.q = some (a, c) → k.sent.isSome = true → s.queueHeld a.die a.q = false →
      let m := min n (total - a.elem)
      ElemChain (fun i s t => s.netByte a c i = .done t) m a.elem s t →
      let u := t.updQueue a.die a.q fun k => { k with elem := a.elem + m, sent := some t.clock, tries := 0 }
      exec .cnetAcknowledgement s = .next (if total ≤ a.elem + m then u.endCommand a.die a.q else u)) ∧
    (∀ since, s.occ = .queue a.die a.q → s.netAct a.die a.q = some (a, c) → k.sent = some since → 121600 ≤ s.clock - since →
      exec .uetRetransmitTimeout s = .next (
        if k.tries < 7 then s.updQueue a.die a.q fun k => { k with sent := some s.clock, tries := k.tries + 1 }
        else s.stopQueue a.die a.q { cause := .deviceError, detail := 4, addr := c.extra.getD 1 0 + BitVec.ofNat 64 a.elem }))

/-! ### Trailers -/

/-- R31-R35, R99, R102-R106: FALL, BRA, BRX, CALL, CALLX, RET, LOOP and EXIT complete for a group whose targets and counter can
be read and whose destinations are leg starts; the exits of its threads, the awaits, the single step of R363 and the test of the
meeting registers then follow. The destination of an offset is the word after the trailer plus the offset times 8. A call pushes
the return address, RET pops it, LOOP writes its counter less one and goes back while that is not 0; a lane whose guard fails
falls through. When SYSWR's translation registers hold and which results a thread that exits leaves behind is the model's
reading (log 28). -/
def Obligations.Trailers : Prop :=
  ∀ (s t : State) (a : Act) (w : TW), s.act = some a → a.grp.hold ≠ .dest →
    ¬ (a.team.kind = .scalar ∧ (s.core a.team.core).sret = true) →
    let awaits := [w.a0, w.a1, w.a2].filter (· ≠ 0xF0)
    let after := a.grp.start + BitVec.ofNat 64 (8 * a.grp.leg.length)
    let target := after + BitVec.ofInt 64 (8 * w.target.toInt)
    let pass (l : Nat) (th : Thread) : Prop := l ∈ laneList a.grp.lanes ∧ a.lane? l = some th ∧ th.guard w.gs w.gp = true
    let r := (w.target.extractLsb' 16 8).toNat
    let pair (th : Thread) : Word64 := (th.vreg (r + 1)).read ++ (th.vreg r).read
    let pairOk : Prop := ∀ l th, pass l th → (th.vreg r).ready = true ∧ (th.vreg (r + 1)).ready = true ∧ (pair th).toNat % 8 = 0
    let push (th : Thread) (dest : Word64) : Exit :=
      .go dest true (some (writeBytes th.bag (th.bsp.toNat - 8) (toBytes 8 after.toNat), th.bsp - 8))
    let popped (th : Thread) : Word64 := BitVec.ofNat 64 (ofBytes (readBytes th.bag th.bsp.toNat 8))
    let goes (f : Nat → Thread → Exit) : Prop := s.departs a awaits id (a.exits w f) t
    (goes (fun _ _ => .go after false none) → exec (.fall w) s = .next t) ∧
    (goes (fun _ _ => .go target true none) → exec (.bra w) s = .next t) ∧
    (pairOk → goes (fun _ th => .go (pair th) true none) → exec (.brx w) s = .next t) ∧
    ((∀ l th, pass l th → 8 ≤ th.bsp.toNat) → goes (fun _ th => push th target) → exec (.call w) s = .next t) ∧
    (pairOk → (∀ l th, pass l th → 8 ≤ th.bsp.toNat) → goes (fun _ th => push th (pair th)) → exec (.callx w) s = .next t) ∧
    ((∀ l th, pass l th → th.bsp.toNat + 8 ≤ th.bagBytes ∧ (popped th).toNat % 8 = 0) →
      goes (fun _ th => .go (popped th) true (some (th.bag, th.bsp + 8))) → exec (.ret w) s = .next t) ∧
    (goes (fun _ _ => .exit) → exec (.exit w) s = .next t) ∧
    (let away (x : Word32) : Exit := if x - 1 = 0 then .go after false none else .go target true none
     let less := [w.a1, w.a2].filter (· ≠ 0xF0)
     let ls := (laneList a.grp.lanes).filter fun l => a.passes (fun th => th.guard w.gs w.gp) l
     (w.a0.toNat < 0xC0 → (∀ l th, pass l th → (th.vreg w.a0.toNat).ready = true) →
       s.departs a less (fun s => ls.foldl (fun s l => s.updTeam a.key fun t => t.writeLoc l (.v w.a0.toNat)
           [match a.lane? l with | some th => (th.vreg w.a0.toNat).read - 1 | none => 0]) s)
         (a.exits w fun _ th => away (th.vreg w.a0.toNat).read) t →
       exec (.loop w) s = .next t) ∧
     (∀ x, 0xE0 ≤ w.a0.toNat → w.a0.toNat < 0xF0 → a.team.s[w.a0.toNat - 0xE0]? = some x → x.full = true →
       s.departs a less (fun s => if ls = [] then s else s.updTeam a.key fun t => { t with
           s := modAt t.s (w.a0.toNat - 0xE0) fun _ => { val := x.val - 1, full := true } })
         (a.exits w fun _ _ => away x.val) t →
       exec (.loop w) s = .next t))

/-! ### Traps -/

/-- R353: TRAP parks each performing lane by a record of its own with its call number and argument, TRAP.brk all of them by one; on
the scalar lane the handler is entered after the TRAP. -/
def Obligations.TrapInstruction : Prop :=
  ∀ (s : State) (a : Act) (w : F3) (ins : List LaneIn), s.lanesF3 a 0x2C3 w ins →
    let i : TrapAt := { word := a.word, idx := a.grp.idx, dest := if w.md.getLsbD 0 then 0xF0 else w.d, start := a.grp.start, mid := true, coll := false, fetch := false
                        detail := false, addrs := [] }
    let at' (_ : Nat) : Point := if a.team.kind = .scalar then a.after else a.here
    let call (j : LaneIn) : LaneFault := { lane := j.lane, cause := 0x50, w9 := lo32 (j.val 1), addr := lo64 (j.val 0) }
    let brk (j : LaneIn) : LaneFault := { lane := j.lane, cause := 0x51, w9 := lo32 (j.val 0), addr := 0 }
    (w.md.getLsbD 0 = false →
      exec (.trap w) s = .next ((ins.foldl (fun s j => s.trap a.key i (BitVec.twoPow 64 j.lane) [call j] (call j) at')
        (s.commitAll a.key ins)).advance a)) ∧
    (∀ j js, w.md.getLsbD 0 = true → ins = j :: js → exec (.trapBrk w) s = .next (((s.commitAll a.key ins).trap a.key i (laneMask (ins.map (·.lane)))
      (ins.map brk) (brk j) at').advance a))

/-- R270, R349-R351: a trap of a thread of a vector team or rein core parks the lanes of the record and pushes it to its core's
trap queue: the record's words, and one detail entry for each lane where it is collective or covers two or more. R348-R351: a
record pushed to a trap queue that has a free slot and none waiting stands at slot i = tail mod C with tail in its last word,
and tail is one more; its detail area stands at base + 64C + 1,024i, which w12 and w13 name, with the entry of each lane at lane
× 16. The fields that no rule names are 0 and a store names no destination: the model's readings (log 29), and so is that the
ring is written under key slot 0 (log 36). -/
def Obligations.TrapRecord : Prop :=
  (∀ (s : State) (key : Nat) (t : Team) (i : TrapAt) (all : BitVec 64) (fs : List LaneFault) (f : LaneFault) (at' : Nat → Point),
    tget s.teams key = some t → t.kind ≠ .scalar → t.core < 2048 → t.slot < 32 →
    let k := s.core t.core
    let rein := decide (t.kind = .rein)
    let bit (b : Bool) : BitVec 1 := if b then 1 else 0
    let low : BitVec 6 := BitVec.ofNat 6 ((laneList all).headD 0)
    let w0 : Word32 := (0 : BitVec 10) ++ low ++ (0 : BitVec 5) ++ bit i.fetch ++ bit i.mid ++ bit i.coll ++ f.cause
    let w1 : Word32 := (if rein then 0xFFFF else k.gen t.slot) ++ BitVec.ofNat 5 (if rein then 0 else t.slot) ++ BitVec.ofNat 11 t.core
    let w8 : Word32 := (0 : BitVec 16) ++ i.dest ++ (0 : BitVec 3) ++ BitVec.ofNat 5 i.idx
    let w14 : Word32 := t.region.setWidth 16 ++ t.asid.setWidth 16
    let entry (l : Nat) : Nat × List Word32 := (l, match fs.find? fun g => decide (g.lane = l) with
      | some g => [(0 : BitVec 23) ++ (1 : BitVec 1) ++ g.cause, g.w9, low32 g.addr, high32 g.addr]
      | none => [0, 0, low32 ((tget i.addrs l).getD 0), high32 ((tget i.addrs l).getD 0)])
    s.trap key i all fs f at' = ((s.countPoison t fs).setTeam key { t with
        threads := (laneList all).foldl (fun ths l => modAt ths l fun th =>
          { th with stat := .parked t.core k.nextSeq f.cause all (at' l) }) t.threads
        groups := t.groups.map fun g => { g with lanes := g.lanes &&& ~~~all } }).pushRecord t.core
      { words := [w0, w1, low32 all, high32 all, low32 i.start, high32 i.start, low32 i.word, high32 i.word, w8, f.w9, low32 f.addr,
          high32 f.addr, 0, 0, w14, 0]
        detail := if i.coll || (i.detail && decide (2 ≤ (laneList all).length)) then (laneList all).map entry else [] }) ∧
  (∀ (s : State) (c : Nat) (r : TrapRec), Memory.wf s.mem = true → r.words.length = 16 →
    (∀ e ∈ r.detail, e.1 < 64 ∧ e.2.length = 4) → (r.detail.map (·.1)).Nodup →
    let k := s.core c
    let cap := 2 ^ (k.tqBase.extractLsb' 0 6).toNat
    let base := (k.tqBase.extractLsb' 6 42).toNat * 64
    let slot := k.tqTail.toNat % cap
    let det := base + 64 * cap + 1024 * slot
    k.tqWait = [] → k.tqBase ≠ 0 → (k.tqTail - k.tqHead).toNat < cap → (∀ x, base ≤ x → x < base + 1088 * cap → rangeOf x = .hbm) →
    let t := s.pushRecord c r
    t.homeRead (base + 64 * slot) 64 0 = wordsBytes (r.words.take 12 ++
        (if r.detail = [] then (r.words.drop 12).take 2 else [BitVec.ofNat 32 det, BitVec.ofNat 32 (det / 2 ^ 32)]) ++
        [r.words.getD 14 0, k.tqTail]) ∧
      (∀ e ∈ r.detail, t.homeRead (det + 16 * e.1) 16 0 = wordsBytes e.2) ∧
      (t.core c).tqTail = k.tqTail + 1 ∧ (t.core c).tqWait = [] ∧ (t.core c).tqHead = k.tqHead)

/-- R358, R361: the scalar lane's entry into its handler: sys.tpc, sys.cause and sys.tval, the shadow of t0 to t5, PIE and IE,
and the lane at sys.tvec. That a trap at index 0 has mid 0 is the model's reading (log 37). -/
def Obligations.HandlerEntry : Prop :=
  ∀ (s : State) (c : Nat) (t : Team) (th : Thread) (ths : List Thread) (cause : BitVec 8) (int : Bool) (start : Word64) (idx : Nat)
    (tval : Word64), tget s.teams (scalarKey c) = some t → t.threads = th :: ths → idx < 32 →
    let k := s.core c
    let u := s.enterHandler c cause int start idx tval
    let bit (b : Bool) : BitVec 1 := if b then 1 else 0
    let k' := u.core c
    k'.tpc = start ∧ k'.tval = tval ∧ k'.shadow = th.t ∧
    k'.cause = (0 : BitVec 16) ++ bit (decide (idx ≠ 0)) ++ bit k.inHandler ++ bit int ++ BitVec.ofNat 5 idx ++ cause ∧
    k'.intEnable.getLsbD 8 = false ∧ k'.intEnable.getLsbD 9 = k.intEnable.getLsbD 8 ∧
    (∀ n, n ≠ 8 → n ≠ 9 → k'.intEnable.getLsbD n = k.intEnable.getLsbD n) ∧ k'.inHandler = true ∧ k'.tvec = k.tvec ∧
    u.mem = s.mem ∧ (∀ d, d ≠ c → u.core d = s.core d) ∧
    ∃ t' th', tget u.teams (scalarKey c) = some t' ∧ t'.groups = [] ∧ t'.threads = th' :: ths ∧ t'.s = t.s ∧ th'.stat = .atLeg ∧
      th'.pc = k.tvec ∧ th'.v = th.v ∧ th'.p = th.p ∧ th'.ix = th.ix

/-- R359: an SRET marks its leg, and the leg's trailer then returns: t0 to t5 from the shadow set, IE from PIE, and the scalar
lane at sys.tpc, at the index when mid is 1, held by the trailer's awaits. That the leg is fetched again and entered at its
index, held by the awaits of this leg alone, is the model's reading (log 37). -/
def Obligations.ReturnFromHandler : Prop :=
  (∀ (s t : State) (a : Act) (w : F3) (ins : List LaneIn), s.lanesF3 a 0x2C4 w ins →
    LaneChain (fun i _ s t => t = (s.updCore a.team.core fun k => { k with sret := true }).commitLane a.key i) (a.lead w.gs w.gp) ins s t →
    exec (.sret w) s = .next (t.advance a)) ∧
  (∀ (s : State) (a : Act) (w : TW) (th : Thread) (ths : List Thread), s.act = some a → a.grp.hold ≠ .dest →
    a.team.kind = .scalar → a.key = scalarKey a.team.core → a.team.ortNext = [] → (s.core a.team.core).sret = true →
    a.team.threads = th :: ths →
    ∀ (mk : TW → Instr) (aw : List Code),
    (mk ∈ [Instr.fall, .bra, .brx, .call, .callx, .ret, .exit] ∧ aw = [w.a0, w.a1, w.a2]) ∨ (mk = .loop ∧ aw = [w.a1, w.a2]) →
    let k := s.core a.team.core
    ∃ u t th', exec (mk w) s = .next u ∧ tget u.teams a.key = some t ∧ t.groups = [] ∧ t.threads = th' :: ths ∧
      th'.stat = .atLeg ∧ th'.pc = k.tpc ∧ th'.t = k.shadow ∧ th'.awaits = aw.filter (· ≠ 0xF0) ∧
      th'.resume = (if k.cause.getLsbD 15 then (k.cause.extractLsb' 8 5).toNat else 0) ∧ th'.v = th.v ∧
      (u.core a.team.core).intEnable.getLsbD 8 = k.intEnable.getLsbD 9 ∧ (u.core a.team.core).sret = false ∧
      (u.core a.team.core).inHandler = false ∧ u.mem = s.mem)

/-- R354, R355: TPOP gives each performing lane the record at head, or the mark of none, and moves head past it; TRES answers
the count of lanes that its record resumes: those that it parked and its mask selects, all or none of a collective record, after
the instruction for a system call, a breakpoint or a value. A value is written to the record's destination, a v register or a
temporary of each resumed lane or the s register of their team, and makes a register full. A record of a block that waits for it, an
instruction fetch of an absent granule, ends that wait; the mark of no record resumes nothing. That a value goes to v, t and s
destinations alone, and after an earlier result that is still to come, is the model's reading (log 44), and so are that TRES refuses a
record with a reserved bit set (log 64) and that a record which TPOP cannot read stays (log 77). -/
def Obligations.ServingRecords : Prop :=
  ∀ (s t : State) (a : Act) (w : F3) (ins : List LaneIn),
    let c := a.team.core
    let all (_ : Nat) : Bool := true
    (s.lanesF3 a 0x2CF w ins → (w.md.getLsbD 0 = true ∨ (s.core c).tqHead ≠ (s.core c).tqHand) →
      LaneChain (fun i lead s t =>
        let k := s.core c
        let u := s.acquireIn a all
        if k.tqHead = k.tqHand then t = u.laneResult a i lead (0xFFFFFFFF :: List.replicate 15 0)
        else
          let at' := k.tqAddr + 64 * (k.tqHead.toNat % k.tqCap)
          ∃ v bs, u.walkRead (dieOf c) at' 64 = (v, .ok bs) ∧
            t = ((v.updCore c fun k => { k with tqHead := k.tqHead + 1 }).tqChanged c).laneResult a i lead (bytesWords 16 bs))
        (a.lead w.gs w.gp) ins s t →
      exec (.tpop w) s = .next (t.advance a)) ∧
    (s.lanesF3 a 0x2D0 w ins → LaneChain (fun i lead s t => ∃ u n,
        let r := i.val 0
        let isVal := w.md.getLsbD 0
        let dest := ((r.getD 8 0).extractLsb' 8 8).toNat
        recordReserved r = false ∧ (isVal = true → (r.getD 0 0).getLsbD 9 = true) ∧ (w.md.getLsbD 1 = true → dest % 2 = 0 ∧ dest < 0xC6) ∧
        s.heldAny a i.lane = false ∧
        ((s.releaseIn a all).commitLane a.key i).serve r
          (if w.c = 0xF0 then none else some (lo64 (i.val (if isVal then 2 else 1))))
          (if isVal then some ((i.val 1).take (if w.md.getLsbD 1 then 2 else 1)) else none) = (u, n) ∧
        t = u.writeDst a.key i.lane lead i.dest.1 [BitVec.ofNat 32 n]) (a.lead w.gs w.gp) ins s t →
      exec (.tres w) s = .next (t.advance a)) ∧
    (∀ (r : List Word32) (mask : Option Word64) (val : Option (List Word32)) (key : Nat) (team : Team),
      let covers : BitVec 64 := r.getD 3 0 ++ r.getD 2 0
      let asked : BitVec 64 := match mask with | some m => covers &&& m | none => covers
      let served : BitVec 64 := if (r.getD 0 0).getLsbD 8 = true ∧ covers &&& ~~~asked ≠ 0 then 0 else asked
      let parked := team.parkedBy (r.getD 15 0) served
      let cause := (r.getD 0 0).extractLsb' 0 8
      let dest := ((r.getD 8 0).extractLsb' 8 8).toNat
      let after : Prop := val.isSome = true ∨ cause = 0x50 ∨ cause = 0x51
      r.getD 0 0 ≠ 0xFFFFFFFF → s.waitingOn ((r.getD 1 0).extractLsb' 0 11).toNat (r.getD 15 0) = none → s.handleTeam (r.getD 1 0) = some key →
      tget s.teams key = some team →
      (parked = [] → s.serve r mask val = (s, 0)) ∧
      (parked ≠ [] → ∃ v : Team, s.serve r mask val = (let u := s.setTeam key (v.unpark (parked.map fun e =>
            if after then (e.1, e.2.1, e.2.2.next ((r.getD 8 0).extractLsb' 0 5).toNat) else e) s.clock)
          match team.l1 with | some c => u.acquireL1 c all | none => u, parked.length) ∧
        (val = none ∨ dest = 0xF0 → v = team) ∧
        (∀ ws, val = some ws → ∀ e ∈ parked, ∀ (th : Thread) (k : Nat) (x : Word32), dest + ws.length ≤ 192 →
          team.threads[e.1]? = some th → ws[k]? = some x → dest + k < th.v.length →
          (∀ p ∈ team.pend, p.covers e.1 (.v (dest + k)) = false) →
          ∃ th' : Thread, v.threads[e.1]? = some th' ∧ th'.v[dest + k]? = some (VReg.write x)) ∧
        (∀ ws, val = some ws → ∀ e ∈ parked, ∀ (th : Thread) (k : Nat) (x : Word32), 0xC0 ≤ dest → dest + ws.length ≤ 0xC6 →
          team.threads[e.1]? = some th → ws[k]? = some x → dest - 0xC0 + k < th.t.length →
          ∃ th' : Thread, v.threads[e.1]? = some th' ∧ th'.t[dest - 0xC0 + k]? = some x) ∧
        (∀ ws, val = some ws → ∀ (k : Nat) (x : Word32), 0xE0 ≤ dest → dest + ws.length ≤ 0xF0 → ws[k]? = some x →
          dest - 0xE0 + k < team.s.length → (∀ p ∈ team.pend, ∀ e ∈ parked, p.covers e.1 (.s (dest - 0xE0 + k)) = false) →
          v.s[dest - 0xE0 + k]? = some { val := x, full := true }))) ∧
    (∀ (r : List Word32) (mask : Option Word64) (val : Option (List Word32)) (blk n : Nat) (b : Block),
      r.getD 0 0 ≠ 0xFFFFFFFF → s.waitingOn ((r.getD 1 0).extractLsb' 0 11).toNat (r.getD 15 0) = some (blk, n) → tget s.blocks blk = some b →
      s.serve r mask val = ((s.updBlock blk fun b => { b with waiting := none }).refreshSlots b.die, n)) ∧
    (∀ (r : List Word32) (mask : Option Word64) (val : Option (List Word32)), r.getD 0 0 = 0xFFFFFFFF → s.serve r mask val = (s, 0))

/-! ### System registers -/

/-- R206, R345-R348, R189, R192, R328, R357, R361: SYSRD completes with the value of its register for every thread that may
access it; sys.ipi, which is written alone, reads 0. That the address-space registers read as they stood when the leg
began is the model's reading (log 50), and the timer counts the model's clock (log 4). -/
def Obligations.SystemReads : Prop :=
  ∀ (s t : State) (a : Act) (w : F3) (ins : List LaneIn),
    let wide := w.md.getLsbD 0
    let lane := decide (a.team.kind = .scalar)
    let bit (b : Bool) : BitVec 1 := if b then 1 else 0
    let value (s : State) (th : Thread) : Option Word64 :=
      let k := s.core a.team.core
      let x (v : Word32) : Option Word64 := some (v.setWidth 64)
      match sysReg w with
      | 0x010 => some (((0 : BitVec 59) ++ bit th.idem ++ bit a.team.step ++ bit (decide (a.team.mode = .s)) ++ bit a.team.scopeMis ++
          bit a.team.dirRange : BitVec 64))
      | 0x020 => some k.tqBase | 0x021 => x k.tqHead | 0x022 => x k.tqTail | 0x023 => x k.tqBatch | 0x024 => x k.tqAge
      | 0x025 => x k.tqHand | 0x030 => some (BitVec.ofNat 64 s.clock + k.timerOff) | 0x031 => some k.timerCmp
      | 0x032 => some (k.intPending.setWidth 64) | 0x033 => x k.intEnable | 0x034 => some k.tvec | 0x035 => some k.tpc
      | 0x036 => x k.cause | 0x037 => some k.tval | 0x038 => some 0
      | 0x039 => some (BitVec.ofNat 64 (k.wdt.toNat - (s.clock - k.wdtSet)))
      | 0x040 => some a.team.ortBase | 0x041 => x a.team.ortSize | 0x042 => x a.team.asid
      | 0x060 => some (BitVec.ofNat 64 a.team.region.toNat)
      | 0x070 => if lane then some 0 else x a.team.xltLimit | 0x071 => x k.preGrace
      | 0x072 => if lane then some 0 else x a.team.relocLimit | 0x073 => if lane then some 0 else x a.team.rdvLimit
      | 0x080 => x th.bsp
      | 0x050 => some (BitVec.ofNat 64 (k.splitTarget + 256 * k.splitCurrent + 65536 * k.splitMoving.toNat + 131072 * k.splitBusy.toNat))
      | _ => none
    s.lanesF3 a 0x2C5 w ins → LaneChain (fun i lead s t => ∃ x, a.team.mayAccess (sysReg w) wide false ∧
        value s (a.thread i.lane) = some x ∧
        t = (s.commitLane a.key i).writeDst a.key i.lane lead i.dest.1 (if wide then words64 x else [low32 x])) (a.lead w.gs w.gp) ins s t →
      exec (.sysrd w) s = .next (t.advance a)

/-- R206, R345-R348, R352, R357: SYSWR completes with the register of its number, of the lowest lane's value: the timer and
handler registers, the limits, sys.status, the address-space registers from the next leg, and the trap queue. A value with a
reserved bit set is not among these, but reserved bits that a map marks RO are discarded (the model's reading, log 51). R189,
R192, R193, R361: the writes of sys.bsp, which is each thread's own, of sys.core_split, of sys.int_pending, sys.ipi and sys.wdt
complete. The timer is written against the model's clock (log 4). -/
def Obligations.SystemWrites : Prop :=
  (∀ (s t : State) (a : Act) (w : F3) (ins : List LaneIn) (mk : F3 → Instr) (f : State → Word64 → Option State),
    let c := a.team.core
    let core (s : State) (g : Core → Core) : Option State := some (s.updCore c g)
    let team (s : State) (g : Team → Team) : Option State := some (if a.team.kind = .scalar then s else s.updTeam a.key g)
    let next (s : State) (x : Word64) : Option State :=
      some (s.updTeam a.key fun t => { t with ortNext := t.ortNext ++ [((a.lead w.gs w.gp).getD 0, sysReg w, x)] })
    let cases : List (Nat × (F3 → Instr) × (State → Word64 → Option State)) :=
      [(0x024, .syswr, fun s x => some ((s.updCore c fun k => { k with tqAge := low32 x }).latchTq c)),
       (0x030, .syswr, fun s x => if a.team.kind = .scalar then core s fun k => { k with timerOff := x - BitVec.ofNat 64 s.clock } else some s),
       (0x031, .syswr, fun s x => core s fun k => { k with timerCmp := x }),
       (0x033, .syswr, fun s x => if x.extractLsb' 10 22 = 0 ∧ x.extractLsb' 6 2 = 0 then core s fun k => { k with intEnable := low32 x } else none),
       (0x034, .syswr, fun s x => core s fun k => { k with tvec := x }),
       (0x035, .syswr, fun s x => core s fun k => { k with tpc := x }),
       (0x036, .syswr, fun s x => if x.extractLsb' 16 16 = 0 then core s fun k => { k with cause := low32 x } else none),
       (0x037, .syswr, fun s x => core s fun k => { k with tval := x }),
       (0x022, .syswr, fun s _ => some s), (0x060, .syswr, fun s _ => some s),
       (0x070, .syswr, fun s x => team s fun t => { t with xltLimit := low32 x }),
       (0x071, .syswr, fun s x => core s fun k => { k with preGrace := low32 x }),
       (0x072, .syswr, fun s x => team s fun t => { t with relocLimit := low32 x }),
       (0x073, .syswr, fun s x => team s fun t => { t with rdvLimit := low32 x }),
       (0x010, .statusWrite, fun s x => if x.getLsbD 3 = true ∧ a.team.mode = .u then none else some (s.updTeam a.key fun t => { t with
         dirRange := t.dirRange && !x.getLsbD 0, scopeMis := t.scopeMis && !x.getLsbD 1, step := x.getLsbD 3 })),
       (0x040, .ortRegisterWrite, fun s x => if x.extractLsb' 48 16 = 0 ∧ x.extractLsb' 0 6 = 0 then next s x else none),
       (0x041, .ortRegisterWrite, fun s x => if x.extractLsb' 25 7 = 0 then next s x else none),
       (0x042, .ortRegisterWrite, fun s x => if x.extractLsb' 16 16 = 0 then next s x else none),
       (0x020, .tqBaseWrite, fun s x =>
         let cap := (x.extractLsb' 0 6).toNat
         if (x = 0 ∨ (x.extractLsb' 48 16 = 0 ∧ 4 ≤ cap ∧ cap ≤ 16 ∧ (x.extractLsb' 6 42).toNat % 2 ^ cap = 0)) ∧
             (s.core c).tqTail = (s.core c).tqHead then
           some ((s.updCore c fun k => { k with tqBase := x }).tqChanged c) else none),
       (0x021, .tqHeadWrite, fun s x =>
         let k := s.core c
         let h := low32 x
         if (k.tqTail - h).toNat ≤ k.tqCap then some ((s.updCore c fun k => { k with
           tqHead := h, tqHand := if (k.tqTail - h).toNat < (k.tqHand - h).toNat then h else k.tqHand }).tqChanged c) else none),
       (0x025, .tqHandWrite, fun s x =>
         let k := s.core c
         if (low32 x - k.tqHead).toNat ≤ (k.tqTail - k.tqHead).toNat then
           some ((s.updCore c fun k => { k with tqHand := low32 x }).latchTq c) else none),
       (0x023, .tqBatchWrite, fun s x => if 1 ≤ (low32 x).toNat ∧ (low32 x).toNat ≤ 65536 then
         some ((s.updCore c fun k => { k with tqBatch := low32 x }).latchTq c) else none)]
    (sysReg w, mk, f) ∈ cases → s.lanesF3 a 0x2C6 w ins → a.team.mayAccess (sysReg w) (w.md.getLsbD 0) true →
    LaneChain (fun i lead s t => ∃ u, f s (if w.md.getLsbD 0 then lo64 (i.val 0) else (lo32 (i.val 0)).setWidth 64) = some u ∧
      t = (if lead then u else s).commitLane a.key i) (a.lead w.gs w.gp) ins s t →
    exec (mk w) s = .next (t.advance a)) ∧
  (∀ (s t : State) (a : Act) (w : F3) (ins : List LaneIn), s.lanesF3 a 0x2C6 w ins →
    a.team.mayAccess (sysReg w) (w.md.getLsbD 0) true →
    let c := a.team.core
    let x (i : LaneIn) : Word32 := lo32 (i.val 0)
    let chain (f : LaneIn → Bool → State → State → Prop) : Prop := LaneChain f (a.lead w.gs w.gp) ins s t
    let once (i : LaneIn) (lead : Bool) (u s t : State) : Prop := t = (if lead then u else s).commitLane a.key i
    (sysReg w = 0x080 → chain (fun i _ s t => (x i).toNat % 8 = 0 ∧ (x i).toNat ≤ (a.thread i.lane).bagBytes ∧
        t = (s.updTeam a.key fun t => t.updThread i.lane fun th => { th with bsp := x i }).commitLane a.key i) →
      exec (.bspWrite w) s = .next (t.advance a)) ∧
    (sysReg w = 0x050 → chain (fun i lead s t =>
        let g := ((x i).extractLsb' 0 3).toNat
        let k := s.core c
        (x i).extractLsb' 3 5 = 0 ∧ once i lead (s.updCore c fun k' =>
          if k.splitMoving = true ∨ (g < k.splitCurrent ∧ s.scratchAbove c g = true) then { k' with splitBusy := true }
          else if k.splitCurrent < g then { k' with splitTarget := g, splitMoving := true, splitBusy := false }
          else { k' with splitTarget := g, splitCurrent := g, splitBusy := false }) s t) →
      exec (.coreSplitWrite w) s = .next (t.advance a)) ∧
    (sysReg w = 0x032 → chain (fun i lead s t => once i lead (s.updCore c fun k =>
        { k with intPending := (k.intPending &&& ~~~((x i).extractLsb' 0 6)) ||| s.asserting c }) s t) →
      exec (.intPendingClear w) s = .next (t.advance a)) ∧
    (sysReg w = 0x038 → chain (fun i lead s t =>
        let n := ((x i).extractLsb' 0 11).toNat
        let u := s.updCore n fun k => { k with intPending := k.intPending ||| 0x10 }
        (x i).extractLsb' 12 20 = 0 ∧ n < 1536 ∧
        once i lead (if (x i).getLsbD 11 then u.startLane n (u.core c).tvec 0 else u) s t) →
      exec (.ipiWrite w) s = .next (t.advance a)) ∧
    (sysReg w = 0x039 → chain (fun i lead s t => once i lead (s.updCore c fun k => { k with wdt := x i, wdtSet := s.clock }) s t) →
      exec (.wdtWrite w) s = .next (t.advance a)))

/-! ### Upkeep -/

/-- R228, R229, R362, R371: OINV drops the entries of a handle, of an address space or all; OSHOOT drops the stale entries of a
handle in the caches of its scope and performs the stores through them; IFLUSH writes the core's dirty lines back and empties
instruction caches; IDEM marks its thread inside or outside a section; WFI completes with an enabled interrupt pending and IE 0;
NOP does nothing. R221, R370: KEYSET writes a key slot with two unlike halves and its .clear form empties it, after the stores
under it that stand in an L1 have performed and its lines have left L2; HALTC halts each target once, and completes once every
group of that core has stopped or the core goes again; its .res form completes at once. R376, R377: IFLUSH completes while no
held write and no acquire of its thread is open. The lines that it writes back and drops, those under a key slot that KEYSET
drops, and where WFI completes (R360) are stated here as R221, R360, R376 and R377 have them. That a hold that ends drops cached
moving entries (log 31) and that an interrupt is taken at a held WFI (log 37) are the model's readings.
-/
def Obligations.Upkeep : Prop :=
  (∀ (s t : State) (a : Act) (w : F3) (ins : List LaneIn),
    let c := a.team.core
    let form := mdField w.md 1 0
    let scope := mdField w.md 2 0
    let x (i : LaneIn) : Word32 := lo32 (i.val 0)
    (s.lanesF3 a 0x2C7 w ins → LaneChain (fun i _ s t =>
        let stale (asid : Word32) (h : Nat) : Bool := if form = 0 then decide (asid = a.team.asid ∧ h = (x i).toNat)
          else if form = 1 then decide (asid = x i) else true
        (form = 0 → (x i).extractLsb' 24 8 = 0) ∧ (form = 1 → (x i).extractLsb' 16 16 = 0) ∧
        t = (s.updCore c fun k => { k with tlb := { recs := k.tlb.recs.filter fun e => !stale e.asid e.handle
                                                    grans := k.tlb.grans.filter fun e => !stale e.asid e.handle } }).commitLane a.key i)
        (a.lead w.gs w.gp) ins s t →
      exec (.oinv w) s = .next (t.advance a)) ∧
    (s.lanesF3 a 0x2C8 w ins → LaneChain (fun i _ s t =>
        let g := (lo32 (i.val 1)).extractLsb' 0 16
        let one := w.md.getLsbD 3
        let sc := if scope = 2 then some (hitchOf c) else none
        (x i).extractLsb' 24 8 = 0 ∧ (lo32 (i.val 1)).extractLsb' 16 16 = 0 ∧
        t = (((s.shoot sc fun tlb => {
          recs := tlb.recs.filter fun e => one || !decide (e.asid = a.team.asid ∧ e.handle = (x i).toNat ∧ e.gen ≠ g)
          grans := tlb.grans.filter fun e => !(decide (e.asid = a.team.asid ∧ e.handle = (x i).toNat ∧ e.gen ≠ g) &&
            (!one || decide (e.gran = (lo32 (i.val 2)).toNat))) }).performStores sc).recheckHandle a.team.asid (x i).toNat).commitLane
          a.key i) (a.lead w.gs w.gp) ins s t →
      exec (.oshoot w) s = .next (t.advance a)) ∧
    (s.lanesF3 a 0x2C9 w ins → scope < 3 → LaneChain (fun i _ s t => s.heldAny a i.lane = false ∧
        let v := match a.team.l1 with | some c => s.cleanLines c fun _ => true | none => s
        let u := if scope = 0 then v else v.acquireIn a fun _ => true
        let drop (u : State) (cs : List Nat) : State := cs.foldl (fun u c => u.updCore c fun k => { k with icache := [] }) u
        t = (if scope = 0 then drop u [c]
          else if scope = 1 then drop u (c :: match tget u.blocks a.team.block with | some b => b.cores | none => [])
          else (drop u (hitchCores (hitchOf c))).updHitch (hitchOf c) fun h => { h with icache := [] }).commitLane a.key i)
        (a.lead w.gs w.gp) ins s t →
      exec (.iflush w) s = .next (t.advance a)) ∧
    (s.lanesF3 a 0x2C9 w ins → 3 ≤ scope → LaneChain (fun i _ s t => s.heldAny a i.lane = false ∧
        let u := (match a.team.l1 with | some c => s.cleanLines c fun _ => true | none => s).acquireIn a fun _ => true
        t = ({ u with cores := u.cores.map fun e => (e.1, { e.2 with icache := [] })
                      hitches := u.hitches.map fun e => (e.1, { e.2 with icache := [] }) } : State).commitLane a.key i)
        (a.lead w.gs w.gp) ins s t →
      exec (.iflush w) s = .next (t.advance a)) ∧
    (s.lanesF3 a 0x2CA w ins → LaneChain (fun i _ s t => t = (s.updTeam a.key fun t => t.updThread i.lane fun th =>
        { th with idem := true, sect := a.grp.start }).commitLane a.key i) (a.lead w.gs w.gp) ins s t →
      exec (.idemEnter w) s = .next (t.advance a)) ∧
    (s.lanesF3 a 0x2CA w ins → LaneChain (fun i _ s t => t = (s.updTeam a.key fun t => t.updThread i.lane fun th =>
        { th with idem := false }).commitLane a.key i) (a.lead w.gs w.gp) ins s t →
      exec (.idemExit w) s = .next (t.advance a)) ∧
    (s.lanesF3 a 0x2CB w ins → (s.core c).intPending &&& (s.core c).intEnable.extractLsb' 0 6 ≠ 0 →
      (s.core c).intEnable.getLsbD 8 = false → exec (.wfi w) s = .next ((s.commitAll a.key ins).advance a)) ∧
    (s.readyF3 a 0x2CE w ins → exec (.nop w) s = .next (s.performed a ins fun _ => []))) ∧
  (∀ (s t : State) (a : Act) (w : F3) (ins : List LaneIn),
    let x (i : LaneIn) : Nat := (lo32 (i.val 0)).toNat
    let slotOk (i : LaneIn) (s : State) : Prop := 1 ≤ x i ∧ x i ≤ 8191 ∧ ∀ h ∈ s.held, h.keySlot ≠ x i
    (s.lanesF3 a 0x2CC w ins → LaneChain (fun i _ s t => ∃ u bs, slotOk i s ∧
        s.waitsHeld a i.lane (lo64 (i.val 1)) 64 64 .load = false ∧ s.readLane a (lo64 (i.val 1)) 64 64 0 = (u, .ok bs) ∧
        let data : BitVec 256 := BitVec.ofNat 256 (ofBytes (bs.take 32))
        let tweak : BitVec 256 := BitVec.ofNat 256 (ofBytes (bs.drop 32))
        data ≠ tweak ∧
        let v := u.dropKeyLines (x i)
        t = ({ v with keys := tset v.keys (x i) (.pair data tweak) } : State).commitLane a.key i)
        (a.lead w.gs w.gp) ins s t →
      exec (.keyset w) s = .next (t.advance a)) ∧
    (s.lanesF3 a 0x2CC w ins → LaneChain (fun i _ s t => slotOk i s ∧
        let v := s.dropKeyLines (x i)
        t = ({ v with keys := tdel v.keys (x i) } : State).commitLane a.key i) (a.lead w.gs w.gp) ins s t →
      exec (.keysetClear w) s = .next (t.advance a)) ∧
    (s.lanesF3 a 0x2CD w ins → LaneChain (fun i _ s t => x i < 1536 ∧
        let waiting : Prop := (∃ d, a.grp.hold = .wait d) ∧ ins.head? = some i
        let u := if waiting then s else s.updCore (x i) fun k => { k with halted := true }
        ((u.core (x i)).halted = false ∨
          ∀ sl team, sl < 32 → tget u.teams (teamKey (x i) sl) = some team → ∀ j g, team.groups[j]? = some g →
            g.hold ≠ .none ∨ (a.key = teamKey (x i) sl ∧ a.g = j)) ∧ t = u.commitLane a.key i) (a.lead w.gs w.gp) ins s t →
      exec (.haltc w) s = .next (t.advance a)) ∧
    (s.lanesF3 a 0x2CD w ins → LaneChain (fun i _ s t => x i < 1536 ∧
        t = (s.updCore (x i) fun k => { k with halted := false }).commitLane a.key i) (a.lead w.gs w.gp) ins s t →
      exec (.haltcRes w) s = .next (t.advance a)))

/-! ### What the cores do by themselves -/

/-- R97, R98, R100, R101, R107, R111, R114, R257, R374: the pick takes a longest-waiting candidate of an active team, whose group
is every ready thread at one leg start and none of whose threads has an acquire that has not performed, and starts it on its leg; the ready team that has waited longest joins an active set with a
place free; a group held at a rendezvous past the limit traps, with the number of threads that had not arrived; a wait without a
registration is tested again. Which turn comes next, and that a pick waits for the acquires of its threads before it fetches,
are the model's (log 3), as are the lower slot of two teams that have waited
equally (log 62), that clocks in the context store count as held (log 72), and the turn of a test of AWAIT (log 41). -/
def Obligations.GroupEvents : Prop :=
  ∀ (s : State),
    (∀ core lb c, s.nextPick core lb = some c →
      (c.key, c.team) ∈ s.teamsAt core lb ∧ c.team.active = true ∧
      (∀ l th, l < 64 → c.team.threads[l]? = some th → (c.lanes.getLsbD l = true ↔ th.ready = true ∧ th.pc = c.pc)) ∧
      (∀ l ∈ laneList c.lanes, s.acquiring c.key c.team l = false) ∧
      ∀ e ∈ s.teamsAt core lb, e.2.active = true → s.mayPick e.2 = true → ∀ th ∈ e.2.threads, th.ready = true →
        (∀ l ∈ laneList (e.2.candidate e.1 th.pc).lanes, s.acquiring e.1 e.2 l = false) →
        c.since ≤ (e.2.candidate e.1 th.pc).since) ∧
    (∀ core lb c u ws leg, s.occ = .laneBlock core lb → s.nextPick core lb = some c → c.resume = 0 →
      s.fetchWords c.team c.pc [] 25 = (u, .ok ws) → legCheck c.team.allot ws = .ok leg →
      exec .groupPick s = .next (u.updTeam c.key fun t => { t with
        legs := t.legs + 1
        threads := (laneList c.lanes).foldl (fun ths l => modAt ths l fun th =>
          { th with stat := .running, t := List.replicate 6 0, resume := 0 }) t.threads
        groups := t.groups ++
          [{ lanes := c.lanes, start := c.pc, leg := leg, pos := 0, idx := 0, hold := .none, since := u.clock }] })) ∧
    (∀ core lb, s.occ = .laneBlock core lb → s.nextPick core lb = none → exec .groupPick s = .next s) ∧
    (∀ core lb k t pre post, s.occ = .laneBlock core lb → lb < 4 →
      let u := s.trimActive core lb
      let waits (e : Nat × Team) : Prop := e.2.active = false ∧ e.2.anyReady = true ∧ u.mayPick e.2 = true
      (u.teamsAt core lb).countP (fun e => e.2.active) < 4 → u.teamsAt core lb = pre ++ (k, t) :: post → waits (k, t) →
      (∀ e ∈ pre, waits e → t.waiting < e.2.waiting) → (∀ e ∈ post, waits e → t.waiting ≤ e.2.waiting) →
      exec .activeSetJoin s = .next (u.updTeam k fun t => { t with active := true, legs := 0, waitSince := u.clock })) ∧
    (∀ key g a snap left, s.occ = .group key g → s.actOf key g = some a → a.grp.hold = .cross snap left →
      a.team.xltLimit ≠ 0 → a.team.xltLimit.toNat < s.clock - a.grp.since →
      let absent (l : Nat) : Bool := (a.team.mustArrive snap left).getLsbD l && !(a.team.lanesOf (a.team.heldAt a.grp.at)).getLsbD l
      let fault (l : Nat) : LaneFault := laneFault l .crosslaneTimeout (BitVec.ofNat 32 ((List.range 64).countP absent)) 0
      ∀ l ls, laneList a.grp.lanes = l :: ls →
        exec .crosslaneTimeout s = .next ((s.faultAll a (unpackF3 a.word).d (l :: ls) ((l :: ls).map fault) (fault l) noAddrs).updTeam key
          Team.dropEmpty)) ∧
    (∀ key g t gr, s.occ = .group key g → tget s.teams key = some t → t.groups[g]? = some gr →
      exec .awaitRetest s = .next { s with watches := s.watches.map fun w =>
        if w.engine = false ∧ w.registered = false ∧ w.key = key ∧ gr.lanes.getLsbD w.lane = true ∧ 512 ≤ s.clock - w.since then
          { w with woken := true } else w })

/-- R124, R193, R202, R219, R252, R253, R255, R322, R323: a result that has come is written to its registers, which are full; a
producer's write-back completes the pops that wait for it; a held write comes after those of its group and instruction that are
held before it on its location; once its entry is no longer moving it is translated afresh and performs where it then stands,
with the checks of a synchronising access there, and is dropped past the limit that its team has; the lines in the moving ways
of a core are written back and dropped. That a thread whose held write fails its fresh translation or its checks traps for it is
the model's choice (log 65); that a hold that ends drops cached moving entries is its reading (log 31). When each of these turns comes is the model's (log 3). -/
def Obligations.ResultEvents : Prop :=
  ∀ (s : State),
    (∀ key n t p, s.occ = .result key n → tget s.teams key = some t → t.pend[n]? = some p →
      (p.wait = .ready → exec .resultWriteback s =
        .next (s.updTeam key fun t => { t.arrive p with pend := t.pend.eraseIdx n })) ∧
      (∀ blk off prod, p.wait = .ring blk off prod → exec .resultWriteback s = .next (s.ringWake blk off)) ∧
      (∀ header start word w8, p.wait = .relay header start word w8 → exec .resultWriteback s = .next (s.relayWake header)) ∧
      (∀ r k th i, p.wait = .ready → p.dest = .v r k → t.threads[p.lane]? = some th → i < k → r + i < th.v.length →
        ∃ th', (t.arrive p).threads[p.lane]? = some th' ∧
          th'.v[r + i]? = if p.killed.contains (r + i) then th.v[r + i]?
            else some (VReg.write ((tget p.newer (r + i)).getD (p.words.getD i 0))))) ∧
    (∀ core slot tag, s.occ = .team core slot tag →
      let waits (p : Pend) : Bool := decide (p.wait = .writeback core slot tag)
      ∃ t : State, exec .relayWritebackRequest s = .next t ∧
        (∀ l ∈ (t.core core).l1, l.ofTask (teamKey core slot) tag = false) ∧
        ∀ k u, tget s.teams k = some u → ∃ u', tget t.teams k = some u' ∧
          u'.pend = u.pend.map (fun p => if waits p then { p with wait := .ready } else p) ∧
          (u.pend.any waits = false → u'.threads = u.threads) ∧
          (∀ p, u.pend.filter waits = [p] →
            u'.threads = modAt u.threads p.lane fun th => { th with taskTag := (p.words.getD 7 0).setWidth 16 })) ∧
    (∀ n h, s.occ = .held n → s.held.find? (fun h => decide (h.id = n)) = some h →
      let first (k : Held) : Bool := k.engine.isNone && !k.dev && !h.dev && decide (k.id < h.id ∧ k.key = h.key ∧ k.start = h.start ∧
        k.word = h.word ∧ k.w8 = h.w8 ∧ k.since = h.since ∧ k.pa < h.pa + h.width ∧ h.pa < k.pa + k.width)
      let u := (s.held.filter first).foldl State.recheckHeld s
      exec .heldWriteRecheck s = .next (if u.held.any first then u else u.recheckHeld h)) ∧
    (∀ h : Held,
      let e := s.devDouble h.unitDie h.entryAt
      let moving : Prop := e.extractLsb' 48 16 = 0 ∧ e.extractLsb' 2 14 = 0 ∧ e.extractLsb' 0 2 = 2
      let u : State := { s.forgetGranule h.asid ((h.va.extractLsb' 40 24).toNat) h.gran with
        held := s.held.filter fun k => decide (k.id ≠ h.id) }
      let goes (t : State) : Prop := s.recheckHeld h = t
      let failed (v : State) (f : XFault) : State :=
        (v.heldDone h.id (List.replicate (h.width / 4) 0)).trapFor h f.cause.code f.w9 h.va
      (moving → goes s) ∧
      (¬moving → h.engine.isSome = true → goes u) ∧
      (¬moving → h.engine = none → ∀ v f, u.xlHeld h = (v, .error f) → h.dev = false → goes (failed v f)) ∧
      (¬moving → h.engine = none → ∀ v x bit bits, u.xlHeld h = (v, .ok (x, bit, bits)) →
        let w := if h.dev then v else v.evictLine (h.key / 64) (x.pa / 128)
        let eff := effScope x h.scope
        let checked := w.admitAt h.degrade h.hitch x h.width eff h.order (decide (h.op ≠ .scnd)) fun s => s.busFault h.die x h.width true
        (x.moving = true → goes { v with held := v.held ++ [{ h with pa := x.pa, entryAt := x.entryAt, gran := x.gran }] }) ∧
        (x.moving = false → h.plain = true → h.dev = false → bits % 8 = 0 → ∀ t,
          w.busWrite h.die x (h.bytes.take (bits / 8)) = (t, none) → goes t) ∧
        (x.moving = false → h.plain = true → h.dev = false → bits % 8 ≠ 0 → ∀ t,
          w.mergeHome h.die x bit bits (ofBytes h.bytes) = (t, none) → goes t) ∧
        (x.moving = false → h.plain = false → h.dev = false → ∀ v f, checked = (v, .error f) → goes (failed v f)) ∧
        (x.moving = false → h.plain = false ∨ h.dev = true → ∀ v stands, checked = (v, .ok stands) →
          let noted := if stands = false ∧ h.dev = false ∧ h.live = true then v.updTeam h.key fun t => { t with scopeMis := true } else v
          let sp : Spot := .glob x (if stands then eff else max 3 eff)
          let at' := noted.claimSpot h.hitch sp
          (h.plain = true → ∀ t, at'.busWrite h.die x h.bytes false = (t, none) → goes t) ∧
          (h.plain = false → h.op = .scnd → ∀ t b, at'.scndAt h.die (if h.live then some h.key else none) sp h.width h.data = (t, .ok b) →
            goes (t.heldDone h.id [b])) ∧
          (h.plain = false → h.dev = false → h.op ≠ .scnd → ∀ t old, at'.rmw h.die x h.width h.op h.signed h.data h.cmp false = (t, .ok old) →
            let done := t.heldDone h.id (valWords h.width old)
            (h.acq = false ∨ stands = false ∨ h.live = false → goes done) ∧
            (h.acq = true → stands = true → h.live = true → at'.faultMark sp h.width = none → goes
              (match (tget done.teams h.key).bind Team.l1 with | some c => done.acquireL1 c fun _ => true | none => done)))))) ∧
    (∀ n h, s.occ = .held n → s.held.find? (fun h => decide (h.id = n)) = some h →
      let limit : Word32 := if h.engine.isSome then h.limit else match tget s.teams h.key with | some t => t.relocLimit | none => h.limit
      (h.live = false ∨ limit = 0 ∨ s.clock - h.since ≤ limit.toNat → exec .heldWriteDrop s = .next s) ∧
      (h.live = true → limit ≠ 0 → limit.toNat < s.clock - h.since →
        (∀ die q, h.engine = some (die, q) → exec .heldWriteDrop s =
          .next (s.stopQueue die q { cause := .relocationWait, detail := h.gran, addr := h.va })) ∧
        (h.engine = none → ∀ t, tget s.teams h.key = some t →
          let mine (k : Held) : Bool := k.live && k.engine.isNone &&
            decide (k.key = h.key ∧ k.start = h.start ∧ k.word = h.word ∧ k.w8 = h.w8 ∧ k.since = h.since)
          let gone := s.held.filter mine
          let t' : Team := gone.foldl Team.deadDest t
          let d : Drop := { start := h.start, word := h.word, w8 := h.w8, lanes := gone.map fun k => (k.lane, k.gran, k.va) }
          exec .heldWriteDrop s =
            .next (({ s with held := s.held.filter fun k => !mine k }.setTeam h.key { t' with drops := t'.drops ++ [d] }).takeDrops h.key
              t'.atBoundary)))) ∧
    (∀ c, s.occ = .core c →
      ((s.core c).splitMoving = true → exec .coreSplitGrowDone s =
        .next ((s.cleanLines c fun l => decide (l.way < (s.core c).splitTarget)).updCore c fun k => { k with
          l1 := k.l1.filter fun l => decide (k.splitTarget ≤ l.way), splitCurrent := k.splitTarget, splitMoving := false })) ∧
      ((s.core c).splitMoving = false → exec .coreSplitGrowDone s = .next s))

/-- R352, R357, R358, R361: the timer latches bit 0 while it is at or past its compare value; the trap queue latches bit 1 when
its batch threshold is reached, a record waits for a slot, or the record at index hand is older than the age limit; an interrupt
is taken at a leg boundary or a blocking instruction, by the lowest enabled pending bit; a watchdog that has run out enters the
handler with int 0, whatever IE holds. The turns at which these tests are made are the model's (log 3), and the points at which
an interrupt is taken are its reading (log 37). -/
def Obligations.InterruptEvents : Prop :=
  ∀ (s : State) (c : Nat), s.occ = .core c →
    let k := s.core c
    let pend : BitVec 6 := k.intPending &&& k.intEnable.extractLsb' 0 6
    (k.timerCmp.toNat ≤ (BitVec.ofNat 64 s.clock + k.timerOff).toNat → exec .timerCompareMatch s =
      .next (s.updCore c fun k => { k with intPending := k.intPending ||| 1 })) ∧
    ((BitVec.ofNat 64 s.clock + k.timerOff).toNat < k.timerCmp.toNat → exec .timerCompareMatch s = .next s) ∧
    (let unhanded := (k.tqTail - k.tqHand).toNat
     let asserts : Prop := (unhanded ≠ 0 ∧ k.tqBatch.toNat ≤ unhanded) ∨ k.tqWait ≠ [] ∨
       (k.tqAge ≠ 0 ∧ unhanded ≠ 0 ∧ ∃ w, tget k.tqTimes k.tqHand.toNat = some w ∧ k.tqAge.toNat < s.clock - w)
     (asserts → exec .tqAgeExpiry s = .next (s.updCore c fun k => { k with intPending := k.intPending ||| 2 })) ∧
     (¬asserts → exec .tqAgeExpiry s = .next (s.updCore c fun k => k))) ∧
    (∀ t start idx, k.started = true → k.intEnable.getLsbD 8 = true → pend ≠ 0 → tget s.teams (scalarKey c) = some t →
      t.interruptPoint = some (start, idx) → exec .interruptTake s =
        .next ((s.withdraw c).enterHandler c (if pend.getLsbD 0 then Cause.timer.code else Cause.interrupt.code) true start idx
          (pend.setWidth 64))) ∧
    (k.intEnable.getLsbD 8 = false ∨ pend = 0 → exec .interruptTake s = .next s) ∧
    (∀ t start idx, k.wdt ≠ 0 → k.wdtSet + k.wdt.toNat ≤ s.clock → tget s.teams (scalarKey c) = some t →
      t.anyPoint = some (start, idx) →
      exec .watchdogExpiry s = .next (((s.updCore c fun k => { k with wdt := 0 }).withdraw c).enterHandler c Cause.watchdog.code false start
        idx 0)) ∧
    (k.wdt = 0 ∨ s.clock < k.wdtSet + k.wdt.toNat → exec .watchdogExpiry s = .next s)

/-! ### Stores to the control windows -/

/-- R232, R233, R236, R241, R244, R291, R312, R317, R318, R326, R329, R331, R332, R341, R364, R367, R380, R381, R387, R389-R391, R394,
R395, R399: what each store of the table does to the record that it names, and that a refused one changes nothing but its
refused flag. REGISTER_WRITE stores the words of each row that it names and no other; a read-only word and a hole take nothing.
A mapped slot charges its region's path, takes the queue's packets and tests its ring; an unmapped one gives the charge back and
leaves a pending bit for a ring with packets. A discarded queue is idle with its settings kept, its held writes and watches
gone, and its fork aborted; the block whose last team, queue and fork are gone ends, its charges given back and the requests
that wait for it answered, and one whose last team alone is gone gives back its barriers. The size and place of the extend word
and that the fallback counter at 0x1800 is read-only (log 18), that the ring is compared at a mapping (log 38), who may store
to the extend word and to remote windows (log 67), what a restart clears (log 47), the first store that locks the feature block
(log 46), and that a taken packet stays with its queue when its slot is unmapped (log 19), are the model's readings; that a QCB
or region block with a reserved bit is refused is its choice (log 64). -/
def Obligations.ControlStores : Prop :=
  ∀ (s : State) (c : CtlStore), s.occ = .ctl c →
    let o := c.off
    let dieAt (lo hi : Nat) : Prop := c.die < 16 ∧ lo ≤ o ∧ o < hi ∧ o % 4 = 0
    let ioAt (lo hi : Nat) : Prop := (c.die = 16 ∨ c.die = 17) ∧ lo ≤ o ∧ o < hi ∧ o % 4 = 0
    let mainAt (lo hi : Nat) : Prop := c.die = 16 ∧ lo ≤ o ∧ o < hi ∧ o % 4 = 0
    let d := s.die c.die
    let low (x : Word32) (n : Nat) : Nat := x.toNat % 2 ^ n
    -- partition entries
    (dieAt 0 0x1000 → o % 16 < 12 →
      let p := o / 16
      let e := d.partEntry p
      let w0 := c.new (16 * p) e.w0
      let w1 := c.new (16 * p + 4) e.w1
      let w2 := c.new (16 * p + 8) e.w2
      let bad : Prop := w0.toNat / 2 ^ 18 ≠ 0 ∨ w1.toNat / 2 ^ 16 ≠ 0 ∨ w2.toNat / 2 ^ 24 ≠ 0 ∨
        (w0.getLsbD 16 = true ∧ low w0 16 = 0) ∨ 24576 < w1.toNat ∨
        (w0.getLsbD 17 = true ∧ ∃ e ∈ d.parts, e.1 ≠ p ∧ e.2.w0.getLsbD 16 = true ∧ e.2.w0.getLsbD 17 = true) ∨
        (p = 0 ∧ w0.getLsbD 16 = false)
      (bad → exec .partitionEntryWrite s =
        .next (s.updDie c.die fun d => { d with parts := tset d.parts p { e with refused := true } })) ∧
      (¬bad → ∃ sweeping, exec .partitionEntryWrite s = .next (s.updDie c.die fun d => { d with
          parts := tset d.parts p { w0 := w0, w1 := w1, w2 := w2, refused := false, sweeping := sweeping } }) ∧
        (sweeping = true ↔ w0.getLsbD 16 = true ∧
          ((e.sweeping = true ∧ ∃ l ∈ d.l2, l.part = p ∧ e.w0.getLsbD l.way = false) ∨ low w0 16 ≠ low e.w0 16) ∧
          ∃ l ∈ d.l2, l.part = p ∧ w0.getLsbD l.way = false))) ∧
    -- stack blocks
    (dieAt 0x1000 0x1008 ∨ dieAt 0x1100 0x1108 →
      exec .stackCounterReset s = .next (s.updStack c.die ((o - 0x1000) / 256) fun k =>
        { k with corrected := if o % 256 = 0 then 0 else k.corrected
                 uncorrected := if o % 256 = 4 ∨ c.wide then 0 else k.uncorrected })) ∧
    (dieAt 0x1010 0x1014 ∨ dieAt 0x1110 0x1114 →
      exec .stackNewClear s = .next (s.updStack c.die ((o - 0x1000) / 256) fun k =>
        { k with fresh := k.fresh && !c.data.getLsbD 0 })) ∧
    -- the queue table
    (dieAt 0x2000 0x2400 →
      let q := (o - 0x2000) / 32
      let k := s.queue c.die q
      let w := low32 c.data
      (o % 32 = 0 →
        let bad : Prop := w.toNat / 2 ^ 25 ≠ 0 ∨ (k.block.isSome = true ∧ w.setWidth 24 ≠ k.owner)
        (bad → exec .queueOwnerWrite s = .next (s.updQueue c.die q fun k => { k with refused := true })) ∧
        (¬bad → exec .queueOwnerWrite s =
          .next (s.updQueue c.die q fun k => { k with owner := w.setWidth 24, enabled := w.getLsbD 24, refused := false }))) ∧
      (o % 32 = 4 → w.getLsbD 3 = true → w.getLsbD 4 = false → exec .queueRestart s = .next (s.updQueue c.die q fun k =>
        if k.state = .stopped then { k with state := .bound, cause := 0, detail := 0, addr := 0, command := 0 } else k)) ∧
      (o % 32 = 4 → w.getLsbD 4 = true →
        let u := s.discardQueue c.die q
        let cleared : Queue := { Queue.reset with owner := k.owner, enabled := k.enabled, refused := k.refused }
        let party (f : Fork) : Bool := f.queues.contains q && !(match f.partyOf q with | some i => f.ended.getLsbD i | none => true)
        (k.block = none → exec .queueDiscard s = .next u) ∧
        (∀ b, k.block = some b → exec .queueDiscard s = .next (u.settleBlock b)) ∧
        (k.state = .idle → u = s) ∧
        (k.state ≠ .idle → u.queue c.die q = cleared ∧ (∀ h ∈ u.held, h ∈ s.held ∧ h.engine ≠ some (c.die, q)) ∧
          (∀ h ∈ u.watches, h.engine = true → h.key ≠ c.die * 32 + q)) ∧
        (∀ b x, k.state ≠ .idle → k.block = some b → tget s.blocks b = some x → x.forks.all (fun f => !party f) = true →
          u.blocks = s.blocks ∧ u.mem = s.mem ∧ u.teams = s.teams) ∧
        (∀ b x f, k.state ≠ .idle → k.block = some b → tget s.blocks b = some x → x.forks.find? party = some f →
          x.forks.find? (fun g => decide (g.off = f.off)) = some f → ∃ x', tget u.blocks b = some x' ∧ x' = { x with forks := x.forks.filter (fun g => decide (g.off ≠ f.off)), scratch := x'.scratch } ∧
            ∀ g ∈ f.queues, f.die < s.dies.length → g < (s.die f.die).queues.length →
              (∃ i, f.partyOf g = some i ∧ f.ended.getLsbD i = false) →
              (u.queue f.die g).state = .idle ∧ (u.queue f.die g).block = none))) ∧
    -- the end of a block whose last team has exited
    (∀ b x, tget s.blocks b = some x →
      ((x.stat ≠ .placed ∧ x.stat ≠ .saving) ∨ s.teamsOf b ≠ [] → s.settleBlock b = s) ∧
      (x.stat = .placed ∨ x.stat = .saving → s.teamsOf b = [] →
        (∀ q, q < 32 → ¬((s.queue x.die q).block = some b ∧ (s.queue x.die q).state = .stopped)) →
        (s.queueBound b = true ∨ x.forks ≠ [] → tget s.nbhds x.nbhd = none →
          s.settleBlock b = (s.reclaim x.die x.path (x.charges.filter fun e => decide (e.1 = 6))).updBlock b fun y =>
            { y with bars := [], nbars := 0, charges := y.charges.filter fun e => decide (e.1 ≠ 6) }) ∧
        (s.queueBound b = false → x.forks = [] → tget (s.settleBlock b).blocks b = none ∧
          (tget s.nbhds x.nbhd = none → s.settleBlock b =
            (({ s with blocks := tdel s.blocks b } : State).reclaim x.die x.path x.charges).endRequests x.die)))) ∧
    -- the dispatcher, context-store and feature blocks
    (dieAt 0x3000 0x3010 →
      let base := c.pair 0x3000 d.regionBase
      let count := c.new 0x3008 d.regionCount
      let sup := c.new 0x300C d.supCore
      let bad : Prop := base.toNat / 2 ^ 48 ≠ 0 ∨ base.toNat % 2 ^ 8 ≠ 0 ∨ 2 ^ 24 < count.toNat ∨ 1535 < sup.toNat
      (bad → exec .dispatcherBlockWrite s = .next (s.updDie c.die fun d => { d with dispRefused := true })) ∧
      (¬bad → exec .dispatcherBlockWrite s = .next (s.updDie c.die fun d =>
        { d with regionBase := base, regionCount := count, supCore := sup, dispRefused := false }))) ∧
    (dieAt 0x3040 0x304C → c.die < s.dies.length →
      let base := c.pair 0x3040 d.ctxBase
      let bad : Prop := base.toNat / 2 ^ 48 ≠ 0 ∨ base.toNat % 2 ^ 16 ≠ 0
      (bad → exec .contextStoreWrite s = .next (s.updDie c.die fun d => { d with ctxRefused := true })) ∧
      (¬bad → exec .contextStoreWrite s = .next (s.updDie c.die fun d =>
        { d with ctxBase := base, ctxFrames := c.new 0x3048 d.ctxFrames, ctxRefused := false }))) ∧
    (dieAt 0x30A0 0x30B0 → c.die < s.dies.length →
      let w (i : Nat) : Word32 := c.new (0x30A0 + 4 * i) (d.featEnabled.extractLsb' (32 * i) 32)
      let x : BitVec 128 := w 3 ++ w 2 ++ w 1 ++ w 0
      let bad : Prop := (∃ i, i < 128 ∧ x.getLsbD i = true ∧ ((fusedOf c.die).getLsbD i = false ∨ d.micro.getLsbD i = false)) ∨
        x.getLsbD 0 = false ∨ d.featLocked = true
      (bad → exec .featureEnableWrite s = .next (s.updDie c.die fun d => { d with featRefused := true })) ∧
      (¬bad → exec .featureEnableWrite s = .next (s.updDie c.die fun d =>
        { d with featEnabled := x, featLocked := decide (o = 0x30A0), featRefused := false }))) ∧
    -- slots, kick words and the pending map
    (dieAt 0x8400 0x8600 → o % 32 < 16 →
      let n := (o - 0x8400) / 32
      let b := 0x8400 + 32 * n
      let t := s.slot c.die n
      let w0 := c.new b (if t.valid then 1 else 0)
      let w1 := c.new (b + 4) (t.doorbell.setWidth 32)
      let qcb := c.pair (b + 8) t.qcb
      let bad : Prop := w0.toNat / 2 ≠ 0 ∨ w1.toNat / 2 ^ 12 ≠ 0 ∨ qcb.toNat / 2 ^ 48 ≠ 0 ∨ qcb.toNat % 128 ≠ 0
      let refused := s.updSlot c.die n fun t => { t with refused := true }
      let put := s.updSlot c.die n fun t =>
        { t with valid := w0.getLsbD 0, doorbell := w1.setWidth 12, qcb := qcb, refused := false }
      (t.valid = false → (c.new b 0).getLsbD 0 = true →
        (bad → exec .slotMap s = .next refused) ∧
        (¬bad →
          let at' := (put.slot c.die n).qcbAt
          let path := put.path (put.tabOf c.die) ((put.qcbWord c.die at' 1).toNat % 2 ^ 24)
          (path = none ∨ qcbClean (put.qcbWord c.die at') = false → exec .slotMap s = .next refused) ∧
          ∀ p, path = some p → qcbClean (put.qcbWord c.die at') = true →
            (put.chargeFits c.die p [(0, 1)] = false → exec .slotMap s = .next refused) ∧
            (put.chargeFits c.die p [(0, 1)] = true →
              let v := (put.charge c.die p [(0, 1)] 1).updDie c.die fun d => { d with
                packets := d.packets.map fun k => if k.qcb = at' then { k with slot := n } else k }
              exec .slotMap s = .next ((v.updSlot c.die n fun t => { t with
                known := decide (v.qcbWord c.die at' 9 ≠ v.qcbWord c.die at' 6), path := p }).refreshSlots c.die)))) ∧
      (t.valid = true → (c.new b 1).getLsbD 0 = false →
        (bad → exec .slotUnmap s = .next refused) ∧
        (¬bad →
          let v := (put.reclaim c.die t.path [(0, 1)]).updSlot c.die n fun t => { t with known := false, ready := false, path := [] }
          exec .slotUnmap s = .next (if v.qcbWord c.die t.qcbAt 9 ≠ v.qcbWord c.die t.qcbAt 6 then
            v.updDie c.die fun d => { d with pending := (d.pending ++ [t.doorbell.toNat]).eraseDups } else v))) ∧
      (t.valid = w0.getLsbD 0 → c.wide = false → exec .registerWrite s = .next (if bad then refused else put))) ∧
    (dieAt 0x8400 0x8600 → o % 32 = 28 →
      let n := (o - 0x8400) / 32
      let t := s.slot c.die n
      let mine (e : Nat × Block) : Bool := decide (e.2.die = c.die ∧ e.2.qcb = t.qcbAt ∧ e.2.stat = .placed)
      let answer (r : BitVec 2) : State := s.updSlot c.die n fun t => { t with result := r }
      let inside (s : State) (blk : Nat) : Bool := (s.teamsOf blk).all fun k => match tget s.teams k with
        | some t => t.threads.all fun (th : Thread) => decide (th.stat = .exited) || th.idem
        | none => true
      let begun := s.updSlot c.die n fun t => { t with preempting := true, result := 0 }
      let after (s : State) : State := (s.endRequest c.die n).refreshSlots c.die
      let save (s : State) (e : Nat × Block) : State := s.updBlock e.1 fun b => { b with stat := .saving }
      (low (low32 c.data) 2 = 1 →
        (t.preempting = true → exec .preemptSave s = .next (answer 3)) ∧
        (t.preempting = false → t.valid = false ∨ s.blocks.filter mine = [] → exec .preemptSave s = .next (answer 2)) ∧
        (t.preempting = false → t.valid = true → s.blocks.filter mine ≠ [] →
          exec .preemptSave s = .next (after ((s.blocks.filter mine).foldl save begun)))) ∧
      (low (low32 c.data) 2 = 2 →
        (t.preempting = true → exec .preemptIdem s = .next (answer 3)) ∧
        (t.preempting = false → t.valid = false ∨ s.blocks.filter mine = [] → exec .preemptIdem s = .next (answer 2)) ∧
        (t.preempting = false → t.valid = true → s.blocks.filter mine ≠ [] →
          exec .preemptIdem s = .next (after ((s.blocks.filter mine).foldl
            (fun s e => if inside s e.1 then s.discardBlock e.1 else save s e) begun))))) ∧
    (dieAt 0x4000 0x8000 → c.wide = false →
      let n := (o - 0x4000) / 4
      (∀ i, i < 16 → (s.slot c.die i).valid = true → (s.slot c.die i).doorbell.toNat = n →
        (∀ j, j < i → (s.slot c.die j).valid = true → (s.slot c.die j).doorbell.toNat ≠ n) →
        exec .kick s = .next ((s.updSlot c.die i fun t =>
          { t with known := decide (s.qcbWord c.die t.qcbAt 9 ≠ s.qcbWord c.die t.qcbAt 6) }).refreshSlots c.die)) ∧
      ((∀ i, i < 16 → (s.slot c.die i).valid = true → (s.slot c.die i).doorbell.toNat ≠ n) →
        exec .kick s = .next ((s.updDie c.die fun d =>
          { d with pending := (d.pending ++ [n]).eraseDups }).supInterrupt c.die))) ∧
    (dieAt 0x8000 0x8200 → c.wide = false →
      exec .pendingMapClear s = .next (s.updDie c.die fun d => { d with pending := d.pending.filter fun n =>
        !(decide (n / 32 = (o - 0x8000) / 4) && c.data.getLsbD (n % 32)) })) ∧
    -- the I/O dies
    (ioAt 0x400 0x420 →
      let i := c.die - 16
      let d := s.io i
      let core := c.new 0x400 d.eventCore
      let base := c.pair 0x410 d.ringBase
      let cap := c.new 0x418 d.cap
      let head := c.new 0x41C d.head
      let bad := d.eventBad core base cap head (decide (base ≠ d.ringBase ∨ cap ≠ d.cap))
      (bad = true → exec .eventBlockWrite s = .next (s.updIo i fun d => { d with refused := true })) ∧
      (bad = false →
        let u := s.updIo i fun d => { d with eventCore := core, ringBase := base, cap := cap, head := head, refused := false }
        exec .eventBlockWrite s = .next (if d.tail = head then u
          else u.updCore core.toNat fun k => { k with intPending := k.intPending ||| 8 }))) ∧
    (ioAt 0x424 0x428 → exec .eventBlockWrite s = .next (s.updIo (c.die - 16) fun d => { d with overflow := 0 })) ∧
    (ioAt 0x10000 0x11000 → c.die - 16 < s.ios.length →
      let n := (o - 0x10000) / 16
      let w := (s.io (c.die - 16)).inwin n
      let w01 := c.pair (0x10000 + 16 * n) w.w01
      let size := c.new (0x10000 + 16 * n + 8) w.size
      let key := c.new (0x10000 + 16 * n + 12) w.key
      exec .inboundWindowWrite s = .next (s.updIo (c.die - 16) fun d => { d with
        inwins := tset d.inwins n (if inwinBad w01 size key then { w with refused := true }
          else { w01 := w01, size := size, key := key &&& 0x1FFF, refused := false }) })) ∧
    (ioAt 0x100000 0x110000 → c.die - 16 < s.ios.length →
      let n := (o - 0x100000) / 32
      let w := (s.io (c.die - 16)).remwin n
      let x (i : Nat) : Word32 := c.new (0x100000 + 32 * n + 4 * i) (w.words.getD i 0)
      let bad : Prop := (x 0).toNat / 16 ≠ 0 ∨ low (x 1) 31 / 2 ^ 24 ≠ 0 ∨ x 2 ≠ 0 ∨ low (x 3) 2 ≠ 0 ∨ (x 3).toNat / 2 ^ 16 ≠ 0
      let put (w : RemWin) : State := s.updIo (c.die - 16) fun d => { d with remwins := tset d.remwins n w }
      (bad → exec .remoteWindowWrite s = .next (put { w with refused := true })) ∧
      (¬bad → exec .remoteWindowWrite s =
        .next (put { words := [x 0, x 1 &&& 0xFFFFFF, x 2, x 3, x 4, x 5, x 6, x 7], refused := false }))) ∧
    (mainAt 0x100 0x104 → low (low32 c.data) 2 = 3 →
      (s.mgmt.holder = 0 → exec .ctlsemSupervisorTake s =
        .next (s.updMgmt fun m => { m with holder := 3, grants := m.grants + 1 })) ∧
      (s.mgmt.holder ≠ 0 → exec .ctlsemSupervisorTake s = .next s)) ∧
    (mainAt 0x100 0x104 → low (low32 c.data) 2 = 0 →
      (s.mgmt.holder = 3 → exec .ctlsemSupervisorGive s = .next (s.updMgmt fun m => { m with last := 3, holder := 0 })) ∧
      (s.mgmt.holder ≠ 3 → exec .ctlsemSupervisorGive s = .next s)) ∧
    (mainAt 0xA00 0xA04 → exec .mailboxStatusClear s = .next (s.updMgmt fun m => { m with
      reportDone := m.reportDone && !c.data.getLsbD 5, inFull := m.inFull && !c.data.getLsbD 0, outFull := c.data.getLsbD 1 })) ∧
    (mainAt 0xA40 0xA44 → low32 c.data = 1 →
      (s.mgmt.reportBusy = true → exec .reportRequest s = .next s) ∧
      (s.mgmt.reportBusy = false → exec .reportRequest s =
        .next (s.updMgmt fun m => { m with reportBusy := true, asked := readBytes m.nonce 0 32 }))) ∧
    (mainAt 0x280 0x2A0 →
      let bytes := toBytes (if c.wide then 8 else 4) c.data.toNat
      let digest := writeBytes s.mgmt.digest (o - 0x280) bytes
      (o < 0x29C → ¬(c.wide = true ∧ o = 0x298) → exec .measurementExtend s = .next (s.updMgmt fun m => { m with digest := digest })) ∧
      (o = 0x29C ∨ (c.wide = true ∧ o = 0x298) → exec .measurementExtend s = .next (s.updMgmt fun m => { m with
        digest := [], m := modAt m.m 3 fun x => shake256 (toBytes 32 x.toNat ++ readBytes digest 0 32) }))) ∧
    -- any store of the windows: as the row of its word, and none to a word that software does not write or to a hole
    (let same (i : Instr) : Prop := exec .registerWrite s = exec i s
     let sends (t : State) : Prop := exec .registerWrite s = .next t
     (s.ctlWord c.die o = none → sends s) ∧
     (dieAt 0x2000 0x2400 → o % 32 = 0 → c.wide = true →
       let q := (o - 0x2000) / 32
       (low32 c.data).toNat / 2 ^ 25 ≠ 0 ∨
         ((s.queue c.die q).block.isSome = true ∧ (low32 c.data).setWidth 24 ≠ (s.queue c.die q).owner) →
       sends (s.updQueue c.die q fun k => { k with refused := true })) ∧
     (c.wide = false →
       (dieAt 0 0x1000 → same .partitionEntryWrite) ∧
       (dieAt 0x1000 0x1008 ∨ dieAt 0x1100 0x1108 → same .stackCounterReset) ∧
       (dieAt 0x1010 0x1014 ∨ dieAt 0x1110 0x1114 → same .stackNewClear) ∧
       (dieAt 0x2000 0x2400 → o % 32 = 0 → same .queueOwnerWrite) ∧
       (dieAt 0x2000 0x2400 → o % 32 = 4 → c.data.getLsbD 4 = true → same .queueDiscard) ∧
       (dieAt 0x2000 0x2400 → o % 32 = 4 → c.data.getLsbD 4 = false → c.data.getLsbD 3 = true → same .queueRestart) ∧
       (dieAt 0x3000 0x3010 → same .dispatcherBlockWrite) ∧ (dieAt 0x3040 0x304C → same .contextStoreWrite) ∧
       (dieAt 0x30A0 0x30B0 → same .featureEnableWrite) ∧ (dieAt 0x4000 0x8000 → same .kick) ∧
       (dieAt 0x8000 0x8200 → same .pendingMapClear) ∧
       (dieAt 0x8400 0x8600 → o % 32 < 16 → (s.slot c.die ((o - 0x8400) / 32)).valid = false →
         (c.new ((o - 0x8400) / 32 * 32 + 0x8400) 0).getLsbD 0 = true → same .slotMap) ∧
       (dieAt 0x8400 0x8600 → o % 32 < 16 → (s.slot c.die ((o - 0x8400) / 32)).valid = true →
         (c.new ((o - 0x8400) / 32 * 32 + 0x8400) 1).getLsbD 0 = false → same .slotUnmap) ∧
       (dieAt 0x8400 0x8600 → o % 32 = 28 → low (low32 c.data) 2 = 1 → same .preemptSave) ∧
       (dieAt 0x8400 0x8600 → o % 32 = 28 → low (low32 c.data) 2 = 2 → same .preemptIdem) ∧
       (dieAt 0x1008 0x1010 ∨ dieAt 0x1108 0x1110 ∨ dieAt 0x1800 0x1804 ∨ (dieAt 0x2000 0x2400 ∧ 8 ≤ o % 32) ∨ dieAt 0x3010 0x3020 ∨
         dieAt 0x304C 0x3054 ∨ dieAt 0x3080 0x30A0 ∨ (dieAt 0x8400 0x8600 ∧ 16 ≤ o % 32 ∧ o % 32 < 28) → sends s) ∧
       (ioAt 0x400 0x42C → same .eventBlockWrite) ∧ (ioAt 0x10000 0x11000 → same .inboundWindowWrite) ∧
       (ioAt 0x100000 0x110000 → same .remoteWindowWrite) ∧ (mainAt 0x280 0x2A0 → same .measurementExtend) ∧
       (mainAt 0xA00 0xA04 → same .mailboxStatusClear) ∧ (mainAt 0xA40 0xA44 → low32 c.data = 1 → same .reportRequest) ∧
       (mainAt 0x100 0x104 → low (low32 c.data) 2 = 3 → same .ctlsemSupervisorTake) ∧
       (mainAt 0x100 0x104 → low (low32 c.data) 2 = 0 → same .ctlsemSupervisorGive) ∧
       (mainAt 0x900 0xA00 → sends (s.updMgmt fun m => { m with outbox := writeBytes m.outbox (o - 0x900) (toBytes 4 c.data.toNat) })) ∧
       (mainAt 0xA20 0xA40 → sends (s.updMgmt fun m => { m with nonce := writeBytes m.nonce (o - 0xA20) (toBytes 4 c.data.toNat) })) ∧
       (mainAt 0x200 0x280 ∨ mainAt 0x800 0x900 ∨ (c.die = 17 ∧ o = 0x100) → sends s)))

/-! ### The dies by themselves -/

/-- R236: sweeping drops lines of a swept partition, at most 16 of a slice in 1,000 clocks. R325-R327, R330, R333: a packet of a
mapped queue whose region and ring can be read is taken with the effective values and the table of that clock; one with failing
words is refused, and completes with the lowest of them; a queue that cannot be read stops. R335, R336, R123: a block that is
picked is placed on its cores: each team in the lowest free slot of its lane block with a new generation, each thread in its
first state; a neighbourhood with its mates, its four barriers charged. R338, R339: the pick moves to the slot placed from, and
a late packet counts as late and is skipped where its region says so. R340: a phase change cleans the caches of the cores that
ran the queue's packets, then stores the phase. R334: completion writes the signal once its translation, scope, link and old
word pass, else it counts as a fault of the region. R330: packets retire in ring order. R342: the sequencer's error is reported. The
packets of an unmapped slot (log 19), failed paths and the place of a neighbourhood's barriers (log 38), the KiB charged (log
39) and the phase of signal-only packets (log 49), the party of the dispatcher's signal (log 69) and the address space of its
reads (log 36) are the model's readings; that reserved bits of a region block are refused is its choice (log 64). -/
def Obligations.DieEvents : Prop :=
  ∀ (s : State) (die : Nat),
    (∀ sl, s.occ = .slice die sl →
      let d := s.die die
      let sweeps (l : L2Line) : Bool := decide (l.slice = sl) && (d.partEntry l.part).sweeping && !(d.partEntry l.part).w0.getLsbD l.way
      let gone := (d.l2.filter sweeps).take 16
      (∀ c, tget d.swept sl = some c → s.clock / 1000 ≤ c / 1000 → exec .sweepPeriod s = .next s) ∧
      ((∀ c, tget d.swept sl = some c → c / 1000 < s.clock / 1000) →
        ∃ scopes, exec .sweepPeriod s = .next (({ s with scopes := scopes } : State).updDie die fun d => { d with
            l2 := d.l2.filter fun l => !gone.contains l
            swept := tset d.swept sl s.clock
            parts := d.parts.map fun e => (e.1, { e.2 with sweeping := e.2.sweeping &&
              (d.l2.any fun l => !gone.contains l && decide (l.part = e.1) && !e.2.w0.getLsbD l.way) }) }) ∧
          scopes = (d.l2.filter fun l => gone.contains l).foldl (fun t (l : L2Line) => tdel t l.line) s.scopes)) ∧
    (∀ i, s.occ = .slot die i →
      let t := s.slot die i
      let qcb := t.qcb.toNat
      let region := (s.qcbWord die qcb 1).toNat % 2 ^ 24
      let tab := s.tabOf die
      let e := s.effOf tab region
      let n := (s.qcbWord die qcb 9).toNat
      t.valid = true → t.known = true → (s.die die).seqError = 0 → (s.qcbWord die qcb 10).toNat % 4 ≠ 2 → s.mayTake die qcb = true →
      (s.regionOk tab region = false → exec .packetTake s =
        .next (((s.setQcb die qcb 10 (BitVec.ofNat 32 (2 + Cause.permission.code.toNat * 2 ^ 8))).supInterrupt die).refreshSlots die)) ∧
      (s.regionOk tab region = true →
        (∀ u f, s.readPacket die qcb n e region = (u, .error f) → exec .packetTake s =
          .next (((u.setQcb die qcb 10 (BitVec.ofNat 32 (2 + f.cause.code.toNat * 2 ^ 8))).supInterrupt die).refreshSlots die)) ∧
        (∀ u ws, s.readPacket die qcb n e region = (u, .ok ws) →
          let w (k : Nat) : Word32 := ws.getD k 0
          let p : Packet :=
            { qcb := qcb, slot := i, n := n, words := ws, nextBlk := 0, total := if (w 0).toNat % 16 ≤ 1 then (w 2).toNat else 0
              late := false, done := false, judged := false, tab := tab, eff := e }
          let bad := packetFaults w region (u.path tab region).isSome ((u.die die).featEnabled.getLsbD 1)
          let u1 := (u.setQcb die qcb 9 (BitVec.ofNat 32 (n + 1))).setQcb die qcb 10 1
          let u2 := (u1.updSlot die i fun t => { t with known := decide (u1.qcbWord die qcb 9 ≠ u1.qcbWord die qcb 6) }).updDie die fun d =>
            { d with packets := d.packets ++ [p] }
          (bad = [] → exec .packetTake s = .next (u2.refreshSlots die)) ∧
          (∀ b, b ∈ bad → (∀ x ∈ bad, b ≤ x) → exec .packetTake s =
            .next (((u2.regionFault tab region).completePacket die p (2 + b * 2 ^ 16)).refreshSlots die))))) ∧
    (s.occ = .die die →
      (∀ i p cores, s.arbitrate die = some (i, .block p cores) →
        let u := (s.judge die p).1
        let q := (s.judge die p).2.1
        let skips : Prop := p.judged = false ∧ p.deadline < s.clock ∧ p.eff.skipLate = true
        (¬skips → exec .blockPlace s = .next ((((u.placeBlock die q cores q.nextBlk none 0).updPacket die q fun q =>
          { q with nextBlk := q.nextBlk + 1 }).placedFrom die i).refreshSlots die)) ∧
        (skips → exec .blockPlace s = .next (((u.completePacket die q 1).picked die i).refreshSlots die))) ∧
      (∀ i p units, s.arbitrate die = some (i, .nbhd p units) →
        let u := (s.judge die p).1
        let q := (s.judge die p).2.1
        let skips : Prop := p.judged = false ∧ p.deadline < s.clock ∧ p.eff.skipLate = true
        let path := (u.path q.tab q.region).getD []
        let m := q.perNbhd
        let need := packetNeed q.w
        let nid := u.nextId
        let nb (ids : List Nat) : Nbhd :=
          { blocks := ids, count := m, threads := m * need.threads, sb := need.scratchKiB * 1024
            bars := List.replicate 4 (newBarrier (m * need.threads))
            width := (q.w 4).toNat / 2 ^ 16 % 256, height := (q.w 4).toNat / 2 ^ 24, path := path }
        (¬skips → ∃ (v : State) (ids : List Nat), ids.length = m ∧
          (v, ids) = (List.range m).foldl (fun (st : State × List Nat) b =>
            (st.1.placeBlock die q (units.getD b []) (q.nextBlk + b) (some b) nid, st.2 ++ [st.1.nextId]))
            (({ u.charge die path [(6, 4)] 1 with nextId := nid + 1 } : State), []) ∧
          exec .neighbourhoodPlace s = .next (((({ v with nbhds := tset v.nbhds nid (nb ids) } : State).updPacket die q fun q =>
            { q with nextBlk := q.nextBlk + m }).placedFrom die i).refreshSlots die)) ∧
        (skips → exec .neighbourhoodPlace s = .next (((u.completePacket die q 1).picked die i).refreshSlots die)))) ∧
    -- the late test of a packet at its first pick
    (∀ p, (p.judged = true → s.judge die p = (s, p, false)) ∧
      (p.judged = false →
        let late := decide (p.deadline < s.clock)
        let q : Packet := { p with judged := true, late := late }
        s.judge die p = ((if late then s.regionAdd p.tab.die (p.tab.addr p.region) 9 1 else s).updPacket die p fun _ => q, q,
          late && p.eff.skipLate))) ∧
    -- the words that a failed check names
    (∀ (w : Nat → Word32) (region : Nat) (pathOk nbhdOk : Bool) (i : Nat),
      let f (k hi lo : Nat) : Nat := ((w k).extractLsb' lo (hi + 1 - lo)).toNat
      let kind := f 0 3 0
      let m := f 1 31 16
      let need := packetNeed w
      i ∈ packetFaults w region pathOk nbhdOk ↔
        (i = 0 ∧ (f 0 15 5 ≠ 0 ∨ 4 ≤ kind ∨ (kind = 1 ∧ nbhdOk = false))) ∨
        (i = 1 ∧ (f 1 15 13 ≠ 0 ∨ (kind ≤ 1 ∧ (f 1 12 0 = 0 ∨ 4096 < f 1 12 0)) ∨ (kind = 0 ∧ m ≠ 0) ∨ (kind = 1 ∧ (m = 0 ∨ 24 < m)))) ∨
        (i = 2 ∧ ((kind ≤ 1 ∧ w 2 = 0) ∨ (kind = 1 ∧ m ≠ 0 ∧ (w 2).toNat % m ≠ 0))) ∨
        (i = 3 ∧ kind ≤ 1 ∧ (f 3 7 0 = 0 ∨ f 3 7 0 % 8 ≠ 0 ∨ 192 < f 3 7 0 ∨ f 3 11 8 ∉ [0, 1, 2, 4, 8] ∨ need.cores = none)) ∨
        (i = 4 ∧ ((kind ≤ 1 ∧ 64 < f 4 15 0) ∨ (kind = 0 ∧ (f 4 23 16 ≠ 0 ∨ f 4 31 24 ≠ 0)) ∨
          (kind = 1 ∧ ∃ c, need.cores = some c ∧
            (f 4 23 16 * f 4 31 24 ≠ m * c ∨ (2 ≤ c ∧ f 4 23 16 % 2 ≠ 0) ∨ (c = 4 ∧ f 4 31 24 % 2 ≠ 0))))) ∨
        (i = 13 ∧ (f 13 31 25 ≠ 0 ∨ f 13 23 0 ≠ region ∨ pathOk = false ∨ ((w 13).getLsbD 24 = false ∧ (w 11 ≠ 0 ∨ w 12 ≠ 0)))) ∨
        (i = 14 ∧ w 14 ≠ 0) ∨ (i = 15 ∧ w 15 ≠ 0)) ∧
    -- what a completion writes, and where the read index then stands
    (∀ (p : Packet) (status : Nat),
      let va := p.pair 9
      let ctx := p.eff.ctx p.region
      let word := if p.late = true ∧ status = 0 then 256 else status
      let ends (s t : State) : Prop := s.completePacket die p status = (t.updDie die fun d => { d with
        packets := d.packets.map fun q => if q.qcb = p.qcb ∧ q.n = p.n then { q with done := true } else q }).retire die p.qcb 65536
      let failed (t : State) : State := (t.regionFault p.tab p.region).updCore p.tab.sup fun k => { k with intPending := k.intPending ||| 4 }
      (va = 0 → ends s s) ∧
      (∀ t f, va ≠ 0 → s.translate (dieAgent die ctx false) va 8 8 Use.atom = (t, .error f) → ends s (failed t)) ∧
      (∀ s1 x, va ≠ 0 → s.translate (dieAgent die ctx false) va 8 8 Use.atom = (s1, .ok x) →
        x.moving = false →
        let checked := s1.admitAt p.eff.degrade (dieParty die) x 8 (effScope x 3) 2 true fun s => s.linkFault die x 8 true
        (∀ t f, checked = (t, .error f) → ends s (failed t)) ∧
        ∀ s2 stands t, checked = (s2, .ok stands) → s2.plainWrite die x (toBytes 8 word) = (t, none) → ends s t)) ∧
    (∀ qcb n, let mine := (s.die die).packets.filter fun p => decide (p.qcb = qcb)
      (s.retire die qcb 0 = s) ∧
      (∀ p ps, mine = p :: ps → p.done = false → s.retire die qcb (n + 1) = s) ∧
      (mine = [] → s.retire die qcb (n + 1) = if s.qcbWord die qcb 10 = 1 then s.setQcb die qcb 10 0 else s) ∧
      (∀ p ps, mine = p :: ps → p.done = true →
        let t := s.updDie die fun d => { d with packets := d.packets.filter fun q => !decide (q.qcb = qcb ∧ q.n = p.n) }
        s.retire die qcb (n + 1) = (t.setQcb die qcb 5 (t.qcbWord die qcb 5 + 1)).retire die qcb n)) ∧
    -- where the teams of a block stand, and what its threads start with
    (∀ (p : Packet) (cores : List Nat) (blk nid : Nat) (nblk : Option Nat),
      let id := s.nextId
      let need := packetNeed p.w
      let addr := s.packetAddr die p.qcb p.n
      ∃ (b : Block) (seated v : State), s.placeBlock die p cores blk nblk nid = v.updDie die (fun d => { d with
          ran := tset d.ran p.qcb ((((tget d.ran p.qcb).getD []) ++ cores).eraseDups) }) ∧
        tget seated.blocks id = some b ∧ (∀ k, (tget seated.teams k).isSome = (tget s.teams k).isSome) ∧ seated.nextId = id + 1 ∧
        b.stat = .placed ∧ b.cores = cores ∧ b.blk = blk ∧ b.nblk = nblk ∧ b.nbhd = nid ∧ b.threads = need.threads ∧ b.vregs = need.vregs ∧
        b.region = BitVec.ofNat 24 p.region ∧ b.mode = p.mode ∧ b.asid = p.eff.asid ∧ b.ortBase = p.eff.ortBase ∧
        b.ortSize = p.eff.ortSize ∧ b.policy = p.eff.degrade ∧ b.path = (s.path p.tab p.region).getD [] ∧ b.charges = need.charges ∧
        b.bars = List.replicate need.nbars (newBarrier need.threads) ∧
        v = (List.range need.teams).foldl (fun s t => s.seatTeam cores t fun core slot gen =>
          newTeam core slot gen b id t s.clock ((List.range (min 64 (need.threads - 64 * t))).map fun i =>
            newThread need (64 * t + i) (p.pair 5) (p.pair 7) addr s.clock)) seated) ∧
    (∀ (cores : List Nat) (t i : Nat) (mk : Nat → Nat → BitVec 16 → Team),
      let core := cores.getD (t % cores.length) 0
      let lb := t / cores.length % 4
      let taken (j : Nat) : Prop := (tget s.teams (teamKey core (8 * lb + j))).isSome = true
      ((∀ j, j < 8 → taken j) → s.seatTeam cores t mk = s) ∧
      (i < 8 → ¬taken i → (∀ j, j < i → taken j) →
        let slot := 8 * lb + i
        let old := (s.core core).gen slot
        let gen : BitVec 16 := if old = 0xFFFE then 0 else old + 1
        s.seatTeam cores t mk = (s.updCore core fun k => { k with gens := modAt k.gens slot fun _ => gen }).setTeam (teamKey core slot)
          (mk core slot gen))) ∧
    (∀ i p, s.occ = .slot die i →
      let qs := (s.die die).packets
      let first (due : Packet → Prop) : Prop := ∃ pre post, qs = pre ++ p :: post ∧
        let ok (p : Packet) : Prop := p.done = false ∧ p.slot = i ∧ due p ∧ ∀ q ∈ qs, q.qcb = p.qcb → q.done = true ∨ p.n ≤ q.n
        ok p ∧ ∀ q ∈ pre, ¬ok q
      let phaseDue (p : Packet) : Prop := p.kind = 2 ∨ (p.nextBlk = 0 ∧ p.phase ≠ (s.qcbWord die p.qcb 8).toNat % 2 ^ 16)
      let v := (((tget (s.die die).ran p.qcb).getD []).foldl (fun s c => s.flushL1 c true) s).setQcb die p.qcb 8
        (BitVec.ofNat 32 p.phase)
      (first phaseDue → p.kind = 2 → exec .phaseChange s = .next ((v.completePacket die p 0).refreshSlots die)) ∧
      (first phaseDue → p.kind ≠ 2 → exec .phaseChange s = .next (v.refreshSlots die)) ∧
      (first (fun p => p.kind = 3 ∧ ¬phaseDue p) → exec .signalOnlyPacket s = .next ((s.completePacket die p 0).refreshSlots die))) ∧
    (∀ i p pre post, s.occ = .slot die i → (s.die die).packets = pre ++ p :: post →
      let ran (p : Packet) : Prop := p.slot = i ∧ p.kind ≤ 1 ∧ p.total ≠ 0 ∧ p.total ≤ p.nextBlk ∧ p.done = false ∧
        (∀ e ∈ s.blocks, ¬(e.2.die = die ∧ e.2.qcb = p.qcb ∧ e.2.packet = p.n)) ∧ ∀ h ∈ s.held, h.launch ≠ some (p.qcb, p.n)
      ran p → (∀ q ∈ pre, ¬ran q) → exec .packetComplete s =
        .next (((((tget (s.die die).ran p.qcb).getD []).foldl (fun s c => s.flushL1 c false) s).completePacket die p 0).refreshSlots
          die)) ∧
    (∀ code, s.occ = .seqError die code →
      (code = 0 → exec .sequencerError s = .next s) ∧
      (code ≠ 0 → exec .sequencerError s = .next ((s.updDie die fun d => { d with seqError := code }).supInterrupt die)))

/-- R364-R367: a stalled group of a block that is being saved may be saved past the grace; a stopped block moves into the
context store when it has room; results that come for a saved block are kept for it, in its teams or its rein core, and the
slots of its die are looked at again, since it may be placed after the last (R337); a kept block, or a neighbourhood, is placed again. A restored block stands on its new cores with its store emptied and its frames given
back: every saved team in a slot of its lane block with its state as it was and its ready threads waiting from now, every
discarded thread at its section entry in the state of a new one, the hitch with its accumulators, weights, queue and locks, and
the rein core. The frames that an image takes (log 17) and what a restore cleans (log 40) are the model's readings, as is that a
wait goes on counting through the context store (log 72). -/
def Obligations.SavesAndRestores : Prop :=
  ∀ (s : State),
    (∀ key g t gr b, s.occ = .group key g → tget s.teams key = some t → t.groups[g]? = some gr → tget s.blocks t.block = some b →
      b.stat = .saving → t.kind ≠ .scalar → (gr.hold = .stall ∨ ∃ n gone, gr.hold = .tandem n gone) →
      (s.core t.core).preGrace.toNat < s.clock - gr.since →
      exec .preGraceExpiry s = .next (s.setTeam key { t with groups := modAt t.groups g fun g => { g with hold := .graced } })) ∧
    (∀ blk b, s.occ = .block blk → tget s.blocks blk = some b →
      let d := s.die b.die
      let need := b.image (s.partyTeams blk).length (b.forks.any (·.rein))
      (b.stat ≠ .saving ∨ s.quiet blk = false ∨ d.ctxFrames.toNat < d.ctxUsed.toNat + need → exec .saveComplete s = .next s) ∧
      (b.stat = .saving → s.quiet blk = true → d.ctxUsed.toNat + need ≤ d.ctxFrames.toNat → b.die < s.dies.length →
        ∃ (t : State) (b' : Block), exec .saveComplete s = .next t ∧ tget t.blocks blk = some b' ∧ b'.stat = .saved ∧
          b'.frames = need ∧ (t.die b.die).ctxUsed = d.ctxUsed + BitVec.ofNat 32 need ∧
          let u := (b.cores.foldl (fun s c => s.cleanLines c fun _ => true) s).withdrawWaits ((s.partyTeams blk).map (·.1))
          b'.savedTeams = (((u.partyTeams blk).filter fun e => decide (e.2.kind = .vector)).map fun e => e.2.unparked))) ∧
    (∀ blk n b i t p, s.occ = .saved blk n → tget s.blocks blk = some b →
      let image := b.savedTeams ++ b.savedRein.toList
      (image.zipIdx.map fun (e : Team × Nat) => e.1.pend.map fun p => (e.2, p)).flatten[n]? = some (i, p) →
      image[i]? = some t →
      let put (s : State) (t : Team) : State :=
        let t' : Team := { t with pend := t.pend.erase p }
        s.updBlock blk fun b => if i < b.savedTeams.length then { b with savedTeams := modAt b.savedTeams i fun _ => t' }
          else { b with savedRein := b.savedRein.map fun _ => t' }
      let done (s : State) (t : Team) : State := (put s t).refreshSlots b.die
      (p.wait = .ready → exec .savedResultArrival s = .next (done s (t.arrive p))) ∧
      (∀ core slot tag, p.wait = .writeback core slot tag → exec .savedResultArrival s =
        .next (done (s.cleanLines core fun l => l.ofTask (teamKey core slot) tag)
          ((t.arrive p).updThread p.lane fun th => { th with taskTag := (p.words.getD 7 0).setWidth 16 })))) ∧
    (∀ die i bs, s.occ = .slot die i → s.arbitrate die = some (i, .restore bs) →
      exec .blockRestore s = .next (((bs.foldl (fun s e => s.restoreBlock e.1 e.2) s).placedFrom die i).refreshSlots die)) ∧
    (∀ blk b (cores : List Nat), tget s.blocks blk = some b → cores ≠ [] → cores.Nodup →
      let u := s.restoreBlock blk cores
      let path := (s.path b.tab b.region.toNat).getD []
      let hn := hitchOf (cores.headD 0)
      let place (tix : Nat) : Nat × Nat := (cores.getD (tix % cores.length) 0, tix / cores.length % 4)
      let room (ts : List Nat) : Prop := ∀ c lb, (ts.filter fun t => decide (place t = (c, lb))).length ≤
        ((List.range 8).filter fun i => (tget s.teams (teamKey c (8 * lb + i))).isNone).length
      let fresh (th : Thread) : Thread := if th.stat = .atLeg then { th with readySince := s.clock } else th
      let anew (p : Pend) : Pend := { p with order := 0 }
      (∃ b', tget u.blocks blk = some b' ∧ b' = { b with
          stat := .placed, cores := cores, parts := b'.parts, path := path, savedTeams := [], savedQueues := [], savedHitch := none
          savedRein := none, reentry := [], frames := 0
          forks := b.forks.map fun f => { f with hitch := hn, path := if f.rein then path else [] } }) ∧
      (b.die < s.dies.length → (u.die b.die).ctxUsed = (s.die b.die).ctxUsed - BitVec.ofNat 32 b.frames) ∧
      (b.stat ≠ .discarded → room (b.savedTeams.map (·.tix)) → ∀ t ∈ b.savedTeams, ∃ t' : Team,
        tget u.teams (teamKey t'.core t'.slot) = some t' ∧ (t'.core, t'.slot / 8) = place t.tix ∧
        t' = { t with core := t'.core, slot := t'.slot, gen := t'.gen, waitSince := s.clock, threads := t.threads.map fresh, pend := t'.pend } ∧
        t'.pend.map anew = t.pend.map anew) ∧
      (b.stat = .discarded → room (List.range b.need.teams) → ∀ tid e, tid < b.threads →
        (b.reentry.find? fun x => decide (x.1 = tid)) = some (tid, e) → ∃ (t' : Team) (th : Thread),
          tget u.teams (teamKey t'.core t'.slot) = some t' ∧ (t'.core, t'.slot / 8) = place (tid / 64) ∧ t'.block = blk ∧
          t'.threads[tid % 64]? = some th ∧ th = newThread b.need tid e b.arg b.pktAddr s.clock) ∧
      (∀ h, b.savedHitch = some h → ∃ h', u.hitch hn = h' ∧ h'.acc = h.acc ∧ h'.weights = h.weights ∧ h'.mem = h.mem ∧ h'.fork = h.fork ∧
        h'.arrayQ = h.arrayQ ∧ h'.runs = h.runs.map (fun r => { r with path := path }) ∧ h'.locked = (s.hitch hn).locked ++ h.locked) ∧
      (∀ r, b.savedRein = some r → ∃ r' : Team, tget u.teams (reinKey hn) = some r' ∧
        r' = { r with core := hitchCore hn, waitSince := s.clock, pend := r'.pend } ∧ r'.pend.map anew = r.pend.map anew))

/-! ### The control ports and the boot -/

/-- R393-R395, R397-R400: what each command of a control port does and answers, the lapse of a hold, the making of a report, the
two boots, and what a loss of power leaves. R394: of several takers at one clock one that did not hold it last goes before the
last holder, and else A before B before the supervisor. R393, R398: a reset of the module empties teams, blocks, waits, mailbox
and report, puts cores, dies, hitches and I/O dies in their reset state, and keeps the flash, the failed edges, the boot count
and, where it is asked to, the memory and its poison. What a reply holds, which copy MARKER_SET writes when none is valid, and
that a loss of power empties the memory, are the model's (log 18, log 42); the layout of a manifest, the check of its
signature, the fused key and the digest of the ROM are constants without a body (log 7, log 12). -/
def Obligations.PortsAndBoot : Prop :=
  ∀ (s : State),
    let m := s.mgmt
    let say (s : State) (r : Reply) : State := { s with mgmt := { s.mgmt with reply := r } }
    let code (p : Port) : Nat := match p with | .a => 1 | .b => 2
    let bit5 (s : State) : State := s.updCore 0 fun k => { k with intPending := k.intPending ||| 0x20 }
    let held (s : State) : State := { s with mgmt := { s.mgmt with lastCmd := s.clock } }
    let flashed (off : Nat) (bs : List Byte) : State := { s with mgmt := { m with
      lastCmd := s.clock, flashUndo := some (s.clock + 1, off, readBytes m.flash off bs.length), flash := writeBytes m.flash off bs } }
    (∀ p, s.occ = .port p →
      (∃ x, exec .getStatus s = .next (say { s with free := s.free + 1 } (.status m.boot m.holder (s.dies.map (·.temp)) x))) ∧
      (m.holder = 0 → exec .take s =
        .next { s with mgmt := { m with holder := code p, grants := m.grants + 1, lastCmd := s.clock, reply := .ok } }) ∧
      (m.holder = code p → exec .take s = .next (say (held s) .ok)) ∧
      (m.holder ≠ 0 → m.holder ≠ code p → exec .take s = .next (say s .notOwner)) ∧
      (m.holder = code p → exec .give s = .next { s with mgmt := { m with last := m.holder, holder := 0, reply := .ok } }) ∧
      (m.holder ≠ code p → exec .give s = .next (say s .notOwner)) ∧
      (m.holder = code p → exec .reset s = .next (say (s.resetModule true .off) .ok)) ∧
      (m.holder ≠ code p → exec .reset s = .next (say s .notOwner))) ∧
    (∀ rs, s.occ = .takers rs → m.holder = 0 → ∀ r, r ∈ rs → r ∈ [1, 2, 3] →
      (∀ q ∈ rs, q ∈ [1, 2, 3] → (q ≠ m.last ∧ (r = m.last ∨ q < r)) → False) →
      exec .take s = .next { s with mgmt := { m with holder := r, grants := m.grants + 1, lastCmd := s.clock, reply := .granted r } }) ∧
    -- what a reset of the module clears and keeps
    (∀ keep boot, let u := s.resetModule keep boot
      u.teams = [] ∧ u.blocks = [] ∧ u.nbhds = [] ∧ u.held = [] ∧ u.watches = [] ∧ (∀ c, u.core c = State.reset.core c) ∧
      (∀ d, u.die d = State.reset.die d) ∧ (∀ h, u.hitch h = State.reset.hitch h) ∧ (∀ i, u.io i = State.reset.io i) ∧
      u.clock = State.reset.clock ∧ u.keys = [(0, .device s.boots)] ∧ u.mgmt.boot = boot ∧ u.mgmt.holder = 0 ∧ u.mgmt.inFull = false ∧
      u.mgmt.outFull = false ∧ u.mgmt.report = [] ∧ u.mgmt.flash = m.flash ∧ u.mgmt.badEdges = m.badEdges ∧
      u.mem = (if keep then s.mem else []) ∧ u.poison = (if keep then s.poison else [])) ∧
    (∀ p n bs, s.occ = .portBytes p n bs →
      (m.boot ≠ .noSlot → bs.length = 32 → exec .getReport s = .next (say s (.report (toBytes 4 0x54535441 ++ toBytes 4 1 ++ bs ++
        (m.m.map fun x => toBytes 32 x.toNat).flatten ++ toBytes 8 m.secVersion.toNat ++
        toBytes 4 (if m.boot = .ran true true ∨ m.boot = .ran true false then 1 else 0) ++ List.replicate 12 0)))) ∧
      (m.holder ≠ code p → exec .flashWrite s = .next (say s .notOwner)) ∧
      (m.holder = code p → bs.length ≤ 4096 → 0x2000 ≤ n → n + bs.length ≤ 0x20000000 →
        exec .flashWrite s = .next (say (flashed n bs) .ok)) ∧
      (m.boot ≠ .noSlot → m.holder ≠ code p → exec .powerLimit s = .next (say s .notOwner)) ∧
      (m.boot ≠ .noSlot → m.holder = code p → 2 ≤ n → n ≤ 15 →
        exec .powerLimit s = .next { s with mgmt := { m with lastCmd := s.clock, powerKw := n, reply := .ok } }) ∧
      (m.boot ≠ .noSlot → m.inFull = true → exec .mailbox s = .next (say s .busy)) ∧
      (m.boot ≠ .noSlot → m.inFull = false → bs.length = 256 → exec .mailbox s = .next (bit5 { s with mgmt := { m with
        inbox := writeBytes [] 0 bs, inPort := code p, inFull := true, outFull := false
        reply := if m.outFull then .data (readBytes m.outbox 0 256) else .ok } }))) ∧
    (∀ p b, s.occ = .marker p b →
      (m.holder ≠ code p → exec .markerSet s = .next (say s .notOwner)) ∧
      (m.holder = code p →
        match m.decider with
          | some (k, seq, _) => exec .markerSet s = .next (say (flashed (4096 * (1 - k)) (markerBytes (seq + 1) b)) .ok)
          | none => exec .markerSet s = .next (say (flashed 0 (markerBytes 1 b)) .ok))) ∧
    ((m.holder = 1 ∨ m.holder = 2) → m.lastCmd + 3800000000 ≤ s.clock →
      exec .ctlsemLapse s = .next (bit5 { s with mgmt := { m with last := m.holder, holder := 0 } })) ∧
    (m.holder = 0 ∨ m.holder = 3 ∨ s.clock < m.lastCmd + 3800000000 → exec .ctlsemLapse s = .next s) ∧
    (m.reportBusy = true → exec .reportDone s = .next (bit5 { s with mgmt := { m with
      report := m.reportOf m.asked, reportBusy := false, reportDone := true } })) ∧
    (m.reportBusy = false → exec .reportDone s = .next s) ∧
    (m.boot = .off → exec .powerOnBoot s = .next (s.bootBy 0)) ∧
    (m.boot ≠ .off → exec .powerOnBoot s = .next s) ∧
    (m.boot = .off → 3800000000 ≤ s.clock → exec .bootTakeover s = .next (s.bootBy 1)) ∧
    (m.boot ≠ .off ∨ s.clock < 3800000000 → exec .bootTakeover s = .next s) ∧
    (∀ io, let t := s.bootBy io
      t.mgmt.bootIo = io ∧ match m.bootSlot with
        | none => t.mgmt.boot = .noSlot ∧ t.cores = s.cores ∧ t.mem = s.mem
        | some (img, b, failed) => t.mgmt.boot = .ran b failed ∧ t.mgmt.secVersion = img.version ∧
            t.mgmt.m = [Config.romDigest, shake256 img.patchSet, shake256 img.image, 0] ∧
            ∀ d, d < 16 → (t.core (d * 96)).started = true) ∧
    (∀ n, s.occ = .torn n → ∃ t, exec .powerLoss s = .next t ∧ t.mgmt.boot = .off ∧ t.teams = [] ∧ t.blocks = [] ∧
      t.mgmt.badEdges = m.badEdges ∧ (m.flashUndo = none → t.mgmt.flash = m.flash) ∧
      ∀ c off old, m.flashUndo = some (c, off, old) →
        t.mgmt.flash = if c = s.clock then writeBytes m.flash (off + n) (old.drop n) else m.flash)

/-- R240, R241, R384, R387-R392, R400: temperatures, failed links, errors of HBM, PCIe and CXL, events, and accesses from
outside. R389, R391: a request from a link is served by its lowest window that holds its address, under the window's key; one
that no window holds, a write through a window without write and one under an empty key slot are answered as unsupported, and
one that meets an error is aborted, each with its event; R390: a message is an event, an event a word of its ring or a count of
overflow. That an event that is dropped at a full ring latches bit 3 of its event core like any other is the model's choice
(log 18). A shutdown by heat resets the module as Obligations.PortsAndBoot says. The place of an access from a peer, under key
slot 0 (log 11), the ring of events under key slot 0 (log 36), the routes to an I/O die (log 13), what is completed for other
errors (log 70), and what a shutdown keeps (log 55) are the model's readings. -/
def Obligations.ErrorsAndMessages : Prop :=
  ∀ (s : State),
    let say (s : State) (r : Reply) : State := { s with mgmt := { s.mgmt with reply := r } }
    let sat (x : Word32) : Word32 := if x = 0xFFFFFFFF then x else x + 1
    let stack (pa : Nat) (f : Stack → Stack) : State → State := fun s =>
      s.updDie (homeDie pa) fun d => { d with hbmStacks := modAt d.hbmStacks (pa / 2 ^ 36 % 2) f }
    let corrected (pa : Nat) : State := stack pa (fun k => { k with corrected := sat k.corrected }) s
    let uncorrected (pa : Nat) : State :=
      (stack pa (fun k => { k with uncorrected := sat k.uncorrected, lastAddr := BitVec.ofNat 64 pa, fresh := true })
        { s with poison := tset s.poison (pa / 128) false }).updCore (s.die (homeDie pa)).supCore.toNat fun k =>
          { k with intPending := k.intPending ||| 8 }
    (∀ die t, s.occ = .temp die t →
      exec .thermalThrottle s = .next (s.updDie die fun d => { d with temp := t, throttled := true }) ∧
      (t < 105 → exec .throttleEnd s = .next (s.updDie die fun d => { d with temp := t, throttled := false })) ∧
      (105 ≤ t → exec .throttleEnd s = .next s) ∧
      (115 ≤ t → exec .thermalShutdown s = .next ((s.resetModule true .thermal).updDie die fun d => { d with temp := t })) ∧
      (t < 115 → exec .thermalShutdown s = .next s)) ∧
    (∀ a b, s.occ = .link a b →
      let e := (min a b, max a b)
      (e ∈ edges → exec .dieLinkFailure s = .next (([e.1, e.2].filter (· < 16)).foldl (fun s d => s.updCore (d * 96) fun k =>
        { k with intPending := k.intPending ||| 8 })
        { s with mgmt := { s.mgmt with badEdges := (s.mgmt.badEdges ++ [e]).eraseDups } })) ∧
      (e ∉ edges → exec .dieLinkFailure s = .next s)) ∧
    (∀ pa, s.occ = .phys pa →
      (rangeOf pa = .hbm → exec .hbmUncorrectableError s = .next (uncorrected pa) ∧ exec .hbmCorrectableError s = .next (corrected pa)) ∧
      (rangeOf pa ≠ .hbm → exec .hbmUncorrectableError s = .next s ∧ exec .hbmCorrectableError s = .next s)) ∧
    (∀ die st line found, s.occ = .scrub die st line found → st < 2 →
      let pa := (2 * die + st) * 2 ^ 36 + line * 128
      rangeOf pa = .hbm → homeDie pa = die → exec .patrolScrub s = .next (match found with
        | .clean => s
        | .corrected => corrected pa
        | .uncorrectable => uncorrected pa)) ∧
    (∀ i link, s.occ = .io i link →
      exec .pcieCompletionTimeout s = .next (s.updIo i fun d => { d with pcieErr := (d.pcieErr ++ [link]).eraseDups }) ∧
      exec .cxlError s = .next (s.updIo i fun d => { d with cxlErr := (d.cxlErr ++ [link]).eraseDups }) ∧
      exec .pcieLinkDown s = .next ((s.updIo i fun d => { d with down := (d.down ++ [link]).eraseDups }).ioEvent i link 4 0 0)) ∧
    (∀ i link v, s.occ = .msix i link v → exec .msixMessage s = .next (s.ioEvent i link 0 v 0)) ∧
    (∀ i link type v addr, i < s.ios.length →
      let d := s.io i
      let u := s.updCore d.eventCore.toNat fun k => { k with intPending := k.intPending ||| 8 }
      let size := if d.cap.toNat % 32 = 0 then 0 else 2 ^ (d.cap.toNat % 32)
      ((d.tail - d.head).toNat < size → s.ioEvent i link type v addr =
        (u.devWrite (16 + i) (d.ringBase.toNat + d.tail.toNat % size * 8)
          (toBytes 8 (link % 16 + type * 16 + v.toNat * 2 ^ 16 + addr.toNat * 2 ^ 32))).updIo i fun d => { d with tail := d.tail + 1 }) ∧
      (size ≤ (d.tail - d.head).toNat → s.ioEvent i link type v addr = u.updIo i fun d => { d with overflow := sat d.overflow })) ∧
    (∀ r, s.occ = .inbound r →
      let n := if r.write then r.data.length else r.len
      let refused := say (s.ioEvent r.io r.link 1 0 (BitVec.ofNat 32 (r.addr % 2 ^ 48 / 2 ^ 16))) .unsupported
      let aborted (u : State) : State := say (u.ioEvent r.io r.link 2 0 0) .aborted
      let win (k : Nat) : InWin := (s.io r.io).inwin (r.link * 16 + k)
      let first (k : Nat) : Nat := ((win k).w01.extractLsb' 16 32).toNat
      let serves (k : Nat) : Prop := (win k).w01.getLsbD 0 = true ∧ first k * 65536 ≤ r.addr ∧
        r.addr < (first k + (win k).size.toNat) * 65536
      let msg := 0xF00010000500 + r.io * 0x1000000
      (∀ b0 b1 b2 b3, r.addr = msg → r.write = true → r.data = [b0, b1, b2, b3] →
        exec .inboundRequest s = .next (say (s.ioEvent r.io r.link 0 (b1 ++ b0 : BitVec 16) 0) .ok)) ∧
      (¬(r.addr = msg ∧ r.write = true ∧ r.data.length = 4) →
        ((∀ k, k < 16 → ¬serves k) → exec .inboundRequest s = .next refused) ∧
        (∀ k, k < 16 → serves k → (∀ j, j < k → ¬serves j) →
          let w := win k
          let key := w.key.toNat % 2 ^ 13
          let x : Xl := { pa := r.addr, key := key, part := 0, cls := 1, kind := 0, gran := 0, entryAt := 0, moving := false }
          ((r.write = true ∧ w.w01.getLsbD 1 = false) ∨ tget s.keys key = none → exec .inboundRequest s = .next refused) ∧
          (tget s.keys key ≠ none →
            (∀ u, r.write = true → w.w01.getLsbD 1 = true → s.busWrite (16 + r.io) x r.data = (u, none) →
              exec .inboundRequest s = .next (say u .ok)) ∧
            (∀ u f, r.write = true → w.w01.getLsbD 1 = true → s.busWrite (16 + r.io) x r.data = (u, some f) →
              exec .inboundRequest s = .next (aborted u)) ∧
            (∀ u bs, r.write = false → s.busRead (16 + r.io) x n = (u, .ok bs) →
              exec .inboundRequest s = .next (say u (.data bs))) ∧
            (∀ u f, r.write = false → s.busRead (16 + r.io) x n = (u, .error f) →
              exec .inboundRequest s = .next (aborted u)))))) ∧
    (∀ r, s.occ = .remoteAtomic r →
      let n := if r.wide then 8 else 4
      (outsideOk r.pa n = true → r.pa % n = 0 → r.op ≠ .scnd → ∀ u old,
        s.rmw (16 + r.io) (outsideXl r.pa) n r.op r.signed r.data r.cmp = (u, .ok old) →
        exec .remoteAtomicArrival s = .next (say u (.data (toBytes n old.toNat)))) ∧
      (outsideOk r.pa n = false ∨ r.pa % n ≠ 0 → exec .remoteAtomicArrival s = .next (say s .refused))) ∧
    (∀ r, s.occ = .remoteAccess r →
      (∀ u, r.put = true → r.data ≠ [] → outsideOk r.pa r.data.length = true →
        s.busWrite (16 + r.io) (outsideXl r.pa) r.data = (u, none) → exec .inboundRemoteAccess s = .next (say u .ok)) ∧
      (∀ u bs, r.put = false → r.len ≠ 0 → outsideOk r.pa r.len = true →
        s.busRead (16 + r.io) (outsideXl r.pa) r.len = (u, .ok bs) → exec .inboundRemoteAccess s = .next (say u (.data bs))))

/-! ### Frames -/

/-- R24, R98, R130, R133: what a word of one value operation leaves unchanged. Everything but its team stays, all of memory with it,
and so does every thread that performs no operation; a thread whose effects are writes keeps all but D, its index registers and the
registers that its last-use fields kill. -/
def Obligations.ValueFrame : Prop :=
  ∀ (s : State) (a : Act) (ins : List LaneIn) (eff : LaneIn → List Eff),
    let t := s.performed a ins eff
    t = { s with teams := t.teams, nextId := t.nextId } ∧ (∀ pa n k, t.homeRead pa n k = s.homeRead pa n k) ∧
    ((∀ i ∈ ins, ∀ e ∈ i.kills, ∀ k l r, e.1 ≠ .near k l r) →
      (∀ key, key ≠ a.key → tget t.teams key = tget s.teams key) ∧
      ∀ team, tget s.teams a.key = some team → ∃ team', tget t.teams a.key = some team' ∧
        team' = { team with s := team'.s, m := team'.m, dirRange := team'.dirRange, threads := team'.threads, pend := team'.pend,
                            groups := team'.groups } ∧
        (∀ (l : Nat) (th : Thread), team.threads[l]? = some th → (∀ i ∈ ins, i.lane ≠ l) → team'.threads[l]? = some th) ∧
        ((∀ i ∈ ins, ∀ x ∈ eff i, ∃ ws, x = .write ws) →
          team'.m = team.m ∧ team'.dirRange = team.dirRange ∧ team'.pend = team.pend ∧
          ((∀ i ∈ ins, i.dst0.1.isS = false) → team'.s = team.s) ∧
          ∀ i ∈ ins, ∀ th : Thread, team.threads[i.lane]? = some th → (ins.filter fun j => decide (j.lane = i.lane)) = [i] →
            ∃ th' : Thread, team'.threads[i.lane]? = some th' ∧ th' = { th with v := th'.v, t := th'.t, ix := i.ix } ∧
              ((∀ q, i.dst0.1 ≠ .t q) → th'.t = th.t) ∧
              ∀ r, (∀ ws, Eff.write ws ∈ eff i → ∀ q, i.dst0.1 = .v q → r < q ∨ q + ws.length ≤ r) →
                (∀ e ∈ i.kills, ∀ q, e.1 = .v q → r < q ∨ q + e.2 ≤ r) → th'.v[r]? = th.v[r]?))

/-- R7, R190, R195, R220, R222, R245, R251: what stores and loads do to the bytes that are read afterwards. A write at home is
read back under its key, and bytes outside it read as before, under its key or in 16-byte blocks that it does not touch. A
store through a core's L1 is seen by its own core and changes no other byte that the core sees, and a load returns what its core
then sees; a line that leaves the L1 for them takes its dirty bytes home and its clean bytes nowhere. Every L1 action keeps the form
of an L1: a line once, and its dirty bytes present. A scratchpad store changes only its bytes. The stored form of bytes under a key
(log 7), and that a line's dirty bytes are lost over a failed link (log 66), are the model's. -/
def Obligations.MemoryFrames : Prop :=
  ∀ (s : State),
    (∀ pa bs key, Memory.wf s.mem = true →
      let t := s.homeWrite pa bs key
      t.homeRead pa bs.length key = bs ∧ Memory.wf t.mem = true ∧
      ∀ a n k, a + n ≤ pa ∨ pa + bs.length ≤ a → s.keyOf k = s.keyOf key ∨ (∀ b ∈ blocksOf a n, b ∉ blocksOf pa bs.length) →
        t.homeRead a n k = s.homeRead a n k) ∧
    (∀ c key tag x bs pol, Memory.wf s.mem = true → (s.core c).l1Form → x.pa % 128 + bs.length ≤ 128 →
      let t := s.l1Write c key tag x bs pol
      let within (a : Nat) : Prop := x.pa ≤ a ∧ a < x.pa + bs.length
      (t.core c).l1Form ∧ s.cacheFrame t c x.key
        (fun a => if x.pa ≤ a ∧ a < x.pa + bs.length then some (bs.getD (a - x.pa) 0) else none) fun a => pol = 3 ∧ within a) ∧
    (∀ c x n pol, Memory.wf s.mem = true → (s.core c).l1Form → x.pa % 128 + n ≤ 128 →
      let r := s.l1Read c x n pol
      r.2 = (List.range n).map (fun i => r.1.seen c (x.pa + i) x.key) ∧ (r.1.core c).l1Form ∧
      s.cacheFrame r.1 c x.key (fun _ => none) fun _ => False) ∧
    (∀ c, (s.core c).l1Form → (∀ p, ((s.cleanLines c p).core c).l1Form) ∧ (∀ p, ((s.acquireL1 c p).core c).l1Form) ∧
      ∀ line, ((s.evictLine c line).core c).l1Form) ∧
    (∀ blk b off bs, tget s.blocks blk = some b → Memory.wf b.scratch = true →
      let t := s.scratchWrite blk off bs
      t.mem = s.mem ∧ (∀ k, k ≠ blk → tget t.blocks k = tget s.blocks k) ∧
      ∃ b', tget t.blocks blk = some b' ∧ b' = { b with scratch := b'.scratch } ∧ Memory.wf b'.scratch = true ∧
        ∀ a, byteAt b'.scratch a = if off ≤ a ∧ a < off + bs.length then bs.getD (a - off) 0 else byteAt b.scratch a)

/-- R7, R222, R230: the memory, bytes at physical addresses, keeps its canonical form in every step: addresses strictly rising,
no listed byte equal to what an unlisted address reads as. The form, and the 0 that an unlisted address reads as, are the
model's choice (log 1); no rule of the spec states them. -/
def Obligations.MemoryStaysCanonical : Prop :=
  ∀ (s t : State), Memory.wf s.mem = true → step s = .next t → Memory.wf t.mem = true

/-! ### Words, steps, reset and privilege -/

/-- R15, R18, R25, R27, R31, R41: encoding loses nothing and decoding drops nothing: every instruction with the fields of its own row
decodes from its encoding, every word that decodes is the encoding of its instruction, and every well-formed instruction has an
encoding. -/
def Obligations.DecodeEncode : Prop :=
  (∀ i w, i.ownRow = true → encode i = some w → decode w = .ok i) ∧
  (∀ i w ws, i.ownRow = true → encodeCmd i = some (w :: ws) → decodeCmd w ws = .ok i) ∧
  (∀ w i, decode w = .ok i → i.ownRow = true ∧ encode i = some w) ∧
  (∀ w ws i, decodeCmd w ws = .ok i → i.ownRow = true ∧ encodeCmd i = some (w :: ws)) ∧
  (∀ i, i.wellFormed = true → (encode i).isSome = true ∨ ∃ w ws, encodeCmd i = some (w :: ws))

/-- R43, R141, R145, R167, R168, R177, R222, R260, R274, R321, R345: words that the spec writes out there decode to the
instructions that it says they are. -/
def Obligations.DecodedWords : Prop :=
  decode 0x0407120405F01810 = .ok (.icmp { gs := false, gp := 7, d := 0x12, a := 4, b := 5, c := 0xF0, lu := 0, kw := 6, ns := 0, md := 0x10 }) ∧
  decode 0x0C570C04050C1C02 = .ok (.dp4f { gs := false, gp := 7, d := 12, a := 4, b := 5, c := 12, lu := 0, kw := 7, ns := 0, md := 2 }) ∧
  decode 0x105704D8D9F01800 = .ok (.dcos { gs := false, gp := 7, d := 4, a := 0xD8, b := 0xD9, c := 0xF0, lu := 0, kw := 6, ns := 0, md := 0 }) ∧
  decode 0x1407F008F0F01002 = .ok (.ixset { gs := false, gp := 7, d := 0xF0, a := 8, b := 0xF0, c := 0xF0, lu := 0, kw := 4, ns := 0, md := 2 }) ∧
  decode 0x20D7F0F0F0F0001B = .ok (.fence { gs := false, gp := 7, d := 0xF0, a := 0xF0, b := 0xF0, c := 0xF0, lu := 0, kw := 0, ns := 0, md := 0x1B }) ∧
  decode 0x2477F00208F01801 = .ok (.qpush { gs := false, gp := 7, d := 0xF0, a := 2, b := 8, c := 0xF0, lu := 0, kw := 6, ns := 0, md := 1 }) ∧
  decode 0x280704F0F0F00001 = .ok (.mclaim { gs := false, gp := 7, d := 4, a := 0xF0, b := 0xF0, c := 0xF0, lu := 0, kw := 0, ns := 0, md := 1 }) ∧
  decode 0x2C5704F000100000 = .ok (.sysrd { gs := false, gp := 7, d := 4, a := 0xF0, b := 0, c := 0x10, lu := 0, kw := 0, ns := 0, md := 0 }) ∧
  decode 0x82706064FFFFFFFF = .ok (.iaddi { gs := false, gp := 7, d := 6, a := 6, lu := false, kw := true, rsv := 0, imm := 0xFFFFFFFF }) ∧
  decode 0x8970A02400001003 = .ok (.st { gs := false, gp := 7, d := 10, a := 2, lu := false, kw := true, rsv := 0, imm := 0x1003 }) ∧
  decode 0x400409200A0C1A40 = .ok (.p2Iadd { hi := { g := 0, d := 8, b := 9, luA := false, luB := false, kw := true, imm := 0 }, lop := .shl, lo := { g := 0, d := 12, b := 13, luA := false, luB := false, kw := true, imm := 0 } }) ∧
  decode 0xC492FFFFF614F0F0 = .ok (.bra { gs := false, gp := 2, count := 9, rsv := false, target := 0xFFFFF6, a0 := 0x14, a1 := 0xF0, a2 := 0xF0 })

/-- R7, R15, R16, R98: a step runs what it decodes. At a group's turn to issue it is the instruction that the word at the
group's place decodes to, for that group; at a queue's turn the command that its words decode to, for that queue; else the event
of the turn; and what follows every step follows. The words of a fetched line are its bytes in little-endian order. The order of
turns is the model's (log 3). -/
def Obligations.StepRuns : Prop :=
  ∀ (s u : State),
    let after (o : Host.Outcome State Fault Refusal) : Host.Outcome State Fault Refusal := match o with
      | .next t => .next { t.settle with clock := t.settle.clock + 1, issuer := .none }
      | .fault f => .fault f
      | .refused r => .refused r
    (∀ key g team gr w i, s.nextTurn = (u, .issue key g) → u.mayIssue key g = true → tget u.teams key = some team →
      team.groups[g]? = some gr → gr.leg[gr.pos]? = some w → decode w = .ok i →
      step s = after (exec i { u with issuer := .group key g })) ∧
    (∀ die q a i, s.nextTurn = (u, .queue die q) → u.queuePlaced die q = true →
      let v := u.takeCommand die q
      v.queueAct die q = some a → a.entry.drain = none → decodeCmd a.entry.word a.entry.extra = .ok i →
      step s = after (exec i { v with issuer := .queue die q })) ∧
    (∀ i o, s.nextTurn = (u, .event i o) → step s = after (exec i { u with issuer := .event o })) ∧
    (∀ (team : Team) va x v bs v', s.translate team.agent (va &&& ~~~(63 : Word64)) 64 64 .fetch = (v, .ok x) →
      v.icacheOf team = [] → v.busRead (dieOf team.core) x 64 = (v', .ok bs) →
      ∃ l, (s.fetchLine team va).2 = .ok l ∧ ∀ k, k < 8 → l[k]? = some (BitVec.ofNat 64 (ofBytes ((bs.drop (8 * k)).take 8))))

/-- R192, R232, R291, R329, R331, R332, R342, R346, R348, R357, R361, R367, R390, R394, R398: the reset values of the spec; no
team is resident and no lane is started before the boot; the memory has its form. That the memory lists nothing is the model's
choice (log 1). The values that the spec does not give are the model's (log 2) and are not stated here. -/
def Obligations.ResetState : Prop :=
  let r := State.reset
  r.teams = [] ∧ r.blocks = [] ∧ r.held = [] ∧ Memory.wf r.mem = true ∧
  (∀ c, let k := r.core c
    k.tqBase = 0 ∧ k.tqHead = 0 ∧ k.tqTail = 0 ∧ k.tqHand = 0 ∧ k.tqBatch = 1 ∧ k.tqAge = 0 ∧ k.timerCmp = BitVec.allOnes 64 ∧
    BitVec.ofNat 64 r.clock + k.timerOff = 0 ∧ k.intPending = 0 ∧ k.intEnable = 0 ∧ k.tvec = 0 ∧ k.tpc = 0 ∧ k.cause = 0 ∧ k.tval = 0 ∧
    k.wdt = 0 ∧ k.started = false ∧ k.splitTarget = 0 ∧ k.splitCurrent = 0 ∧ k.splitMoving = false ∧ k.splitBusy = false ∧
    k.preGrace = 4096) ∧
  (∀ d, d < 16 → let k := r.die d
    k.parts = [(0, { w0 := 0x0001FFFF, w1 := 0, w2 := 0, refused := false, sweeping := false })] ∧ k.fallback = 0 ∧
    (∀ q, q < 32 → (r.queue d q).state = .idle ∧ (r.queue d q).owner = 0 ∧ (r.queue d q).enabled = false) ∧
    k.regionBase = 0 ∧ k.regionCount = 0 ∧ k.supCore.toNat = d * 96 ∧ k.seqError = 0 ∧
    (∀ i, i < 16 → (r.slot d i).valid = false) ∧ k.pending = [] ∧ k.ctxBase = 0 ∧ k.ctxFrames = 0) ∧
  (r.io 0).eventCore = 0 ∧ (r.io 1).eventCore = 1152 ∧
  (∀ i, (r.io i).cap = 0 ∧ (r.io i).head = 0 ∧ (r.io i).tail = 0 ∧ (r.io i).overflow = 0) ∧
  r.mgmt.holder = 0 ∧ r.mgmt.grants = 0 ∧ r.mgmt.last = 0

/-- R45, R343, R345, R346: in a U team the supervisor-only opcodes fail the leg check, and so does SRET outside the scalar lane;
a SYSRD or SYSWR of a register that its thread may not access traps PRIVILEGED_OP, and one of an unassigned register, or in the
wrong width, RESERVED_FIELD, and nothing is read or written. The detail word of these records, which the spec leaves open, is
Config.openDetail (log 22). -/
def Obligations.Privilege : Prop :=
  (∀ (al : Allot) (pend : List Touch) (first : Bool) (op : Nat) (w : F3) (g : Sig), f3Sig op w = some g →
    (al.mode = .u ∧ op ∈ [0x2C7, 0x2C8, 0x2CC, 0x2CD, 0x2CF, 0x2D0]) ∨ (al.kind ≠ .scalar ∧ op = 0x2C4) →
    ∃ f ∈ f3Fails al pend first op w, f.cause = .privilegedOp) ∧
  ∀ (s : State) (a : Act) (w : F3) (ins : List LaneIn),
    let wide := w.md.getLsbD 0
    let size := if wide then 8 else 4
    let forbidden (write : Bool) : Prop := ∃ who, (sysReg w, size, who) ∈ sysTable ∧
      ((who = 1 ∧ a.team.mode = .u) ∨ (who = 2 ∧ a.team.kind ≠ .scalar) ∨ (sysReg w = 0x050 ∧ write = true ∧ a.team.mode = .u))
    let unknown : Prop := ∀ who, (sysReg w, size, who) ∉ sysTable
    let trapped (d : Code) (c : Cause) : State := (s.faultLanes a d (ins.map fun i => openFault i.lane c 0)).advance a
    (s.lanesF3 a 0x2C5 w ins →
      (forbidden false → exec (.sysrd w) s = .next (trapped w.d .privilegedOp)) ∧
      (unknown → exec (.sysrd w) s = .next (trapped w.d .reservedField))) ∧
    (s.lanesF3 a 0x2C6 w ins → ∀ mk ∈ [Instr.syswr, .statusWrite, .ortRegisterWrite, .tqBaseWrite, .tqHeadWrite, .tqHandWrite,
        .tqBatchWrite, .coreSplitWrite, .intPendingClear, .ipiWrite, .wdtWrite, .bspWrite],
      (forbidden true → exec (mk w) s = .next (trapped 0xF0 .privilegedOp)) ∧
      (unknown → exec (mk w) s = .next (trapped 0xF0 .reservedField)))

/-- R207-R210, R213, R214, R220, R222, R223: a translation ends with the first failing step's cause and w9: a null or too large
handle, a record that fails a check of R208 (which of them is stated in full), a use that its kind or permissions refuse, an
access past its extent or out of alignment, an element outside a tensor's shape (w9 then holds the lowest such coordinate, the
model's choice, log 76) or bytes that do not follow on, an empty key slot, and an entry that is absent or has a reserved bit set; lanes of LD or ST whose translations all fail trap with them, each
with its own address, and have no other effect. Records and entries are read under key slot 0 (log 36), the record of a
store names no destination (log 29), and a reserved element format fails every access (log 74); these are the model's readings. -/
def Obligations.TranslationFaults : Prop :=
  (∀ (s : State) (ag : Agent) (va : Word64) (n al : Nat) (u : Use), ag.bare = false →
    let h := (va.extractLsb' 40 24).toNat
    let off := (va.extractLsb' 0 40).toNat
    let fails (c : Cause) (w9 : Word32) : Prop := (s.translate ag va n al u).2 = .error { cause := c, w9 := w9 }
    (h = 0 → fails .nullObject 0) ∧
    (h ≠ 0 → ag.ctx.ortSize.toNat ≤ h → fails .badHandle 0) ∧
    (h ≠ 0 → h < ag.ctx.ortSize.toNat → (s.tlbOf ag.tlb).rec? ag.ctx.asid h = none → (s.die ag.die).tlb.rec? ag.ctx.asid h = none →
      ∀ v bs, s.walkRead ag.die (ag.ctx.ortBase.toNat + h * 64) 64 = (v, .ok bs) →
        ({ d := (List.range 8).map fun i => BitVec.ofNat 64 (ofBytes ((bs.drop (8 * i)).take 8)) } : Record).ok = false →
        fails .badHandle 0) ∧
    ∀ v r, s.findRecord ag h = (v, .ok r) →
      let bit (i : Nat) : Bool := (r.d.getD 0 0).getLsbD i
      let closed : Prop := (bit 8 = true ∧ ag.engine = false) ∨ (bit 9 = true ∧ ag.user = true)
      let wrongKind : Prop := ∃ k, u.kind = some k ∧ r.kind ≠ k
      let open' : Prop := ¬closed ∧ ¬wrongKind
      let reads : Prop := u.read = true → bit 4 = true
      let writes : Prop := u.write = true → bit 5 = true
      let runs : Prop := u.exec = true → bit 6 = true
      (bit 8 = true → ag.engine = false → fails .permission 8) ∧
      (bit 8 = false ∨ ag.engine = true → bit 9 = true → ag.user = true → fails .permission 9) ∧
      (¬closed → wrongKind → fails .permission 0) ∧
      (open' → ¬reads → fails .permission 4) ∧
      (open' → reads → ¬writes → fails .permission 5) ∧
      (open' → reads → writes → ¬runs → fails .permission 6) ∧
      (open' → reads → writes → runs → u.atomic = true → bit 7 = false → fails .permission 7) ∧
      (r.refuses ag u = none ↔ open' ∧ reads ∧ writes ∧ runs ∧ (u.atomic = true → bit 7 = true)) ∧
      (r.refuses ag u = none →
        (r.extent < off + n → fails .outOfExtent 0) ∧
        (off + n ≤ r.extent → off % al ≠ 0 → fails .misaligned 0) ∧
        (off + n ≤ r.extent → off % al = 0 →
          -- the element that holds the first byte of a tensor's image
          (let x (k : Nat) : Nat := (r.coords (if r.elemBits = 4 then 2 * off else off / (r.elemBits / 8))).getD k 0
           ∀ k, r.kind = 1 → k < 5 → r.ext k ≤ x k → (∀ j, j < k → x j < r.ext j) → fails .outOfShape (BitVec.ofNat 32 k)) ∧
          (r.locate off n = .error { cause := .misaligned, w9 := 0 } → fails .misaligned 0) ∧
          ∀ g b, r.locate off n = .ok (g, b) →
            (tget v.keys r.keyIdx = none → fails .keyInvalid (BitVec.ofNat 32 r.keyIdx)) ∧
            (tget v.keys r.keyIdx ≠ none → (v.tlbOf ag.tlb).gran? ag.ctx.asid h r.gen g = none →
              (v.die ag.die).tlb.gran? ag.ctx.asid h r.gen g = none → ∀ v' bs, v.walkRead ag.die (r.table + 8 * g) 8 = (v', .ok bs) →
              let e := BitVec.ofNat 64 (ofBytes bs)
              e.extractLsb' 48 16 ≠ 0 ∨ e.extractLsb' 2 14 ≠ 0 ∨ e.extractLsb' 0 2 = 0 ∨ e.extractLsb' 0 2 = 3 →
              fails .residency (BitVec.ofNat 32 g))))) ∧
  (∀ r : Record,
    let dw (i : Nat) : Word64 := r.d.getD i 0
    let f (i hi lo : Nat) : Nat := ((dw i).extractLsb' lo (hi + 1 - lo)).toNat
    let n := f 1 59 56
    let bits := if f 1 55 48 ≤ 15 then fmtBits (f 1 55 48) else 0
    r.ok = true ↔ f 0 0 0 = 1 ∧ f 0 31 25 = 0 ∧ f 2 63 40 = 0 ∧ f 0 3 1 ≤ 5 ∧ f 1 63 60 = 0 ∧ f 1 2 0 = 0 ∧
      (f 0 3 1 ≠ 1 → f 1 59 48 = 0 ∧ dw 3 = 0 ∧ dw 4 = 0 ∧ dw 5 = 0 ∧ dw 6 = 0 ∧ dw 7 = 0) ∧
      (f 0 3 1 = 1 → f 5 63 56 = 0 ∧ 1 ≤ n ∧ n ≤ 5 ∧ bits ≠ 0 ∧ (∀ k, k < 5 → (k < n → r.ext k ≠ 0) ∧ (n ≤ k → r.ext k = 1)) ∧
        (∀ k, 1 ≤ k → k < 5 → (n ≤ k → r.stride k = 0) ∧ (k < n → r.ext (k - 1) * r.stride (k - 1) ≤ r.stride k)) ∧
        (∀ k, k < 3 → n ≤ k → r.tile k = 0) ∧ 2 ^ (r.tile 0 + r.tile 1 + r.tile 2) * bits = 8 * 65536 ∧
        (bits = 4 → r.tile 0 ≠ 0 ∧ ∀ k, 1 ≤ k → k < 5 → r.stride k % 2 = 0))) ∧
  ∀ (s : State) (a : Act) (w : XW) (ins : List LaneIn) (v : Nat → State) (f : Nat → XFault),
    let n := accSize w
    let failing (u : Use) : Prop := v 0 = s ∧ ∀ (k : Nat) (i : LaneIn), ins[k]? = some i →
      (v k).waitsHeld a i.lane (globalAddr w i) n n u = false ∧
      (v k).translate a.team.agent (globalAddr w i) n n u = (v (k + 1), .error (f i.lane))
    let traps (d : Code) : State := ((v ins.length).faultLanes a d
      (ins.map fun i => laneFault i.lane (f i.lane).cause (f i.lane).w9 (globalAddr w i))).advance a
    (s.lanesX a 8 w ins → failing .load → exec (.ld w) s = .next (traps w.d)) ∧
    (s.lanesX a 9 w ins → failing .store → exec (.st w) s = .next (traps 0xF0))
end

