-- ==== Sys2Proof/Laws/Commands.lean ====
section
/-! SUPPORT. What a copy command and a run of its elements can do. -/

namespace Sys2Proof.Machine

/-- A chain of elements is the run of their turns. -/
theorem runElems_done {die q : Nat} {f : State → Nat → CmdRes} {R : Nat → State → State → Prop}
    (h : ∀ k s t, R k s t → f s k = .done t) {n k : Nat} {s t : State} (hc : ElemChain R n k s t) :
    runElems die q f n k s = .done t := by
  induction hc with
  | nil k s => rfl
  | cons h1 _ ih => simp only [runElems, h _ _ _ h1]; exact ih

/-- A command of a queue that can take its turn. -/
theorem asQueue_ready {s : State} {a : QAct} (h : s.queueReady a) (f : QAct → State → CmdRes) :
    s.asQueue f = .next (State.endTurn a.die a.q (f a s)) := by
  obtain ⟨h1, h2, h3⟩ := h
  simp [State.asQueue, h1, h2, h3]

/-- As `asQueue_ready` for a command with field bits that must be 0. -/
theorem command_ready {s : State} {a : QAct} (h : s.queueReady a) {c : Cmd} {m : BitVec 48} (hm : cmdFits c m)
    (f : QAct → State → CmdRes) : s.command c m f = .next (State.endTurn a.die a.q (f a s)) := by
  unfold cmdFits at hm
  simp only [State.command]
  rw [asQueue_ready h]
  simp only [hm]
  rfl

/-- A field of a command as a bit-field. -/
theorem cmdFld_eq (c : Cmd) (hi lo : Nat) : cmdFld c hi lo = (c.fields.extractLsb' lo (hi + 1 - lo)).toNat := by
  simp [cmdFld, Nat.shiftRight_eq_div_pow]

/-- A field of a doubleword as a bit-field. -/
theorem field_eq (x : Word64) (hi lo : Nat) : field x hi lo = (x.extractLsb' lo (hi + 1 - lo)).toNat := by
  simp [field, Nat.shiftRight_eq_div_pow]

/-- A field of a descriptor as a bit-field. -/
theorem dfld_eq (x : Word32) (hi lo : Nat) : dfld x hi lo = (x.extractLsb' lo (hi + 1 - lo)).toNat := by
  simp [dfld, Nat.shiftRight_eq_div_pow]

end Sys2Proof.Machine
end

