-- ==== Sys2Proof/Laws/Table.lean ====
section
/-! SUPPORT. Sparse tables and byte stores: a read after a write, other keys, and the canonical form. -/

namespace Sys2Proof.Machine

@[simp] theorem tget_nil {α : Type} (n : Nat) : tget ([] : Tab α) n = none := rfl

theorem tget_cons {α : Type} (k : Nat) (a : α) (t : Tab α) (n : Nat) :
    tget ((k, a) :: t) n = if k = n then some a else tget t n := rfl

@[simp] theorem tget_tset_self {α : Type} (t : Tab α) (n : Nat) (b : α) : tget (tset t n b) n = some b := by
  induction t with
  | nil => simp [tset, tget]
  | cons e t ih =>
    obtain ⟨k, a⟩ := e
    simp only [tset]
    split
    · simp [tget]
    · split
      · simp [tget]
      · simp [tget, ih]; omega

@[simp] theorem tget_tset_ne {α : Type} (t : Tab α) {n m : Nat} (b : α) (h : m ≠ n) : tget (tset t n b) m = tget t m := by
  induction t with
  | nil => simp [tset, tget]; omega
  | cons e t ih =>
    obtain ⟨k, a⟩ := e
    simp only [tset]
    split
    · simp only [tget]; split
      · omega
      · rfl
    · split
      · simp only [tget]; subst_vars; split
        · omega
        · rfl
      · simp [tget, ih]

theorem tget_tset {α : Type} (t : Tab α) (n m : Nat) (b : α) : tget (tset t n b) m = if m = n then some b else tget t m := by
  by_cases h : m = n
  · subst h; simp
  · simp [h]

@[simp] theorem tget_tdel_ne {α : Type} (t : Tab α) {n m : Nat} (h : m ≠ n) : tget (tdel t n) m = tget t m := by
  induction t with
  | nil => rfl
  | cons e t ih =>
    obtain ⟨k, a⟩ := e
    simp only [tdel]
    split
    · simp only [tget]; split
      · omega
      · rfl
    · simp [tget, ih]

/-- Keys strictly rising. -/
def Tab.rising {α : Type} (t : Tab α) : Prop := t.Pairwise fun x y => x.1 < y.1

theorem mem_tset {α : Type} {t : Tab α} {n : Nat} {b : α} {e : Nat × α} (h : e ∈ tset t n b) : e = (n, b) ∨ e ∈ t := by
  induction t with
  | nil => simp [tset] at h; exact .inl h
  | cons x t ih =>
    obtain ⟨k, a⟩ := x
    simp only [tset] at h
    split at h
    · simpa using h
    · split at h
      · simp at h; rcases h with h | h
        · exact .inl h
        · exact .inr (by simp [h])
      · simp at h; rcases h with h | h
        · exact .inr (by simp [h])
        · rcases ih h with h | h
          · exact .inl h
          · exact .inr (by simp [h])

theorem mem_tdel {α : Type} {t : Tab α} {n : Nat} {e : Nat × α} (h : e ∈ tdel t n) : e ∈ t := by
  induction t with
  | nil => exact h
  | cons x t ih =>
    obtain ⟨k, a⟩ := x
    simp only [tdel] at h
    split at h
    · simp [h]
    · simp at h; rcases h with h | h
      · simp [h]
      · simp [ih h]

theorem rising_tset {α : Type} {t : Tab α} (n : Nat) (b : α) (h : Tab.rising t) : Tab.rising (tset t n b) := by
  induction t with
  | nil => simp [tset, Tab.rising]
  | cons x t ih =>
    obtain ⟨k, a⟩ := x
    have hk := List.pairwise_cons.1 h
    simp only [tset]
    split
    · refine List.pairwise_cons.2 ⟨?_, h⟩
      intro e he
      simp at he; rcases he with he | he
      · subst he; assumption
      · have := hk.1 e he; simp at this ⊢; omega
    · split
      · subst_vars; exact List.pairwise_cons.2 ⟨hk.1, hk.2⟩
      · refine List.pairwise_cons.2 ⟨?_, ih hk.2⟩
        intro e he
        rcases mem_tset he with he | he
        · subst he; simp; omega
        · exact hk.1 e he

theorem rising_tdel {α : Type} {t : Tab α} (n : Nat) (h : Tab.rising t) : Tab.rising (tdel t n) := by
  induction t with
  | nil => exact h
  | cons x t ih =>
    obtain ⟨k, a⟩ := x
    have hk := List.pairwise_cons.1 h
    simp only [tdel]
    split
    · exact hk.2
    · exact List.pairwise_cons.2 ⟨fun e he => hk.1 e (mem_tdel he), ih hk.2⟩

theorem tget_none_of_rising {α : Type} {t : Tab α} {n : Nat} (h : ∀ e ∈ t, n < e.1) : tget t n = none := by
  induction t with
  | nil => rfl
  | cons x t ih =>
    obtain ⟨k, a⟩ := x
    have h1 := h (k, a) (by simp)
    simp only [tget]
    split
    · simp at h1; omega
    · exact ih fun e he => h e (by simp [he])

@[simp] theorem tget_tdel_self {α : Type} {t : Tab α} (n : Nat) (h : Tab.rising t) : tget (tdel t n) n = none := by
  induction t with
  | nil => rfl
  | cons x t ih =>
    obtain ⟨k, a⟩ := x
    have hk := List.pairwise_cons.1 h
    simp only [tdel]
    split
    · subst_vars; exact tget_none_of_rising hk.1
    · simp only [tget]; split
      · contradiction
      · exact ih hk.2

theorem mem_of_tget {α : Type} {t : Tab α} {n : Nat} {a : α} (h : tget t n = some a) : (n, a) ∈ t := by
  induction t with
  | nil => simp at h
  | cons x t ih =>
    obtain ⟨k, b⟩ := x
    simp only [tget] at h
    split at h
    · simp at h; subst_vars; simp
    · simp [ih h]

/-! ### Byte stores -/

/-- The Bool test of the form as a proposition: addresses strictly rising and no listed 0. -/
theorem wf_iff (m : Memory) : Memory.wf m = true ↔ Tab.rising m ∧ ∀ e ∈ m, e.2 ≠ 0 := by
  induction m with
  | nil => simp [Memory.wf, Tab.rising]
  | cons e t ih =>
    obtain ⟨a, b⟩ := e
    cases t with
    | nil => simp [Memory.wf, Tab.rising]
    | cons e' t =>
      obtain ⟨a', b'⟩ := e'
      have e1 : Memory.wf ((a, b) :: (a', b') :: t) = true ↔ b ≠ 0 ∧ a < a' ∧ Memory.wf ((a', b') :: t) = true := by
        simp [Memory.wf, and_assoc]
      rw [e1, ih]
      constructor
      · rintro ⟨hb, ha, hr, hn⟩
        refine ⟨List.pairwise_cons.2 ⟨?_, hr⟩, ?_⟩
        · intro x hx
          simp at hx; rcases hx with hx | hx
          · subst hx; exact ha
          · have := (List.pairwise_cons.1 hr).1 x hx; simp at this ⊢; omega
        · intro x hx
          simp at hx; rcases hx with hx | hx | hx
          · subst hx; exact hb
          · exact hn x (by simp [hx])
          · exact hn x (by simp [hx])
      · rintro ⟨hr, hn⟩
        have h2 := List.pairwise_cons.1 hr
        exact ⟨hn (a, b) (by simp), h2.1 (a', b') (by simp), h2.2, fun x hx => hn x (by simp [hx])⟩

theorem wf_nil : Memory.wf [] = true := rfl

theorem wf_setByte {m : Memory} (a : Nat) (b : Byte) (h : Memory.wf m = true) : Memory.wf (setByte m a b) = true := by
  rw [wf_iff] at h ⊢
  unfold setByte
  split
  · exact ⟨rising_tdel a h.1, fun e he => h.2 e (mem_tdel he)⟩
  · refine ⟨rising_tset a b h.1, fun e he => ?_⟩
    rcases mem_tset he with he | he
    · subst he; assumption
    · exact h.2 e he

theorem wf_writeBytes {m : Memory} (a : Nat) (bs : List Byte) (h : Memory.wf m = true) : Memory.wf (writeBytes m a bs) = true := by
  induction bs generalizing m a with
  | nil => exact h
  | cons b bs ih => exact ih (a + 1) (wf_setByte a b h)

@[simp] theorem byteAt_setByte_ne (m : Memory) {a x : Nat} (b : Byte) (h : x ≠ a) : byteAt (setByte m a b) x = byteAt m x := by
  unfold byteAt setByte
  split <;> simp [h]

theorem byteAt_setByte_self {m : Memory} (a : Nat) (b : Byte) (h : Memory.wf m = true) : byteAt (setByte m a b) a = b := by
  unfold byteAt setByte
  split
  · simp [tget_tdel_self a ((wf_iff m).1 h).1, *]
  · simp

theorem byteAt_writeBytes_out (m : Memory) (a : Nat) (bs : List Byte) {x : Nat} (h : x < a ∨ a + bs.length ≤ x) :
    byteAt (writeBytes m a bs) x = byteAt m x := by
  induction bs generalizing m a with
  | nil => rfl
  | cons b bs ih =>
    simp only [writeBytes]
    simp at h
    rw [ih (setByte m a b) (a + 1) (by omega), byteAt_setByte_ne _ _ (by omega)]

theorem byteAt_writeBytes_in {m : Memory} (a : Nat) (bs : List Byte) {i : Nat} (h : i < bs.length) (hm : Memory.wf m = true) :
    byteAt (writeBytes m a bs) (a + i) = bs.getD i 0 := by
  induction bs generalizing m a i with
  | nil => simp at h
  | cons b bs ih =>
    simp only [writeBytes]
    cases i with
    | zero =>
      rw [byteAt_writeBytes_out _ _ _ (by omega), Nat.add_zero, byteAt_setByte_self a b hm]; rfl
    | succ i =>
      have e : a + (i + 1) = a + 1 + i := by omega
      rw [e, ih (a + 1) (by simpa using h) (wf_setByte a b hm)]; rfl

theorem readBytes_length (m : Memory) (a n : Nat) : (readBytes m a n).length = n := by
  induction n generalizing a with
  | zero => rfl
  | succ n ih => simp [readBytes, ih]

theorem readBytes_getD (m : Memory) (a n : Nat) {i : Nat} (h : i < n) : (readBytes m a n).getD i 0 = byteAt m (a + i) := by
  induction n generalizing a i with
  | zero => omega
  | succ n ih =>
    cases i with
    | zero => rfl
    | succ i =>
      have := ih (a + 1) (i := i) (by omega)
      simp only [readBytes, List.getD_cons_succ]
      rw [this]; congr 1; omega

theorem readBytes_eq (m m' : Memory) (a n : Nat) (h : ∀ i < n, byteAt m (a + i) = byteAt m' (a + i)) :
    readBytes m a n = readBytes m' a n := by
  induction n generalizing a with
  | zero => rfl
  | succ n ih =>
    simp only [readBytes]
    rw [show byteAt m a = byteAt m' a from h 0 (by omega), ih (a + 1) fun i hi => by
      have := h (i + 1) (by omega); rwa [show a + 1 + i = a + (i + 1) by omega]]

/-- Bytes read back after a write of them. -/
theorem readBytes_writeBytes {m : Memory} (a : Nat) (bs : List Byte) (h : Memory.wf m = true) :
    readBytes (writeBytes m a bs) a bs.length = bs := by
  apply List.ext_getElem
  · exact readBytes_length _ _ _
  · intro i h1 h2
    have h3 := readBytes_getD (writeBytes m a bs) a bs.length h2
    rw [byteAt_writeBytes_in a bs h2 h] at h3
    simpa [List.getD_eq_getElem?_getD, h1, h2] using h3

@[simp] theorem toBytes_length (n x : Nat) : (toBytes n x).length = n := by
  induction n generalizing x with
  | zero => rfl
  | succ n ih => simp [toBytes, ih]

theorem ofBytes_toBytes (n x : Nat) : ofBytes (toBytes n x) = x % 256 ^ n := by
  induction n generalizing x with
  | zero => simp [toBytes, ofBytes, Nat.mod_one]
  | succ n ih =>
    simp only [toBytes, ofBytes, ih, BitVec.toNat_ofNat]
    have h := Nat.mod_mul (a := 256) (b := 256 ^ n) (x := x)
    rw [← Nat.pow_succ'] at h
    exact h.symm

end Sys2Proof.Machine
end

