-- ==== Sys2Proof/Laws/State.lean ====
section
/-! SUPPORT. One law per field and update of the state: what each named update of Machine/Ops.lean leaves of the state. -/

namespace Sys2Proof.Machine

/-! ### setCore -/

@[simp] theorem State.setCore_clock (s : State) (c : Nat) (k : Core) : (s.setCore c k).clock = s.clock := rfl
@[simp] theorem State.setCore_agenda (s : State) (c : Nat) (k : Core) : (s.setCore c k).agenda = s.agenda := rfl
@[simp] theorem State.setCore_issuer (s : State) (c : Nat) (k : Core) : (s.setCore c k).issuer = s.issuer := rfl
@[simp] theorem State.setCore_free (s : State) (c : Nat) (k : Core) : (s.setCore c k).free = s.free := rfl
@[simp] theorem State.setCore_mem (s : State) (c : Nat) (k : Core) : (s.setCore c k).mem = s.mem := rfl
@[simp] theorem State.setCore_blockKey (s : State) (c : Nat) (k : Core) : (s.setCore c k).blockKey = s.blockKey := rfl
@[simp] theorem State.setCore_keys (s : State) (c : Nat) (k : Core) : (s.setCore c k).keys = s.keys := rfl
@[simp] theorem State.setCore_boots (s : State) (c : Nat) (k : Core) : (s.setCore c k).boots = s.boots := rfl
@[simp] theorem State.setCore_poison (s : State) (c : Nat) (k : Core) : (s.setCore c k).poison = s.poison := rfl
@[simp] theorem State.setCore_scopes (s : State) (c : Nat) (k : Core) : (s.setCore c k).scopes = s.scopes := rfl
@[simp] theorem State.setCore_faultSig (s : State) (c : Nat) (k : Core) : (s.setCore c k).faultSig = s.faultSig := rfl
@[simp] theorem State.setCore_held (s : State) (c : Nat) (k : Core) : (s.setCore c k).held = s.held := rfl
@[simp] theorem State.setCore_watches (s : State) (c : Nat) (k : Core) : (s.setCore c k).watches = s.watches := rfl
@[simp] theorem State.setCore_teams (s : State) (c : Nat) (k : Core) : (s.setCore c k).teams = s.teams := rfl
@[simp] theorem State.setCore_cores (s : State) (c : Nat) (k : Core) : (s.setCore c k).cores = tset s.cores c k := rfl
@[simp] theorem State.setCore_hitches (s : State) (c : Nat) (k : Core) : (s.setCore c k).hitches = s.hitches := rfl
@[simp] theorem State.setCore_blocks (s : State) (c : Nat) (k : Core) : (s.setCore c k).blocks = s.blocks := rfl
@[simp] theorem State.setCore_nbhds (s : State) (c : Nat) (k : Core) : (s.setCore c k).nbhds = s.nbhds := rfl
@[simp] theorem State.setCore_nextId (s : State) (c : Nat) (k : Core) : (s.setCore c k).nextId = s.nextId := rfl
@[simp] theorem State.setCore_dies (s : State) (c : Nat) (k : Core) : (s.setCore c k).dies = s.dies := rfl
@[simp] theorem State.setCore_ios (s : State) (c : Nat) (k : Core) : (s.setCore c k).ios = s.ios := rfl
@[simp] theorem State.setCore_mgmt (s : State) (c : Nat) (k : Core) : (s.setCore c k).mgmt = s.mgmt := rfl

/-! ### updCore -/

@[simp] theorem State.updCore_clock (s : State) (c : Nat) (f : Core → Core) : (s.updCore c f).clock = s.clock := rfl
@[simp] theorem State.updCore_agenda (s : State) (c : Nat) (f : Core → Core) : (s.updCore c f).agenda = s.agenda := rfl
@[simp] theorem State.updCore_issuer (s : State) (c : Nat) (f : Core → Core) : (s.updCore c f).issuer = s.issuer := rfl
@[simp] theorem State.updCore_free (s : State) (c : Nat) (f : Core → Core) : (s.updCore c f).free = s.free := rfl
@[simp] theorem State.updCore_mem (s : State) (c : Nat) (f : Core → Core) : (s.updCore c f).mem = s.mem := rfl
@[simp] theorem State.updCore_blockKey (s : State) (c : Nat) (f : Core → Core) : (s.updCore c f).blockKey = s.blockKey := rfl
@[simp] theorem State.updCore_keys (s : State) (c : Nat) (f : Core → Core) : (s.updCore c f).keys = s.keys := rfl
@[simp] theorem State.updCore_boots (s : State) (c : Nat) (f : Core → Core) : (s.updCore c f).boots = s.boots := rfl
@[simp] theorem State.updCore_poison (s : State) (c : Nat) (f : Core → Core) : (s.updCore c f).poison = s.poison := rfl
@[simp] theorem State.updCore_scopes (s : State) (c : Nat) (f : Core → Core) : (s.updCore c f).scopes = s.scopes := rfl
@[simp] theorem State.updCore_faultSig (s : State) (c : Nat) (f : Core → Core) : (s.updCore c f).faultSig = s.faultSig := rfl
@[simp] theorem State.updCore_held (s : State) (c : Nat) (f : Core → Core) : (s.updCore c f).held = s.held := rfl
@[simp] theorem State.updCore_watches (s : State) (c : Nat) (f : Core → Core) : (s.updCore c f).watches = s.watches := rfl
@[simp] theorem State.updCore_teams (s : State) (c : Nat) (f : Core → Core) : (s.updCore c f).teams = s.teams := rfl
@[simp] theorem State.updCore_cores (s : State) (c : Nat) (f : Core → Core) : (s.updCore c f).cores = tset s.cores c (f (s.core c)) := rfl
@[simp] theorem State.updCore_hitches (s : State) (c : Nat) (f : Core → Core) : (s.updCore c f).hitches = s.hitches := rfl
@[simp] theorem State.updCore_blocks (s : State) (c : Nat) (f : Core → Core) : (s.updCore c f).blocks = s.blocks := rfl
@[simp] theorem State.updCore_nbhds (s : State) (c : Nat) (f : Core → Core) : (s.updCore c f).nbhds = s.nbhds := rfl
@[simp] theorem State.updCore_nextId (s : State) (c : Nat) (f : Core → Core) : (s.updCore c f).nextId = s.nextId := rfl
@[simp] theorem State.updCore_dies (s : State) (c : Nat) (f : Core → Core) : (s.updCore c f).dies = s.dies := rfl
@[simp] theorem State.updCore_ios (s : State) (c : Nat) (f : Core → Core) : (s.updCore c f).ios = s.ios := rfl
@[simp] theorem State.updCore_mgmt (s : State) (c : Nat) (f : Core → Core) : (s.updCore c f).mgmt = s.mgmt := rfl

/-! ### updHitch -/

@[simp] theorem State.updHitch_clock (s : State) (h : Nat) (f : Hitch → Hitch) : (s.updHitch h f).clock = s.clock := rfl
@[simp] theorem State.updHitch_agenda (s : State) (h : Nat) (f : Hitch → Hitch) : (s.updHitch h f).agenda = s.agenda := rfl
@[simp] theorem State.updHitch_issuer (s : State) (h : Nat) (f : Hitch → Hitch) : (s.updHitch h f).issuer = s.issuer := rfl
@[simp] theorem State.updHitch_free (s : State) (h : Nat) (f : Hitch → Hitch) : (s.updHitch h f).free = s.free := rfl
@[simp] theorem State.updHitch_mem (s : State) (h : Nat) (f : Hitch → Hitch) : (s.updHitch h f).mem = s.mem := rfl
@[simp] theorem State.updHitch_blockKey (s : State) (h : Nat) (f : Hitch → Hitch) : (s.updHitch h f).blockKey = s.blockKey := rfl
@[simp] theorem State.updHitch_keys (s : State) (h : Nat) (f : Hitch → Hitch) : (s.updHitch h f).keys = s.keys := rfl
@[simp] theorem State.updHitch_boots (s : State) (h : Nat) (f : Hitch → Hitch) : (s.updHitch h f).boots = s.boots := rfl
@[simp] theorem State.updHitch_poison (s : State) (h : Nat) (f : Hitch → Hitch) : (s.updHitch h f).poison = s.poison := rfl
@[simp] theorem State.updHitch_scopes (s : State) (h : Nat) (f : Hitch → Hitch) : (s.updHitch h f).scopes = s.scopes := rfl
@[simp] theorem State.updHitch_faultSig (s : State) (h : Nat) (f : Hitch → Hitch) : (s.updHitch h f).faultSig = s.faultSig := rfl
@[simp] theorem State.updHitch_held (s : State) (h : Nat) (f : Hitch → Hitch) : (s.updHitch h f).held = s.held := rfl
@[simp] theorem State.updHitch_watches (s : State) (h : Nat) (f : Hitch → Hitch) : (s.updHitch h f).watches = s.watches := rfl
@[simp] theorem State.updHitch_teams (s : State) (h : Nat) (f : Hitch → Hitch) : (s.updHitch h f).teams = s.teams := rfl
@[simp] theorem State.updHitch_cores (s : State) (h : Nat) (f : Hitch → Hitch) : (s.updHitch h f).cores = s.cores := rfl
@[simp] theorem State.updHitch_hitches (s : State) (h : Nat) (f : Hitch → Hitch) : (s.updHitch h f).hitches = tset s.hitches h (f (s.hitch h)) := rfl
@[simp] theorem State.updHitch_blocks (s : State) (h : Nat) (f : Hitch → Hitch) : (s.updHitch h f).blocks = s.blocks := rfl
@[simp] theorem State.updHitch_nbhds (s : State) (h : Nat) (f : Hitch → Hitch) : (s.updHitch h f).nbhds = s.nbhds := rfl
@[simp] theorem State.updHitch_nextId (s : State) (h : Nat) (f : Hitch → Hitch) : (s.updHitch h f).nextId = s.nextId := rfl
@[simp] theorem State.updHitch_dies (s : State) (h : Nat) (f : Hitch → Hitch) : (s.updHitch h f).dies = s.dies := rfl
@[simp] theorem State.updHitch_ios (s : State) (h : Nat) (f : Hitch → Hitch) : (s.updHitch h f).ios = s.ios := rfl
@[simp] theorem State.updHitch_mgmt (s : State) (h : Nat) (f : Hitch → Hitch) : (s.updHitch h f).mgmt = s.mgmt := rfl

/-! ### updDie -/

@[simp] theorem State.updDie_clock (s : State) (d : Nat) (f : Die → Die) : (s.updDie d f).clock = s.clock := rfl
@[simp] theorem State.updDie_agenda (s : State) (d : Nat) (f : Die → Die) : (s.updDie d f).agenda = s.agenda := rfl
@[simp] theorem State.updDie_issuer (s : State) (d : Nat) (f : Die → Die) : (s.updDie d f).issuer = s.issuer := rfl
@[simp] theorem State.updDie_free (s : State) (d : Nat) (f : Die → Die) : (s.updDie d f).free = s.free := rfl
@[simp] theorem State.updDie_mem (s : State) (d : Nat) (f : Die → Die) : (s.updDie d f).mem = s.mem := rfl
@[simp] theorem State.updDie_blockKey (s : State) (d : Nat) (f : Die → Die) : (s.updDie d f).blockKey = s.blockKey := rfl
@[simp] theorem State.updDie_keys (s : State) (d : Nat) (f : Die → Die) : (s.updDie d f).keys = s.keys := rfl
@[simp] theorem State.updDie_boots (s : State) (d : Nat) (f : Die → Die) : (s.updDie d f).boots = s.boots := rfl
@[simp] theorem State.updDie_poison (s : State) (d : Nat) (f : Die → Die) : (s.updDie d f).poison = s.poison := rfl
@[simp] theorem State.updDie_scopes (s : State) (d : Nat) (f : Die → Die) : (s.updDie d f).scopes = s.scopes := rfl
@[simp] theorem State.updDie_faultSig (s : State) (d : Nat) (f : Die → Die) : (s.updDie d f).faultSig = s.faultSig := rfl
@[simp] theorem State.updDie_held (s : State) (d : Nat) (f : Die → Die) : (s.updDie d f).held = s.held := rfl
@[simp] theorem State.updDie_watches (s : State) (d : Nat) (f : Die → Die) : (s.updDie d f).watches = s.watches := rfl
@[simp] theorem State.updDie_teams (s : State) (d : Nat) (f : Die → Die) : (s.updDie d f).teams = s.teams := rfl
@[simp] theorem State.updDie_cores (s : State) (d : Nat) (f : Die → Die) : (s.updDie d f).cores = s.cores := rfl
@[simp] theorem State.updDie_hitches (s : State) (d : Nat) (f : Die → Die) : (s.updDie d f).hitches = s.hitches := rfl
@[simp] theorem State.updDie_blocks (s : State) (d : Nat) (f : Die → Die) : (s.updDie d f).blocks = s.blocks := rfl
@[simp] theorem State.updDie_nbhds (s : State) (d : Nat) (f : Die → Die) : (s.updDie d f).nbhds = s.nbhds := rfl
@[simp] theorem State.updDie_nextId (s : State) (d : Nat) (f : Die → Die) : (s.updDie d f).nextId = s.nextId := rfl
@[simp] theorem State.updDie_dies (s : State) (d : Nat) (f : Die → Die) : (s.updDie d f).dies = modAt s.dies d f := rfl
@[simp] theorem State.updDie_ios (s : State) (d : Nat) (f : Die → Die) : (s.updDie d f).ios = s.ios := rfl
@[simp] theorem State.updDie_mgmt (s : State) (d : Nat) (f : Die → Die) : (s.updDie d f).mgmt = s.mgmt := rfl

/-! ### updIo -/

@[simp] theorem State.updIo_clock (s : State) (i : Nat) (f : IoDie → IoDie) : (s.updIo i f).clock = s.clock := rfl
@[simp] theorem State.updIo_agenda (s : State) (i : Nat) (f : IoDie → IoDie) : (s.updIo i f).agenda = s.agenda := rfl
@[simp] theorem State.updIo_issuer (s : State) (i : Nat) (f : IoDie → IoDie) : (s.updIo i f).issuer = s.issuer := rfl
@[simp] theorem State.updIo_free (s : State) (i : Nat) (f : IoDie → IoDie) : (s.updIo i f).free = s.free := rfl
@[simp] theorem State.updIo_mem (s : State) (i : Nat) (f : IoDie → IoDie) : (s.updIo i f).mem = s.mem := rfl
@[simp] theorem State.updIo_blockKey (s : State) (i : Nat) (f : IoDie → IoDie) : (s.updIo i f).blockKey = s.blockKey := rfl
@[simp] theorem State.updIo_keys (s : State) (i : Nat) (f : IoDie → IoDie) : (s.updIo i f).keys = s.keys := rfl
@[simp] theorem State.updIo_boots (s : State) (i : Nat) (f : IoDie → IoDie) : (s.updIo i f).boots = s.boots := rfl
@[simp] theorem State.updIo_poison (s : State) (i : Nat) (f : IoDie → IoDie) : (s.updIo i f).poison = s.poison := rfl
@[simp] theorem State.updIo_scopes (s : State) (i : Nat) (f : IoDie → IoDie) : (s.updIo i f).scopes = s.scopes := rfl
@[simp] theorem State.updIo_faultSig (s : State) (i : Nat) (f : IoDie → IoDie) : (s.updIo i f).faultSig = s.faultSig := rfl
@[simp] theorem State.updIo_held (s : State) (i : Nat) (f : IoDie → IoDie) : (s.updIo i f).held = s.held := rfl
@[simp] theorem State.updIo_watches (s : State) (i : Nat) (f : IoDie → IoDie) : (s.updIo i f).watches = s.watches := rfl
@[simp] theorem State.updIo_teams (s : State) (i : Nat) (f : IoDie → IoDie) : (s.updIo i f).teams = s.teams := rfl
@[simp] theorem State.updIo_cores (s : State) (i : Nat) (f : IoDie → IoDie) : (s.updIo i f).cores = s.cores := rfl
@[simp] theorem State.updIo_hitches (s : State) (i : Nat) (f : IoDie → IoDie) : (s.updIo i f).hitches = s.hitches := rfl
@[simp] theorem State.updIo_blocks (s : State) (i : Nat) (f : IoDie → IoDie) : (s.updIo i f).blocks = s.blocks := rfl
@[simp] theorem State.updIo_nbhds (s : State) (i : Nat) (f : IoDie → IoDie) : (s.updIo i f).nbhds = s.nbhds := rfl
@[simp] theorem State.updIo_nextId (s : State) (i : Nat) (f : IoDie → IoDie) : (s.updIo i f).nextId = s.nextId := rfl
@[simp] theorem State.updIo_dies (s : State) (i : Nat) (f : IoDie → IoDie) : (s.updIo i f).dies = s.dies := rfl
@[simp] theorem State.updIo_ios (s : State) (i : Nat) (f : IoDie → IoDie) : (s.updIo i f).ios = modAt s.ios i f := rfl
@[simp] theorem State.updIo_mgmt (s : State) (i : Nat) (f : IoDie → IoDie) : (s.updIo i f).mgmt = s.mgmt := rfl

/-! ### setTeam -/

@[simp] theorem State.setTeam_clock (s : State) (key : Nat) (t : Team) : (s.setTeam key t).clock = s.clock := rfl
@[simp] theorem State.setTeam_agenda (s : State) (key : Nat) (t : Team) : (s.setTeam key t).agenda = s.agenda := rfl
@[simp] theorem State.setTeam_issuer (s : State) (key : Nat) (t : Team) : (s.setTeam key t).issuer = s.issuer := rfl
@[simp] theorem State.setTeam_free (s : State) (key : Nat) (t : Team) : (s.setTeam key t).free = s.free := rfl
@[simp] theorem State.setTeam_mem (s : State) (key : Nat) (t : Team) : (s.setTeam key t).mem = s.mem := rfl
@[simp] theorem State.setTeam_blockKey (s : State) (key : Nat) (t : Team) : (s.setTeam key t).blockKey = s.blockKey := rfl
@[simp] theorem State.setTeam_keys (s : State) (key : Nat) (t : Team) : (s.setTeam key t).keys = s.keys := rfl
@[simp] theorem State.setTeam_boots (s : State) (key : Nat) (t : Team) : (s.setTeam key t).boots = s.boots := rfl
@[simp] theorem State.setTeam_poison (s : State) (key : Nat) (t : Team) : (s.setTeam key t).poison = s.poison := rfl
@[simp] theorem State.setTeam_scopes (s : State) (key : Nat) (t : Team) : (s.setTeam key t).scopes = s.scopes := rfl
@[simp] theorem State.setTeam_faultSig (s : State) (key : Nat) (t : Team) : (s.setTeam key t).faultSig = s.faultSig := rfl
@[simp] theorem State.setTeam_held (s : State) (key : Nat) (t : Team) : (s.setTeam key t).held = s.held := rfl
@[simp] theorem State.setTeam_watches (s : State) (key : Nat) (t : Team) : (s.setTeam key t).watches = s.watches := rfl
@[simp] theorem State.setTeam_teams (s : State) (key : Nat) (t : Team) : (s.setTeam key t).teams = tset s.teams key t := rfl
@[simp] theorem State.setTeam_cores (s : State) (key : Nat) (t : Team) : (s.setTeam key t).cores = s.cores := rfl
@[simp] theorem State.setTeam_hitches (s : State) (key : Nat) (t : Team) : (s.setTeam key t).hitches = s.hitches := rfl
@[simp] theorem State.setTeam_blocks (s : State) (key : Nat) (t : Team) : (s.setTeam key t).blocks = s.blocks := rfl
@[simp] theorem State.setTeam_nbhds (s : State) (key : Nat) (t : Team) : (s.setTeam key t).nbhds = s.nbhds := rfl
@[simp] theorem State.setTeam_nextId (s : State) (key : Nat) (t : Team) : (s.setTeam key t).nextId = s.nextId := rfl
@[simp] theorem State.setTeam_dies (s : State) (key : Nat) (t : Team) : (s.setTeam key t).dies = s.dies := rfl
@[simp] theorem State.setTeam_ios (s : State) (key : Nat) (t : Team) : (s.setTeam key t).ios = s.ios := rfl
@[simp] theorem State.setTeam_mgmt (s : State) (key : Nat) (t : Team) : (s.setTeam key t).mgmt = s.mgmt := rfl

/-! ### updMgmt -/

@[simp] theorem State.updMgmt_clock (s : State) (f : Mgmt → Mgmt) : (s.updMgmt f).clock = s.clock := rfl
@[simp] theorem State.updMgmt_agenda (s : State) (f : Mgmt → Mgmt) : (s.updMgmt f).agenda = s.agenda := rfl
@[simp] theorem State.updMgmt_issuer (s : State) (f : Mgmt → Mgmt) : (s.updMgmt f).issuer = s.issuer := rfl
@[simp] theorem State.updMgmt_free (s : State) (f : Mgmt → Mgmt) : (s.updMgmt f).free = s.free := rfl
@[simp] theorem State.updMgmt_mem (s : State) (f : Mgmt → Mgmt) : (s.updMgmt f).mem = s.mem := rfl
@[simp] theorem State.updMgmt_blockKey (s : State) (f : Mgmt → Mgmt) : (s.updMgmt f).blockKey = s.blockKey := rfl
@[simp] theorem State.updMgmt_keys (s : State) (f : Mgmt → Mgmt) : (s.updMgmt f).keys = s.keys := rfl
@[simp] theorem State.updMgmt_boots (s : State) (f : Mgmt → Mgmt) : (s.updMgmt f).boots = s.boots := rfl
@[simp] theorem State.updMgmt_poison (s : State) (f : Mgmt → Mgmt) : (s.updMgmt f).poison = s.poison := rfl
@[simp] theorem State.updMgmt_scopes (s : State) (f : Mgmt → Mgmt) : (s.updMgmt f).scopes = s.scopes := rfl
@[simp] theorem State.updMgmt_faultSig (s : State) (f : Mgmt → Mgmt) : (s.updMgmt f).faultSig = s.faultSig := rfl
@[simp] theorem State.updMgmt_held (s : State) (f : Mgmt → Mgmt) : (s.updMgmt f).held = s.held := rfl
@[simp] theorem State.updMgmt_watches (s : State) (f : Mgmt → Mgmt) : (s.updMgmt f).watches = s.watches := rfl
@[simp] theorem State.updMgmt_teams (s : State) (f : Mgmt → Mgmt) : (s.updMgmt f).teams = s.teams := rfl
@[simp] theorem State.updMgmt_cores (s : State) (f : Mgmt → Mgmt) : (s.updMgmt f).cores = s.cores := rfl
@[simp] theorem State.updMgmt_hitches (s : State) (f : Mgmt → Mgmt) : (s.updMgmt f).hitches = s.hitches := rfl
@[simp] theorem State.updMgmt_blocks (s : State) (f : Mgmt → Mgmt) : (s.updMgmt f).blocks = s.blocks := rfl
@[simp] theorem State.updMgmt_nbhds (s : State) (f : Mgmt → Mgmt) : (s.updMgmt f).nbhds = s.nbhds := rfl
@[simp] theorem State.updMgmt_nextId (s : State) (f : Mgmt → Mgmt) : (s.updMgmt f).nextId = s.nextId := rfl
@[simp] theorem State.updMgmt_dies (s : State) (f : Mgmt → Mgmt) : (s.updMgmt f).dies = s.dies := rfl
@[simp] theorem State.updMgmt_ios (s : State) (f : Mgmt → Mgmt) : (s.updMgmt f).ios = s.ios := rfl
@[simp] theorem State.updMgmt_mgmt (s : State) (f : Mgmt → Mgmt) : (s.updMgmt f).mgmt = f s.mgmt := rfl

/-! ### updTeam -/

@[simp] theorem State.updTeam_clock (s : State) (key : Nat) (f : Team → Team) : (s.updTeam key f).clock = s.clock := by unfold State.updTeam; split <;> rfl
@[simp] theorem State.updTeam_agenda (s : State) (key : Nat) (f : Team → Team) : (s.updTeam key f).agenda = s.agenda := by unfold State.updTeam; split <;> rfl
@[simp] theorem State.updTeam_issuer (s : State) (key : Nat) (f : Team → Team) : (s.updTeam key f).issuer = s.issuer := by unfold State.updTeam; split <;> rfl
@[simp] theorem State.updTeam_free (s : State) (key : Nat) (f : Team → Team) : (s.updTeam key f).free = s.free := by unfold State.updTeam; split <;> rfl
@[simp] theorem State.updTeam_mem (s : State) (key : Nat) (f : Team → Team) : (s.updTeam key f).mem = s.mem := by unfold State.updTeam; split <;> rfl
@[simp] theorem State.updTeam_blockKey (s : State) (key : Nat) (f : Team → Team) : (s.updTeam key f).blockKey = s.blockKey := by unfold State.updTeam; split <;> rfl
@[simp] theorem State.updTeam_keys (s : State) (key : Nat) (f : Team → Team) : (s.updTeam key f).keys = s.keys := by unfold State.updTeam; split <;> rfl
@[simp] theorem State.updTeam_boots (s : State) (key : Nat) (f : Team → Team) : (s.updTeam key f).boots = s.boots := by unfold State.updTeam; split <;> rfl
@[simp] theorem State.updTeam_poison (s : State) (key : Nat) (f : Team → Team) : (s.updTeam key f).poison = s.poison := by unfold State.updTeam; split <;> rfl
@[simp] theorem State.updTeam_scopes (s : State) (key : Nat) (f : Team → Team) : (s.updTeam key f).scopes = s.scopes := by unfold State.updTeam; split <;> rfl
@[simp] theorem State.updTeam_faultSig (s : State) (key : Nat) (f : Team → Team) : (s.updTeam key f).faultSig = s.faultSig := by unfold State.updTeam; split <;> rfl
@[simp] theorem State.updTeam_held (s : State) (key : Nat) (f : Team → Team) : (s.updTeam key f).held = s.held := by unfold State.updTeam; split <;> rfl
@[simp] theorem State.updTeam_watches (s : State) (key : Nat) (f : Team → Team) : (s.updTeam key f).watches = s.watches := by unfold State.updTeam; split <;> rfl
@[simp] theorem State.updTeam_cores (s : State) (key : Nat) (f : Team → Team) : (s.updTeam key f).cores = s.cores := by unfold State.updTeam; split <;> rfl
@[simp] theorem State.updTeam_hitches (s : State) (key : Nat) (f : Team → Team) : (s.updTeam key f).hitches = s.hitches := by unfold State.updTeam; split <;> rfl
@[simp] theorem State.updTeam_blocks (s : State) (key : Nat) (f : Team → Team) : (s.updTeam key f).blocks = s.blocks := by unfold State.updTeam; split <;> rfl
@[simp] theorem State.updTeam_nbhds (s : State) (key : Nat) (f : Team → Team) : (s.updTeam key f).nbhds = s.nbhds := by unfold State.updTeam; split <;> rfl
@[simp] theorem State.updTeam_nextId (s : State) (key : Nat) (f : Team → Team) : (s.updTeam key f).nextId = s.nextId := by unfold State.updTeam; split <;> rfl
@[simp] theorem State.updTeam_dies (s : State) (key : Nat) (f : Team → Team) : (s.updTeam key f).dies = s.dies := by unfold State.updTeam; split <;> rfl
@[simp] theorem State.updTeam_ios (s : State) (key : Nat) (f : Team → Team) : (s.updTeam key f).ios = s.ios := by unfold State.updTeam; split <;> rfl
@[simp] theorem State.updTeam_mgmt (s : State) (key : Nat) (f : Team → Team) : (s.updTeam key f).mgmt = s.mgmt := by unfold State.updTeam; split <;> rfl

/-! ### updBlock -/

@[simp] theorem State.updBlock_clock (s : State) (b : Nat) (f : Block → Block) : (s.updBlock b f).clock = s.clock := by unfold State.updBlock; split <;> rfl
@[simp] theorem State.updBlock_agenda (s : State) (b : Nat) (f : Block → Block) : (s.updBlock b f).agenda = s.agenda := by unfold State.updBlock; split <;> rfl
@[simp] theorem State.updBlock_issuer (s : State) (b : Nat) (f : Block → Block) : (s.updBlock b f).issuer = s.issuer := by unfold State.updBlock; split <;> rfl
@[simp] theorem State.updBlock_free (s : State) (b : Nat) (f : Block → Block) : (s.updBlock b f).free = s.free := by unfold State.updBlock; split <;> rfl
@[simp] theorem State.updBlock_mem (s : State) (b : Nat) (f : Block → Block) : (s.updBlock b f).mem = s.mem := by unfold State.updBlock; split <;> rfl
@[simp] theorem State.updBlock_blockKey (s : State) (b : Nat) (f : Block → Block) : (s.updBlock b f).blockKey = s.blockKey := by unfold State.updBlock; split <;> rfl
@[simp] theorem State.updBlock_keys (s : State) (b : Nat) (f : Block → Block) : (s.updBlock b f).keys = s.keys := by unfold State.updBlock; split <;> rfl
@[simp] theorem State.updBlock_boots (s : State) (b : Nat) (f : Block → Block) : (s.updBlock b f).boots = s.boots := by unfold State.updBlock; split <;> rfl
@[simp] theorem State.updBlock_poison (s : State) (b : Nat) (f : Block → Block) : (s.updBlock b f).poison = s.poison := by unfold State.updBlock; split <;> rfl
@[simp] theorem State.updBlock_scopes (s : State) (b : Nat) (f : Block → Block) : (s.updBlock b f).scopes = s.scopes := by unfold State.updBlock; split <;> rfl
@[simp] theorem State.updBlock_faultSig (s : State) (b : Nat) (f : Block → Block) : (s.updBlock b f).faultSig = s.faultSig := by unfold State.updBlock; split <;> rfl
@[simp] theorem State.updBlock_held (s : State) (b : Nat) (f : Block → Block) : (s.updBlock b f).held = s.held := by unfold State.updBlock; split <;> rfl
@[simp] theorem State.updBlock_watches (s : State) (b : Nat) (f : Block → Block) : (s.updBlock b f).watches = s.watches := by unfold State.updBlock; split <;> rfl
@[simp] theorem State.updBlock_teams (s : State) (b : Nat) (f : Block → Block) : (s.updBlock b f).teams = s.teams := by unfold State.updBlock; split <;> rfl
@[simp] theorem State.updBlock_cores (s : State) (b : Nat) (f : Block → Block) : (s.updBlock b f).cores = s.cores := by unfold State.updBlock; split <;> rfl
@[simp] theorem State.updBlock_hitches (s : State) (b : Nat) (f : Block → Block) : (s.updBlock b f).hitches = s.hitches := by unfold State.updBlock; split <;> rfl
@[simp] theorem State.updBlock_nbhds (s : State) (b : Nat) (f : Block → Block) : (s.updBlock b f).nbhds = s.nbhds := by unfold State.updBlock; split <;> rfl
@[simp] theorem State.updBlock_nextId (s : State) (b : Nat) (f : Block → Block) : (s.updBlock b f).nextId = s.nextId := by unfold State.updBlock; split <;> rfl
@[simp] theorem State.updBlock_dies (s : State) (b : Nat) (f : Block → Block) : (s.updBlock b f).dies = s.dies := by unfold State.updBlock; split <;> rfl
@[simp] theorem State.updBlock_ios (s : State) (b : Nat) (f : Block → Block) : (s.updBlock b f).ios = s.ios := by unfold State.updBlock; split <;> rfl
@[simp] theorem State.updBlock_mgmt (s : State) (b : Nat) (f : Block → Block) : (s.updBlock b f).mgmt = s.mgmt := by unfold State.updBlock; split <;> rfl

theorem State.updTeam_some {s : State} {key : Nat} {t : Team} (f : Team → Team) (h : tget s.teams key = some t) :
    s.updTeam key f = s.setTeam key (f t) := by simp [State.updTeam, h]

theorem State.updTeam_none {s : State} {key : Nat} (f : Team → Team) (h : tget s.teams key = none) :
    s.updTeam key f = s := by simp [State.updTeam, h]

/-- The teams after an update of one of them. -/
theorem State.tget_updTeam (s : State) (key k : Nat) (f : Team → Team) :
    tget (s.updTeam key f).teams k = if k = key then (tget s.teams key).map f else tget s.teams k := by
  unfold State.updTeam
  cases h : tget s.teams key with
  | none => simp; intro e; subst e; exact h
  | some t => simp [tget_tset]

@[simp] theorem State.tget_updTeam_self (s : State) (key : Nat) (f : Team → Team) :
    tget (s.updTeam key f).teams key = (tget s.teams key).map f := by simp [State.tget_updTeam]

@[simp] theorem State.tget_updTeam_ne (s : State) {key k : Nat} (f : Team → Team) (h : k ≠ key) :
    tget (s.updTeam key f).teams k = tget s.teams k := by simp [State.tget_updTeam, h]

/-- The blocks after an update of one of them. -/
theorem State.tget_updBlock (s : State) (b k : Nat) (f : Block → Block) :
    tget (s.updBlock b f).blocks k = if k = b then (tget s.blocks b).map f else tget s.blocks k := by
  unfold State.updBlock
  cases h : tget s.blocks b with
  | none => simp; intro e; subst e; exact h
  | some t => simp [tget_tset]

/-- A core after an update of one. -/
theorem State.core_updCore (s : State) (c k : Nat) (f : Core → Core) :
    (s.updCore c f).core k = if k = c then f (s.core c) else s.core k := by
  unfold State.core; rw [State.updCore_cores, tget_tset]; split <;> rfl

@[simp] theorem State.core_updCore_self (s : State) (c : Nat) (f : Core → Core) :
    (s.updCore c f).core c = f (s.core c) := by simp [State.core_updCore]

/-- A hitch after an update of one. -/
theorem State.hitch_updHitch (s : State) (h k : Nat) (f : Hitch → Hitch) :
    (s.updHitch h f).hitch k = if k = h then f (s.hitch h) else s.hitch k := by
  unfold State.hitch; rw [State.updHitch_hitches, tget_tset]; split <;> rfl

@[simp] theorem State.hitch_updHitch_self (s : State) (h : Nat) (f : Hitch → Hitch) :
    (s.updHitch h f).hitch h = f (s.hitch h) := by simp [State.hitch_updHitch]

@[simp] theorem modAt_length {α : Type} (l : List α) (i : Nat) (f : α → α) : (modAt l i f).length = l.length := by
  induction l generalizing i with
  | nil => rfl
  | cons a t ih => cases i <;> simp [modAt, ih]

/-- An element after an update at an index. -/
theorem modAt_getElem? {α : Type} (l : List α) (i j : Nat) (f : α → α) :
    (modAt l i f)[j]? = if j = i then l[j]?.map f else l[j]? := by
  induction l generalizing i j with
  | nil => simp [modAt]
  | cons a t ih =>
    cases i with
    | zero => cases j <;> simp [modAt]
    | succ i =>
      cases j with
      | zero => simp [modAt]
      | succ j => simp [modAt, ih]

@[simp] theorem modAt_getElem?_self {α : Type} (l : List α) (i : Nat) (f : α → α) :
    (modAt l i f)[i]? = l[i]?.map f := by simp [modAt_getElem?]

@[simp] theorem modAt_getElem?_ne {α : Type} (l : List α) {i j : Nat} (f : α → α) (h : j ≠ i) :
    (modAt l i f)[j]? = l[j]? := by simp [modAt_getElem?, h]

/-- A die after an update of one. -/
theorem State.die_updDie (s : State) (d k : Nat) (f : Die → Die) (h : d < s.dies.length) :
    (s.updDie d f).die k = if k = d then f (s.die d) else s.die k := by
  unfold State.die
  rw [State.updDie_dies, modAt_getElem?]
  split
  · subst_vars; simp [h]
  · rfl

/-- An I/O die after an update of one. -/
theorem State.io_updIo (s : State) (i k : Nat) (f : IoDie → IoDie) (h : i < s.ios.length) :
    (s.updIo i f).io k = if k = i then f (s.io i) else s.io k := by
  unfold State.io
  rw [State.updIo_ios, modAt_getElem?]
  split
  · subst_vars; simp [h]
  · rfl

end Sys2Proof.Machine
end

