-- ==== Sys2Proof/Laws/Memory.lean ====
section
/-! SUPPORT. The canonical form of the memory: what keeps it. Every operation that writes home memory has its law here; most
others leave `mem` as it stands, and `State.keeps_of_mem` is their law. -/

namespace Sys2Proof.Machine

/-- The memory of `t` has its form if that of `s` has. -/
abbrev State.keeps (s t : State) : Prop := Memory.wf s.mem = true → Memory.wf t.mem = true

theorem State.keeps_refl (s : State) : s.keeps s := fun h => h

theorem State.keeps_trans {s t u : State} (h : s.keeps t) (k : t.keeps u) : s.keeps u := fun w => k (h w)

theorem State.keeps_of_mem {s t : State} (h : t.mem = s.mem) : s.keeps t := fun w => h ▸ w

theorem State.keeps_foldl {α : Type} (f : State → α → State) (hf : ∀ (s : State) (a : α), s.keeps (f s a)) (l : List α) (s : State) :
    s.keeps (l.foldl f s) := by
  induction l generalizing s with
  | nil => exact s.keeps_refl
  | cons a l ih => exact State.keeps_trans (hf s a) (ih _)

theorem State.mem_foldl {α : Type} (f : State → α → State) (hf : ∀ (s : State) (a : α), (f s a).mem = s.mem) (l : List α) (s : State) :
    (l.foldl f s).mem = s.mem := by
  induction l generalizing s with
  | nil => rfl
  | cons a l ih => exact (ih _).trans (hf s a)

theorem reset_wf : Memory.wf State.reset.mem = true := rfl

/-! ### Parts of a table -/

theorem rising_filter {α : Type} {t : Tab α} (p : Nat × α → Bool) (h : Tab.rising t) : Tab.rising (t.filter p) :=
  List.Pairwise.filter p h

theorem wf_filter {m : Memory} (p : Nat × Byte → Bool) (h : Memory.wf m = true) : Memory.wf (m.filter p) = true := by
  rw [wf_iff] at h ⊢
  exact ⟨rising_filter p h.1, fun e he => h.2 e (List.mem_filter.1 he).1⟩

theorem wf_append {m n : Memory} (hm : Memory.wf m = true) (hn : Memory.wf n = true)
    (h : ∀ x ∈ m, ∀ y ∈ n, x.1 < y.1) : Memory.wf (m ++ n) = true := by
  rw [wf_iff] at hm hn ⊢
  refine ⟨List.pairwise_append.2 ⟨hm.1, hn.1, h⟩, fun e he => ?_⟩
  rcases List.mem_append.1 he with he | he
  · exact hm.2 e he
  · exact hn.2 e he

/-! ### Writes that perform at home memory -/

@[simp] theorem State.wrote_mem (s : State) (pa n key : Nat) : (s.wrote pa n key).mem = s.mem := rfl

@[simp] theorem State.keeps_rekey (s : State) (k : KeyVal) (n : Nat) : s.keeps (s.rekey k n) := by
  unfold State.rekey
  split
  · exact State.keeps_of_mem rfl
  · exact fun h => wf_writeBytes _ _ h

@[simp] theorem State.keeps_homeWrite (s : State) (pa : Nat) (bs : List Byte) (key : Nat) : s.keeps (s.homeWrite pa bs key) :=
  fun h => wf_writeBytes _ _ (State.keeps_foldl _ (fun (s : State) n => s.keeps_rekey _ n) _ _ h)

@[simp] theorem State.keeps_devWrite (s : State) (die pa : Nat) (bs : List Byte) : s.keeps (s.devWrite die pa bs) := by
  unfold State.devWrite
  split
  · exact s.keeps_homeWrite pa bs 0
  · exact s.keeps_refl

@[simp] theorem State.keeps_writeRecord (s : State) (c : Nat) : s.keeps (s.writeRecord c) := by
  unfold State.writeRecord
  dsimp only
  split
  · exact s.keeps_refl
  · intro h
    rw [State.updCore_mem]
    exact State.keeps_foldl _ (fun (s : State) e => s.keeps_devWrite _ _ _) _ _ (s.keeps_devWrite _ _ _ h)

@[simp] theorem State.keeps_flushRecords (s : State) (c n : Nat) : s.keeps (s.flushRecords c n) := by
  induction n generalizing s with
  | zero => exact s.keeps_refl
  | succ n ih =>
    unfold State.flushRecords
    dsimp only
    split
    · exact State.keeps_trans (s.keeps_writeRecord c) (ih _)
    · exact s.keeps_refl

@[simp] theorem State.keeps_pushRecord (s : State) (c : Nat) (r : TrapRec) : s.keeps (s.pushRecord c r) := by
  intro h
  unfold State.pushRecord State.latchTq
  rw [State.updCore_mem]
  exact State.keeps_flushRecords _ _ _ (by rw [State.updCore_mem]; exact h)

@[simp] theorem State.keeps_regionAdd (s : State) (die at' i : Nat) (q : Int) : s.keeps (s.regionAdd die at' i q) :=
  s.keeps_devWrite _ _ _

@[simp] theorem State.keeps_regionFault (s : State) (t : RegionTab) (h : Nat) : s.keeps (s.regionFault t h) := by
  unfold State.regionFault
  split
  · exact s.keeps_regionAdd _ _ _ _
  · exact s.keeps_refl

@[simp] theorem State.keeps_setQcb (s : State) (die qcb i : Nat) (x : Word32) : s.keeps (s.setQcb die qcb i x) := s.keeps_devWrite _ _ _

/-! ### L2 and L1 -/

@[simp] theorem State.dropL2_mem (s : State) (dn : Nat) (p : L2Line → Bool) : (s.dropL2 dn p).mem = s.mem := rfl

@[simp] theorem State.allocL2_mem (s : State) (pa p cls key : Nat) : (s.allocL2 pa p cls key).mem = s.mem := by
  unfold State.allocL2
  dsimp only
  split <;> rfl

@[simp] theorem State.touchL2_mem (s : State) (pa part cls key : Nat) : (s.touchL2 pa part cls key).mem = s.mem := by
  unfold State.touchL2
  dsimp only
  split
  · rfl
  · (repeat' split) <;> simp

@[simp] theorem State.touchLines_mem (s : State) (x : Xl) (n : Nat) : (s.touchLines x n).mem = s.mem :=
  State.mem_foldl _ (fun (s : State) _ => s.touchL2_mem _ _ _ _) _ _

@[simp] theorem State.leastL2_mem (s : State) (pa : Nat) : (s.leastL2 pa).mem = s.mem := rfl
@[simp] theorem State.claimLine_mem (s : State) (line unit cap : Nat) : (s.claimLine line unit cap).mem = s.mem := rfl
@[simp] theorem State.claimHome_mem (s : State) (pa : Nat) : (s.claimHome pa).mem = s.mem := rfl

@[simp] theorem State.keeps_writeBack (s : State) (die : Nat) (l : L1Line) : s.keeps (s.writeBack die l) := by
  unfold State.writeBack
  dsimp only
  split
  · exact s.keeps_refl
  · exact fun h => State.keeps_foldl _ (fun (s : State) _ => s.keeps_homeWrite _ _ _) _ _ (by rw [State.touchL2_mem]; exact h)

@[simp] theorem State.keeps_cleanLines (s : State) (c : Nat) (p : L1Line → Bool) : s.keeps (s.cleanLines c p) := by
  intro h
  unfold State.cleanLines
  rw [State.updCore_mem]
  exact State.keeps_foldl _ (fun (s : State) l => s.keeps_writeBack _ l) _ _ h

@[simp] theorem State.keeps_releaseL1 (s : State) (c key : Nat) (r : Nat → Bool) : s.keeps (s.releaseL1 c key r) := s.keeps_cleanLines _ _

@[simp] theorem State.acquireL1_mem (s : State) (c : Nat) (r : Nat → Bool) : (s.acquireL1 c r).mem = s.mem := rfl

@[simp] theorem State.keeps_evictLine (s : State) (c line : Nat) : s.keeps (s.evictLine c line) := by
  unfold State.evictLine
  split
  · exact fun h => by rw [State.updCore_mem]; exact s.keeps_writeBack _ _ h
  · exact s.keeps_refl

@[simp] theorem State.keeps_l1Open (s : State) (c line key part cls : Nat) (fill : Bool) : s.keeps (s.l1Open c line key part cls fill).1 := by
  unfold State.l1Open
  dsimp only
  split
  · exact s.keeps_refl
  · dsimp only
    split
    · exact State.keeps_trans (s.keeps_evictLine _ _) (State.keeps_evictLine _ _ _)
    · exact s.keeps_evictLine _ _

@[simp] theorem State.keeps_fillLine (s : State) (c line key part cls pol : Nat) : s.keeps (s.fillLine c line key part cls pol) := by
  intro h
  unfold State.fillLine
  rw [State.updCore_mem, State.touchL2_mem]
  exact State.keeps_l1Open _ _ _ _ _ _ _ h

@[simp] theorem State.keeps_l1Read (s : State) (c : Nat) (x : Xl) (n pol : Nat) : s.keeps (s.l1Read c x n pol).1 := by
  unfold State.l1Read
  extract_lets line s1 holds s2
  split
  · exact fun h => by
      change Memory.wf (State.touchL2 _ _ _ _ _).mem = true
      rw [State.touchL2_mem]; exact s.keeps_evictLine _ _ h
  · have h2 : s.keeps s2 := by
      show s.keeps (if _ then _ else _)
      split
      · exact s.keeps_refl
      · exact s.keeps_fillLine _ _ _ _ _ _
    split
    · dsimp only
      split
      · exact fun h => by rw [State.updCore_mem]; exact h2 h
      · exact h2
    · exact h2

@[simp] theorem State.keeps_l1Write (s : State) (c key : Nat) (tag : BitVec 16) (x : Xl) (bs : List Byte) (pol : Nat) :
    s.keeps (s.l1Write c key tag x bs pol) := by
  unfold State.l1Write
  dsimp only
  split
  · refine State.keeps_trans (fun h => ?_) (State.keeps_homeWrite _ _ _ _)
    rw [State.touchL2_mem]; exact s.keeps_evictLine _ _ h
  · intro h
    rw [State.updCore_mem]
    exact State.keeps_l1Open _ _ _ _ _ _ _ h

/-! ### Blocks' scratchpads are their own -/

@[simp] theorem State.scratchRead_mem (s : State) (b off n : Nat) : (s.scratchRead b off n).1.mem = s.mem := by
  unfold State.scratchRead; split <;> rfl

@[simp] theorem State.scratchWrite_mem (s : State) (b off : Nat) (bs : List Byte) : (s.scratchWrite b off bs).mem = s.mem := by
  unfold State.scratchWrite
  split
  · rfl
  · exact s.updBlock_mem _ _

/-! ### The bus -/

@[simp] theorem State.interrupt_mem (s : State) (c i : Nat) : (s.interrupt c i).mem = s.mem := s.updCore_mem _ _

@[simp] theorem State.keeps_ioEvent (s : State) (i link type : Nat) (v : BitVec 16) (addr : Word32) :
    s.keeps (s.ioEvent i link type v addr) := by
  intro h
  unfold State.ioEvent
  dsimp only
  split
  · simpa using h
  · rw [State.updIo_mem]; exact State.keeps_devWrite _ _ _ _ (by simpa using h)

@[simp] theorem State.keeps_takeCxl (s : State) (io port : Nat) : s.keeps (s.takeCxl io port).1 := by
  unfold State.takeCxl
  split
  · exact State.keeps_trans (State.keeps_of_mem (s.updIo_mem _ _)) (State.keeps_ioEvent _ _ _ _ _ _)
  · exact s.keeps_refl

theorem State.keeps_takeCxl_eq {s t : State} {io port : Nat} {o} (e : s.takeCxl io port = (t, o)) : s.keeps t := by
  have k := s.keeps_takeCxl io port
  rwa [e] at k

@[simp] theorem State.keeps_linkFault (s : State) (die : Nat) (x : Xl) (n : Nat) (w : Bool) : s.keeps (s.linkFault die x n w).1 := by
  unfold State.linkFault
  dsimp only
  split <;> (try split) <;> (try split) <;> (try split) <;>
    first
      | exact s.keeps_refl
      | exact State.keeps_takeCxl_eq (by assumption)
      | exact State.keeps_trans (State.keeps_of_mem (s.updIo_mem _ _)) (State.keeps_ioEvent _ _ _ _ _ _)

@[simp] theorem State.keeps_busFault (s : State) (die : Nat) (x : Xl) (n : Nat) (w : Bool) : s.keeps (s.busFault die x n w).1 := by
  unfold State.busFault
  split
  · (repeat' split) <;> exact s.keeps_refl
  · exact s.keeps_linkFault _ _ _ _

@[simp] theorem State.consume_mem (s : State) (pa n : Nat) : (s.consume pa n).1.mem = s.mem := by
  unfold State.consume; split <;> rfl

end Sys2Proof.Machine
end

