-- ==== Sys2Proof/Laws/Keeps.lean ====
section
/-! SUPPORT. One law per shared operation of the machine: it leaves the memory as it stands (`_mem`), or keeps its canonical form
(`keeps_`). For an operation that answers a state with a result, the law named `_eq` starts from the answer. -/

namespace Sys2Proof.Machine

@[simp] theorem State.updQueue_mem (s : State) (die : Nat) (q : Nat) (f : Queue → Queue) :
    (State.updQueue s die q f).mem = s.mem := by
  unfold State.updQueue; (try dsimp only); (repeat' split) <;> simp_all

@[simp] theorem State.keeps_withdrawQueue (s : State) (die : Nat) (q : Nat) :
    s.keeps (State.withdrawQueue s die q) := by
  unfold State.withdrawQueue; (try dsimp only); (repeat' split) <;> intro h <;> simp_all

@[simp] theorem State.unlockRows_mem (s : State) (hitch : Nat) (d : Word32) :
    (State.unlockRows s hitch d).mem = s.mem := by
  unfold State.unlockRows; (try dsimp only); (repeat' split) <;> simp_all

@[simp] theorem State.unlockDrains_mem (s : State) (es : List Entry) :
    (State.unlockDrains s es).mem = s.mem := by
  unfold State.unlockDrains; (try dsimp only)
  (repeat' first | rfl | assumption | split | refine (State.mem_foldl _ (fun _ _ => ?_) _ _).trans ?_) <;> simp_all

@[simp] theorem State.keeps_emptyQueue (s : State) (die : Nat) (q : Nat) :
    s.keeps (State.emptyQueue s die q) := by
  intro h; unfold State.emptyQueue; (try dsimp only)
  repeat' first | assumption | rfl | refine State.keeps_foldl _ (fun _ _ _ => ?_) _ _ ?_ | split | simp only [State.updQueue_mem, State.unlockDrains_mem]
  all_goals first | (simp_all; done) | solve_by_elim [State.keeps_withdrawQueue]

@[simp] theorem State.keeps_charge (s : State) (die : Nat) (path : List Nat) (qs : List (Nat × Nat)) (sign : Int) :
    s.keeps (State.charge s die path qs sign) := by
  intro h; unfold State.charge; (try dsimp only)
  repeat' first | assumption | rfl | refine State.keeps_foldl _ (fun _ _ _ => ?_) _ _ ?_ | split | simp only []
  all_goals first | (simp_all; done) | solve_by_elim [State.keeps_regionAdd]

@[simp] theorem State.keeps_reclaim (s : State) (die : Nat) (path : List Nat) (qs : List (Nat × Nat)) :
    s.keeps (State.reclaim s die path qs) := by
  intro h; unfold State.reclaim; (try dsimp only)
  repeat' first | assumption | rfl | refine State.keeps_foldl _ (fun _ _ _ => ?_) _ _ ?_ | split | simp only []
  all_goals first | (simp_all; done) | solve_by_elim [State.keeps_charge]

@[simp] theorem State.keeps_discardRein (s : State) (hitch : Nat) :
    s.keeps (State.discardRein s hitch) := by
  intro h; unfold State.discardRein; (try dsimp only); (repeat' first | assumption | split | refine State.keeps_foldl _ (fun _ _ => ?_) _ _ ?_ | intro _) <;> simp_all

@[simp] theorem State.updRdv_mem (s : State) (blk : Nat) (off : Nat) (i : Nat) (f : Word32 → Word32) :
    (State.updRdv s blk off i f).mem = s.mem := by
  unfold State.updRdv; (try dsimp only); (repeat' split) <;> simp_all

@[simp] theorem State.acquireIn_mem (s : State) (a : Act) (inRange : Nat → Bool) :
    (State.acquireIn s a inRange).mem = s.mem := by
  unfold State.acquireIn; (try dsimp only); (repeat' split) <;> simp_all

@[simp] theorem State.acquireAt_mem (s : State) (a : Act) (sp : Spot) (on : Bool) :
    (State.acquireAt s a sp on).mem = s.mem := by
  unfold State.acquireAt; (try dsimp only); (repeat' split) <;> simp_all

@[simp] theorem State.addDrop_mem (s : State) (a : Act) (dest : Code) (lane : Nat) (gran : Nat) (va : Word64) :
    (State.addDrop s a dest lane gran va).mem = s.mem := by
  unfold State.addDrop; (try dsimp only); (repeat' split) <;> simp_all

@[simp] theorem State.keeps_addWatch (s : State) (w : Watch) (cap : Nat) :
    s.keeps (State.addWatch s w cap) := by
  unfold State.addWatch; (try dsimp only); (repeat' split) <;> intro h <;> simp_all

@[simp] theorem State.advance_mem (s : State) (a : Act) :
    (State.advance s a).mem = s.mem := by
  unfold State.advance; (try dsimp only); (repeat' split) <;> simp_all

@[simp] theorem State.answer_mem (s : State) (r : Reply) :
    (State.answer s r).mem = s.mem := by
  unfold State.answer; (try dsimp only); (repeat' split) <;> simp_all

@[simp] theorem State.writeDst_mem (s : State) (key : Nat) (lane : Nat) (lead : Bool) (l : Loc) (ws : List Word32) :
    (State.writeDst s key lane lead l ws).mem = s.mem := by
  unfold State.writeDst; (try dsimp only); (repeat' split) <;> simp_all

@[simp] theorem State.pendDst_mem (s : State) (key : Nat) (lane : Nat) (lead : Bool) (l : Loc) (n : Nat) (ws : List Word32) (w : Wait) :
    (State.pendDst s key lane lead l n ws w).mem = s.mem := by
  unfold State.pendDst; (try dsimp only); (repeat' split) <;> simp_all

@[simp] theorem State.applyEff_mem (s : State) (key : Nat) (lane : Nat) (lead : Bool) (dst : Loc × Nat) (e : Eff) :
    (State.applyEff s key lane lead dst e).mem = s.mem := by
  unfold State.applyEff; (try dsimp only); (repeat' split) <;> simp_all

@[simp] theorem State.startLane_mem (s : State) (core : Nat) (entry : Word64) (v01 : Word64) :
    (State.startLane s core entry v01).mem = s.mem := by
  unfold State.startLane; (try dsimp only); (repeat' split) <;> simp_all

theorem State.keeps_busFault_eq {s : State} {die : Nat} {x : Xl} {n : Nat} {write : Bool} {t : State} {o} (e : State.busFault s die x n write = (t, o)) :
    s.keeps t := fun w => by have k := State.keeps_busFault s die x n write w; rw [e] at k; exact k

theorem State.keeps_linkFault_eq {s : State} {die : Nat} {x : Xl} {n : Nat} {write : Bool} {t : State} {o} (e : State.linkFault s die x n write = (t, o)) :
    s.keeps t := fun w => by have k := State.keeps_linkFault s die x n write w; rw [e] at k; exact k

theorem State.keeps_consume_eq {s : State} {pa : Nat} {n : Nat} {t : State} {o} (e : State.consume s pa n = (t, o)) :
    s.keeps t := State.keeps_of_mem (by rw [← State.consume_mem s pa n, e])

@[simp] theorem State.keeps_walkRead (s : State) (die pa n : Nat) : s.keeps (State.walkRead s die pa n).1 := by
  intro h; unfold State.walkRead; dsimp only
  repeat' first | with_reducible assumption | with_reducible refine State.keeps_consume_eq (by assumption) ?_ | with_reducible refine State.keeps_takeCxl_eq (by assumption) ?_ | split

theorem State.keeps_walkRead_eq {s t : State} {die pa n : Nat} {o} (e : State.walkRead s die pa n = (t, o)) : s.keeps t := by
  have k := State.keeps_walkRead s die pa n
  rwa [e] at k

@[simp] theorem State.keeps_freeBytes (s : State) (n : Nat) :
    s.keeps (State.freeBytes s n).1 := by
  unfold State.freeBytes; (try dsimp only); (repeat' split) <;> intro h <;> simp_all

theorem State.keeps_freeBytes_eq {s : State} {n : Nat} {t : State} {o} (e : State.freeBytes s n = (t, o)) :
    s.keeps t := fun w => by have k := State.keeps_freeBytes s n w; rw [e] at k; exact k

@[simp] theorem State.recall_mem (s : State) (x : Xl) (n : Nat) (home : Bool) : (s.recall x n home).mem = s.mem := by
  unfold State.recall
  split
  · exact State.mem_foldl _ (fun (s : State) _ => s.claimHome_mem _) _ _
  · rfl

@[simp] theorem State.readFault_mem (s : State) (x : Xl) (n : Nat) : (s.readFault x n).1.mem = s.mem := by
  unfold State.readFault
  split <;> simp

theorem State.keeps_readFault_eq {s t : State} {x : Xl} {n : Nat} {o} (e : s.readFault x n = (t, o)) : s.keeps t :=
  State.keeps_of_mem (by rw [← State.readFault_mem s x n, e])

@[simp] theorem State.keeps_plainRead (s : State) (die : Nat) (x : Xl) (n : Nat) (home : Bool) :
    s.keeps (State.plainRead s die x n home).1 := by
  intro h; unfold State.plainRead; (try dsimp only)
  repeat' first | with_reducible assumption | rw [State.touchLines_mem] | rw [State.recall_mem] | with_reducible refine State.keeps_linkFault_eq (by assumption) ?_ | with_reducible refine State.keeps_consume_eq (by assumption) ?_ | with_reducible refine State.keeps_freeBytes_eq (by assumption) ?_ | with_reducible apply State.keeps_freeBytes | split | with_reducible refine State.keeps_foldl _ (fun _ _ _ => ?_) _ _ ?_

theorem State.keeps_plainRead_eq {s : State} {die : Nat} {x : Xl} {n : Nat} {home : Bool} {t : State} {o}
    (e : State.plainRead s die x n home = (t, o)) : s.keeps t := by
  have k := State.keeps_plainRead s die x n home
  rwa [e] at k

@[simp] theorem State.keeps_plainWrite (s : State) (die : Nat) (x : Xl) (bs : List Byte) (home : Bool) :
    s.keeps (State.plainWrite s die x bs home).1 := by
  intro h; unfold State.plainWrite; (try dsimp only)
  repeat' first | with_reducible assumption | rw [State.touchLines_mem] | rw [State.recall_mem] | with_reducible refine State.keeps_linkFault_eq (by assumption) ?_ | with_reducible apply State.keeps_homeWrite | split | with_reducible refine State.keeps_foldl _ (fun _ _ _ => ?_) _ _ ?_

theorem State.keeps_plainWrite_eq {s : State} {die : Nat} {x : Xl} {bs : List Byte} {home : Bool} {t : State} {o}
    (e : State.plainWrite s die x bs home = (t, o)) : s.keeps t := by
  have k := State.keeps_plainWrite s die x bs home
  rwa [e] at k

@[simp] theorem State.keeps_busRead (s : State) (die : Nat) (x : Xl) (n : Nat) (home : Bool) :
    s.keeps (State.busRead s die x n home).1 := by
  intro h; unfold State.busRead; (try dsimp only)
  repeat' first | assumption | rfl | refine State.keeps_foldl _ (fun _ _ _ => ?_) _ _ ?_ | split | simp only []
  all_goals first | (simp_all; done) | solve_by_elim [State.keeps_busFault_eq, State.keeps_plainRead]

theorem State.keeps_busRead_eq {s : State} {die : Nat} {x : Xl} {n : Nat} {home : Bool} {t : State} {o}
    (e : State.busRead s die x n home = (t, o)) : s.keeps t := by
  have k := State.keeps_busRead s die x n home
  rwa [e] at k

@[simp] theorem State.setTlb_mem (s : State) (a : TlbAt) (t : Tlb) :
    (State.setTlb s a t).mem = s.mem := by
  unfold State.setTlb; (try dsimp only); (repeat' split) <;> simp_all

@[simp] theorem State.cacheGran_mem (s : State) (a : Agent) (e : GranEntry) :
    (State.cacheGran s a e).mem = s.mem := by
  unfold State.cacheGran; (try dsimp only); (repeat' split) <;> simp_all

@[simp] theorem State.cacheRec_mem (s : State) (a : Agent) (e : RecEntry) :
    (State.cacheRec s a e).mem = s.mem := by
  unfold State.cacheRec; (try dsimp only); (repeat' split) <;> simp_all

@[simp] theorem State.latchTq_mem (s : State) (c : Nat) :
    (State.latchTq s c).mem = s.mem := by
  unfold State.latchTq; (try dsimp only); (repeat' split) <;> simp_all

@[simp] theorem State.keeps_cancelRecords (s : State) (t : Team) :
    s.keeps (State.cancelRecords s t) := by
  intro h; unfold State.cancelRecords; (try dsimp only); (repeat' first | assumption | split | refine State.keeps_foldl _ (fun _ _ => ?_) _ _ ?_ | intro _) <;> simp_all

@[simp] theorem State.clearPending_mem (s : State) (core : Nat) (bits : BitVec 6) :
    (State.clearPending s core bits).mem = s.mem := by
  unfold State.clearPending; (try dsimp only); (repeat' split) <;> simp_all

@[simp] theorem State.killOne_mem (s : State) (key : Nat) (lane : Nat) (e : Loc × Nat) :
    (State.killOne s key lane e).mem = s.mem := by
  unfold State.killOne; (try dsimp only); (repeat' split) <;> simp_all

@[simp] theorem State.keeps_commitLane (s : State) (key : Nat) (i : LaneIn) :
    s.keeps (State.commitLane s key i) := by
  intro h; unfold State.commitLane; (try dsimp only); (repeat' first | assumption | split | refine State.keeps_foldl _ (fun _ _ => ?_) _ _ ?_ | intro _) <;> simp_all

@[simp] theorem State.keeps_findRecord (s : State) (a : Agent) (h : Nat) : s.keeps (State.findRecord s a h).1 := by
  intro w; unfold State.findRecord; (try dsimp only)
  repeat' first | with_reducible assumption | rw [State.setTlb_mem] | rw [State.cacheRec_mem] | with_reducible refine State.keeps_walkRead_eq (by assumption) ?_ | split

theorem State.keeps_findRecord_eq {s : State} {a : Agent} {h : Nat} {t : State} {o} (e : State.findRecord s a h = (t, o)) :
    s.keeps t := by
  have k := State.keeps_findRecord s a h
  rwa [e] at k

@[simp] theorem State.keeps_findGranule (s : State) (a : Agent) (h : Nat) (r : Record) (gran : Nat) (byte : Nat) :
    s.keeps (State.findGranule s a h r gran byte).1 := by
  intro w; unfold State.findGranule; (try dsimp only)
  repeat' first | with_reducible assumption | rw [State.setTlb_mem] | rw [State.cacheGran_mem] | with_reducible refine State.keeps_walkRead_eq (by assumption) ?_ | split

theorem State.keeps_findGranule_eq {s : State} {a : Agent} {h : Nat} {r : Record} {gran : Nat} {byte : Nat} {t : State} {o}
    (e : State.findGranule s a h r gran byte = (t, o)) : s.keeps t := by
  have k := State.keeps_findGranule s a h r gran byte
  rwa [e] at k

@[simp] theorem State.keeps_xlBytes (s : State) (a : Agent) (h : Nat) (r : Record) (off : Nat) (n : Nat) (al : Nat) :
    s.keeps (State.xlBytes s a h r off n al).1 := by
  intro w; unfold State.xlBytes; (try dsimp only)
  repeat' first | with_reducible assumption | with_reducible exact State.keeps_findGranule _ _ _ _ _ _ w | split

theorem State.keeps_xlBytes_eq {s : State} {a : Agent} {h : Nat} {r : Record} {off : Nat} {n : Nat} {al : Nat} {t : State} {o}
    (e : State.xlBytes s a h r off n al = (t, o)) : s.keeps t := by
  have k := State.keeps_xlBytes s a h r off n al
  rwa [e] at k

@[simp] theorem State.keeps_translate (s : State) (a : Agent) (va : Word64) (n : Nat) (al : Nat) (u : Use) :
    s.keeps (State.translate s a va n al u).1 := by
  intro h; unfold State.translate; (try dsimp only)
  (repeat' first | assumption | split | refine State.keeps_foldl _ (fun _ _ => ?_) _ _ ?_ | intro _)
  all_goals first | (simp_all; done) | ((try simp); solve_by_elim [State.keeps_findRecord_eq, State.keeps_xlBytes_eq])

theorem State.keeps_translate_eq {s : State} {a : Agent} {va : Word64} {n : Nat} {al : Nat} {u : Use} {t : State} {o} (e : State.translate s a va n al u = (t, o)) :
    s.keeps t := fun w => by have k := State.keeps_translate s a va n al u w; rw [e] at k; exact k

@[simp] theorem State.keeps_signalFault (s : State) (t : RegionTab) (region : Nat) :
    s.keeps (State.signalFault s t region) := by
  intro h; unfold State.signalFault; (try dsimp only)
  repeat' first | assumption | rfl | refine State.keeps_foldl _ (fun _ _ _ => ?_) _ _ ?_ | split | simp only [State.interrupt_mem]
  all_goals first | (simp_all; done) | solve_by_elim [State.keeps_regionFault]

/-- What the check of a synchronising access leaves of the memory. -/
theorem State.syncAt_mem {s t : State} {d : Bool} {hitch : Nat} {x : Xl} {eff order : Nat}
    (e : State.syncAt s d hitch x eff order = .ok t ∨ State.syncAt s d hitch x eff order = .degraded t) : t.mem = s.mem := by
  unfold State.syncAt at e
  dsimp only at e
  (repeat' split at e) <;> rcases e with e | e <;>
    first | (injection e with e; subst e; first | rfl | exact s.touchL2_mem _ _ _ _) | cases e

theorem State.keeps_syncAt_ok {s t : State} {d : Bool} {hitch : Nat} {x : Xl} {eff order : Nat}
    (e : State.syncAt s d hitch x eff order = .ok t) : s.keeps t := State.keeps_of_mem (State.syncAt_mem (.inl e))

theorem State.keeps_syncAt_degraded {s t : State} {d : Bool} {hitch : Nat} {x : Xl} {eff order : Nat}
    (e : State.syncAt s d hitch x eff order = .degraded t) : s.keeps t := State.keeps_of_mem (State.syncAt_mem (.inr e))

/-- What stands before an atomic keeps the form of the memory, if its way does. -/
theorem State.keeps_admitAt {s : State} {degrade : Bool} {hitch : Nat} {x : Xl} {n eff order : Nat} {read : Bool}
    {way : State → State × Option XFault} (hw : ∀ s : State, s.keeps (way s).1) :
    s.keeps (s.admitAt degrade hitch x n eff order read way).1 := by
  have hr (s : State) : s.keeps (if read then s.readFault x n else (s, none)).1 := by
    split
    · exact State.keeps_of_mem (s.readFault_mem x n)
    · exact s.keeps_refl
  intro h
  unfold State.admitAt
  dsimp only
  split
  · exact h
  · have h1 := hw s h
    split
    · rename_i e; rw [e] at h1; exact h1
    · rename_i t e
      rw [e] at h1
      have h2 := hr t h1
      split
      · rename_i e; rw [e] at h2; exact h2
      · rename_i u e
        rw [e] at h2
        split
        · exact State.keeps_syncAt_ok (by assumption) h2
        · exact State.keeps_syncAt_degraded (by assumption) h2
        · exact h2

theorem State.keeps_admitAt_eq {s t : State} {degrade : Bool} {hitch : Nat} {x : Xl} {n eff order : Nat} {read : Bool}
    {way : State → State × Option XFault} {o} (hw : ∀ s : State, s.keeps (way s).1)
    (e : s.admitAt degrade hitch x n eff order read way = (t, o)) : s.keeps t := by
  have k := State.keeps_admitAt (s := s) (degrade := degrade) (hitch := hitch) (x := x) (n := n) (eff := eff) (order := order) (read := read) hw
  rwa [e] at k

@[simp] theorem State.keeps_performAt (s : State) (die : Nat) (tab : RegionTab) (degrade : Bool) (c : Ctx) (va : Word64) (x : Xl)
    (bs : List Byte) : s.keeps (State.performAt s die tab degrade c va x bs).1 := by
  intro h; unfold State.performAt; (try dsimp only)
  split
  · exact State.keeps_admitAt_eq (fun _ => State.keeps_linkFault _ _ _ _ _) (by assumption) h
  · have k := State.keeps_admitAt_eq (fun _ => State.keeps_linkFault _ _ _ _ _) (by assumption) h
    split
    · exact k
    · exact State.keeps_plainWrite _ _ _ _ _ k

theorem State.keeps_performAt_eq {s : State} {die : Nat} {tab : RegionTab} {degrade : Bool} {c : Ctx} {va : Word64} {x : Xl}
    {bs : List Byte} {t : State} {o} (e : State.performAt s die tab degrade c va x bs = (t, o)) : s.keeps t := by
  have k := State.keeps_performAt s die tab degrade c va x bs
  rwa [e] at k

@[simp] theorem State.supInterrupt_mem (s : State) (die : Nat) :
    (State.supInterrupt s die).mem = s.mem := by
  unfold State.supInterrupt; (try dsimp only); (repeat' split) <;> simp_all

@[simp] theorem State.keeps_signalPacket (s : State) (die : Nat) (p : Packet) (status : Nat) :
    s.keeps (State.signalPacket s die p status) := by
  intro h; unfold State.signalPacket; (try dsimp only)
  repeat' first | assumption | rfl | split | refine State.keeps_foldl _ (fun _ _ _ => ?_) _ _ ?_ | refine State.keeps_translate_eq (by assumption) ?_ | refine State.keeps_performAt_eq (by assumption) ?_ | apply State.keeps_signalFault

@[simp] theorem State.keeps_coordRun (s : State) (a : Act) (th : Thread) (lane : Nat) (w : F3) (va : Word64) (u : Use) :
    s.keeps (State.coordRun s a th lane w va u).1 := by
  intro h; unfold State.coordRun; (try dsimp only)
  (repeat' first | assumption | split | refine State.keeps_foldl _ (fun _ _ => ?_) _ _ ?_ | intro _)
  all_goals first | (simp_all; done) | ((try simp); solve_by_elim [State.keeps_findRecord_eq, State.keeps_findGranule_eq])

theorem State.keeps_l1Read_eq {s : State} {c : Nat} {x : Xl} {n : Nat} {pol : Nat} {t : State} {o} (e : State.l1Read s c x n pol = (t, o)) :
    s.keeps t := fun w => by have k := State.keeps_l1Read s c x n pol w; rw [e] at k; exact k

@[simp] theorem State.keeps_countPoison (s : State) (t : Team) (faults : List LaneFault) :
    s.keeps (State.countPoison s t faults) := by
  intro h; unfold State.countPoison; (try dsimp only); (repeat' first | assumption | split | refine State.keeps_foldl _ (fun _ _ => ?_) _ _ ?_ | intro _) <;> simp_all

@[simp] theorem State.keeps_enterHandler (s : State) (c : Nat) (cause : BitVec 8) (int : Bool) (start : Word64) (idx : Nat) (tval : Word64) :
    s.keeps (State.enterHandler s c cause int start idx tval) := by
  intro h; unfold State.enterHandler; (try dsimp only)
  repeat' first | assumption | rfl | refine State.keeps_foldl _ (fun _ _ _ => ?_) _ _ ?_ | split | simp only [State.updCore_mem, State.updTeam_mem]
  all_goals first | (simp_all; done) | solve_by_elim []

@[simp] theorem State.keeps_trap (s : State) (key : Nat) (i : TrapAt) (all : BitVec 64) (faults : List LaneFault) (lead : LaneFault) (at' : Nat → Point) :
    s.keeps (State.trap s key i all faults lead at') := by
  intro h; unfold State.trap; (try dsimp only)
  repeat' first | assumption | rfl | refine State.keeps_foldl _ (fun _ _ _ => ?_) _ _ ?_ | split | simp only [State.setTeam_mem]
  all_goals first | (simp_all; done) | solve_by_elim [State.keeps_countPoison, State.keeps_enterHandler, State.keeps_pushRecord]

@[simp] theorem State.keeps_faultAll (s : State) (a : Act) (dest : Code) (all : List Nat) (fs : List LaneFault) (lead : LaneFault) (addrs : List (Nat × Word64)) :
    s.keeps (State.faultAll s a dest all fs lead addrs) := by
  intro h; unfold State.faultAll; (try dsimp only)
  repeat' first | assumption | rfl | refine State.keeps_foldl _ (fun _ _ _ => ?_) _ _ ?_ | split
  all_goals first | (simp_all; done) | solve_by_elim [State.keeps_trap]

@[simp] theorem State.updGroup_mem (s : State) (key : Nat) (g : Nat) (f : Group → Group) :
    (State.updGroup s key g f).mem = s.mem := by
  unfold State.updGroup; (try dsimp only); (repeat' split) <;> simp_all

@[simp] theorem State.keeps_crossPerform (s : State) (key : Nat) (op : Nat) (w : F3) (gs : List Nat) (snap : BitVec 64) (must : BitVec 64) :
    s.keeps (State.crossPerform s key op w gs snap must) := by
  intro h; unfold State.crossPerform; (try dsimp only)
  repeat' first | assumption | rfl | refine State.keeps_foldl _ (fun _ _ _ => ?_) _ _ ?_ | split | simp only [State.updTeam_mem, State.writeDst_mem, State.updGroup_mem]
  all_goals first | (simp_all; done) | solve_by_elim [State.keeps_faultAll, State.keeps_commitLane]

@[simp] theorem State.keeps_crossTry (s : State) (key : Nat) (op : Nat) (w : F3) (addr : Word64) :
    s.keeps (State.crossTry s key op w addr) := by
  intro h; unfold State.crossTry; (try dsimp only)
  repeat' first | assumption | rfl | refine State.keeps_foldl _ (fun _ _ _ => ?_) _ _ ?_ | split
  all_goals first | (simp_all; done) | solve_by_elim [State.keeps_crossPerform]

@[simp] theorem State.keeps_deferRelease (s : State) (a : Act) (lane : Nat) :
    s.keeps (State.deferRelease s a lane) := by
  unfold State.deferRelease; (try dsimp only); (repeat' split) <;> intro h <;> simp_all

@[simp] theorem State.setIcache_mem (s : State) (t : Team) (l : List ILine) :
    (State.setIcache s t l).mem = s.mem := by
  unfold State.setIcache; (try dsimp only); (repeat' split) <;> simp_all

@[simp] theorem State.keeps_fetchLine (s : State) (t : Team) (at' : Word64) :
    s.keeps (State.fetchLine s t at').1 := by
  intro h; unfold State.fetchLine; (try dsimp only)
  (repeat' first | assumption | split | refine State.keeps_foldl _ (fun _ _ => ?_) _ _ ?_ | intro _)
  all_goals first | (simp_all; done) | ((try simp); solve_by_elim [State.keeps_translate_eq, State.keeps_findRecord_eq, State.keeps_busRead_eq])

@[simp] theorem State.storePartition_mem (s : State) (c : CtlStore) :
    (State.storePartition s c).mem = s.mem := by
  unfold State.storePartition; (try dsimp only); (repeat' split) <;> simp_all

@[simp] theorem State.updStack_mem (s : State) (die : Nat) (k : Nat) (f : Stack → Stack) :
    (State.updStack s die k f).mem = s.mem := by
  unfold State.updStack; (try dsimp only); (repeat' split) <;> simp_all

@[simp] theorem State.storeStackCounter_mem (s : State) (c : CtlStore) :
    (State.storeStackCounter s c).mem = s.mem := by
  unfold State.storeStackCounter; (try dsimp only); (repeat' split) <;> simp_all

@[simp] theorem State.storeStackNew_mem (s : State) (c : CtlStore) :
    (State.storeStackNew s c).mem = s.mem := by
  unfold State.storeStackNew; (try dsimp only); (repeat' split) <;> simp_all

@[simp] theorem State.updSlot_mem (s : State) (die : Nat) (i : Nat) (f : Slot → Slot) :
    (State.updSlot s die i f).mem = s.mem := by
  unfold State.updSlot; (try dsimp only); (repeat' split) <;> simp_all

@[simp] theorem State.endRequest_mem (s : State) (die : Nat) (i : Nat) :
    (State.endRequest s die i).mem = s.mem := by
  unfold State.endRequest; (try dsimp only); (repeat' split) <;> simp_all

@[simp] theorem State.endRequests_mem (s : State) (die : Nat) : (s.endRequests die).mem = s.mem :=
  State.mem_foldl _ (fun (s : State) _ => s.endRequest_mem _ _) _ _

@[simp] theorem State.keeps_freeNbhd (s : State) (die nid : Nat) : s.keeps (State.freeNbhd s die nid) := by
  intro h; unfold State.freeNbhd; (try dsimp only)
  repeat' first | with_reducible assumption | with_reducible apply State.keeps_reclaim | split | with_reducible refine State.keeps_foldl _ (fun _ _ _ => ?_) _ _ ?_

@[simp] theorem State.keeps_freeBars (s : State) (blk : Nat) : s.keeps (s.freeBars blk) := by
  intro h; unfold State.freeBars
  repeat' first | with_reducible assumption | rw [State.updBlock_mem] | with_reducible apply State.keeps_freeNbhd | with_reducible apply State.keeps_reclaim | split

@[simp] theorem State.keeps_removeBlock (s : State) (blk : Nat) :
    s.keeps (State.removeBlock s blk) := by
  intro h; unfold State.removeBlock; (try dsimp only)
  repeat' first | with_reducible assumption | rw [State.endRequests_mem] | with_reducible apply State.keeps_freeNbhd | with_reducible apply State.keeps_reclaim | split | with_reducible refine State.keeps_foldl _ (fun _ _ _ => ?_) _ _ ?_
  all_goals (show Memory.wf (State.endRequests _ _).mem = true; rw [State.endRequests_mem]; exact State.keeps_freeNbhd _ _ _ (State.keeps_reclaim _ _ _ _ h))

@[simp] theorem State.restartQueue_mem (s : State) (c : CtlStore) :
    (State.restartQueue s c).mem = s.mem := by
  unfold State.restartQueue; (try dsimp only); (repeat' split) <;> simp_all

@[simp] theorem State.storeDispatcher_mem (s : State) (c : CtlStore) :
    (State.storeDispatcher s c).mem = s.mem := by
  unfold State.storeDispatcher; (try dsimp only); (repeat' split) <;> simp_all

@[simp] theorem State.storeContext_mem (s : State) (c : CtlStore) :
    (State.storeContext s c).mem = s.mem := by
  unfold State.storeContext; (try dsimp only); (repeat' split) <;> simp_all

@[simp] theorem State.storeFeatures_mem (s : State) (c : CtlStore) :
    (State.storeFeatures s c).mem = s.mem := by
  unfold State.storeFeatures; (try dsimp only); (repeat' split) <;> simp_all

@[simp] theorem State.storePending_mem (s : State) (c : CtlStore) :
    (State.storePending s c).mem = s.mem := by
  unfold State.storePending; (try dsimp only); (repeat' split) <;> simp_all

@[simp] theorem State.endTandem_mem (s : State) (ends : Nat → Nat → Bool) :
    (State.endTandem s ends).mem = s.mem := by
  rfl

@[simp] theorem State.keeps_dropTeams (s : State) (keys : List Nat) :
    s.keeps (State.dropTeams s keys) := by
  unfold State.dropTeams; (try dsimp only); (repeat' split) <;> intro h <;> simp_all

@[simp] theorem State.discardBars_mem (s : State) (blk nid : Nat) :
    (State.discardBars s blk nid).mem = s.mem := by
  unfold State.discardBars; split <;> rfl

@[simp] theorem State.keeps_discardBlock (s : State) (blk : Nat) :
    s.keeps (State.discardBlock s blk) := by
  intro h; unfold State.discardBlock; (try dsimp only)
  repeat' first | with_reducible assumption | rw [State.updBlock_mem] | rw [State.updHitch_mem] | rw [State.discardBars_mem] | with_reducible apply State.keeps_freeNbhd | with_reducible apply State.keeps_reclaim | with_reducible apply State.keeps_cancelRecords | with_reducible apply State.keeps_dropTeams | with_reducible apply State.keeps_emptyQueue | with_reducible apply State.keeps_discardRein | split | with_reducible refine State.keeps_foldl _ (fun _ _ _ => ?_) _ _ ?_

@[simp] theorem State.keeps_evictFor (s : State) (t : Team) (x : Xl) :
    s.keeps (State.evictFor s t x) := by
  intro h; unfold State.evictFor; (try dsimp only)
  repeat' first | assumption | rfl | split | refine State.keeps_foldl _ (fun _ _ _ => ?_) _ _ ?_ | apply State.keeps_evictLine

@[simp] theorem State.keeps_unmapSlot (s : State) (die : Nat) (i : Nat) (old : Slot) :
    s.keeps (State.unmapSlot s die i old) := by
  intro h; unfold State.unmapSlot; (try dsimp only)
  repeat' first | assumption | rfl | refine State.keeps_foldl _ (fun _ _ _ => ?_) _ _ ?_ | split | simp only [State.updSlot_mem, State.updDie_mem]
  all_goals first | (simp_all; done) | solve_by_elim [State.keeps_reclaim]

@[simp] theorem State.keeps_dropKeyLines (s : State) (idx : Nat) : s.keeps (State.dropKeyLines s idx) :=
  fun h => State.keeps_foldl _ (fun (s : State) e => s.keeps_cleanLines _ _) _ _ h

@[simp] theorem State.keeps_dropWatch (s : State) (key : Nat) (lane : Nat) :
    s.keeps (State.dropWatch s key lane) := by
  intro h; unfold State.dropWatch; (try dsimp only)
  repeat' first | assumption | rfl | refine State.keeps_foldl _ (fun _ _ _ => ?_) _ _ ?_ | split | simp only []
  all_goals first | (simp_all; done) | solve_by_elim []

@[simp] theorem State.keeps_partyEnd (s : State) (blk : Nat) (off : Nat) (bit : Nat) :
    s.keeps (State.partyEnd s blk off bit) := by
  intro h; unfold State.partyEnd; (try dsimp only)
  repeat' first | assumption | rfl | refine State.keeps_foldl _ (fun _ _ _ => ?_) _ _ ?_ | split | simp only [State.updRdv_mem, State.updBlock_mem, State.updHitch_mem]
  all_goals first | (simp_all; done) | solve_by_elim [State.keeps_reclaim]

@[simp] theorem State.keeps_queueEnd (s : State) (blk : Nat) (q : Nat) :
    s.keeps (State.queueEnd s blk q) := by
  intro h; unfold State.queueEnd; (try dsimp only)
  repeat' first | assumption | rfl | refine State.keeps_foldl _ (fun _ _ _ => ?_) _ _ ?_ | split
  all_goals first | (simp_all; done) | solve_by_elim [State.keeps_partyEnd]

@[simp] theorem State.settleTeam_mem (s : State) (key : Nat) :
    (State.settleTeam s key).mem = s.mem := by
  unfold State.settleTeam; (try dsimp only); (repeat' split) <;> simp_all

@[simp] theorem State.keeps_enginePlace (s : State) (die : Nat) (c : Ctx) (va : Word64) (scope : Nat) (n : Nat) (u : Use) :
    s.keeps (State.enginePlace s die c va scope n u).1 := by
  intro h; unfold State.enginePlace; (try dsimp only)
  (repeat' first | assumption | split | refine State.keeps_foldl _ (fun _ _ => ?_) _ _ ?_ | intro _)
  all_goals first | (simp_all; done) | ((try simp); solve_by_elim [State.keeps_findRecord_eq, State.keeps_xlBytes_eq])

theorem State.keeps_enginePlace_eq {s : State} {die : Nat} {c : Ctx} {va : Word64} {scope : Nat} {n : Nat} {u : Use} {t : State} {o} (e : State.enginePlace s die c va scope n u = (t, o)) :
    s.keeps t := fun w => by have k := State.keeps_enginePlace s die c va scope n u w; rw [e] at k; exact k

@[simp] theorem State.keeps_engineRead (s : State) (die : Nat) (c : Ctx) (va : Word64) (n : Nat) :
    s.keeps (State.engineRead s die c va n).1 := by
  intro h; unfold State.engineRead; (try dsimp only)
  (repeat' first | assumption | split | refine State.keeps_foldl _ (fun _ _ => ?_) _ _ ?_ | intro _)
  all_goals first | (simp_all; done) | ((try simp); solve_by_elim [State.keeps_translate_eq, State.keeps_busRead_eq])

theorem State.keeps_engineRead_eq {s : State} {die : Nat} {c : Ctx} {va : Word64} {n : Nat} {t : State} {o} (e : State.engineRead s die c va n = (t, o)) :
    s.keeps t := fun w => by have k := State.keeps_engineRead s die c va n w; rw [e] at k; exact k

@[simp] theorem State.keeps_evictOwn (s : State) (a : Act) (x : Xl) : s.keeps (s.evictOwn a x) := s.keeps_evictFor _ _

@[simp] theorem State.keeps_exitLane (s : State) (key : Nat) (lane : Nat) :
    s.keeps (State.exitLane s key lane) := by
  intro h; unfold State.exitLane; (try dsimp only)
  repeat' first | with_reducible assumption | rw [State.updTeam_mem] | rw [State.endTandem_mem] | rw [State.setTeam_mem] | with_reducible apply State.keeps_dropWatch | split | with_reducible refine State.keeps_foldl _ (fun _ _ _ => ?_) _ _ ?_

@[simp] theorem State.keeps_faultAfter (s : State) (a : Act) (dest : Code) (fs : List LaneFault) :
    s.keeps (State.faultAfter s a dest fs) := by
  intro h; unfold State.faultAfter; (try dsimp only)
  repeat' first | assumption | rfl | refine State.keeps_foldl _ (fun _ _ _ => ?_) _ _ ?_ | split
  all_goals first | (simp_all; done) | solve_by_elim [State.keeps_trap]

@[simp] theorem State.keeps_faultLanes (s : State) (a : Act) (dest : Code) (fs : List LaneFault) :
    s.keeps (State.faultLanes s a dest fs) := by
  intro h; unfold State.faultLanes; (try dsimp only)
  repeat' first | assumption | rfl | refine State.keeps_foldl _ (fun _ _ _ => ?_) _ _ ?_ | split
  all_goals first | (simp_all; done) | solve_by_elim [State.keeps_trap]

@[simp] theorem State.keeps_holdEngine (s : State) (die : Nat) (q : Nat) (c : Ctx) (va : Word64) (x : Xl) (h : Held → Held) :
    s.keeps (State.holdEngine s die q c va x h) := by
  unfold State.holdEngine; (try dsimp only); (repeat' split) <;> intro h <;> simp_all

@[simp] theorem State.keeps_wake (s : State) (scratch : Bool) (loc : Nat) (n : Nat) :
    s.keeps (State.wake s scratch loc n) := by
  unfold State.wake; (try dsimp only); (repeat' split) <;> intro h <;> simp_all

@[simp] theorem State.keeps_markSignal (s : State) (pa : Nat) (n : Nat) (m : BitVec 8 × Nat × Word64) :
    s.keeps (State.markSignal s pa n m) := by
  unfold State.markSignal; (try dsimp only); (repeat' split) <;> intro h <;> simp_all

@[simp] theorem State.keeps_faultValue (s : State) (a : Act) (dests : List Code) (fs : List LaneFault) :
    s.keeps (State.faultValue s a dests fs) := by
  intro h; unfold State.faultValue; (try dsimp only)
  repeat' first | assumption | rfl | refine State.keeps_foldl _ (fun _ _ _ => ?_) _ _ ?_ | split
  all_goals first | (simp_all; done) | solve_by_elim [State.keeps_trap]

@[simp] theorem State.keeps_fetchResidency (s : State) (t : Team) (lanes : BitVec 64) (start : Word64) (line : Word64) :
    s.keeps (State.fetchResidency s t lanes start line) := by
  unfold State.fetchResidency; (try dsimp only); (repeat' split) <;> intro h <;> simp_all

@[simp] theorem State.flashWrite_mem (s : State) (off : Nat) (bs : List Byte) :
    (State.flashWrite s off bs).mem = s.mem := by
  unfold State.flashWrite; (try dsimp only); (repeat' split) <;> simp_all

@[simp] theorem State.keeps_flushL1 (s : State) (core : Nat) (drop : Bool) :
    s.keeps (State.flushL1 s core drop) := by
  unfold State.flushL1; (try dsimp only); (repeat' split) <;> intro h <;> simp_all

@[simp] theorem State.shoot_mem (s : State) (hitch : Option Nat) (f : Tlb → Tlb) :
    (State.shoot s hitch f).mem = s.mem := by
  unfold State.shoot; (try dsimp only)
  (repeat' first | rfl | assumption | split | refine (State.mem_foldl _ (fun _ _ => ?_) _ _).trans ?_) <;> simp_all

@[simp] theorem State.keeps_freeRuns (s : State) (hitch : Nat) :
    s.keeps (State.freeRuns s hitch) := by
  intro h; unfold State.freeRuns; (try dsimp only)
  repeat' first | assumption | rfl | refine State.keeps_foldl _ (fun _ _ _ => ?_) _ _ ?_ | split | simp only [State.updHitch_mem]
  all_goals first | (simp_all; done) | solve_by_elim [State.keeps_reclaim]

@[simp] theorem State.keeps_reinEnd (s : State) (hitch : Nat) :
    s.keeps (State.reinEnd s hitch) := by
  intro h; unfold State.reinEnd; (try dsimp only)
  repeat' first | assumption | rfl | refine State.keeps_foldl _ (fun _ _ _ => ?_) _ _ ?_ | split
  all_goals first | (simp_all; done) | solve_by_elim [State.keeps_partyEnd]

@[simp] theorem State.keeps_releaseRuns (s : State) (hitch : Nat) :
    s.keeps (State.releaseRuns s hitch) := by
  intro h; unfold State.releaseRuns; (try dsimp only)
  repeat' first | with_reducible assumption | rw [State.updHitch_mem] | with_reducible apply State.keeps_freeRuns | split | with_reducible refine State.keeps_foldl _ (fun _ _ _ => ?_) _ _ ?_

@[simp] theorem State.keeps_g8Result (s : State) (a : Act) (i : LaneIn) (lead : Bool) (ret : Bool) (ws : List Word32) (wt : Wait) :
    s.keeps (State.g8Result s a i lead ret ws wt) := by
  intro h; unfold State.g8Result; (try dsimp only)
  repeat' first | assumption | rfl | refine State.keeps_foldl _ (fun _ _ _ => ?_) _ _ ?_ | split | simp only [State.pendDst_mem]
  all_goals first | (simp_all; done) | solve_by_elim [State.keeps_commitLane]

@[simp] theorem State.hbmCorrected_mem (s : State) (pa : Nat) :
    (State.hbmCorrected s pa).mem = s.mem := by
  unfold State.hbmCorrected; (try dsimp only); (repeat' split) <;> simp_all

@[simp] theorem State.hbmUncorrected_mem (s : State) (pa : Nat) :
    (State.hbmUncorrected s pa).mem = s.mem := by
  unfold State.hbmUncorrected; (try dsimp only); (repeat' split) <;> simp_all

@[simp] theorem State.keeps_heldDone (s : State) (id : Nat) (ws : List Word32) :
    s.keeps (State.heldDone s id ws) := by
  unfold State.heldDone; (try dsimp only); (repeat' split) <;> intro h <;> simp_all

@[simp] theorem State.keeps_hold (s : State) (a : Act) (lane : Nat) (va : Word64) (x : Xl) (dest : Code) (h : Held → Held) :
    s.keeps (State.hold s a lane va x dest h) := by
  unfold State.hold; (try dsimp only); (repeat' split) <;> intro h <;> simp_all

@[simp] theorem State.holdAt_mem (s : State) (a : Act) (h : Hold) :
    (State.holdAt s a h).mem = s.mem := by
  unfold State.holdAt; (try dsimp only); (repeat' split) <;> simp_all

@[simp] theorem State.storeEvents_mem (s : State) (c : CtlStore) :
    (State.storeEvents s c).mem = s.mem := by
  unfold State.storeEvents; (try dsimp only); (repeat' split) <;> simp_all

@[simp] theorem State.storeInbound_mem (s : State) (c : CtlStore) :
    (State.storeInbound s c).mem = s.mem := by
  unfold State.storeInbound; (try dsimp only); (repeat' split) <;> simp_all

@[simp] theorem State.storeRemote_mem (s : State) (c : CtlStore) :
    (State.storeRemote s c).mem = s.mem := by
  unfold State.storeRemote; (try dsimp only)
  (repeat' first | rfl | assumption | split | refine (State.mem_foldl _ (fun _ _ => ?_) _ _).trans ?_) <;> simp_all

@[simp] theorem State.keeps_ioStore (s : State) (c : CtlStore) :
    s.keeps (State.ioStore s c) := by
  intro h; unfold State.ioStore; (try dsimp only)
  repeat' first | assumption | rfl | refine State.keeps_foldl _ (fun _ _ _ => ?_) _ _ ?_ | split | simp only [State.storeEvents_mem, State.storeInbound_mem, State.storeRemote_mem, State.updMgmt_mem]
  all_goals first | (simp_all; done) | solve_by_elim []

@[simp] theorem State.updPacket_mem (s : State) (die : Nat) (p : Packet) (f : Packet → Packet) :
    (State.updPacket s die p f).mem = s.mem := by
  unfold State.updPacket; (try dsimp only); (repeat' split) <;> simp_all

@[simp] theorem State.keeps_judge (s : State) (die : Nat) (p : Packet) :
    s.keeps (State.judge s die p).1 := by
  unfold State.judge; (try dsimp only); (repeat' split) <;> intro h <;> simp_all

theorem State.keeps_judge_eq {s : State} {die : Nat} {p : Packet} {t : State} {o} (e : State.judge s die p = (t, o)) :
    s.keeps t := fun w => by have k := State.keeps_judge s die p w; rw [e] at k; exact k

@[simp] theorem State.keeps_singleStep (s : State) (key : Nat) (i : TrapAt) (lanes : BitVec 64) :
    s.keeps (State.singleStep s key i lanes) := by
  intro h; unfold State.singleStep; (try dsimp only)
  repeat' first | assumption | rfl | refine State.keeps_foldl _ (fun _ _ _ => ?_) _ _ ?_ | split
  all_goals first | (simp_all; done) | solve_by_elim [State.keeps_trap]

@[simp] theorem State.keeps_trimActive (s : State) (core : Nat) (lb : Nat) :
    s.keeps (State.trimActive s core lb) := by
  intro h; unfold State.trimActive; (try dsimp only); (repeat' first | assumption | split | refine State.keeps_foldl _ (fun _ _ => ?_) _ _ ?_ | intro _) <;> simp_all

@[simp] theorem State.keeps_loadTo (s : State) (a : Act) (i : LaneIn) (lead : Bool) (ws : List Word32) :
    s.keeps (State.loadTo s a i lead ws) := by
  intro h; unfold State.loadTo; (try dsimp only)
  repeat' first | assumption | rfl | refine State.keeps_foldl _ (fun _ _ _ => ?_) _ _ ?_ | split | simp only [State.pendDst_mem]
  all_goals first | (simp_all; done) | solve_by_elim [State.keeps_commitLane]

@[simp] theorem State.keeps_netPlaces (s : State) (a : QAct) (c : Cmd) (i : Nat) :
    s.keeps (State.netPlaces s a c i).1 := by
  intro h; unfold State.netPlaces; (try dsimp only)
  repeat' first | assumption | rfl | refine State.keeps_foldl _ (fun _ _ _ => ?_) _ _ ?_ | split | simp only []
  all_goals first | (simp_all; done) | solve_by_elim [State.keeps_translate_eq]

theorem State.keeps_netPlaces_eq {s : State} {a : QAct} {c : Cmd} {i : Nat} {t : State} {o} (e : State.netPlaces s a c i = (t, o)) :
    s.keeps t := fun w => by have k := State.keeps_netPlaces s a c i w; rw [e] at k; exact k

@[simp] theorem State.nextTurn_mem (s : State) :
    (State.nextTurn s).1.mem = s.mem := by
  unfold State.nextTurn; (try dsimp only); (repeat' split) <;> simp_all

theorem State.keeps_nextTurn_eq {s : State} {t : State} {o} (e : State.nextTurn s = (t, o)) :
    s.keeps t := State.keeps_of_mem (by rw [← State.nextTurn_mem s, e])

@[simp] theorem State.keeps_parkPick (s : State) (c : Candidate) (i : TrapAt) (cause : Cause) (w9 : Word32) (addr : Word64) :
    s.keeps (State.parkPick s c i cause w9 addr) := by
  intro h; unfold State.parkPick; (try dsimp only)
  repeat' first | assumption | rfl | refine State.keeps_foldl _ (fun _ _ _ => ?_) _ _ ?_ | split
  all_goals first | (simp_all; done) | solve_by_elim [State.keeps_trap]

@[simp] theorem State.keeps_parkTrap (s : State) (a : Act) (dest : Code) (fs : List LaneFault) (each : Bool) :
    s.keeps (State.parkTrap s a dest fs each) := by
  intro h; unfold State.parkTrap; (try dsimp only)
  repeat' first | assumption | rfl | refine State.keeps_foldl _ (fun _ _ _ => ?_) _ _ ?_ | split
  all_goals first | (simp_all; done) | solve_by_elim [State.keeps_trap]

theorem State.keeps_trapAway {s t : State} {key : Nat} {start word : Word64} {w8 : Word32} {f : LaneFault}
    (e : s.trapAway key start word w8 f = some t) : s.keeps t := by
  unfold State.trapAway at e
  obtain ⟨p, -, rfl⟩ := Option.map_eq_some_iff.1 e
  exact fun h => by rw [State.updTeam_mem]; exact State.keeps_trap _ _ _ _ _ _ _ h

@[simp] theorem State.keeps_trapFor (s : State) (h : Held) (c : BitVec 8) (w9 : Word32) (addr : Word64) :
    s.keeps (State.trapFor s h c w9 addr) := by
  unfold State.trapFor
  split
  · cases e : s.trapAway h.key h.start h.word h.w8 { lane := h.lane, cause := c, w9 := w9, addr := addr } with
    | none => exact s.keeps_refl
    | some t => exact State.keeps_trapAway e
  · exact s.keeps_refl

@[simp] theorem State.keeps_performStores (s : State) (hitch : Option Nat) :
    s.keeps (State.performStores s hitch) := by
  intro h; unfold State.performStores; (try dsimp only)
  repeat' first | assumption | rfl | refine State.keeps_foldl _ (fun _ _ _ => ?_) _ _ ?_ | split | simp only []
  all_goals first | (simp_all; done) | solve_by_elim [State.keeps_cleanLines]

@[simp] theorem State.startGroup_mem (s : State) (c : Candidate) (leg : List Word64) :
    (State.startGroup s c leg).mem = s.mem := by
  unfold State.startGroup; (try dsimp only); (repeat' split) <;> simp_all

@[simp] theorem State.picked_mem (s : State) (die : Nat) (i : Nat) :
    (State.picked s die i).mem = s.mem := by
  unfold State.picked; (try dsimp only); (repeat' split) <;> simp_all

@[simp] theorem State.keeps_place (s : State) (t : Team) (lane : Nat) (va : Word64) (scope : Nat) (n : Nat) (u : Use) :
    s.keeps (State.place s t lane va scope n u).1 := by
  intro h; unfold State.place; (try dsimp only)
  repeat' first | assumption | rfl | refine State.keeps_foldl _ (fun _ _ _ => ?_) _ _ ?_ | split
  all_goals first | (simp_all; done) | solve_by_elim [State.keeps_translate_eq, State.keeps_findRecord_eq, State.keeps_xlBytes_eq]

@[simp] theorem State.keeps_seatBlock (s : State) (id : Nat) (b : Block) (cores : List Nat) (path : List Nat) :
    s.keeps (State.seatBlock s id b cores path) := by
  intro h; unfold State.seatBlock; (try dsimp only)
  repeat' first | assumption | rfl | refine State.keeps_foldl _ (fun _ _ _ => ?_) _ _ ?_ | split
  all_goals first | (simp_all; done) | solve_by_elim [State.keeps_charge]

@[simp] theorem State.seatTeam_mem (s : State) (cores : List Nat) (tix : Nat) (mk : Nat → Nat → BitVec 16 → Team) :
    (State.seatTeam s cores tix mk).mem = s.mem := by
  unfold State.seatTeam; (try dsimp only); (repeat' split) <;> simp_all

@[simp] theorem State.keeps_seatNew (s : State) (id : Nat) (entryOf : Nat → Option Word64) :
    s.keeps (State.seatNew s id entryOf) := by
  intro h; unfold State.seatNew; (try dsimp only)
  (repeat' first | assumption | split | refine State.keeps_foldl _ (fun _ _ => ?_) _ _ ?_ | intro _)
  all_goals simp_all

@[simp] theorem State.keeps_placeBlock (s : State) (die : Nat) (p : Packet) (cores : List Nat) (blk : Nat) (nblk : Option Nat) (nbhd : Nat) :
    s.keeps (State.placeBlock s die p cores blk nblk nbhd) := by
  intro h; unfold State.placeBlock; (try dsimp only)
  repeat' first | assumption | rfl | refine State.keeps_foldl _ (fun _ _ _ => ?_) _ _ ?_ | split | simp only [State.updDie_mem]
  all_goals first | (simp_all; done) | solve_by_elim [State.keeps_seatBlock, State.keeps_seatNew]

theorem State.keeps_scratchRead_eq {s : State} {blk : Nat} {off : Nat} {n : Nat} {t : State} {o} (e : State.scratchRead s blk off n = (t, o)) :
    s.keeps t := State.keeps_of_mem (by rw [← State.scratchRead_mem s blk off n, e])

@[simp] theorem State.putScratch_mem (s : State) (t : Tsr) (blk : Nat) (off : Nat) (nib : Nat) (v : Nat) :
    (State.putScratch s t blk off nib v).mem = s.mem := by
  unfold State.putScratch; (try dsimp only); (repeat' split) <;> simp_all

@[simp] theorem State.putSlot_mem (s : State) (t : Tsr) (hitch : Nat) (off : Nat) (nib : Nat) (v : Nat) :
    (State.putSlot s t hitch off nib v).mem = s.mem := by
  unfold State.putSlot; (try dsimp only); (repeat' split) <;> simp_all

@[simp] theorem State.keeps_readPacket (s : State) (die : Nat) (qcb : Nat) (n : Nat) (e : RegionEff) (region : Nat) :
    s.keeps (State.readPacket s die qcb n e region).1 := by
  intro h; unfold State.readPacket; (try dsimp only)
  repeat' first | with_reducible assumption | with_reducible refine State.keeps_translate_eq (by assumption) ?_ | with_reducible refine State.keeps_plainRead_eq (by assumption) ?_ | split | with_reducible refine State.keeps_foldl _ (fun _ _ _ => ?_) _ _ ?_

@[simp] theorem State.keeps_relayAt (s : State) (t : Team) (va : Word64) (u : Use) :
    s.keeps (State.relayAt s t va u).1 := by
  intro h; unfold State.relayAt; (try dsimp only)
  repeat' first | with_reducible assumption | with_reducible exact State.keeps_findRecord _ _ _ h | with_reducible exact State.keeps_findGranule _ _ _ _ _ _ h | with_reducible refine State.keeps_findRecord_eq (by assumption) ?_ | with_reducible refine State.keeps_findGranule_eq (by assumption) ?_ | with_reducible refine State.keeps_busRead_eq (by assumption) ?_ | with_reducible apply State.keeps_evictFor | split | with_reducible refine State.keeps_foldl _ (fun _ _ _ => ?_) _ _ ?_

theorem State.keeps_relayAt_eq {s : State} {r : Team} {va : Word64} {u : Use} {t : State} {o} (e : State.relayAt s r va u = (t, o)) :
    s.keeps t := fun w => by have k := State.keeps_relayAt s r va u w; rw [e] at k; exact k

@[simp] theorem State.keeps_relayEntry (s : State) (t : Team) (q : Relay) (i : Word64) :
    s.keeps (State.relayEntry s t q i).1 := by
  intro h; unfold State.relayEntry; (try dsimp only)
  repeat' first | with_reducible assumption | with_reducible refine State.keeps_xlBytes_eq (by assumption) ?_ | with_reducible apply State.keeps_evictFor | split | with_reducible refine State.keeps_foldl _ (fun _ _ _ => ?_) _ _ ?_

theorem State.keeps_relayEntry_eq {s : State} {r : Team} {q : Relay} {i : Word64} {t : State} {o} (e : State.relayEntry s r q i = (t, o)) :
    s.keeps t := fun w => by have k := State.keeps_relayEntry s r q i w; rw [e] at k; exact k

@[simp] theorem State.keeps_releaseIn (s : State) (a : Act) (inRange : Nat → Bool) :
    s.keeps (State.releaseIn s a inRange) := by
  unfold State.releaseIn; (try dsimp only); (repeat' split) <;> intro h <;> simp_all

@[simp] theorem State.keeps_releaseAt (s : State) (a : Act) (sp : Spot) (on : Bool) :
    s.keeps (State.releaseAt s a sp on) := by
  intro h; unfold State.releaseAt; (try dsimp only)
  repeat' first | assumption | rfl | refine State.keeps_foldl _ (fun _ _ _ => ?_) _ _ ?_ | split | simp only []
  all_goals first | (simp_all; done) | solve_by_elim [State.keeps_releaseIn]

@[simp] theorem State.reportStop_mem (s : State) (blk : Nat) (q : Nat) (cause : BitVec 8) :
    (State.reportStop s blk q cause).mem = s.mem := by
  unfold State.reportStop; (try dsimp only); (repeat' split) <;> simp_all

@[simp] theorem State.keeps_resetModule (s : State) (keepMem : Bool) (boot : Boot) :
    s.keeps (State.resetModule s keepMem boot) := by
  intro h; unfold State.resetModule; (try dsimp only)
  repeat' first | assumption | rfl | refine State.keeps_foldl _ (fun _ _ _ => ?_) _ _ ?_ | split | simp only []
  all_goals first | (simp_all; done) | solve_by_elim []

@[simp] theorem State.returnFromHandler_mem (s : State) (c : Nat) (awaits : List Code) :
    (State.returnFromHandler s c awaits).mem = s.mem := by
  unfold State.returnFromHandler; (try dsimp only); (repeat' split) <;> simp_all

@[simp] theorem State.scratchElem_mem (s : State) (t : Tsr) (blk : Nat) (off : Nat) (nib : Nat) :
    (State.scratchElem s t blk off nib).1.mem = s.mem := by
  unfold State.scratchElem; (try dsimp only); (repeat' split) <;> simp_all

@[simp] theorem State.keeps_scratchRmw (s : State) (blk : Nat) (off : Nat) (n : Nat) (op : AtomOp) (sgn : Bool) (b : Word64) (c : Word64) :
    s.keeps (State.scratchRmw s blk off n op sgn b c).1 := by
  intro h; unfold State.scratchRmw; (try dsimp only)
  repeat' first | assumption | rfl | refine State.keeps_foldl _ (fun _ _ _ => ?_) _ _ ?_ | split | simp only [State.scratchRead_mem, State.scratchWrite_mem]
  all_goals first | (simp_all; done) | solve_by_elim [State.keeps_scratchRead_eq, State.keeps_wake]

theorem State.keeps_scratchRmw_eq {s : State} {blk : Nat} {off : Nat} {n : Nat} {op : AtomOp} {sgn : Bool} {b : Word64} {c : Word64} {t : State} {o} (e : State.scratchRmw s blk off n op sgn b c = (t, o)) :
    s.keeps t := fun w => by have k := State.keeps_scratchRmw s blk off n op sgn b c w; rw [e] at k; exact k

@[simp] theorem State.setBar_mem (s : State) (r : BarRef) (x : Barrier) :
    (State.setBar s r x).mem = s.mem := by
  unfold State.setBar; (try dsimp only); (repeat' split) <;> simp_all

@[simp] theorem State.setMarker_mem (s : State) (slotB : Bool) :
    (State.setMarker s slotB).mem = s.mem := by
  unfold State.setMarker; (try dsimp only); (repeat' split) <;> simp_all

@[simp] theorem State.setRing_mem (s : State) (r : Ring) :
    (State.setRing s r).mem = s.mem := by
  unfold State.setRing; (try dsimp only); (repeat' split) <;> simp_all

@[simp] theorem State.keeps_spotRead (s : State) (die : Nat) (sp : Spot) (n : Nat) :
    s.keeps (State.spotRead s die sp n).1 := by
  intro h; unfold State.spotRead; (try dsimp only)
  repeat' first | assumption | rfl | refine State.keeps_foldl _ (fun _ _ _ => ?_) _ _ ?_ | split | simp only [State.scratchRead_mem]
  all_goals first | (simp_all; done) | solve_by_elim [State.keeps_scratchRead_eq, State.keeps_busRead_eq]

theorem State.keeps_spotRead_eq {s : State} {die : Nat} {sp : Spot} {n : Nat} {t : State} {o} (e : State.spotRead s die sp n = (t, o)) :
    s.keeps t := fun w => by have k := State.keeps_spotRead s die sp n w; rw [e] at k; exact k

@[simp] theorem State.startRein_mem (s : State) (hitch : Nat) (t : Team) (off : Nat) (d : ForkDesc) :
    (State.startRein s hitch t off d).mem = s.mem := by
  unfold State.startRein; (try dsimp only); (repeat' split) <;> simp_all

@[simp] theorem State.keeps_stopQcb (s : State) (die : Nat) (qcb : Nat) (c : Cause) :
    s.keeps (State.stopQcb s die qcb c) := by
  unfold State.stopQcb; (try dsimp only); (repeat' split) <;> intro h <;> simp_all

@[simp] theorem State.keeps_takeFree (s : State) :
    s.keeps (State.takeFree s).2 := by
  intro h; unfold State.takeFree; (try dsimp only)
  repeat' first | assumption | rfl | refine State.keeps_foldl _ (fun _ _ _ => ?_) _ _ ?_ | split | simp only []
  all_goals first | (simp_all; done) | solve_by_elim []

theorem State.keeps_takeFree_eq {s : State} {t : State} {o} (e : State.takeFree s = (o, t)) :
    s.keeps t := fun w => by have k := State.keeps_takeFree s w; rw [e] at k; exact k

@[simp] theorem State.keeps_tensorRead (s : State) (a : QAct) (t : Tsr) (l : Nat) :
    s.keeps (State.tensorRead s a t l).1 := by
  intro h; unfold State.tensorRead; (try dsimp only)
  repeat' first | assumption | rfl | refine State.keeps_foldl _ (fun _ _ _ => ?_) _ _ ?_ | split | simp only []
  all_goals first | (simp_all; done) | solve_by_elim [State.keeps_engineRead_eq]

@[simp] theorem State.toTarget_mem (s : State) (d : Nat) (bs : List Byte) (t : Target) :
    (State.toTarget s d bs t).mem = s.mem := by
  unfold State.toTarget; (try dsimp only); (repeat' split) <;> simp_all

@[simp] theorem State.keeps_tqChanged (s : State) (c : Nat) :
    s.keeps (State.tqChanged s c) := by
  intro h; unfold State.tqChanged; (try dsimp only)
  repeat' first | assumption | rfl | refine State.keeps_foldl _ (fun _ _ _ => ?_) _ _ ?_ | split | simp only [State.latchTq_mem]
  all_goals first | (simp_all; done) | solve_by_elim [State.keeps_flushRecords]

@[simp] theorem State.unlockDrain_mem (s : State) (a : QAct) (d : Word32) :
    (State.unlockDrain s a d).mem = s.mem := by
  unfold State.unlockDrain; (try dsimp only); (repeat' split) <;> simp_all

@[simp] theorem State.updPend_mem (s : State) (key : Nat) (n : Nat) (f : Pend → Pend) :
    (State.updPend s key n f).mem = s.mem := by
  unfold State.updPend; (try dsimp only); (repeat' split) <;> simp_all

@[simp] theorem State.keeps_withdraw (s : State) (core : Nat) :
    s.keeps (State.withdraw s core) := by
  intro h; unfold State.withdraw; (try dsimp only)
  repeat' first | assumption | rfl | refine State.keeps_foldl _ (fun _ _ _ => ?_) _ _ ?_ | split | simp only []
  all_goals first | (simp_all; done) | solve_by_elim []

end Sys2Proof.Machine
end

