-- ==== Sys2Proof/Laws/Lanes.lean ====
section
/-! SUPPORT. What the shared ways of issuing a word do when no lane faults or waits. -/

namespace Sys2Proof.Machine

/-! ### Gathering -/

/-- What one access leaves: a lane that has its operands had none to wait for. -/
theorem State.gatherAcc_ok {s : State} {a : Act} {th : Thread} {l : Nat} {x : Acc} {j i : LaneIn} {w : Option Bool}
    (h : s.gatherAcc a th l x j w = .ok i) : w = none ∧ i.lane = j.lane := by
  unfold State.gatherAcc at h
  dsimp only at h
  split at h
  · cases h
  · split at h
    · cases h
    · cases w with
      | none => (repeat' split at h) <;> first | (injection h with h; subst h; exact ⟨rfl, rfl⟩) | (simp_all [LaneIn.got]; done)
      | some b => (repeat' split at h) <;> simp_all [LaneIn.got]

theorem State.gatherOne_lane {s : State} {a : Act} {th : Thread} {l : Nat} {x : Acc} {g : Got} {i : LaneIn}
    (h : s.gatherOne a th l x g = .ok i) : ∃ j, g = .ok j ∧ i.lane = j.lane := by
  unfold State.gatherOne at h
  cases g with
  | ok j => exact ⟨j, rfl, (State.gatherAcc_ok h).2⟩
  | wait b j => cases (State.gatherAcc_ok h).1
  | skip => cases h
  | fault f => cases h

theorem gatherFold_lane {s : State} {a : Act} {th : Thread} {l : Nat} (acc : List Acc) {g : Got} {i : LaneIn}
    (h : acc.foldl (fun g x => s.gatherOne a th l x g) g = .ok i) : ∃ j, g = .ok j ∧ i.lane = j.lane := by
  induction acc generalizing g with
  | nil => exact ⟨i, h, rfl⟩
  | cons x t ih =>
    obtain ⟨j, hj, e⟩ := ih h
    obtain ⟨k, hk, e'⟩ := State.gatherOne_lane hj
    exact ⟨k, hk, e.trans e'⟩

/-- A lane that gathers has a thread, its guard passes, and its operands carry its number. -/
theorem State.gather_ok {s : State} {a : Act} {l : Nat} {pass : Bool} {acc : List Acc} {i : LaneIn}
    (h : s.gather a l pass acc = .ok i) : i.lane = l ∧ pass = true ∧ ∃ th, a.team.threads[l]? = some th := by
  unfold State.gather at h
  split at h
  · cases h
  · next th hth =>
    split at h
    · next hp =>
      obtain ⟨j, hj, e⟩ := gatherFold_lane acc h
      cases hj
      exact ⟨e, hp, th, hth⟩
    · cases h

/-! ### A word of one value operation -/

theorem Got.skip_of_not_input {g : Got} (h : g.isSkip = true ∨ g.input?.isSome = true) (hn : g.input? = none) : g = .skip := by
  cases g <;> simp_all [Got.isSkip, Got.input?]

theorem Got.ok_of_input {g : Got} {i : LaneIn} (h : g.input? = some i) : g = .ok i := by
  cases g <;> simp_all [Got.input?]

/-- A fold over lanes that does nothing at a lane that skips is a fold over the operands of the others. -/
theorem foldl_inputs {σ α : Type} (xs : List α) (got : α → Got) (f : σ → LaneIn → σ) (g : σ → α → σ)
    (hskip : ∀ x ∈ xs, got x = .skip → ∀ s, g s x = s) (hok : ∀ x ∈ xs, ∀ i, got x = .ok i → ∀ s, g s x = f s i)
    (hall : ∀ x ∈ xs, (got x).isSkip = true ∨ (got x).input?.isSome = true) (s : σ) :
    xs.foldl g s = ((xs.map got).filterMap Got.input?).foldl f s := by
  induction xs generalizing s with
  | nil => rfl
  | cons x t ih =>
    have ih' := ih (fun y hy => hskip y (by simp [hy])) (fun y hy => hok y (by simp [hy])) (fun y hy => hall y (by simp [hy]))
    simp only [List.foldl_cons, List.map_cons]
    cases hx : (got x).input? with
    | none =>
      have e := Got.skip_of_not_input (hall x (by simp)) hx
      rw [hskip x (by simp) e, List.filterMap_cons_none hx, ih']
    | some i =>
      have e := Got.ok_of_input hx
      rw [hok x (by simp) i e, List.filterMap_cons_some hx, List.foldl_cons, ih']

theorem leadOf_ready (ls : List LaneOps) (got : LaneOps → Got) (hg : ∀ l ∈ ls, l.got.getD 0 .skip = got l)
    (hl : ∀ l ∈ ls, ∀ i, got l = .ok i → i.lane = l.lane)
    (hall : ∀ l ∈ ls, (got l).isSkip = true ∨ (got l).input?.isSome = true) :
    leadOf ls 0 = leadLane ((ls.map got).filterMap Got.input?) := by
  induction ls with
  | nil => rfl
  | cons x t ih =>
    have ih' := ih (fun y hy => hg y (by simp [hy])) (fun y hy => hl y (by simp [hy])) (fun y hy => hall y (by simp [hy]))
    have hx := hg x (by simp)
    unfold leadOf at ih' ⊢
    simp only [List.map_cons, List.find?_cons, hx]
    cases h : (got x).input? with
    | none =>
      have e := Got.skip_of_not_input (hall x (by simp)) h
      rw [List.filterMap_cons_none h]; simpa [e] using ih'
    | some i =>
      have e := Got.ok_of_input h
      rw [List.filterMap_cons_some h]; simp [e, leadLane, hl x (by simp) i e]

/-- The environment in which a lane's value operation computes. -/
def laneEnv (s : State) (a : Act) (i : LaneIn) (th : Thread) : Env :=
  { s := s, team := a.team, lane := i.lane, th := th, ix := i.ix, vals := i.vals }

/-- A word of one value operation without effects where its guard fails: it performs for its group. -/
theorem issueValue_one {s : State} {a : Act} {dests : List Code} {m : Micro} {ins : List LaneIn} {eff : LaneIn → List Eff}
    (h : s.ready a a.grp.lanes m.guard m.acc ins)
    (he : ∀ i ∈ ins, ∀ th, a.team.threads[i.lane]? = some th → m.eff (laneEnv s a i th) = .ok (eff i))
    (hels : ∀ th, m.els th = []) : s.issueValue a dests [m] = s.performed a ins eff := by
  obtain ⟨hall, hins⟩ := h
  let gl (l : Nat) : Got := s.gather a l (a.passes m.guard l) m.acc
  have hls : s.gatherAll a [m] = (laneList a.grp.lanes).map fun l => { lane := l, got := [gl l] } := by
    simp only [State.gatherAll, List.map_cons, List.map_nil, gl]; rfl
  have hall' : ∀ l ∈ laneList a.grp.lanes, (gl l).isSkip = true ∨ (gl l).input?.isSome = true := fun l hl =>
    hall (gl l) (by simp only [State.gathered]; exact List.mem_map_of_mem hl)
  have hnf : ∀ l ∈ laneList a.grp.lanes, (gl l).fault? = none ∧ (gl l).waits = false := by
    intro l hl
    rcases hall' l hl with h | h <;> revert h <;> cases gl l <;> simp [Got.isSkip, Got.input?, Got.fault?, Got.waits]
  have hins' : ((laneList a.grp.lanes).map gl).filterMap Got.input? = ins := hins
  -- no lane waits or faults
  have hfine : ((laneList a.grp.lanes).map fun l => ({ lane := l, got := [gl l] } : LaneOps)).filter (fun l => l.fault?.isNone)
      = (laneList a.grp.lanes).map fun l => { lane := l, got := [gl l] } := by
    rw [List.filter_eq_self]
    intro x hx
    obtain ⟨l, hl, rfl⟩ := List.mem_map.1 hx
    simp [LaneOps.fault?, (hnf l hl).1]
  have hw : (((laneList a.grp.lanes).map fun l => ({ lane := l, got := [gl l] } : LaneOps)).any fun l => l.got.any Got.waits) = false := by
    rw [List.any_eq_false]
    intro x hx
    obtain ⟨l, hl, rfl⟩ := List.mem_map.1 hx
    simp [(hnf l hl).2]
  have hlane : ∀ l i, gl l = .ok i → i.lane = l ∧ ∃ th, a.team.threads[l]? = some th := fun l i hi =>
    ⟨(State.gather_ok hi).1, (State.gather_ok hi).2.2⟩
  have hmem : ∀ l ∈ laneList a.grp.lanes, ∀ i, gl l = .ok i → i ∈ ins := by
    intro l hl i hi
    rw [← hins']
    exact List.mem_filterMap.2 ⟨gl l, List.mem_map_of_mem hl, by rw [hi]; rfl⟩
  let el (l : Nat) : List Eff := match gl l with | .ok i => eff i | _ => []
  have heff : ∀ l ∈ laneList a.grp.lanes, s.effsOf a m l (gl l) = .ok (el l) := by
    intro l hl
    unfold State.effsOf
    cases hg : gl l with
    | ok i =>
      obtain ⟨e, th, hth⟩ := hlane l i hg
      have := he i (hmem l hl i hg) th (by rw [e]; exact hth)
      simp only [laneEnv, e] at this
      simp only [hth, this, el, hg]
    | skip => cases hth : a.team.threads[l]? <;> simp [el, hg, hels]
    | fault f => have := hnf l hl; simp [hg, Got.fault?] at this
    | wait b => have := hnf l hl; simp [hg, Got.waits] at this
  have hmap : ((laneList a.grp.lanes).map fun l => ({ lane := l, got := [gl l] } : LaneOps)).map
        (fun l => (l, ([m].zip l.got).map fun p => s.effsOf a p.1 l.lane p.2))
      = (laneList a.grp.lanes).map fun l => (({ lane := l, got := [gl l] } : LaneOps), [Except.ok (el l)]) := by
    rw [List.map_map]
    apply List.map_congr_left
    intro l hl
    simp [heff l hl]
  have hgo : ((laneList a.grp.lanes).map fun l => (({ lane := l, got := [gl l] } : LaneOps), [Except.ok (el l)])).filter
        (fun e => (effFault e.2).isNone)
      = (laneList a.grp.lanes).map fun l => (({ lane := l, got := [gl l] } : LaneOps), [Except.ok (el l)]) := by
    rw [List.filter_eq_self]
    intro x hx
    obtain ⟨l, hl, rfl⟩ := List.mem_map.1 hx
    simp [effFault]
  have hfl : ((laneList a.grp.lanes).map fun l => ({ lane := l, got := [gl l] } : LaneOps)).filterMap (fun l =>
      match l.fault? with
      | some f => some f
      | none => (((laneList a.grp.lanes).map fun l => (({ lane := l, got := [gl l] } : LaneOps), [(Except.ok (el l) : Except LaneFault (List Eff))])).find?
          fun e => decide (e.1.lane = l.lane)).bind fun e => effFault e.2) = [] := by
    rw [List.filterMap_eq_nil_iff]
    intro x hx
    obtain ⟨l, hl, rfl⟩ := List.mem_map.1 hx
    have : (({ lane := l, got := [gl l] } : LaneOps).fault?) = none := by simp [LaneOps.fault?, (hnf l hl).1]
    rw [this]
    cases hf : ((laneList a.grp.lanes).map fun l => (({ lane := l, got := [gl l] } : LaneOps), [(Except.ok (el l) : Except LaneFault (List Eff))])).find?
          (fun e => decide (e.1.lane = l)) with
    | none => rfl
    | some y =>
      obtain ⟨k, hk, rfl⟩ := List.mem_map.1 (List.mem_of_find?_eq_some hf)
      simp [effFault]
  have hlead : leadOf ((laneList a.grp.lanes).map fun l => ({ lane := l, got := [gl l] } : LaneOps)) 0 = leadLane ins := by
    rw [leadOf_ready _ (fun l => gl l.lane)]
    · rw [List.map_map]; exact congrArg leadLane hins'
    · intro x hx; obtain ⟨l, hl, rfl⟩ := List.mem_map.1 hx; rfl
    · intro x hx i hi; exact (hlane _ i hi).1
    · intro x hx; obtain ⟨l, hl, rfl⟩ := List.mem_map.1 hx; exact hall' l hl
  unfold State.issueValue
  simp only [hls, hfine, hw, Bool.false_eq_true, if_false, hmap, hgo]
  refine (congrArg (fun fs => (State.faultValue _ a dests fs).advance a) hfl).trans ?_
  have hrange : List.range [m].length = [0] := rfl
  simp only [State.faultValue, List.map_map, Function.comp_def, List.foldl_map, hrange, List.foldl_cons, List.foldl_nil]
  unfold State.performed State.commitAll State.effectAll
  congr 1
  have c1 : ∀ s : State, (laneList a.grp.lanes).foldl (fun s l => match gl l with | .ok i => s.commitLane a.key i | _ => s) s
      = ins.foldl (fun s i => s.commitLane a.key i) s := by
    intro s
    rw [← hins']
    refine foldl_inputs _ gl _ _ ?_ ?_ hall' s
    · intro x _ hx s; simp [hx]
    · intro x _ i hx s; simp [hx]
  refine Eq.trans (congrArg (fun z => List.foldl _ z _) (c1 s)) ?_
  refine Eq.trans (foldl_inputs _ gl (fun s i => (eff i).foldl (fun s x => s.applyEff a.key i.lane (decide (leadLane ins = some i.lane)) i.dst0 x) s) _ ?_ ?_ hall' _) ?_
  · intro x _ hx s; simp [hx, el]
  · intro x _ i hx s; simp [hx, el, (hlane x i hx).1, LaneIn.dst0, hlead]
  · rw [hins']

/-! ### A word of several value operations -/

theorem laneList_nodup (m : BitVec 64) : (laneList m).Nodup := List.nodup_range.filter _

theorem atLane_ready (xs : List Nat) (got : Nat → Got) (hn : xs.Nodup) (hl : ∀ l ∈ xs, ∀ i, got l = .ok i → i.lane = l)
    {l : Nat} (h : l ∈ xs) : atLane ((xs.map got).filterMap Got.input?) l = (got l).input? := by
  induction xs with
  | nil => simp at h
  | cons x t ih =>
    have hn' := List.nodup_cons.1 hn
    have ih' := fun h => ih hn'.2 (fun y hy => hl y (by simp [hy])) h
    simp only [List.map_cons]
    have hnone : l ∉ t → atLane ((t.map got).filterMap Got.input?) l = none := by
      intro hnt
      unfold atLane
      rw [List.find?_eq_none]
      intro i hi
      obtain ⟨g, hg, hgi⟩ := List.mem_filterMap.1 hi
      obtain ⟨y, hy, rfl⟩ := List.mem_map.1 hg
      have := hl y (by simp [hy]) i (Got.ok_of_input hgi)
      simp [this]; rintro rfl; exact hnt hy
    cases hx : (got x).input? with
    | none =>
      rw [List.filterMap_cons_none hx]
      rcases List.mem_cons.1 h with rfl | h
      · rw [hx]; exact hnone hn'.1
      · exact ih' h
    | some i =>
      rw [List.filterMap_cons_some hx]
      have hi := hl x (by simp) i (Got.ok_of_input hx)
      unfold atLane
      rw [List.find?_cons]
      rcases List.mem_cons.1 h with rfl | h
      · simp [hi, hx]
      · have : i.lane ≠ l := by rw [hi]; rintro rfl; exact hn'.1 h
        simp only [this, decide_false]; exact ih' h

theorem foldl_congr_mem {σ α : Type} (xs : List α) (f g : σ → α → σ) (h : ∀ x ∈ xs, ∀ s, f s x = g s x) (s : σ) :
    xs.foldl f s = xs.foldl g s := by
  induction xs generalizing s with
  | nil => rfl
  | cons x t ih => simp only [List.foldl_cons, h x (by simp)]; exact ih (fun y hy => h y (by simp [hy])) _

theorem foldl_range_getElem? {σ α : Type} (xs : List α) (f : σ → α → σ) (s : σ) :
    (List.range xs.length).foldl (fun s k => match xs[k]? with | some x => f s x | none => s) s = xs.foldl f s := by
  induction xs generalizing s with
  | nil => rfl
  | cons x t ih =>
    simp only [List.length_cons, List.range_succ_eq_map, List.foldl_cons, List.foldl_map]
    exact ih _

/-- A value operation with what its lanes have gathered and what they do. -/
structure MicroRun where
  m : Micro
  ins : List LaneIn
  eff : LaneIn → List Eff

def MicroRun.op (o : MicroRun) : Op := { ins := o.ins, eff := o.eff, els := o.m.els }

/-- A word of value operations performs for its group when every operation is ready and has an effect on each performing lane. -/
theorem issueValue_ops {s : State} {a : Act} {dests : List Code} (os : List MicroRun)
    (h : ∀ o ∈ os, s.ready a a.grp.lanes o.m.guard o.m.acc o.ins)
    (he : ∀ o ∈ os, ∀ i ∈ o.ins, ∀ th, a.team.threads[i.lane]? = some th → o.m.eff (laneEnv s a i th) = .ok (o.eff i)) :
    s.issueValue a dests (os.map (·.m)) = s.performedOps a (os.map MicroRun.op) := by
  let gl (o : MicroRun) (l : Nat) : Got := s.gather a l (a.passes o.m.guard l) o.m.acc
  have hls : s.gatherAll a (os.map (·.m)) = (laneList a.grp.lanes).map fun l => { lane := l, got := os.map fun o => gl o l } := by
    simp only [State.gatherAll, List.map_map, gl]; rfl
  have hall : ∀ o ∈ os, ∀ l ∈ laneList a.grp.lanes, (gl o l).isSkip = true ∨ (gl o l).input?.isSome = true := fun o ho l hl =>
    (h o ho).1 (gl o l) (by simp only [State.gathered]; exact List.mem_map_of_mem hl)
  have hnf : ∀ o ∈ os, ∀ l ∈ laneList a.grp.lanes, (gl o l).fault? = none ∧ (gl o l).waits = false := by
    intro o ho l hl
    rcases hall o ho l hl with h | h <;> revert h <;> cases gl o l <;> simp [Got.isSkip, Got.input?, Got.fault?, Got.waits]
  have hins : ∀ o ∈ os, ((laneList a.grp.lanes).map (gl o)).filterMap Got.input? = o.ins := fun o ho => (h o ho).2
  have hlane : ∀ o l i, gl o l = .ok i → i.lane = l ∧ ∃ th, a.team.threads[l]? = some th := fun o l i hi =>
    ⟨(State.gather_ok hi).1, (State.gather_ok hi).2.2⟩
  have hat : ∀ o ∈ os, ∀ l ∈ laneList a.grp.lanes, atLane o.ins l = (gl o l).input? := by
    intro o ho l hl
    rw [← hins o ho]
    exact atLane_ready _ (gl o) (laneList_nodup _) (fun l _ i hi => (hlane o l i hi).1) hl
  let el (o : MicroRun) (l : Nat) : List Eff :=
    match gl o l with
    | .ok i => o.eff i
    | _ => match a.team.threads[l]? with | some th => o.m.els th | none => []
  have heff : ∀ o ∈ os, ∀ l ∈ laneList a.grp.lanes, s.effsOf a o.m l (gl o l) = .ok (el o l) := by
    intro o ho l hl
    unfold State.effsOf
    cases hg : gl o l with
    | ok i =>
      obtain ⟨e, th, hth⟩ := hlane o l i hg
      have hi : i ∈ o.ins := by
        rw [← hins o ho]
        exact List.mem_filterMap.2 ⟨gl o l, List.mem_map_of_mem hl, by rw [hg]; rfl⟩
      have := he o ho i hi th (by rw [e]; exact hth)
      simp only [laneEnv, e] at this
      simp only [hth, this, el, hg]
    | skip => cases hth : a.team.threads[l]? <;> simp [el, hg, hth]
    | fault f => have := hnf o ho l hl; simp [hg, Got.fault?] at this
    | wait b => have := hnf o ho l hl; simp [hg, Got.waits] at this
  have hfn : ∀ l ∈ laneList a.grp.lanes, (({ lane := l, got := os.map fun o => gl o l } : LaneOps).fault?) = none := by
    intro l hl
    unfold LaneOps.fault?
    rw [List.findSome?_eq_none_iff]
    intro x hx
    obtain ⟨o, ho, e⟩ := List.mem_map.1 (List.fst_mem_of_mem_zipIdx hx)
    rw [← e, (hnf o ho l hl).1]; rfl
  have hfine : ((laneList a.grp.lanes).map fun l => ({ lane := l, got := os.map fun o => gl o l } : LaneOps)).filter (fun l => l.fault?.isNone)
      = (laneList a.grp.lanes).map fun l => { lane := l, got := os.map fun o => gl o l } := by
    rw [List.filter_eq_self]
    intro x hx
    obtain ⟨l, hl, rfl⟩ := List.mem_map.1 hx
    simp [hfn l hl]
  have hw : (((laneList a.grp.lanes).map fun l => ({ lane := l, got := os.map fun o => gl o l } : LaneOps)).any fun l => l.got.any Got.waits) = false := by
    rw [List.any_eq_false]
    intro x hx
    obtain ⟨l, hl, rfl⟩ := List.mem_map.1 hx
    simp only [List.any_map, Bool.not_eq_true, List.any_eq_false]
    intro o ho
    simp [(hnf o ho l hl).2]
  have hmap : ((laneList a.grp.lanes).map fun l => ({ lane := l, got := os.map fun o => gl o l } : LaneOps)).map
        (fun l => (l, ((os.map (·.m)).zip l.got).map fun p => s.effsOf a p.1 l.lane p.2))
      = (laneList a.grp.lanes).map fun l => (({ lane := l, got := os.map fun o => gl o l } : LaneOps), os.map fun o => Except.ok (el o l)) := by
    rw [List.map_map]
    apply List.map_congr_left
    intro l hl
    simp only [Function.comp_def, List.zip_map', List.map_map]
    congr 1
    apply List.map_congr_left
    intro o ho
    exact heff o ho l hl
  have hef : ∀ l, effFault (os.map fun o => (Except.ok (el o l) : Except LaneFault (List Eff))) = none := by
    intro l
    unfold effFault
    rw [List.findSome?_eq_none_iff]
    intro x hx
    obtain ⟨o, ho, e⟩ := List.mem_map.1 (List.fst_mem_of_mem_zipIdx hx)
    rw [← e]
  have hgo : ((laneList a.grp.lanes).map fun l => (({ lane := l, got := os.map fun o => gl o l } : LaneOps), os.map fun o => (Except.ok (el o l) : Except LaneFault (List Eff)))).filter
        (fun e => (effFault e.2).isNone)
      = (laneList a.grp.lanes).map fun l => (({ lane := l, got := os.map fun o => gl o l } : LaneOps), os.map fun o => Except.ok (el o l)) := by
    rw [List.filter_eq_self]
    intro x hx
    obtain ⟨l, hl, rfl⟩ := List.mem_map.1 hx
    simp [hef]
  have hfl : ((laneList a.grp.lanes).map fun l => ({ lane := l, got := os.map fun o => gl o l } : LaneOps)).filterMap (fun l =>
      match l.fault? with
      | some f => some f
      | none => (((laneList a.grp.lanes).map fun l => (({ lane := l, got := os.map fun o => gl o l } : LaneOps), os.map fun o => (Except.ok (el o l) : Except LaneFault (List Eff)))).find?
          fun e => decide (e.1.lane = l.lane)).bind fun e => effFault e.2) = [] := by
    rw [List.filterMap_eq_nil_iff]
    intro x hx
    obtain ⟨l, hl, rfl⟩ := List.mem_map.1 hx
    rw [hfn l hl]
    cases hf : ((laneList a.grp.lanes).map fun l => (({ lane := l, got := os.map fun o => gl o l } : LaneOps), os.map fun o => (Except.ok (el o l) : Except LaneFault (List Eff)))).find?
          (fun e => decide (e.1.lane = l)) with
    | none => rfl
    | some y =>
      obtain ⟨k, hk, rfl⟩ := List.mem_map.1 (List.mem_of_find?_eq_some hf)
      exact hef k
  have hlead : ∀ k o, os[k]? = some o →
      leadOf ((laneList a.grp.lanes).map fun l => ({ lane := l, got := os.map fun o => gl o l } : LaneOps)) k = leadLane o.ins := by
    intro k o hk
    have ho : o ∈ os := List.mem_of_getElem? hk
    have e : leadOf ((laneList a.grp.lanes).map fun l => ({ lane := l, got := os.map fun o => gl o l } : LaneOps)) k
        = leadOf ((laneList a.grp.lanes).map fun l => ({ lane := l, got := [gl o l] } : LaneOps)) 0 := by
      simp only [leadOf, List.find?_map, Option.map_map, Function.comp_def]
      simp [List.getD_eq_getElem?_getD, hk]
    rw [e, leadOf_ready _ (fun l => gl o l.lane)]
    · rw [List.map_map]; exact congrArg leadLane (hins o ho)
    · intro x hx; obtain ⟨l, hl, rfl⟩ := List.mem_map.1 hx; rfl
    · intro x hx i hi; exact (hlane _ _ i hi).1
    · intro x hx; obtain ⟨l, hl, rfl⟩ := List.mem_map.1 hx; exact hall o ho l hl
  unfold State.issueValue
  simp only [hls, hfine, hw, Bool.false_eq_true, if_false, hmap, hgo]
  refine (congrArg (fun fs => (State.faultValue _ a dests fs).advance a) hfl).trans ?_
  simp only [State.faultValue, List.map_map, Function.comp_def, List.foldl_map]
  unfold State.performedOps
  simp only []
  congr 1
  have c1 : ∀ s : State, (laneList a.grp.lanes).foldl (fun s l => os.foldl (fun s o => match gl o l with | .ok i => s.commitLane a.key i | _ => s) s) s
      = (laneList a.grp.lanes).foldl (fun s l => (os.map MicroRun.op).foldl (fun s o => s.opCommit a l o) s) s := by
    intro s
    apply foldl_congr_mem
    intro l hl s
    rw [List.foldl_map]
    apply foldl_congr_mem
    intro o ho s
    simp only [State.opCommit, MicroRun.op, hat o ho l hl]
    cases gl o l <;> rfl
  refine Eq.trans (congrArg (fun z => List.foldl _ z _) (c1 s)) ?_
  apply foldl_congr_mem
  intro l hl s
  rw [List.length_map]
  refine Eq.trans ?_ (Eq.trans (foldl_range_getElem? os (fun s o => s.opEffect a l o.op) s) (List.foldl_map ..).symm)
  apply foldl_congr_mem
  intro k hk s
  have hk' : k < os.length := by simpa using hk
  obtain ⟨o, ho⟩ : ∃ o, os[k]? = some o := ⟨os[k], by simp [hk']⟩
  have hom : o ∈ os := List.mem_of_getElem? ho
  simp only [List.getD_eq_getElem?_getD, List.getElem?_map, ho, Option.map_some, Option.getD_some, hlead k o ho,
    State.opEffect, MicroRun.op, hat o hom l hl]
  cases hg : gl o l with
  | ok i => simp [el, hg, Got.input?, LaneIn.dst0]; rfl
  | skip =>
    have hnl : leadLane o.ins ≠ some l := by
      intro hc
      unfold leadLane at hc
      cases hh : o.ins with
      | nil => simp [hh] at hc
      | cons j t =>
        simp [hh] at hc
        have hfind : atLane o.ins l = some j := by simp [atLane, hh, hc]
        rw [hat o hom l hl, hg] at hfind
        simp [Got.input?] at hfind
    cases hth : a.team.threads[l]? <;> simp [el, hg, hth, Got.input?, hnl]
  | fault f => have := hnf o hom l hl; simp [hg, Got.fault?] at this
  | wait b _ => have := hnf o hom l hl; simp [hg, Got.waits] at this

/-! ### Instructions that perform lane by lane -/

theorem gatherOp_eq (s : State) (a : Act) (guard : Thread → Bool) (acc : List Acc) :
    s.gatherOp a guard acc
      = (laneList a.left).map fun l => { lane := l, got := [s.gather a l (a.passes guard l) acc] } := by
  unfold State.gatherOp Act.left Act.passes
  rfl

/-- Before any lane has faulted, the lowest lane that issues leads. -/
theorem LaneRun.lead_fine (r : LaneRun) (issued : List Nat) (h : r.faults = [] := by rfl) : r.lead issued = issued.head? := by
  unfold LaneRun.lead
  rw [h]
  cases issued <;> simp

/-- The lead lane of the statements is the lowest lane that issues (R133). -/
theorem Act.lead_eq (a : Act) (gs : Bool) (gp : BitVec 3) : a.lead gs gp = (a.issued fun th => th.guard gs gp).head? := by
  unfold Act.lead Act.issued Act.done Act.passes
  rw [List.head?_filter] <;> rfl

/-- A chain of lanes as a fold over what every lane has gathered. -/
theorem foldl_lane_done {inOrder : Bool} {issued : List Nat} {body : LaneIn → Bool → State → LaneRes}
    {R : LaneIn → Bool → State → State → Prop} (hb : ∀ i b s t, R i b s t → body i b s = .done t) (got : Nat → Got) (xs : List Nat)
    (hl : ∀ l ∈ xs, ∀ i, got l = .ok i → i.lane = l)
    (hall : ∀ l ∈ xs, (got l).isSkip = true ∨ (got l).input?.isSome = true) {s t : State} {done : BitVec 64}
    (hc : LaneChain R issued.head? ((xs.map got).filterMap Got.input?) s t) :
    ∃ d, (xs.map fun l => ({ lane := l, got := [got l] } : LaneOps)).foldl (fun r l => LaneRun.lane r inOrder issued body l)
      { s := s, faults := [], late := [], waits := [], done := done } = { s := t, faults := [], late := [], waits := [], done := d } := by
  induction xs generalizing s done with
  | nil => cases hc; exact ⟨done, rfl⟩
  | cons x xs ih =>
    have ih' := fun {s d} h => ih (s := s) (done := d) (fun y hy => hl y (by simp [hy])) (fun y hy => hall y (by simp [hy])) h
    simp only [List.map_cons, List.foldl_cons] at hc ⊢
    cases hx : (got x).input? with
    | none =>
      have e := Got.skip_of_not_input (hall x (by simp)) hx
      rw [List.filterMap_cons_none hx] at hc
      have : LaneRun.lane { s := s, faults := [], late := [], waits := [], done := done } inOrder issued body
          ({ lane := x, got := [got x] } : LaneOps) = { s := s, faults := [], late := [], waits := [], done := done ||| BitVec.twoPow 64 x } := by
        simp [LaneRun.lane, e]
      rw [this]
      exact ih' hc
    | some i =>
      have e := Got.ok_of_input hx
      rw [List.filterMap_cons_some hx] at hc
      cases hc with
      | @cons _ _ _ u _ h tl =>
        have hb' := hb _ _ _ _ h
        have hi := hl x (by simp) i e
        have : LaneRun.lane { s := s, faults := [], late := [], waits := [], done := done } inOrder issued body
            ({ lane := x, got := [got x] } : LaneOps) = { s := u, faults := [], late := [], waits := [], done := done ||| BitVec.twoPow 64 x } := by
          rw [hi] at hb'
          simp only [LaneRun.lane, LaneRun.lead_fine, e, List.getD_cons_zero, List.isEmpty_nil, Bool.not_true, Bool.and_false,
            Bool.false_eq_true, if_false]
          rw [hb']
        rw [this]
        exact ih' tl

/-- An instruction that performs lane by lane, when no lane waits or faults: the group moves past it. `ops` changes faults alone. -/
theorem issueLanes_done {s t : State} {a : Act} {dest : Code} {guard : Thread → Bool} {acc : List Acc} {inOrder : Bool}
    {body : LaneIn → Bool → State → LaneRes} {ops : LaneOps → LaneOps} {ins : List LaneIn} (R : LaneIn → Bool → State → State → Prop)
    (h : s.ready a a.left guard acc ins) (hc : LaneChain R (a.issued guard).head? ins s t)
    (hb : ∀ i b s t, R i b s t → body i b s = .done t)
    (ho : ∀ l : LaneOps, l.got.findSome? Got.fault? = none → ops l = l) :
    s.issueLanes a dest guard acc inOrder body ops = t.advance a := by
  obtain ⟨hall, hins⟩ := h
  let gl (l : Nat) : Got := s.gather a l (a.passes guard l) acc
  have hls : s.gatherOp a guard acc = (laneList a.left).map fun l => { lane := l, got := [gl l] } := gatherOp_eq s a guard acc
  have hall' : ∀ l ∈ laneList a.left, (gl l).isSkip = true ∨ (gl l).input?.isSome = true := fun l hl =>
    hall (gl l) (by simp only [State.gathered]; exact List.mem_map_of_mem hl)
  have hnf : ∀ l ∈ laneList a.left, (gl l).fault? = none ∧ (gl l).waits = false := by
    intro l hl
    rcases hall' l hl with h | h <;> revert h <;> cases gl l <;> simp [Got.isSkip, Got.input?, Got.fault?, Got.waits]
  have hins' : ((laneList a.left).map gl).filterMap Got.input? = ins := hins
  have hlane : ∀ l i, gl l = .ok i → i.lane = l := fun l i hi => (State.gather_ok hi).1
  have hops : ((laneList a.left).map fun l => ({ lane := l, got := [gl l] } : LaneOps)).map ops
      = (laneList a.left).map fun l => { lane := l, got := [gl l] } := by
    rw [List.map_map]
    exact List.map_congr_left fun l hl => ho _ (by simp [(hnf l hl).1])
  have hfine : ((laneList a.left).map fun l => ({ lane := l, got := [gl l] } : LaneOps)).filter (fun l => (l.got.findSome? Got.fault?).isNone)
      = (laneList a.left).map fun l => { lane := l, got := [gl l] } := by
    rw [List.filter_eq_self]
    intro x hx
    obtain ⟨l, hl, rfl⟩ := List.mem_map.1 hx
    simp [(hnf l hl).1]
  have hw : (((laneList a.left).map fun l => ({ lane := l, got := [gl l] } : LaneOps)).any fun l => l.got.any Got.waits) = false := by
    rw [List.any_eq_false]
    intro x hx
    obtain ⟨l, hl, rfl⟩ := List.mem_map.1 hx
    simp [(hnf l hl).2]
  unfold State.issueLanes
  simp only [hls, hops, hfine, hw, Bool.false_eq_true, if_false]
  rw [← hins'] at hc
  have hd := fun d0 : BitVec 64 => foldl_lane_done (inOrder := inOrder) (issued := a.issued guard) hb gl (laneList a.left)
    (fun l _ => hlane l) hall' (done := d0) hc
  rw [(hd _).choose_spec]
  rfl

/-! ### Collective instructions -/

theorem foldl_check_none {check : LaneIn → State → State × Option LaneFault × Word64} {lead : Option Nat}
    {R : LaneIn → Bool → State → State → Prop} (hb : ∀ i b s t, R i b s t → ∃ ad, check i s = (t, none, ad))
    (ins : List LaneIn) {s t : State} (hc : LaneChain R lead ins s t) (ad : List (Nat × Word64)) :
    ∃ ad', ins.foldl (fun (st : State × List LaneFault × List (Nat × Word64)) i =>
        match check i st.1 with
        | (s, some f, ad) => (s, st.2.1 ++ [f], st.2.2 ++ [(i.lane, ad)])
        | (s, none, ad) => (s, st.2.1, st.2.2 ++ [(i.lane, ad)])) (s, [], ad) = (t, [], ad') := by
  induction ins generalizing s ad with
  | nil => cases hc; exact ⟨ad, rfl⟩
  | cons i is ih =>
    cases hc with
    | @cons _ _ _ u _ h tl =>
      obtain ⟨x, hx⟩ := hb _ _ _ _ h
      simp only [List.foldl_cons, hx]
      exact ih tl _

theorem foldl_body {body : LaneIn → Bool → State → State} {lead : Option Nat}
    {R : LaneIn → Bool → State → State → Prop} (hb : ∀ i b s t, R i b s t → body i b s = t)
    (ins : List LaneIn) {s t : State} (hc : LaneChain R lead ins s t) :
    ins.foldl (fun s i => body i (decide (lead = some i.lane)) s) s = t := by
  induction ins generalizing s with
  | nil => cases hc; rfl
  | cons i is ih =>
    cases hc with
    | @cons _ _ _ u _ h tl =>
      simp only [List.foldl_cons, hb _ _ _ _ h]
      exact ih tl

/-- A collective instruction, when no lane waits or faults: every lane is checked, then every lane performs, and the group moves
past it. -/
theorem issueAll_done {s u t : State} {a : Act} {dest : Code} {guard : Thread → Bool} {acc : List Acc}
    {held : LaneIn → Bool} {check : LaneIn → State → State × Option LaneFault × Word64} {body : LaneIn → Bool → State → State}
    {ins : List LaneIn} (C R : LaneIn → Bool → State → State → Prop) (h : s.ready a a.left guard acc ins)
    (hh : ∀ i ∈ ins, held i = false) (hc : LaneChain C (a.issued guard).head? ins s u)
    (hr : LaneChain R (a.issued guard).head? ins u t) (hcc : ∀ i b s t, C i b s t → ∃ ad, check i s = (t, none, ad))
    (hrr : ∀ i b s t, R i b s t → body i b s = t) : s.issueAll a dest guard acc held check body = t.advance a := by
  obtain ⟨hall, hins⟩ := h
  let gl (l : Nat) : Got := s.gather a l (a.passes guard l) acc
  have hls : s.gatherOp a guard acc = (laneList a.left).map fun l => { lane := l, got := [gl l] } := gatherOp_eq s a guard acc
  have hall' : ∀ l ∈ laneList a.left, (gl l).isSkip = true ∨ (gl l).input?.isSome = true := fun l hl =>
    hall (gl l) (by simp only [State.gathered]; exact List.mem_map_of_mem hl)
  have hnf : ∀ l ∈ laneList a.left, (gl l).fault? = none ∧ (gl l).waits = false := by
    intro l hl
    rcases hall' l hl with h | h <;> revert h <;> cases gl l <;> simp [Got.isSkip, Got.input?, Got.fault?, Got.waits]
  have hins' : ((laneList a.left).map gl).filterMap Got.input? = ins := hins
  have hlane : ∀ l i, gl l = .ok i → i.lane = l := fun l i hi => (State.gather_ok hi).1
  have hw : (((laneList a.left).map fun l => ({ lane := l, got := [gl l] } : LaneOps)).any fun l =>
      match l.got.getD 0 .skip with | .ok i => held i | g => g.waits) = false := by
    rw [List.any_eq_false]
    intro x hx
    obtain ⟨l, hl, rfl⟩ := List.mem_map.1 hx
    have hw := (hnf l hl).2
    have hin : ∀ i, gl l = .ok i → i ∈ ins := fun i e => by
      rw [← hins']
      exact List.mem_filterMap.2 ⟨gl l, List.mem_map_of_mem hl, by simp [e, Got.input?]⟩
    have hg : (({ lane := l, got := [gl l] } : LaneOps).got.getD 0 .skip) = gl l := rfl
    rw [hg]
    cases e : gl l with
    | ok i => simp [hh i (hin i e)]
    | skip => simp [Got.waits]
    | wait n i => simp [e, Got.waits] at hw
    | fault f => simp [Got.waits]
  have hfold : ∀ {σ : Type} (f : σ → LaneIn → σ) (g : σ → LaneOps → σ)
      (_ : ∀ l, gl l = .skip → ∀ s, g s { lane := l, got := [gl l] } = s)
      (_ : ∀ l i, gl l = .ok i → i.lane = l → ∀ s, g s { lane := l, got := [gl l] } = f s i) (s : σ),
      ((laneList a.left).map fun l => ({ lane := l, got := [gl l] } : LaneOps)).foldl g s = ins.foldl f s := by
    intro σ f g h1 h2 s
    rw [List.foldl_map, ← hins']
    exact foldl_inputs _ gl f _ (fun l _ h s => h1 l h s) (fun l _ i h s => h2 l i h (hlane l i h) s) hall' s
  obtain ⟨ad, hchk⟩ := foldl_check_none hcc ins hc []
  unfold State.issueAll
  simp only [hls]
  rw [hfold (fun (st : State × List LaneFault × List (Nat × Word64)) i =>
        match check i st.1 with
        | (s, some f, ad) => (s, st.2.1 ++ [f], st.2.2 ++ [(i.lane, ad)])
        | (s, none, ad) => (s, st.2.1, st.2.2 ++ [(i.lane, ad)])) _
      (by intro l h s; simp [h])
      (by intro l i h e s; simp only [h, List.getD_cons_zero, e] <;> (split <;> simp_all))
      (s, [], []), hchk]
  simp only []
  rw [hfold (fun s i => body i (decide ((a.issued guard).head? = some i.lane)) s) _
      (by intro l h s; simp [h])
      (by intro l i h e s; simp [h, e])]
  rw [foldl_body hrr ins hr]
  refine if_neg fun h => ?_
  rw [Bool.and_eq_true] at h
  exact Bool.noConfusion (hw.symm.trans h.2)

/-! ### The word classes -/

theorem State.asGroup_some {s : State} {a : Act} (h : s.act = some a) (f : Act → State) : s.asGroup f = .next (f a) := by
  simp [State.asGroup, h]

theorem f3Value_ready {s : State} {a : Act} {op : Nat} {w : F3} {ins : List LaneIn} (h : s.readyF3 a op w ins)
    (f : List (List Word32) → List Word32) :
    s.f3Value op w f = .next (s.performed a ins fun i => [.write (f i.vals)]) := by
  unfold State.f3Value
  rw [State.asGroup_some h.1, issueValue_one (eff := fun i => [.write (f i.vals)]) h.2.2 (fun i _ th _ => rfl) (fun _ => rfl)]

theorem f3Long_ready {s : State} {a : Act} {op : Nat} {w : F3} {ins : List LaneIn} (h : s.readyF3 a op w ins)
    (f : List (List Word32) → List Word32) :
    s.f3Long op w f = .next (s.performed a ins fun i => [.long (f i.vals)]) := by
  unfold State.f3Long
  rw [State.asGroup_some h.1, issueValue_one (eff := fun i => [.long (f i.vals)]) h.2.2 (fun i _ th _ => rfl) (fun _ => rfl)]

theorem f3Effect_ready {s : State} {a : Act} {op : Nat} {w : F3} {ins : List LaneIn} (h : s.readyF3 a op w ins)
    {eff : Env → Except (Cause × Word32 × Word64) (List Eff)} (e : LaneIn → List Eff)
    (he : ∀ i ∈ ins, ∀ th, a.team.threads[i.lane]? = some th → eff (laneEnv s a i th) = .ok (e i)) :
    s.f3Effect op w eff = .next (s.performed a ins e) := by
  unfold State.f3Effect
  rw [State.asGroup_some h.1, issueValue_one h.2.2 he (fun _ => rfl)]

theorem xEffect_ready {s : State} {a : Act} {op : Nat} {w : XW} {ins : List LaneIn} (h : s.readyX a op w ins)
    {eff : Env → Except (Cause × Word32 × Word64) (List Eff)} (e : LaneIn → List Eff)
    (he : ∀ i ∈ ins, ∀ th, a.team.threads[i.lane]? = some th → eff (laneEnv s a i th) = .ok (e i)) :
    s.xEffect op w eff = .next (s.performed a ins e) := by
  unfold State.xEffect
  rw [State.asGroup_some h.1, issueValue_one h.2.2 he (fun _ => rfl)]

/-- A performing lane has a thread. -/
theorem State.ready_thread {s : State} {a : Act} {m : BitVec 64} {guard : Thread → Bool} {acc : List Acc} {ins : List LaneIn}
    (h : s.ready a m guard acc ins) {i : LaneIn} (hi : i ∈ ins) :
    ∃ th, a.team.threads[i.lane]? = some th ∧ guard th = true ∧ s.gather a i.lane true acc = .ok i ∧ i.lane ∈ laneList m := by
  rw [← h.2] at hi
  obtain ⟨g, hg, hgi⟩ := List.mem_filterMap.1 hi
  obtain ⟨l, hl, rfl⟩ := List.mem_map.1 hg
  have e := Got.ok_of_input hgi
  obtain ⟨rfl, hp, th, hth⟩ := State.gather_ok e
  refine ⟨th, hth, ?_, ?_, hl⟩
  · simpa [Act.passes, hth] using hp
  · rwa [hp] at e

end Sys2Proof.Machine
end

