-- ==== Sys2Proof/Laws/PerInstr.lean ====
section
/-! SUPPORT. Per-instruction facts about the syntax: the opcode of each instruction fits its field of the word. -/

namespace Sys2Proof.Laws.OpcodeFits

/-- The opcode of an instruction fits its field: 10 bits in F3, 6 bits in X, P2 and the copy commands, 4 bits in a trailer
(R18, R25, R27, R31, R41). -/
def Statement (i : Instr) : Prop :=
  match i.form with
  | .f3 op _ => op < 1024
  | .x op _ => op < 64
  | .p2 op _ => op.code < 64
  | .t kind _ => kind < 16
  | .cmd code _ => code < 64
  | .event => True

theorem iadd (w : F3) : Statement (.iadd w) := of_decide_eq_true (p := 0x000 < 1024) rfl
theorem isub (w : F3) : Statement (.isub w) := of_decide_eq_true (p := 0x001 < 1024) rfl
theorem imul (w : F3) : Statement (.imul w) := of_decide_eq_true (p := 0x002 < 1024) rfl
theorem imad (w : F3) : Statement (.imad w) := of_decide_eq_true (p := 0x003 < 1024) rfl
theorem imulh (w : F3) : Statement (.imulh w) := of_decide_eq_true (p := 0x004 < 1024) rfl
theorem imin (w : F3) : Statement (.imin w) := of_decide_eq_true (p := 0x005 < 1024) rfl
theorem imax (w : F3) : Statement (.imax w) := of_decide_eq_true (p := 0x006 < 1024) rfl
theorem iabs (w : F3) : Statement (.iabs w) := of_decide_eq_true (p := 0x007 < 1024) rfl
theorem and (w : F3) : Statement (.and w) := of_decide_eq_true (p := 0x008 < 1024) rfl
theorem or (w : F3) : Statement (.or w) := of_decide_eq_true (p := 0x009 < 1024) rfl
theorem xor (w : F3) : Statement (.xor w) := of_decide_eq_true (p := 0x00a < 1024) rfl
theorem andn (w : F3) : Statement (.andn w) := of_decide_eq_true (p := 0x00b < 1024) rfl
theorem shl (w : F3) : Statement (.shl w) := of_decide_eq_true (p := 0x00c < 1024) rfl
theorem shr (w : F3) : Statement (.shr w) := of_decide_eq_true (p := 0x00d < 1024) rfl
theorem sar (w : F3) : Statement (.sar w) := of_decide_eq_true (p := 0x00e < 1024) rfl
theorem rot (w : F3) : Statement (.rot w) := of_decide_eq_true (p := 0x00f < 1024) rfl
theorem popc (w : F3) : Statement (.popc w) := of_decide_eq_true (p := 0x010 < 1024) rfl
theorem clz (w : F3) : Statement (.clz w) := of_decide_eq_true (p := 0x011 < 1024) rfl
theorem brev (w : F3) : Statement (.brev w) := of_decide_eq_true (p := 0x012 < 1024) rfl
theorem bfe (w : F3) : Statement (.bfe w) := of_decide_eq_true (p := 0x013 < 1024) rfl
theorem bfi (w : F3) : Statement (.bfi w) := of_decide_eq_true (p := 0x014 < 1024) rfl
theorem sel (w : F3) : Statement (.sel w) := of_decide_eq_true (p := 0x015 < 1024) rfl
theorem mov (w : F3) : Statement (.mov w) := of_decide_eq_true (p := 0x016 < 1024) rfl
theorem iadd3 (w : F3) : Statement (.iadd3 w) := of_decide_eq_true (p := 0x017 < 1024) rfl
theorem lea (w : F3) : Statement (.lea w) := of_decide_eq_true (p := 0x018 < 1024) rfl
theorem idiv (w : F3) : Statement (.idiv w) := of_decide_eq_true (p := 0x019 < 1024) rfl
theorem irem (w : F3) : Statement (.irem w) := of_decide_eq_true (p := 0x01a < 1024) rfl
theorem icmp (w : F3) : Statement (.icmp w) := of_decide_eq_true (p := 0x040 < 1024) rfl
theorem ucmp (w : F3) : Statement (.ucmp w) := of_decide_eq_true (p := 0x041 < 1024) rfl
theorem fcmp (w : F3) : Statement (.fcmp w) := of_decide_eq_true (p := 0x042 < 1024) rfl
theorem plop (w : F3) : Statement (.plop w) := of_decide_eq_true (p := 0x043 < 1024) rfl
theorem pmovGet (w : F3) : Statement (.pmovGet w) := of_decide_eq_true (p := 0x044 < 1024) rfl
theorem pmovSet (w : F3) : Statement (.pmovSet w) := of_decide_eq_true (p := 0x044 < 1024) rfl
theorem fadd (w : F3) : Statement (.fadd w) := of_decide_eq_true (p := 0x080 < 1024) rfl
theorem fsub (w : F3) : Statement (.fsub w) := of_decide_eq_true (p := 0x081 < 1024) rfl
theorem fmul (w : F3) : Statement (.fmul w) := of_decide_eq_true (p := 0x082 < 1024) rfl
theorem ffma (w : F3) : Statement (.ffma w) := of_decide_eq_true (p := 0x083 < 1024) rfl
theorem fmin (w : F3) : Statement (.fmin w) := of_decide_eq_true (p := 0x084 < 1024) rfl
theorem fmax (w : F3) : Statement (.fmax w) := of_decide_eq_true (p := 0x085 < 1024) rfl
theorem frcp (w : F3) : Statement (.frcp w) := of_decide_eq_true (p := 0x086 < 1024) rfl
theorem frsq (w : F3) : Statement (.frsq w) := of_decide_eq_true (p := 0x087 < 1024) rfl
theorem fsqrt (w : F3) : Statement (.fsqrt w) := of_decide_eq_true (p := 0x088 < 1024) rfl
theorem fex2 (w : F3) : Statement (.fex2 w) := of_decide_eq_true (p := 0x089 < 1024) rfl
theorem flg2 (w : F3) : Statement (.flg2 w) := of_decide_eq_true (p := 0x08a < 1024) rfl
theorem fsin (w : F3) : Statement (.fsin w) := of_decide_eq_true (p := 0x08b < 1024) rfl
theorem fcos (w : F3) : Statement (.fcos w) := of_decide_eq_true (p := 0x08c < 1024) rfl
theorem frnd (w : F3) : Statement (.frnd w) := of_decide_eq_true (p := 0x08d < 1024) rfl
theorem fdiv (w : F3) : Statement (.fdiv w) := of_decide_eq_true (p := 0x08e < 1024) rfl
theorem fcls (w : F3) : Statement (.fcls w) := of_decide_eq_true (p := 0x08f < 1024) rfl
theorem cvt (w : F3) : Statement (.cvt w) := of_decide_eq_true (p := 0x0c0 < 1024) rfl
theorem pack (w : F3) : Statement (.pack w) := of_decide_eq_true (p := 0x0c1 < 1024) rfl
theorem unpk (w : F3) : Statement (.unpk w) := of_decide_eq_true (p := 0x0c2 < 1024) rfl
theorem dp4i (w : F3) : Statement (.dp4i w) := of_decide_eq_true (p := 0x0c3 < 1024) rfl
theorem dp8i (w : F3) : Statement (.dp8i w) := of_decide_eq_true (p := 0x0c4 < 1024) rfl
theorem dp4f (w : F3) : Statement (.dp4f w) := of_decide_eq_true (p := 0x0c5 < 1024) rfl
theorem dp8f (w : F3) : Statement (.dp8f w) := of_decide_eq_true (p := 0x0c6 < 1024) rfl
theorem dp2b (w : F3) : Statement (.dp2b w) := of_decide_eq_true (p := 0x0c7 < 1024) rfl
theorem pscl (w : F3) : Statement (.pscl w) := of_decide_eq_true (p := 0x0c8 < 1024) rfl
theorem prmt (w : F3) : Statement (.prmt w) := of_decide_eq_true (p := 0x0c9 < 1024) rfl
theorem dfrom (w : F3) : Statement (.dfrom w) := of_decide_eq_true (p := 0x100 < 1024) rfl
theorem dto (w : F3) : Statement (.dto w) := of_decide_eq_true (p := 0x101 < 1024) rfl
theorem dadd (w : F3) : Statement (.dadd w) := of_decide_eq_true (p := 0x102 < 1024) rfl
theorem dsub (w : F3) : Statement (.dsub w) := of_decide_eq_true (p := 0x103 < 1024) rfl
theorem dmix (w : F3) : Statement (.dmix w) := of_decide_eq_true (p := 0x104 < 1024) rfl
theorem dcos (w : F3) : Statement (.dcos w) := of_decide_eq_true (p := 0x105 < 1024) rfl
theorem ddot (w : F3) : Statement (.ddot w) := of_decide_eq_true (p := 0x106 < 1024) rfl
theorem dscl (w : F3) : Statement (.dscl w) := of_decide_eq_true (p := 0x107 < 1024) rfl
theorem dnrm (w : F3) : Statement (.dnrm w) := of_decide_eq_true (p := 0x108 < 1024) rfl
theorem dsetn (w : F3) : Statement (.dsetn w) := of_decide_eq_true (p := 0x109 < 1024) rfl
theorem dproj (w : F3) : Statement (.dproj w) := of_decide_eq_true (p := 0x10a < 1024) rfl
theorem dmov (w : F3) : Statement (.dmov w) := of_decide_eq_true (p := 0x10b < 1024) rfl
theorem ixset (w : F3) : Statement (.ixset w) := of_decide_eq_true (p := 0x140 < 1024) rfl
theorem ixget (w : F3) : Statement (.ixget w) := of_decide_eq_true (p := 0x141 < 1024) rfl
theorem ixstep (w : F3) : Statement (.ixstep w) := of_decide_eq_true (p := 0x142 < 1024) rfl
theorem ixstepBy (w : F3) : Statement (.ixstepBy w) := of_decide_eq_true (p := 0x142 < 1024) rfl
theorem ixcur (w : F3) : Statement (.ixcur w) := of_decide_eq_true (p := 0x143 < 1024) rfl
theorem rkill (w : F3) : Statement (.rkill w) := of_decide_eq_true (p := 0x144 < 1024) rfl
theorem shfl (w : F3) : Statement (.shfl w) := of_decide_eq_true (p := 0x180 < 1024) rfl
theorem vote (w : F3) : Statement (.vote w) := of_decide_eq_true (p := 0x181 < 1024) rfl
theorem lred (w : F3) : Statement (.lred w) := of_decide_eq_true (p := 0x182 < 1024) rfl
theorem lscan (w : F3) : Statement (.lscan w) := of_decide_eq_true (p := 0x183 < 1024) rfl
theorem mjoin (w : F3) : Statement (.mjoin w) := of_decide_eq_true (p := 0x1c0 < 1024) rfl
theorem mleave (w : F3) : Statement (.mleave w) := of_decide_eq_true (p := 0x1c1 < 1024) rfl
theorem mwait (w : F3) : Statement (.mwait w) := of_decide_eq_true (p := 0x1c2 < 1024) rfl
theorem mset (w : F3) : Statement (.mset w) := of_decide_eq_true (p := 0x1c3 < 1024) rfl
theorem mget (w : F3) : Statement (.mget w) := of_decide_eq_true (p := 0x1c4 < 1024) rfl
theorem meet (w : F3) : Statement (.meet w) := of_decide_eq_true (p := 0x1c5 < 1024) rfl
theorem meetr (w : F3) : Statement (.meetr w) := of_decide_eq_true (p := 0x1c6 < 1024) rfl
theorem aadd (w : F3) : Statement (.aadd w) := of_decide_eq_true (p := 0x200 < 1024) rfl
theorem amin (w : F3) : Statement (.amin w) := of_decide_eq_true (p := 0x201 < 1024) rfl
theorem amax (w : F3) : Statement (.amax w) := of_decide_eq_true (p := 0x202 < 1024) rfl
theorem aand (w : F3) : Statement (.aand w) := of_decide_eq_true (p := 0x203 < 1024) rfl
theorem aor (w : F3) : Statement (.aor w) := of_decide_eq_true (p := 0x204 < 1024) rfl
theorem axor (w : F3) : Statement (.axor w) := of_decide_eq_true (p := 0x205 < 1024) rfl
theorem aexch (w : F3) : Statement (.aexch w) := of_decide_eq_true (p := 0x206 < 1024) rfl
theorem acas (w : F3) : Statement (.acas w) := of_decide_eq_true (p := 0x207 < 1024) rfl
theorem afadd (w : F3) : Statement (.afadd w) := of_decide_eq_true (p := 0x208 < 1024) rfl
theorem aaddw (w : F3) : Statement (.aaddw w) := of_decide_eq_true (p := 0x209 < 1024) rfl
theorem await (w : F3) : Statement (.await w) := of_decide_eq_true (p := 0x20a < 1024) rfl
theorem lres (w : F3) : Statement (.lres w) := of_decide_eq_true (p := 0x20b < 1024) rfl
theorem scnd (w : F3) : Statement (.scnd w) := of_decide_eq_true (p := 0x20c < 1024) rfl
theorem fence (w : F3) : Statement (.fence w) := of_decide_eq_true (p := 0x20d < 1024) rfl
theorem fencer (w : F3) : Statement (.fencer w) := of_decide_eq_true (p := 0x20e < 1024) rfl
theorem bari (w : F3) : Statement (.bari w) := of_decide_eq_true (p := 0x240 < 1024) rfl
theorem bara (w : F3) : Statement (.bara w) := of_decide_eq_true (p := 0x241 < 1024) rfl
theorem barw (w : F3) : Statement (.barw w) := of_decide_eq_true (p := 0x242 < 1024) rfl
theorem baraw (w : F3) : Statement (.baraw w) := of_decide_eq_true (p := 0x243 < 1024) rfl
theorem rinit (w : F3) : Statement (.rinit w) := of_decide_eq_true (p := 0x244 < 1024) rfl
theorem racq (w : F3) : Statement (.racq w) := of_decide_eq_true (p := 0x245 < 1024) rfl
theorem rrel (w : F3) : Statement (.rrel w) := of_decide_eq_true (p := 0x246 < 1024) rfl
theorem qpush (w : F3) : Statement (.qpush w) := of_decide_eq_true (p := 0x247 < 1024) rfl
theorem qpop (w : F3) : Statement (.qpop w) := of_decide_eq_true (p := 0x248 < 1024) rfl
theorem jdec (w : F3) : Statement (.jdec w) := of_decide_eq_true (p := 0x249 < 1024) rfl
theorem mclaim (w : F3) : Statement (.mclaim w) := of_decide_eq_true (p := 0x280 < 1024) rfl
theorem mrels (w : F3) : Statement (.mrels w) := of_decide_eq_true (p := 0x281 < 1024) rfl
theorem mldw (w : F3) : Statement (.mldw w) := of_decide_eq_true (p := 0x282 < 1024) rfl
theorem mstream (w : F3) : Statement (.mstream w) := of_decide_eq_true (p := 0x283 < 1024) rfl
theorem mzero (w : F3) : Statement (.mzero w) := of_decide_eq_true (p := 0x284 < 1024) rfl
theorem mdrain (w : F3) : Statement (.mdrain w) := of_decide_eq_true (p := 0x285 < 1024) rfl
theorem msync (w : F3) : Statement (.msync w) := of_decide_eq_true (p := 0x286 < 1024) rfl
theorem msyncHand (w : F3) : Statement (.msyncHand w) := of_decide_eq_true (p := 0x286 < 1024) rfl
theorem fork (w : F3) : Statement (.fork w) := of_decide_eq_true (p := 0x2c0 < 1024) rfl
theorem rdv (w : F3) : Statement (.rdv w) := of_decide_eq_true (p := 0x2c1 < 1024) rfl
theorem rdvAbort (w : F3) : Statement (.rdvAbort w) := of_decide_eq_true (p := 0x2c1 < 1024) rfl
theorem cpy (w : F3) : Statement (.cpy w) := of_decide_eq_true (p := 0x2c2 < 1024) rfl
theorem trap (w : F3) : Statement (.trap w) := of_decide_eq_true (p := 0x2c3 < 1024) rfl
theorem trapBrk (w : F3) : Statement (.trapBrk w) := of_decide_eq_true (p := 0x2c3 < 1024) rfl
theorem sret (w : F3) : Statement (.sret w) := of_decide_eq_true (p := 0x2c4 < 1024) rfl
theorem sysrd (w : F3) : Statement (.sysrd w) := of_decide_eq_true (p := 0x2c5 < 1024) rfl
theorem syswr (w : F3) : Statement (.syswr w) := of_decide_eq_true (p := 0x2c6 < 1024) rfl
theorem oinv (w : F3) : Statement (.oinv w) := of_decide_eq_true (p := 0x2c7 < 1024) rfl
theorem oshoot (w : F3) : Statement (.oshoot w) := of_decide_eq_true (p := 0x2c8 < 1024) rfl
theorem iflush (w : F3) : Statement (.iflush w) := of_decide_eq_true (p := 0x2c9 < 1024) rfl
theorem idemEnter (w : F3) : Statement (.idemEnter w) := of_decide_eq_true (p := 0x2ca < 1024) rfl
theorem idemExit (w : F3) : Statement (.idemExit w) := of_decide_eq_true (p := 0x2ca < 1024) rfl
theorem wfi (w : F3) : Statement (.wfi w) := of_decide_eq_true (p := 0x2cb < 1024) rfl
theorem keyset (w : F3) : Statement (.keyset w) := of_decide_eq_true (p := 0x2cc < 1024) rfl
theorem keysetClear (w : F3) : Statement (.keysetClear w) := of_decide_eq_true (p := 0x2cc < 1024) rfl
theorem haltc (w : F3) : Statement (.haltc w) := of_decide_eq_true (p := 0x2cd < 1024) rfl
theorem haltcRes (w : F3) : Statement (.haltcRes w) := of_decide_eq_true (p := 0x2cd < 1024) rfl
theorem nop (w : F3) : Statement (.nop w) := of_decide_eq_true (p := 0x2ce < 1024) rfl
theorem tpop (w : F3) : Statement (.tpop w) := of_decide_eq_true (p := 0x2cf < 1024) rfl
theorem tres (w : F3) : Statement (.tres w) := of_decide_eq_true (p := 0x2d0 < 1024) rfl
theorem ldc (w : F3) : Statement (.ldc w) := of_decide_eq_true (p := 0x300 < 1024) rfl
theorem stc (w : F3) : Statement (.stc w) := of_decide_eq_true (p := 0x301 < 1024) rfl
theorem movi (w : XW) : Statement (.movi w) := of_decide_eq_true (p := 0 < 64) rfl
theorem movh (w : XW) : Statement (.movh w) := of_decide_eq_true (p := 1 < 64) rfl
theorem iaddi (w : XW) : Statement (.iaddi w) := of_decide_eq_true (p := 2 < 64) rfl
theorem andi (w : XW) : Statement (.andi w) := of_decide_eq_true (p := 3 < 64) rfl
theorem ori (w : XW) : Statement (.ori w) := of_decide_eq_true (p := 4 < 64) rfl
theorem xori (w : XW) : Statement (.xori w) := of_decide_eq_true (p := 5 < 64) rfl
theorem icmpi (w : XW) : Statement (.icmpi w) := of_decide_eq_true (p := 6 < 64) rfl
theorem faddi (w : XW) : Statement (.faddi w) := of_decide_eq_true (p := 7 < 64) rfl
theorem ld (w : XW) : Statement (.ld w) := of_decide_eq_true (p := 8 < 64) rfl
theorem ldCo (w : XW) : Statement (.ldCo w) := of_decide_eq_true (p := 8 < 64) rfl
theorem st (w : XW) : Statement (.st w) := of_decide_eq_true (p := 9 < 64) rfl
theorem lds (w : XW) : Statement (.lds w) := of_decide_eq_true (p := 10 < 64) rfl
theorem sts (w : XW) : Statement (.sts w) := of_decide_eq_true (p := 11 < 64) rfl
theorem ldb (w : XW) : Statement (.ldb w) := of_decide_eq_true (p := 12 < 64) rfl
theorem stb (w : XW) : Statement (.stb w) := of_decide_eq_true (p := 13 < 64) rfl
theorem dld (w : XW) : Statement (.dld w) := of_decide_eq_true (p := 14 < 64) rfl
theorem dst (w : XW) : Statement (.dst w) := of_decide_eq_true (p := 15 < 64) rfl
theorem slotst (w : XW) : Statement (.slotst w) := of_decide_eq_true (p := 16 < 64) rfl
theorem pref (w : XW) : Statement (.pref w) := of_decide_eq_true (p := 17 < 64) rfl
theorem accld (w : XW) : Statement (.accld w) := of_decide_eq_true (p := 18 < 64) rfl
theorem p2Iadd (w : P2W) : Statement (.p2Iadd w) := of_decide_eq_true (p := P2Op.code .iadd < 64) rfl
theorem p2Isub (w : P2W) : Statement (.p2Isub w) := of_decide_eq_true (p := P2Op.code .isub < 64) rfl
theorem p2And (w : P2W) : Statement (.p2And w) := of_decide_eq_true (p := P2Op.code .and < 64) rfl
theorem p2Or (w : P2W) : Statement (.p2Or w) := of_decide_eq_true (p := P2Op.code .or < 64) rfl
theorem p2Xor (w : P2W) : Statement (.p2Xor w) := of_decide_eq_true (p := P2Op.code .xor < 64) rfl
theorem p2Shl (w : P2W) : Statement (.p2Shl w) := of_decide_eq_true (p := P2Op.code .shl < 64) rfl
theorem p2Shr (w : P2W) : Statement (.p2Shr w) := of_decide_eq_true (p := P2Op.code .shr < 64) rfl
theorem p2Sar (w : P2W) : Statement (.p2Sar w) := of_decide_eq_true (p := P2Op.code .sar < 64) rfl
theorem p2Mov (w : P2W) : Statement (.p2Mov w) := of_decide_eq_true (p := P2Op.code .mov < 64) rfl
theorem p2Movi (w : P2W) : Statement (.p2Movi w) := of_decide_eq_true (p := P2Op.code .movi < 64) rfl
theorem p2Iaddi (w : P2W) : Statement (.p2Iaddi w) := of_decide_eq_true (p := P2Op.code .iaddi < 64) rfl
theorem p2Imin (w : P2W) : Statement (.p2Imin w) := of_decide_eq_true (p := P2Op.code .imin < 64) rfl
theorem p2Imax (w : P2W) : Statement (.p2Imax w) := of_decide_eq_true (p := P2Op.code .imax < 64) rfl
theorem p2Fadd (w : P2W) : Statement (.p2Fadd w) := of_decide_eq_true (p := P2Op.code .fadd < 64) rfl
theorem p2Fsub (w : P2W) : Statement (.p2Fsub w) := of_decide_eq_true (p := P2Op.code .fsub < 64) rfl
theorem p2Fmul (w : P2W) : Statement (.p2Fmul w) := of_decide_eq_true (p := P2Op.code .fmul < 64) rfl
theorem p2Fmin (w : P2W) : Statement (.p2Fmin w) := of_decide_eq_true (p := P2Op.code .fmin < 64) rfl
theorem p2Fmax (w : P2W) : Statement (.p2Fmax w) := of_decide_eq_true (p := P2Op.code .fmax < 64) rfl
theorem icmpeq (w : P2W) : Statement (.icmpeq w) := of_decide_eq_true (p := P2Op.code .icmpeq < 64) rfl
theorem icmplt (w : P2W) : Statement (.icmplt w) := of_decide_eq_true (p := P2Op.code .icmplt < 64) rfl
theorem fcmplt (w : P2W) : Statement (.fcmplt w) := of_decide_eq_true (p := P2Op.code .fcmplt < 64) rfl
theorem p2Nop (w : P2W) : Statement (.p2Nop w) := of_decide_eq_true (p := P2Op.code .nop < 64) rfl
theorem fall (w : TW) : Statement (.fall w) := of_decide_eq_true (p := 0 < 16) rfl
theorem bra (w : TW) : Statement (.bra w) := of_decide_eq_true (p := 1 < 16) rfl
theorem brx (w : TW) : Statement (.brx w) := of_decide_eq_true (p := 2 < 16) rfl
theorem call (w : TW) : Statement (.call w) := of_decide_eq_true (p := 3 < 16) rfl
theorem callx (w : TW) : Statement (.callx w) := of_decide_eq_true (p := 4 < 16) rfl
theorem ret (w : TW) : Statement (.ret w) := of_decide_eq_true (p := 5 < 16) rfl
theorem exit (w : TW) : Statement (.exit w) := of_decide_eq_true (p := 6 < 16) rfl
theorem loop (w : TW) : Statement (.loop w) := of_decide_eq_true (p := 7 < 16) rfl
theorem coreSplitWrite (w : F3) : Statement (.coreSplitWrite w) := of_decide_eq_true (p := 0x2c6 < 1024) rfl
theorem bspWrite (w : F3) : Statement (.bspWrite w) := of_decide_eq_true (p := 0x2c6 < 1024) rfl
theorem ortRegisterWrite (w : F3) : Statement (.ortRegisterWrite w) := of_decide_eq_true (p := 0x2c6 < 1024) rfl
theorem statusWrite (w : F3) : Statement (.statusWrite w) := of_decide_eq_true (p := 0x2c6 < 1024) rfl
theorem tqBaseWrite (w : F3) : Statement (.tqBaseWrite w) := of_decide_eq_true (p := 0x2c6 < 1024) rfl
theorem tqHeadWrite (w : F3) : Statement (.tqHeadWrite w) := of_decide_eq_true (p := 0x2c6 < 1024) rfl
theorem tqHandWrite (w : F3) : Statement (.tqHandWrite w) := of_decide_eq_true (p := 0x2c6 < 1024) rfl
theorem tqBatchWrite (w : F3) : Statement (.tqBatchWrite w) := of_decide_eq_true (p := 0x2c6 < 1024) rfl
theorem intPendingClear (w : F3) : Statement (.intPendingClear w) := of_decide_eq_true (p := 0x2c6 < 1024) rfl
theorem ipiWrite (w : F3) : Statement (.ipiWrite w) := of_decide_eq_true (p := 0x2c6 < 1024) rfl
theorem wdtWrite (w : F3) : Statement (.wdtWrite w) := of_decide_eq_true (p := 0x2c6 < 1024) rfl
theorem cwin (w : Cmd) : Statement (.cwin w) := of_decide_eq_true (p := 0 < 64) rfl
theorem cwina (w : Cmd) : Statement (.cwina w) := of_decide_eq_true (p := 1 < 64) rfl
theorem cfill (w : Cmd) : Statement (.cfill w) := of_decide_eq_true (p := 2 < 64) rfl
theorem cmcast (w : Cmd) : Statement (.cmcast w) := of_decide_eq_true (p := 3 < 64) rfl
theorem cring (w : Cmd) : Statement (.cring w) := of_decide_eq_true (p := 4 < 64) rfl
theorem cslot (w : Cmd) : Statement (.cslot w) := of_decide_eq_true (p := 5 < 64) rfl
theorem cqf (w : Cmd) : Statement (.cqf w) := of_decide_eq_true (p := 6 < 64) rfl
theorem csig (w : Cmd) : Statement (.csig w) := of_decide_eq_true (p := 7 < 64) rfl
theorem cwait (w : Cmd) : Statement (.cwait w) := of_decide_eq_true (p := 8 < 64) rfl
theorem cloop (w : Cmd) : Statement (.cloop w) := of_decide_eq_true (p := 9 < 64) rfl
theorem cnet (w : Cmd) : Statement (.cnet w) := of_decide_eq_true (p := 10 < 64) rfl
theorem czero (w : Cmd) : Statement (.czero w) := of_decide_eq_true (p := 11 < 64) rfl
theorem cend (w : Cmd) : Statement (.cend w) := of_decide_eq_true (p := 12 < 64) rfl
theorem crosslaneTimeout : Statement .crosslaneTimeout := trivial
theorem awaitRetest : Statement .awaitRetest := trivial
theorem relayWritebackRequest : Statement .relayWritebackRequest := trivial
theorem mldwPerform : Statement .mldwPerform := trivial
theorem mstreamPerform : Statement .mstreamPerform := trivial
theorem mzeroPerform : Statement .mzeroPerform := trivial
theorem drainHandover : Statement .drainHandover := trivial
theorem drainPerform : Statement .drainPerform := trivial
theorem rdvTimeout : Statement .rdvTimeout := trivial
theorem groupPick : Statement .groupPick := trivial
theorem activeSetJoin : Statement .activeSetJoin := trivial
theorem resultWriteback : Statement .resultWriteback := trivial
theorem heldWriteRecheck : Statement .heldWriteRecheck := trivial
theorem heldWriteDrop : Statement .heldWriteDrop := trivial
theorem coreSplitGrowDone : Statement .coreSplitGrowDone := trivial
theorem timerCompareMatch : Statement .timerCompareMatch := trivial
theorem watchdogExpiry : Statement .watchdogExpiry := trivial
theorem tqAgeExpiry : Statement .tqAgeExpiry := trivial
theorem interruptTake : Statement .interruptTake := trivial
theorem partitionEntryWrite : Statement .partitionEntryWrite := trivial
theorem sweepPeriod : Statement .sweepPeriod := trivial
theorem stackCounterReset : Statement .stackCounterReset := trivial
theorem stackNewClear : Statement .stackNewClear := trivial
theorem queueOwnerWrite : Statement .queueOwnerWrite := trivial
theorem queueRestart : Statement .queueRestart := trivial
theorem queueDiscard : Statement .queueDiscard := trivial
theorem dispatcherBlockWrite : Statement .dispatcherBlockWrite := trivial
theorem slotMap : Statement .slotMap := trivial
theorem slotUnmap : Statement .slotUnmap := trivial
theorem preemptSave : Statement .preemptSave := trivial
theorem preemptIdem : Statement .preemptIdem := trivial
theorem preGraceExpiry : Statement .preGraceExpiry := trivial
theorem savedResultArrival : Statement .savedResultArrival := trivial
theorem saveComplete : Statement .saveComplete := trivial
theorem blockRestore : Statement .blockRestore := trivial
theorem kick : Statement .kick := trivial
theorem pendingMapClear : Statement .pendingMapClear := trivial
theorem packetTake : Statement .packetTake := trivial
theorem blockPlace : Statement .blockPlace := trivial
theorem neighbourhoodPlace : Statement .neighbourhoodPlace := trivial
theorem phaseChange : Statement .phaseChange := trivial
theorem signalOnlyPacket : Statement .signalOnlyPacket := trivial
theorem packetComplete : Statement .packetComplete := trivial
theorem sequencerError : Statement .sequencerError := trivial
theorem contextStoreWrite : Statement .contextStoreWrite := trivial
theorem featureEnableWrite : Statement .featureEnableWrite := trivial
theorem eventBlockWrite : Statement .eventBlockWrite := trivial
theorem inboundWindowWrite : Statement .inboundWindowWrite := trivial
theorem remoteWindowWrite : Statement .remoteWindowWrite := trivial
theorem ctlsemSupervisorTake : Statement .ctlsemSupervisorTake := trivial
theorem ctlsemSupervisorGive : Statement .ctlsemSupervisorGive := trivial
theorem ctlsemLapse : Statement .ctlsemLapse := trivial
theorem mailboxStatusClear : Statement .mailboxStatusClear := trivial
theorem reportRequest : Statement .reportRequest := trivial
theorem reportDone : Statement .reportDone := trivial
theorem measurementExtend : Statement .measurementExtend := trivial
theorem registerWrite : Statement .registerWrite := trivial
theorem getStatus : Statement .getStatus := trivial
theorem getReport : Statement .getReport := trivial
theorem take : Statement .take := trivial
theorem give : Statement .give := trivial
theorem flashWrite : Statement .flashWrite := trivial
theorem markerSet : Statement .markerSet := trivial
theorem powerLimit : Statement .powerLimit := trivial
theorem reset : Statement .reset := trivial
theorem mailbox : Statement .mailbox := trivial
theorem powerOnBoot : Statement .powerOnBoot := trivial
theorem bootTakeover : Statement .bootTakeover := trivial
theorem thermalThrottle : Statement .thermalThrottle := trivial
theorem thermalShutdown : Statement .thermalShutdown := trivial
theorem dieLinkFailure : Statement .dieLinkFailure := trivial
theorem hbmUncorrectableError : Statement .hbmUncorrectableError := trivial
theorem patrolScrub : Statement .patrolScrub := trivial
theorem inboundRequest : Statement .inboundRequest := trivial
theorem msixMessage : Statement .msixMessage := trivial
theorem pcieCompletionTimeout : Statement .pcieCompletionTimeout := trivial
theorem pcieLinkDown : Statement .pcieLinkDown := trivial
theorem cxlError : Statement .cxlError := trivial
theorem uetRetransmitTimeout : Statement .uetRetransmitTimeout := trivial
theorem remoteAtomicArrival : Statement .remoteAtomicArrival := trivial
theorem hbmCorrectableError : Statement .hbmCorrectableError := trivial
theorem powerLoss : Statement .powerLoss := trivial
theorem throttleEnd : Statement .throttleEnd := trivial
theorem inboundRemoteAccess : Statement .inboundRemoteAccess := trivial
theorem cnetAcknowledgement : Statement .cnetAcknowledgement := trivial

end Sys2Proof.Laws.OpcodeFits
end

