-- ==== Sys2Proof/Laws/Writes.lean ====
section
/-! SUPPORT. The canonical form of the memory through the operations with several ends: stores to the control windows, the bus, the
accesses of cores, zeroed frames and loaded words. -/

namespace Sys2Proof.Machine

theorem State.keeps_ite {s t u : State} {p : Prop} [Decidable p] (ht : s.keeps t) (hu : s.keeps u) : s.keeps (if p then t else u) := by
  by_cases h : p
  · rw [if_pos h]; exact ht
  · rw [if_neg h]; exact hu

@[simp] theorem State.storeQueueOwner_mem (s : State) (c : CtlStore) : (s.storeQueueOwner c).mem = s.mem := by
  delta State.storeQueueOwner
  extract_lets q k w
  rw [apply_ite State.mem, State.updQueue_mem, State.updQueue_mem, ite_self]

@[simp] theorem State.refreshSlots_mem (s : State) (die : Nat) : (s.refreshSlots die).mem = s.mem :=
  State.mem_foldl _ (fun (s : State) i => s.updSlot_mem die i _) _ _

theorem State.keeps_mapSlot {s t : State} {die i : Nat} (e : s.mapSlot die i = some t) : s.keeps t := by
  intro h
  unfold State.mapSlot at e
  dsimp only at e
  split at e
  · cases e
  · split at e
    · injection e with e
      subst e
      simpa using State.keeps_charge _ _ _ _ _ h
    · cases e

@[simp] theorem State.keeps_storeSlot (s : State) (c : CtlStore) : s.keeps (s.storeSlot c) := by
  have hr (f : Slot → Slot) : s.keeps (s.updSlot c.die (slotOfOff c.off) f) := State.keeps_of_mem (State.updSlot_mem ..)
  delta State.storeSlot
  extract_lets k b t w0 w1 qcb refuse valid s1
  refine State.keeps_ite s.keeps_refl (State.keeps_ite (hr _) (State.keeps_ite ?_ (State.keeps_ite ?_ (hr _))))
  · cases e : s1.mapSlot c.die k with
    | none => exact hr _
    | some t => exact State.keeps_trans (hr _) (State.keeps_mapSlot e)
  · exact fun h => State.keeps_unmapSlot _ _ _ _ (hr _ h)

@[simp] theorem State.keeps_preempt (s : State) (die i : Nat) (idem : Bool) : s.keeps (s.preempt die i idem) := by
  have hr (s : State) (f : Slot → Slot) : State.keeps s (s.updSlot die i f) := State.keeps_of_mem (State.updSlot_mem ..)
  unfold State.preempt
  extract_lets t blocks s1 s2
  refine State.keeps_ite (hr _ _) (State.keeps_ite (hr _ _) (State.keeps_trans (hr s _) (t := s1) ?_))
  refine State.keeps_trans (t := s2) (State.keeps_foldl _ (fun s e => ?_) _ _) (State.keeps_of_mem ?_)
  · exact State.keeps_ite (State.keeps_discardBlock _ _) (State.keeps_of_mem (State.updBlock_mem ..))
  · rw [State.refreshSlots_mem, State.endRequest_mem]

@[simp] theorem State.keeps_abortFork (s : State) (blk off : Nat) : s.keeps (s.abortFork blk off) := by
  unfold State.abortFork
  split
  · exact s.keeps_refl
  · rename_i f _
    extract_lets s1 s2 s3 s4
    have h1 : s.keeps s1 := State.keeps_foldl _ (fun s q => by
      split
      · exact State.keeps_ite s.keeps_refl (State.keeps_emptyQueue _ _ _)
      · exact s.keeps_refl) _ _
    have h2 : s1.keeps s2 := State.keeps_ite (State.keeps_discardRein _ _) s1.keeps_refl
    have h4 : s2.keeps s4 := State.keeps_of_mem ((State.updBlock_mem ..).trans (State.updRdv_mem ..))
    refine State.keeps_trans h1 (State.keeps_trans h2 (State.keeps_trans h4 (State.keeps_ite ?_ s4.keeps_refl)))
    exact State.keeps_trans (State.keeps_of_mem (State.updHitch_mem ..)) (State.keeps_reclaim _ _ _ _)

@[simp] theorem State.keeps_storeCommand (s : State) (c : CtlStore) : s.keeps (s.storeCommand c) := by
  unfold State.storeCommand
  extract_lets k
  split
  · exact State.keeps_preempt _ _ _ _
  · exact State.keeps_preempt _ _ _ _
  · exact s.keeps_refl

theorem wf_splice {m : Memory} (lo hi : Nat) (hl : lo ≤ hi) (h : Memory.wf m = true) :
    Memory.wf ((m.filter fun e => decide (e.1 < lo)) ++ [] ++ m.filter fun e => decide (hi ≤ e.1)) = true := by
  rw [List.append_nil]
  refine wf_append (wf_filter _ h) (wf_filter _ h) fun x hx y hy => ?_
  have := (List.mem_filter.1 hx).2
  have := (List.mem_filter.1 hy).2
  simp at *
  omega

@[simp] theorem State.keeps_zeroFrame (s : State) (f key : Nat) : s.keeps (s.zeroFrame f key) := by
  intro h
  unfold State.zeroFrame
  extract_lets pa k splice s1
  rw [State.wrote_mem, State.updDie_mem]
  exact wf_splice _ _ (by omega) h

@[simp] theorem State.keeps_loadWords (s : State) (ws : List Word64) : s.keeps (s.loadWords ws) := fun h =>
  wf_writeBytes _ _ (by
    have : ∀ (l : List (Nat × Word64)) (m : Memory), Memory.wf m = true →
        Memory.wf (l.foldl (fun m e => writeBytes m e.1 (toBytes 8 e.2.toNat)) m) = true := by
      intro l
      induction l with
      | nil => exact fun m h => h
      | cons a l ih => exact fun m h => ih _ (wf_writeBytes _ _ h)
    exact this _ _ h)

@[simp] theorem State.keeps_retire (s : State) (die qcb n : Nat) : s.keeps (s.retire die qcb n) := by
  induction n generalizing s with
  | zero => exact s.keeps_refl
  | succ n ih =>
    unfold State.retire
    extract_lets mine
    split
    · exact State.keeps_ite (State.keeps_trans (State.keeps_trans (State.keeps_of_mem (State.updDie_mem ..)) (State.keeps_setQcb _ _ _ _ _)) (ih _))
        s.keeps_refl
    · exact State.keeps_ite (State.keeps_setQcb _ _ _ _ _) s.keeps_refl

@[simp] theorem State.keeps_discardQueue (s : State) (die : Nat) (q : Nat) :
    s.keeps (State.discardQueue s die q) := by
  intro h; unfold State.discardQueue; (try dsimp only)
  repeat' first | assumption | rfl | refine State.keeps_foldl _ (fun _ _ _ => ?_) _ _ ?_ | split | simp only []
  all_goals first | (simp_all; done) | solve_by_elim [State.keeps_emptyQueue, State.keeps_abortFork]

@[simp] theorem State.keeps_kickDoorbell (s : State) (die n : Nat) : s.keeps (s.kickDoorbell die n) := by
  unfold State.kickDoorbell
  split
  · exact State.keeps_of_mem ((State.refreshSlots_mem ..).trans (State.updSlot_mem ..))
  · exact State.keeps_of_mem ((State.supInterrupt_mem ..).trans (State.updDie_mem ..))

@[simp] theorem State.keeps_settleBlock (s : State) (blk : Nat) : s.keeps (s.settleBlock blk) := by
  unfold State.settleBlock
  split
  · exact s.keeps_refl
  · refine State.keeps_ite s.keeps_refl ?_
    extract_lets s1
    refine State.keeps_trans (t := s1) (State.keeps_foldl _ (fun s q => ?_) _ _) ?_
    · exact State.keeps_ite (State.keeps_discardQueue _ _ _) s.keeps_refl
    · split
      · exact State.keeps_ite (State.keeps_removeBlock _ _) (State.keeps_freeBars _ _)
      · exact s1.keeps_refl

@[simp] theorem State.keeps_discardQueueAt (s : State) (c : CtlStore) : s.keeps (s.discardQueueAt c) := by
  delta State.discardQueueAt
  extract_lets q
  split
  · exact State.keeps_trans (State.keeps_discardQueue _ _ _) (State.keeps_settleBlock _ _)
  · exact State.keeps_discardQueue _ _ _

@[simp] theorem State.keeps_storeKick (s : State) (c : CtlStore) : s.keeps (s.storeKick c) := by
  delta State.storeKick
  extract_lets n s1
  exact State.keeps_trans (State.keeps_kickDoorbell _ _ _) (State.keeps_ite (State.keeps_kickDoorbell _ _ _) s1.keeps_refl)

@[simp] theorem State.keeps_dieStore (s : State) (c : CtlStore) : s.keeps (s.dieStore c) := by
  delta State.dieStore
  extract_lets o any s1 b w1 s2
  have h1 : s.keeps s1 := State.keeps_ite (State.keeps_of_mem (State.storeStackCounter_mem ..)) s.keeps_refl
  have h2 : s.keeps s2 := State.keeps_ite (State.keeps_of_mem (State.storeQueueOwner_mem ..)) s.keeps_refl
  refine State.keeps_ite (State.keeps_of_mem (State.storePartition_mem ..)) (State.keeps_ite ?_ (State.keeps_ite ?_ (State.keeps_ite ?_
    (State.keeps_ite ?_ (State.keeps_ite ?_ (State.keeps_ite ?_ (State.keeps_ite ?_ (State.keeps_ite ?_ s.keeps_refl))))))))
  · exact State.keeps_trans h1 (State.keeps_ite (State.keeps_of_mem (State.storeStackNew_mem ..)) s1.keeps_refl)
  · exact State.keeps_trans h2 (State.keeps_ite s2.keeps_refl (State.keeps_ite (State.keeps_discardQueueAt _ _)
      (State.keeps_ite (State.keeps_of_mem (State.restartQueue_mem ..)) s2.keeps_refl)))
  · exact State.keeps_of_mem (State.storeDispatcher_mem ..)
  · exact State.keeps_of_mem (State.storeContext_mem ..)
  · exact State.keeps_of_mem (State.storeFeatures_mem ..)
  · exact State.keeps_storeKick _ _
  · exact State.keeps_of_mem (State.storePending_mem ..)
  · exact State.keeps_trans (State.keeps_storeSlot _ _) (State.keeps_storeCommand _ _)

theorem State.keeps_ctlStore {s t : State} {c : CtlStore} (e : s.ctlStore c = some t) : s.keeps t := by
  unfold State.ctlStore at e
  split at e
  · cases e
  · injection e with e
    subst e
    exact State.keeps_ite (State.keeps_dieStore _ _) (State.keeps_ioStore _ _)

@[simp] theorem State.keeps_busWrite (s : State) (die : Nat) (x : Xl) (bs : List Byte) (home : Bool) :
    s.keeps (s.busWrite die x bs home).1 := by
  unfold State.busWrite
  split
  · rename_i d off _
    split
    · exact State.keeps_busFault_eq (by assumption)
    · rename_i s1 e
      refine State.keeps_trans (State.keeps_busFault_eq e) ?_
      cases h : s1.ctlStore { die := d, off := off, wide := decide (bs.length = 8), data := BitVec.ofNat 64 (ofBytes bs) } with
      | none => exact s1.keeps_refl
      | some t => exact State.keeps_ctlStore h
  · exact State.keeps_plainWrite _ _ _ _ _

@[simp] theorem State.keeps_coreLine (s : State) (c : Nat) (x : Xl) (n pol : Nat) : s.keeps (s.coreLine c x n pol).1 := by
  unfold State.coreLine
  extract_lets s1
  have h1 : s.keeps s1 := State.keeps_ite (State.keeps_evictLine _ _ _) s.keeps_refl
  have h2 : (if pol ≠ 3 ∧ (s1.core c).l1Holds x.pa n x.key then (s1, none) else s1.consume x.pa n).1.mem = s1.mem := by
    split
    · rfl
    · exact s1.consume_mem _ _
  refine State.keeps_trans h1 ?_
  split
  · rename_i e; rw [e] at h2; exact State.keeps_of_mem h2
  · rename_i e; rw [e] at h2; exact State.keeps_trans (State.keeps_of_mem h2) (State.keeps_l1Read _ _ _ _ _)

/-- A fold whose state keeps the form at each element keeps it whole, whatever it answers beside the state. -/
theorem State.keeps_foldl_fst {α β : Type} (f : State × β → α → State × β) (hf : ∀ (r : State × β) a, r.1.keeps (f r a).1) (l : List α)
    (r : State × β) : r.1.keeps (l.foldl f r).1 := by
  induction l generalizing r with
  | nil => exact r.1.keeps_refl
  | cons a l ih => exact State.keeps_trans (hf r a) (ih _)

@[simp] theorem State.keeps_coreRead (s : State) (core : Option Nat) (die : Nat) (x : Xl) (n pol : Nat) :
    s.keeps (s.coreRead core die x n pol).1 := by
  unfold State.coreRead
  split
  · split
    · exact State.keeps_busFault_eq (by assumption)
    · rename_i s1 e
      refine State.keeps_trans (State.keeps_busFault_eq e) (State.keeps_foldl_fst _ (fun r p => ?_) _ (s1, Except.ok []))
      split
      · exact r.1.keeps_refl
      · split <;> rename_i e <;> exact (congrArg (fun q => r.1.keeps q.1) e).mp (State.keeps_coreLine _ _ _ _ _)
  · exact State.keeps_busRead _ _ _ _ _

@[simp] theorem State.keeps_coreWrite (s : State) (core : Option Nat) (key : Nat) (tag : BitVec 16) (die : Nat) (x : Xl) (bs : List Byte)
    (pol : Nat) : s.keeps (s.coreWrite core key tag die x bs pol).1 := by
  unfold State.coreWrite
  split
  · split
    · exact State.keeps_busFault_eq (by assumption)
    · rename_i e
      exact State.keeps_trans (State.keeps_busFault_eq e) (State.keeps_foldl _ (fun _ _ => State.keeps_l1Write _ _ _ _ _ _ _) _ _)
  · exact State.keeps_busWrite _ _ _ _ _

@[simp] theorem State.keeps_completePacket (s : State) (die : Nat) (p : Packet) (status : Nat) :
    s.keeps (State.completePacket s die p status) := by
  intro h; unfold State.completePacket; (try dsimp only)
  repeat' first | assumption | rfl | refine State.keeps_foldl _ (fun _ _ _ => ?_) _ _ ?_ | split | simp only [State.updDie_mem]
  all_goals first | (simp_all; done) | solve_by_elim [State.keeps_signalPacket, State.keeps_retire]

end Sys2Proof.Machine
end

