-- ==== Sys2Proof/Tests/Slice0.lean ====
section
/-! SUPPORT. Tests: words of the spec's encodings, ill-formed instructions, single steps with results taken from the spec's tables,
and for every statement a state and operands that meet its hypotheses. -/

namespace Sys2Proof.Tests

set_option Elab.async false

open Sys2Proof Sys2Proof.Machine

/-! ### Decoding: words written from the field tables of R18, R25, R27, R31 and R41 -/

/-- Guard p7, D v12, A v4, B v5, C v6, keep-wait on all three. -/
def wF : F3 := { gs := false, gp := 7, d := 12, a := 4, b := 5, c := 6, lu := 0, kw := 7, ns := 0, md := 0 }
/-- D v12, A v4 with keep-wait, immediate 3. -/
def wX : XW := { gs := false, gp := 7, d := 12, a := 4, lu := false, kw := true, rsv := 0, imm := 3 }
/-- A half on v8 and v9 with keep-wait, and a word of two: the lower an OR into v10. -/
def half : P2H := { g := 0, d := 8, b := 9, luA := false, luB := false, kw := true, imm := 0 }
def wP : P2W := { hi := half, lop := .or, lo := { half with d := 10 } }
/-- Three instructions, target -2 words, await v20. -/
def wT : TW := { gs := false, gp := 7, count := 3, rsv := false, target := 0xFFFFFE, a0 := 0x14, a1 := 0xF0, a2 := 0xF0 }
def cmd (fields : BitVec 48) (extra : List Word64) : Cmd := { yield := false, mark := true, fields := fields, extra := extra }

/-- G0: the opcodes of R44. -/
theorem test_decode_g0 : [0x00070C0405061C00, 0x00170C0405061C00, 0x00270C0405061C00, 0x00370C0405061C00, 0x00470C0405061C00,
      0x00570C0405061C00, 0x00670C0405061C00, 0x00770C0405061C00, 0x00870C0405061C00, 0x00970C0405061C00, 0x00A70C0405061C00,
      0x00B70C0405061C00, 0x00C70C0405061C00, 0x00D70C0405061C00, 0x00E70C0405061C00, 0x00F70C0405061C00, 0x01070C0405061C00,
      0x01170C0405061C00, 0x01270C0405061C00, 0x01370C0405061C00, 0x01470C0405061C00, 0x01570C0405061C00, 0x01670C0405061C00,
      0x01770C0405061C00, 0x01870C0405061C00, 0x01970C0405061C00, 0x01A70C0405061C00].map (fun w => (decode w).toOption) =
    [some (.iadd wF), some (.isub wF), some (.imul wF), some (.imad wF), some (.imulh wF), some (.imin wF), some (.imax wF),
      some (.iabs wF), some (.and wF), some (.or wF), some (.xor wF), some (.andn wF), some (.shl wF), some (.shr wF),
      some (.sar wF), some (.rot wF), some (.popc wF), some (.clz wF), some (.brev wF), some (.bfe wF), some (.bfi wF),
      some (.sel wF), some (.mov wF), some (.iadd3 wF), some (.lea wF), some (.idiv wF), some (.irem wF)] := by decide +kernel

/-- G1: the opcodes of R44. -/
theorem test_decode_g1 : [0x04070C0405061C00, 0x04170C0405061C00, 0x04270C0405061C00, 0x04370C0405061C00, 0x04470C0405061C00,
      0x04470C0405061C01].map (fun w => (decode w).toOption) =
    [some (.icmp wF), some (.ucmp wF), some (.fcmp wF), some (.plop wF), some (.pmovGet wF),
      some (.pmovSet { wF with md := 1 })] := by decide +kernel

/-- G2: the opcodes of R44. -/
theorem test_decode_g2 : [0x08070C0405061C00, 0x08170C0405061C00, 0x08270C0405061C00, 0x08370C0405061C00, 0x08470C0405061C00,
      0x08570C0405061C00, 0x08670C0405061C00, 0x08770C0405061C00, 0x08870C0405061C00, 0x08970C0405061C00, 0x08A70C0405061C00,
      0x08B70C0405061C00, 0x08C70C0405061C00, 0x08D70C0405061C00, 0x08E70C0405061C00,
      0x08F70C0405061C00].map (fun w => (decode w).toOption) =
    [some (.fadd wF), some (.fsub wF), some (.fmul wF), some (.ffma wF), some (.fmin wF), some (.fmax wF), some (.frcp wF),
      some (.frsq wF), some (.fsqrt wF), some (.fex2 wF), some (.flg2 wF), some (.fsin wF), some (.fcos wF), some (.frnd wF),
      some (.fdiv wF), some (.fcls wF)] := by decide +kernel

/-- G3: the opcodes of R44. -/
theorem test_decode_g3 : [0x0C070C0405061C00, 0x0C170C0405061C00, 0x0C270C0405061C00, 0x0C370C0405061C00, 0x0C470C0405061C00,
      0x0C570C0405061C00, 0x0C670C0405061C00, 0x0C770C0405061C00, 0x0C870C0405061C00,
      0x0C970C0405061C00].map (fun w => (decode w).toOption) =
    [some (.cvt wF), some (.pack wF), some (.unpk wF), some (.dp4i wF), some (.dp8i wF), some (.dp4f wF), some (.dp8f wF),
      some (.dp2b wF), some (.pscl wF), some (.prmt wF)] := by decide +kernel

/-- G4: the opcodes of R44. -/
theorem test_decode_g4 : [0x10070C0405061C00, 0x10170C0405061C00, 0x10270C0405061C00, 0x10370C0405061C00, 0x10470C0405061C00,
      0x10570C0405061C00, 0x10670C0405061C00, 0x10770C0405061C00, 0x10870C0405061C00, 0x10970C0405061C00, 0x10A70C0405061C00,
      0x10B70C0405061C00].map (fun w => (decode w).toOption) =
    [some (.dfrom wF), some (.dto wF), some (.dadd wF), some (.dsub wF), some (.dmix wF), some (.dcos wF), some (.ddot wF),
      some (.dscl wF), some (.dnrm wF), some (.dsetn wF), some (.dproj wF), some (.dmov wF)] := by decide +kernel

/-- G5: the opcodes of R44. -/
theorem test_decode_g5 : [0x14070C0405061C00, 0x14170C0405061C00, 0x14270C0405061C00, 0x14270C0405061C08, 0x14370C0405061C00,
      0x14470C0405061C00].map (fun w => (decode w).toOption) =
    [some (.ixset wF), some (.ixget wF), some (.ixstep wF), some (.ixstepBy { wF with md := 8 }), some (.ixcur wF),
      some (.rkill wF)] := by decide +kernel

/-- G6: the opcodes of R44. -/
theorem test_decode_g6 : [0x18070C0405061C00, 0x18170C0405061C00, 0x18270C0405061C00,
      0x18370C0405061C00].map (fun w => (decode w).toOption) =
    [some (.shfl wF), some (.vote wF), some (.lred wF), some (.lscan wF)] := by decide +kernel

/-- G7: the opcodes of R44. -/
theorem test_decode_g7 : [0x1C070C0405061C00, 0x1C170C0405061C00, 0x1C270C0405061C00, 0x1C370C0405061C00, 0x1C470C0405061C00,
      0x1C570C0405061C00, 0x1C670C0405061C00].map (fun w => (decode w).toOption) =
    [some (.mjoin wF), some (.mleave wF), some (.mwait wF), some (.mset wF), some (.mget wF), some (.meet wF),
      some (.meetr wF)] := by decide +kernel

/-- G8: the opcodes of R44. -/
theorem test_decode_g8 : [0x20070C0405061C00, 0x20170C0405061C00, 0x20270C0405061C00, 0x20370C0405061C00, 0x20470C0405061C00,
      0x20570C0405061C00, 0x20670C0405061C00, 0x20770C0405061C00, 0x20870C0405061C00, 0x20970C0405061C00, 0x20A70C0405061C00,
      0x20B70C0405061C00, 0x20C70C0405061C00, 0x20D70C0405061C00, 0x20E70C0405061C00].map (fun w => (decode w).toOption) =
    [some (.aadd wF), some (.amin wF), some (.amax wF), some (.aand wF), some (.aor wF), some (.axor wF), some (.aexch wF),
      some (.acas wF), some (.afadd wF), some (.aaddw wF), some (.await wF), some (.lres wF), some (.scnd wF),
      some (.fence wF), some (.fencer wF)] := by decide +kernel

/-- G9: the opcodes of R44. -/
theorem test_decode_g9 : [0x24070C0405061C00, 0x24170C0405061C00, 0x24270C0405061C00, 0x24370C0405061C00, 0x24470C0405061C00,
      0x24570C0405061C00, 0x24670C0405061C00, 0x24770C0405061C00, 0x24870C0405061C00,
      0x24970C0405061C00].map (fun w => (decode w).toOption) =
    [some (.bari wF), some (.bara wF), some (.barw wF), some (.baraw wF), some (.rinit wF), some (.racq wF), some (.rrel wF),
      some (.qpush wF), some (.qpop wF), some (.jdec wF)] := by decide +kernel

/-- G10: the opcodes of R44. -/
theorem test_decode_g10 : [0x28070C0405061C00, 0x28170C0405061C00, 0x28270C0405061C00, 0x28370C0405061C00, 0x28470C0405061C00,
      0x28570C0405061C00, 0x28670C0405061C00, 0x28670C0405061C01].map (fun w => (decode w).toOption) =
    [some (.mclaim wF), some (.mrels wF), some (.mldw wF), some (.mstream wF), some (.mzero wF), some (.mdrain wF),
      some (.msync wF), some (.msyncHand { wF with md := 1 })] := by decide +kernel

/-- G11: the opcodes of R44. -/
theorem test_decode_g11 : [0x2C070C0405061C00, 0x2C170C0405061C00, 0x2C170C0405061C01, 0x2C270C0405061C00, 0x2C370C0405061C00,
      0x2C370C0405061C01, 0x2C470C0405061C00, 0x2C570C0405061C00, 0x2C670C0400241C00, 0x2C670C0400101C00, 0x2C670C0400201C00,
      0x2C670C0400211C00, 0x2C670C0400231C00, 0x2C670C0400251C00, 0x2C670C0400321C00, 0x2C670C0400381C00, 0x2C670C0400391C00,
      0x2C670C0400401C00, 0x2C670C0400421C00, 0x2C670C0400501C00, 0x2C670C0400801C00, 0x2C770C0405061C00, 0x2C870C0405061C00,
      0x2C970C0405061C00, 0x2CA70C0405061C00, 0x2CA70C0405061C01, 0x2CB70C0405061C00, 0x2CC70C0405061C00, 0x2CC70C0405061C01,
      0x2CD70C0405061C00, 0x2CD70C0405061C01, 0x2CE70C0405061C00, 0x2CF70C0405061C00,
      0x2D070C0405061C00].map (fun w => (decode w).toOption) =
    [some (.fork wF), some (.rdv wF), some (.rdvAbort { wF with md := 1 }), some (.cpy wF), some (.trap wF),
      some (.trapBrk { wF with md := 1 }), some (.sret wF), some (.sysrd wF), some (.syswr { wF with b := 0, c := 0x24 }),
      some (.statusWrite { wF with b := 0, c := 0x10 }), some (.tqBaseWrite { wF with b := 0, c := 0x20 }),
      some (.tqHeadWrite { wF with b := 0, c := 0x21 }), some (.tqBatchWrite { wF with b := 0, c := 0x23 }),
      some (.tqHandWrite { wF with b := 0, c := 0x25 }), some (.intPendingClear { wF with b := 0, c := 0x32 }),
      some (.ipiWrite { wF with b := 0, c := 0x38 }), some (.wdtWrite { wF with b := 0, c := 0x39 }),
      some (.ortRegisterWrite { wF with b := 0, c := 0x40 }), some (.ortRegisterWrite { wF with b := 0, c := 0x42 }),
      some (.coreSplitWrite { wF with b := 0, c := 0x50 }), some (.bspWrite { wF with b := 0, c := 0x80 }), some (.oinv wF),
      some (.oshoot wF), some (.iflush wF), some (.idemEnter wF), some (.idemExit { wF with md := 1 }), some (.wfi wF),
      some (.keyset wF), some (.keysetClear { wF with md := 1 }), some (.haltc wF), some (.haltcRes { wF with md := 1 }),
      some (.nop wF), some (.tpop wF), some (.tres wF)] := by decide +kernel

/-- G12: the opcodes of R44. -/
theorem test_decode_g12 : [0x30070C0405061C00, 0x30170C0405061C00].map (fun w => (decode w).toOption) =
    [some (.ldc wF), some (.stc wF)] := by decide +kernel

/-- The xops of R46; LD with the co bit is LD.co. -/
theorem test_decode_x : [0x8070C04400000003, 0x8170C04400000003, 0x8270C04400000003, 0x8370C04400000003, 0x8470C04400000003,
      0x8570C04400000003, 0x8670C04400000003, 0x8770C04400000003, 0x8870C04400000003, 0x8870C04400000043, 0x8970C04400000003,
      0x8A70C04400000003, 0x8B70C04400000003, 0x8C70C04400000003, 0x8D70C04400000003, 0x8E70C04400000003, 0x8F70C04400000003,
      0x9070C04400000003, 0x9170C04400000003, 0x9270C04400000003].map (fun w => (decode w).toOption) =
    [some (.movi wX), some (.movh wX), some (.iaddi wX), some (.andi wX), some (.ori wX), some (.xori wX), some (.icmpi wX),
      some (.faddi wX), some (.ld wX), some (.ldCo { wX with imm := 0x43 }), some (.st wX), some (.lds wX), some (.sts wX),
      some (.ldb wX), some (.stb wX), some (.dld wX), some (.dst wX), some (.slotst wX), some (.pref wX),
      some (.accld wX)] := by decide +kernel

/-- The ops of R47 in the high half, over OR in the low half. -/
theorem test_decode_p2 : [0x40040920060A1240, 0x41040920060A1240, 0x42040920060A1240, 0x43040920060A1240, 0x44040920060A1240,
      0x45040920060A1240, 0x46040920060A1240, 0x47040920060A1240, 0x48040920060A1240, 0x49040920060A1240, 0x4A040920060A1240,
      0x4B040920060A1240, 0x4C040920060A1240, 0x4D040920060A1240, 0x4E040920060A1240, 0x4F040920060A1240, 0x50040920060A1240,
      0x51040920060A1240, 0x52040920060A1240, 0x53040920060A1240, 0x54040920060A1240,
      0x55040920060A1240].map (fun w => (decode w).toOption) =
    [some (.p2Iadd wP), some (.p2Isub wP), some (.p2And wP), some (.p2Or wP), some (.p2Xor wP), some (.p2Shl wP),
      some (.p2Shr wP), some (.p2Sar wP), some (.p2Mov wP), some (.p2Movi wP), some (.p2Iaddi wP), some (.p2Imin wP),
      some (.p2Imax wP), some (.p2Fadd wP), some (.p2Fsub wP), some (.p2Fmul wP), some (.p2Fmin wP), some (.p2Fmax wP),
      some (.icmpeq wP), some (.icmplt wP), some (.fcmplt wP), some (.p2Nop wP)] := by decide +kernel

/-- The exit kinds of R31. -/
theorem test_decode_trailer : [0xC1C6FFFFFE14F0F0, 0xC5C6FFFFFE14F0F0, 0xC9C6FFFFFE14F0F0, 0xCDC6FFFFFE14F0F0,
      0xD1C6FFFFFE14F0F0, 0xD5C6FFFFFE14F0F0, 0xD9C6FFFFFE14F0F0, 0xDDC6FFFFFE14F0F0].map (fun w => (decode w).toOption) =
    [some (.fall wT), some (.bra wT), some (.brx wT), some (.call wT), some (.callx wT), some (.ret wT), some (.exit wT),
      some (.loop wT)] := by decide +kernel

/-- The copy commands of R41 with their counts of extra words. -/
theorem test_decode_cmd : ([(0x0101000000000000, [0x11]), (0x0001000000000004, []), (0x0601000000000000, [0x11, 0x22]),
      (0x0901000000000000, [0x11]), (0x0E01000000000000, [0x11, 0x22]), (0x1101000000000000, [0x11]), (0x1501000000000000,
      [0x11]), (0x1901000000000000, [0x11]), (0x1E01000000000000, [0x11, 0x22]), (0x2201000000000000, [0x11, 0x22]),
      (0x2401000000000000, []), (0x2B01000000000000, [0x11, 0x22, 0x33]), (0x2D01000000000000, [0x11]), (0x3001000000000000,
      [])] : List (Word64 × List Word64)).map (fun c => (decodeCmd c.1 c.2).toOption) =
    [some (.cwin (cmd 0 [0x11])), some (.cwin (cmd 4 [])), some (.cwina (cmd 0 [0x11, 0x22])), some (.cfill (cmd 0 [0x11])),
      some (.cmcast (cmd 0 [0x11, 0x22])), some (.cring (cmd 0 [0x11])), some (.cslot (cmd 0 [0x11])),
      some (.cqf (cmd 0 [0x11])), some (.csig (cmd 0 [0x11, 0x22])), some (.cwait (cmd 0 [0x11, 0x22])),
      some (.cloop (cmd 0 [])), some (.cnet (cmd 0 [0x11, 0x22, 0x33])), some (.czero (cmd 0 [0x11])),
      some (.cend (cmd 0 []))] := by decide +kernel

/-! ### Well-formed and ill-formed instructions: one term for each check -/

/-- Two sources, as IADD has them: C unused. -/
def wAB : F3 := { wF with c := 0xF0, kw := 6 }

theorem test_well_formed : ([.iadd wAB, .imad wF, .iadd { wAB with a := 0xE3, kw := 2 }, .movi { wX with a := 0xF0, kw := false },
    .movh { wX with a := 0xF0, kw := false }, .p2Iadd wP, .bra wT, .loop { wT with a0 := 0xE3 }, .exit { wT with target := 0, a0 := 0xF0 },
    .cwin (cmd 4 []), .cmcast (cmd 0 [0, 0]), .sret { wF with d := 0xF0, a := 0xF0, b := 0xF0, c := 0xF0, kw := 0 },
    .msync { wF with d := 0xF0, a := 0xF0, b := 0xF0, c := 0xF0, kw := 0 }] : List Instr).map Instr.wellFormed =
    List.replicate 13 true := by decide +kernel

/-- An unused operand that is not 0xF0 (R19), an unassigned modifier value (R153), an odd pair (R23), a temporary as the destination of a
long-latency instruction (R40), a reserved operand code (R20), keep-wait on a code that takes none (R24), a neighbour select where
there is none (R22), an odd MOVH (R136), reserved bits of an X word (R25), the counts 0 and 25 of a trailer (R31), its reserved bit,
a LOOP without a counter (R34), a second target of a RET (R31), a P2 NOP with operands (R30), another row's modifier (R149), an
extra word too few (R41), a reserved field of a copy command's opcode space, and an event. -/
theorem test_ill_formed : ([.iadd wF, .iadd { wAB with md := 6 }, .iadd { wAB with md := 1, b := 6, d := 12, a := 5 },
    .idiv { wAB with d := 0xC0 }, .iadd { wAB with a := 0xC6 }, .iadd { wAB with a := 0xF1, kw := 6 }, .nop { wF with d := 0xF0, a := 0xF0, b := 0xF0, c := 0xF0, kw := 0, ns := 1 },
    .movh { wX with d := 13, a := 0xF0, kw := false }, .movi { wX with a := 0xF0, kw := false, rsv := 1 }, .bra { wT with count := 0 },
    .bra { wT with count := 25 }, .bra { wT with rsv := true }, .loop { wT with a0 := 0xF0 }, .ret { wT with a0 := 0xF0 },
    .p2Nop wP, .pmovGet { wF with a := 0xF0, b := 0xF0, c := 0xF0, kw := 0, md := 1 }, .cwin (cmd 0 []), .cend (cmd 0 [0]),
    .kick] : List Instr).map Instr.wellFormed = List.replicate 19 false := by decide +kernel

/-! ### States that meet the hypotheses -/

/-- The state in which a loaded word issues. -/
def begun (w : Word64) : State := { State.reset.loadWord w with issuer := .group (loadTeam w 0).1 0 }

/-- Its team changed. -/
def edit (g : Team → Team) (s : State) : State :=
  match s.issuer with
  | .group k _ => s.updTeam k g
  | _ => s

def editThread (g : Thread → Thread) : State → State := edit fun t => { t with threads := t.threads.map g }

/-- v registers of its thread written. -/
def regs (vs : List (Nat × Word32)) : State → State :=
  editThread fun th => { th with v := vs.foldl (fun v e => modAt v e.1 fun _ => VReg.write e.2) th.v }

def f3Of (w : Word64) : F3 := unpackF3 w
def opOf (w : Word64) : Nat := field w 61 52
def xOf (w : Word64) : XW := unpackX w
def xopOf (w : Word64) : Nat := field w 61 56

/-- What the issuing group's lanes gather for the word, when some lane performs and none faults or waits. -/
def fit (m : Act → BitVec 64) (guard : Thread → Bool) (acc : List Acc) (s : State) : Option (List LaneIn) :=
  s.act.bind fun a =>
    let gs := s.gathered a (m a) guard acc
    if (gs.all fun g => g.isSkip || g.input?.isSome) && !(gs.filterMap Got.input?).isEmpty then some (gs.filterMap Got.input?) else none

def fitF3 (m : Act → BitVec 64) (w : Word64) (s : State) : Bool :=
  (match f3Sig (opOf w) (f3Of w) with | some g => !g.bad | none => false) &&
    (fit m (fun th => th.guard (f3Of w).gs (f3Of w).gp) (f3Acc (opOf w) (f3Of w)) s).isSome

def fitX (m : Act → BitVec 64) (w : Word64) (s : State) : Bool :=
  (match xSig (xopOf w) (xOf w) with | some g => !g.bad | none => false) &&
    (fit m (fun th => th.guard (xOf w).gs (xOf w).gp) (xAcc (xopOf w) (xOf w)) s).isSome

theorem ready_of_fit {m : Act → BitVec 64} {guard : Thread → Bool} {acc : List Acc} {s : State}
    (h : (fit m guard acc s).isSome = true) :
    ∃ a ins, s.act = some a ∧ ins ≠ [] ∧ s.ready a (m a) guard acc ins := by
  unfold fit at h
  cases ha : s.act with
  | none => simp [ha] at h
  | some a =>
    simp only [ha, Option.bind_some] at h
    split at h
    · rename_i hc
      simp only [Bool.and_eq_true, List.all_eq_true, Bool.not_eq_true', List.isEmpty_eq_false_iff] at hc
      refine ⟨a, _, rfl, hc.2, fun g hg => ?_, rfl⟩
      have := hc.1 g hg
      simpa using this
    · simp at h

theorem f3_of_fit {w : Word64} {s : State} (h : fitF3 (·.grp.lanes) w s = true) :
    ∃ a ins, ins ≠ [] ∧ s.readyF3 a (opOf w) (f3Of w) ins := by
  simp only [fitF3, Bool.and_eq_true] at h
  obtain ⟨a, ins, ha, hn, hr⟩ := ready_of_fit h.2
  refine ⟨a, ins, hn, ha, ?_, hr⟩
  cases hg : f3Sig (opOf w) (f3Of w) with
  | none => simp [hg] at h
  | some g => exact ⟨g, rfl, by simpa [hg] using h.1⟩

theorem lanesF3_of_fit {w : Word64} {s : State} (h : fitF3 Act.left w s = true) :
    ∃ a ins, ins ≠ [] ∧ s.lanesF3 a (opOf w) (f3Of w) ins := by
  simp only [fitF3, Bool.and_eq_true] at h
  obtain ⟨a, ins, ha, hn, hr⟩ := ready_of_fit h.2
  refine ⟨a, ins, hn, ha, ?_, hr⟩
  cases hg : f3Sig (opOf w) (f3Of w) with
  | none => simp [hg] at h
  | some g => exact ⟨g, rfl, by simpa [hg] using h.1⟩

theorem x_of_fit {w : Word64} {s : State} (h : fitX (·.grp.lanes) w s = true) :
    ∃ a ins, ins ≠ [] ∧ s.readyX a (xopOf w) (xOf w) ins := by
  simp only [fitX, Bool.and_eq_true] at h
  obtain ⟨a, ins, ha, hn, hr⟩ := ready_of_fit h.2
  refine ⟨a, ins, hn, ha, ?_, hr⟩
  cases hg : xSig (xopOf w) (xOf w) with
  | none => simp [hg] at h
  | some g => exact ⟨g, rfl, by simpa [hg] using h.1⟩


/-- An F3 word under guard p7 from its fields, and an X word. -/
def fw (op : Nat) (d a b c : Code) (kw : BitVec 3) (md : BitVec 8) : Word64 :=
  packF3 op { gs := false, gp := 7, d := d, a := a, b := b, c := c, lu := 0, kw := kw, ns := 0, md := md }
def xw (op : Nat) (d a : Code) (kw : Bool) (imm : Word32) : Word64 :=
  packX op { gs := false, gp := 7, d := d, a := a, lu := false, kw := kw, rsv := 0, imm := imm }
/-- A word with the one source v4 or v4:v5, with two (B v8) and with three (C v16). -/
def f1 (op : Nat) (d : Code) (md : BitVec 8) : Word64 := fw op d 4 0xF0 0xF0 4 md
def f2 (op : Nat) (d : Code) (md : BitVec 8) : Word64 := fw op d 4 8 0xF0 6 md
def f3 (op : Nat) (d : Code) (md : BitVec 8) : Word64 := fw op d 4 8 16 7 md

/-- Each of the words is ready for a group with a lane that performs it, in the state in which it was loaded. -/
def ReadyF3 (ws : List Word64) : Prop := ∀ w ∈ ws, ∃ (s : State) (a : Act) (ins : List LaneIn), ins ≠ [] ∧ s.readyF3 a (opOf w) (f3Of w) ins
def ReadyX (ws : List Word64) : Prop := ∀ w ∈ ws, ∃ (s : State) (a : Act) (ins : List LaneIn), ins ≠ [] ∧ s.readyX a (xopOf w) (xOf w) ins

theorem readyF3_of (ws : List Word64) (h : (ws.all fun w => fitF3 (·.grp.lanes) w (begun w)) = true) : ReadyF3 ws :=
  fun w hw => let ⟨a, ins, hn, hr⟩ := f3_of_fit (List.all_eq_true.mp h w hw); ⟨_, a, ins, hn, hr⟩

theorem readyX_of (ws : List Word64) (h : (ws.all fun w => fitX (·.grp.lanes) w (begun w)) = true) : ReadyX ws :=
  fun w hw => let ⟨a, ins, hn, hr⟩ := x_of_fit (List.all_eq_true.mp h w hw); ⟨_, a, ins, hn, hr⟩

/-- The issuing group and the operands of its one lane, for a word that performs lane by lane. -/
def laneOf (g : Option Sig) (guard : Thread → Bool) (acc : List Acc) (s : State) : Option (Act × LaneIn) :=
  match g, s.act with
  | some g, some a => if g.bad then none else match s.gathered a a.left guard acc with | [.ok i] => some (a, i) | _ => none
  | _, _ => none
def laneF3 (w : Word64) (s : State) : Option (Act × LaneIn) :=
  laneOf (f3Sig (opOf w) (f3Of w)) (fun th => th.guard (f3Of w).gs (f3Of w).gp) (f3Acc (opOf w) (f3Of w)) s
def laneX (w : Word64) (s : State) : Option (Act × LaneIn) :=
  laneOf (xSig (xopOf w) (xOf w)) (fun th => th.guard (xOf w).gs (xOf w).gp) (xAcc (xopOf w) (xOf w)) s

theorem ready_of_lane {g : Option Sig} {guard : Thread → Bool} {acc : List Acc} {s : State} {a : Act} {i : LaneIn}
    (h : laneOf g guard acc s = some (a, i)) : s.act = some a ∧ (∃ x, g = some x ∧ x.bad = false) ∧ s.ready a a.left guard acc [i] := by
  unfold laneOf at h
  split at h
  · rename_i x b hb
    split at h
    · simp at h
    · split at h
      · rename_i hx _ i' hg
        simp only [Option.some.injEq, Prod.mk.injEq] at h
        obtain ⟨rfl, rfl⟩ := h
        exact ⟨hb, ⟨x, rfl, by simpa using hx⟩, by simp [State.ready, hg, Got.isSkip, Got.input?]⟩
      · simp at h
  · simp at h

/-- A lane found so meets the hypothesis of a statement about a word that performs lane by lane. -/
theorem lanesF3_of {w : Word64} {s : State} {a : Act} {i : LaneIn} (h : laneF3 w s = some (a, i)) :
    s.lanesF3 a (opOf w) (f3Of w) [i] := ready_of_lane h

theorem lanesX_of {w : Word64} {s : State} {a : Act} {i : LaneIn} (h : laneX w s = some (a, i)) :
    s.lanesX a (xopOf w) (xOf w) [i] := ready_of_lane h

/-- For one lane a chain is its one link: what the witnesses below check of a lane is then the chain of their statement. -/
theorem chain_one {R : LaneIn → Bool → State → State → Prop} {lead : Option Nat} {i : LaneIn} {s t : State}
    (h : R i (decide (lead = some i.lane)) s t) : LaneChain R lead [i] s t :=
  .cons h (.nil t)

def ok {ε α : Type} : Except ε α → Option α
  | .ok a => some a
  | .error _ => none
/-- The value of an access that succeeds, with the state after it. -/
def got {ε α : Type} (r : State × Except ε α) : Option (State × α) := (ok r.2).map (r.1, ·)

/-! ### Witnesses: value words -/

theorem witness_IntegerArithmetic : ReadyF3 [f2 0x000 12 0, f2 0x000 12 2, f2 0x000 12 5, f2 0x001 12 4, f2 0x002 12 1, f3 0x003 12 0,
    f3 0x003 12 2, f2 0x004 12 4, f2 0x005 12 0, f2 0x006 12 5, f1 0x007 12 2, f3 0x017 12 1] := readyF3_of _ (by decide +kernel)

theorem witness_LogicAndShifts : ReadyF3 [f2 0x008 12 0, f2 0x009 12 1, f2 0x00A 12 0, f2 0x00B 12 0, f2 0x00C 12 0, f2 0x00D 12 2,
    f2 0x00E 12 1, f2 0x00F 12 2] := readyF3_of _ (by decide +kernel)

theorem witness_BitFields : ReadyF3 [f1 0x010 12 1, f1 0x011 12 0, f1 0x012 12 1, f2 0x013 12 4, f3 0x014 12 0] :=
  readyF3_of _ (by decide +kernel)

theorem witness_MovesAndImmediates : ReadyF3 [f1 0x016 12 0, f2 0x015 12 8, f2 0x018 12 3] ∧
    ReadyX [xw 0 12 0xF0 false 7, xw 1 12 0xF0 false 7, xw 2 12 4 true 7, xw 3 12 4 true 7, xw 4 12 4 true 7, xw 5 12 4 true 7,
      xw 7 12 4 true 0x3F800000] := ⟨readyF3_of _ (by decide +kernel), readyX_of _ (by decide +kernel)⟩

theorem witness_Division : (∃ w : F3, 0xC0 ≤ w.d.toNat ∧ w.d.toNat ≤ 0xC5) ∧
    ReadyF3 [f2 0x019 12 0, f2 0x019 12 5, f2 0x01A 12 4, f2 0x01A 12 1] :=
  ⟨⟨f3Of (f2 0x019 0xC5 0), by decide⟩, readyF3_of _ (by decide +kernel)⟩

theorem witness_Compares : ReadyF3 [f2 0x040 0x12 0x10, f2 0x040 0x12 0x81, f2 0x041 0x70 0, f2 0x042 0x12 0x6F] ∧
    ReadyX [xw 6 0x12 4 true 0xFFFFF010] := ⟨readyF3_of _ (by decide +kernel), readyX_of _ (by decide +kernel)⟩

theorem witness_PredicateMoves : (∃ w v : F3, 7 < w.a.toNat ∧ v.md.getLsbD 0 = false ∧ v.md ≠ 0) ∧ (∃ w : F3, w.b ≠ 0xF0) ∧ ReadyF3 [fw 0x043 0x12 1 2 7 0 0xE8, fw 0x044 12 0xF0 0xF0 0xF0 0 0] ∧
    ReadyF3 [fw 0x044 0xF0 4 0xF0 0xF0 4 0xFF] :=
  ⟨⟨f3Of (fw 0x043 0x12 8 2 7 0 0xE8), f3Of (fw 0x044 12 0xF0 0xF0 0xF0 0 2), by decide⟩, ⟨f3Of (fw 0x043 0x12 8 2 7 0 0xE8), by decide⟩,
    readyF3_of _ (by decide +kernel), readyF3_of _ (by decide +kernel)⟩

theorem witness_FloatingPoint : ReadyF3 [f2 0x080 12 0, f2 0x081 12 0x65, f2 0x082 12 0x12, f3 0x083 12 0x80, f2 0x084 12 0, f2 0x085 12 0,
    f1 0x08D 12 4, f1 0x08F 12 0] := readyF3_of _ (by decide +kernel)

theorem witness_SpecialFunctions : ReadyF3 [f1 0x086 12 0, f1 0x087 12 0x10, f1 0x088 12 4, f1 0x089 12 1, f1 0x08A 12 2, f1 0x08B 12 0,
    f1 0x08C 12 0, f2 0x08E 12 0] := readyF3_of _ (by decide +kernel)

theorem witness_ConvertAndPack : ReadyF3 [fw 0x0C0 12 4 0xF0 0x10 4 0x10, f2 0x0C1 12 1, f1 0x0C2 12 2, f2 0x0C8 12 0, f3 0x0C9 12 0] :=
  readyF3_of _ (by decide +kernel)

theorem witness_DotProducts : ReadyF3 [f3 0x0C3 12 7, f3 0x0C4 12 0, f3 0x0C5 12 2, f3 0x0C6 12 0, f3 0x0C7 12 1] :=
  readyF3_of _ (by decide +kernel)

theorem witness_Directions : ReadyF3 [fw 0x100 0xD8 4 0xF0 0xF0 4 0, fw 0x101 12 0xD9 0xF0 0xF0 0 0, fw 0x102 0xD8 0xD9 0xDA 0xF0 0 0,
    fw 0x103 0xD8 0xD9 0xDA 0xF0 0 1, fw 0x104 0xD8 0xD9 0xDA 16 1 0, fw 0x105 12 0xD9 0xDA 0xF0 0 4, fw 0x106 12 0xD9 0xDA 0xF0 0 0,
    fw 0x107 0xD8 0xD9 8 0xF0 2 0, fw 0x108 0xD8 0xD9 0xF0 0xF0 0 0, fw 0x109 0xD8 4 0xF0 0xF0 4 0, fw 0x10A 0xD8 0xD9 0xDA 0xF0 0 0,
    fw 0x10B 0xD8 0xD9 0xF0 0xF0 0 4] := readyF3_of _ (by decide +kernel)

/-- v4 holds a valid index value for IXSET (base 4, extent 188, the last that the allotment of 192 has), a cursor for IXCUR, and %ix2
has extent 1. -/
theorem witness_IndexRegisters :
    ReadyF3 [f1 0x140 0xF0 2, fw 0x141 12 0xF0 0xF0 0xF0 0 2, fw 0x144 0xF0 4 0xF0 0xF0 0 4, fw 0x144 0xF0 0xCA 0xF0 0xF0 0 0] ∧
    (do let w := f1 0x140 0xF0 2
        let (a, i) ← laneF3 w (regs [(4, 0x2000BC04)] (begun w))
        let th ← a.lane? i.lane
        guard (lo32 (i.val 0) = 0x2000BC04 ∧ 0x04 + 0xBC ≤ th.v.length)).isSome = true ∧
    ([fw 0x142 0xF0 0xF0 0xF0 0xF0 0 2, fw 0x142 0xF0 4 0xF0 0xF0 4 10].all fun w =>
      (do let (_, i) ← laneF3 w (editThread (fun th => { th with ix := modAt th.ix 2 fun _ => 0x20000100 }) (begun w))
          guard ((i.ix.getD 2 0).extractLsb' 8 8 ≠ 0)).isSome) = true ∧
    (do let w := f1 0x143 0xF0 2
        let (_, i) ← laneF3 w (regs [(4, 255)] (begun w))
        guard (lo32 (i.val 0) < 256)).isSome = true :=
  ⟨readyF3_of _ (by decide +kernel), by decide +kernel, by decide +kernel, by decide +kernel⟩

theorem witness_PairWords : ([0x400409200A0C1A40, (encode (.p2Nop { wP with hi := { g := 0, d := 0xF0, b := 0xF0, luA := false, luB := false, kw := false, imm := 0 } })).getD 0].all
    fun w => (do
      let s := begun w
      let i ← ok (decode w)
      let (o, p) ← match i with | .p2Iadd p => some (P2Op.iadd, p) | .p2Nop p => some (.nop, p) | _ => none
      let _ ← s.act
      let hi := fit (·.grp.lanes) (fun th => decide (o ≠ P2Op.nop) && th.guardP2 p.hi.g) (p2Acc o p.hi) s
      let lo := fit (·.grp.lanes) (fun th => decide (p.lop ≠ P2Op.nop) && th.guardP2 p.lo.g) (p2Acc p.lop p.lo) s
      guard (hi.isSome = decide (o ≠ P2Op.nop) ∧ lo.isSome)).isSome) = true := by decide +kernel

/-! ### Witnesses: masks and cross-lane words -/

/-- MEET with v4:v5 at a multiple of 8; MWAIT with a guard that fails, with no member of the mask but its own lane, and with another;
MWAIT by the second of two groups that wait on a mask of lanes 0 and 1; two threads that meet, and one whose mate is on its way. -/
theorem witness_MasksAndMeeting :
    ReadyF3 [fw 0x1C0 0xF0 0xF0 0xF0 0xF0 0 11, fw 0x1C1 0xF0 0xF0 0xF0 0xF0 0 0, f1 0x1C3 0xF0 11, fw 0x1C4 12 0xF0 0xF0 0xF0 0 11,
      fw 0x1C6 0xF0 0xF0 0xFF 0xFE 0 0] ∧
    (do let (_, i) ← laneF3 (f1 0x1C5 0xF0 0) (regs [(4, 0xFFFFFFF8), (5, 1)] (begun (f1 0x1C5 0xF0 0)))
        guard ((lo64 (i.val 0)).extractLsb' 0 3 = 0)).isSome = true ∧
    ([(0, 0), (7, 1), (7, 3)].all fun (g, m) => (do
      let w := packF3 0x1C2 { wF with gp := g, d := 0xF0, a := 0xF0, b := 0xF0, c := 0xF0, kw := 0, md := 11 }
      let s := edit (fun t => { t with m := modAt t.m 11 fun _ => m }) (begun w)
      let a ← s.act
      let wait := laneMask ((laneList a.grp.lanes).filter fun l => a.passes (fun th => th.guard (f3Of w).gs (f3Of w).gp) l)
      guard (unpackF3 a.word = f3Of w ∧ (∀ t ∈ a.team.threads, t.stat ≠ TStat.meet) ∧ a.team.groups.length = 1 ∧ a.team.m.getD 11 0 = m ∧
        wait = (if g = 7 then 1 else 0))).isSome) = true ∧
    (do let w := packF3 0x1C2 { wF with d := 0xF0, a := 0xF0, b := 0xF0, c := 0xF0, kw := 0, md := 11 }
        let s := edit (fun t => { t with
          m := modAt t.m 11 (fun _ => 3), threads := t.threads ++ t.threads
          groups := t.groups ++ (t.groups.map fun (g : Group) => { g with lanes := 2, hold := Hold.mwait 11 }) }) (begun w)
        let a ← s.act
        guard (unpackF3 a.word = f3Of w ∧ (∀ t ∈ a.team.threads, t.stat ≠ TStat.meet) ∧ a.team.m.getD 11 0 = 3 ∧
          (a.team.groups.map Group.hold) = [Hold.none, Hold.mwait 11] ∧
          ([0, 1].all fun l => a.passes (fun th => th.guard (f3Of w).gs (f3Of w).gp) l) = true)).isSome = true ∧
    ([(TStat.meet, true), (TStat.atLeg, false)].all fun (st, all) => (do
      let s := edit (fun t => { t with groups := [], threads := (t.threads.map fun (th : Thread) => { th with stat := TStat.meet, mt := 8 }) ++
        (t.threads.map fun (th : Thread) => { th with stat := st, mt := 8 }) }) (begun 0)
      let (_, t) ← s.teams.head?
      guard (t.groups = [] ∧ t.threads.length = 2 ∧
        (t.threads.all fun (o : Thread) => decide (o.mt = 8 ∧ (o.stat = TStat.meet ∨ o.stat = TStat.exited))) = all)).isSome) = true :=
  ⟨readyF3_of _ (by decide +kernel), by decide +kernel, by decide +kernel, by decide +kernel, by decide +kernel⟩

/-- Under %grp, and under %all with the one lane that must arrive. -/
theorem witness_CrossLane : ([0x180, 0x181, 0x182, 0x183].all fun op => [13, 12].all fun code => (do
    let w := fw op 12 4 (if op = 0x180 then 8 else if op = 0x183 then 10 else 0xF0) 0xF0 (if op = 0x180 then 6 else 4) code
    let s := begun w
    let a ← s.act
    let g ← f3Sig op (f3Of w)
    let ls := s.crossGather a.key op (f3Of w) [a.g] (a.team.mustArrive a.grp.lanes 0)
    let (snap, left) := a.team.snapshot a.grp.at 12
    let t := s.updGroup a.key a.g (fun g => { g with hold := .cross snap left, since := s.clock })
    let team ← tget t.teams a.key
    let gs := team.heldAt a.grp.at
    guard (g.bad = false ∧ a.grp.hold = Hold.none ∧ ls.length = 1 ∧ (ls.all fun c => c.got.input?.isSome) = true ∧
      team.snapshot a.grp.at 12 = (snap, left) ∧ gs = [a.g] ∧ team.mustArrive snap left &&& ~~~(team.lanesOf gs) = 0 ∧ code ∈ [12, 13] ∧ team.snapshot a.grp.at 12 = (snap, left) ∧
      ((t.crossGather a.key op (f3Of w) gs (team.mustArrive snap left)).all fun c => c.got.input?.isSome) = true)).isSome) = true := by decide +kernel

/-! ### Witnesses: memory

Handle 2 is a flat object of one resident granule that reads, writes and takes atomics; handle 1 is a tensor of 131,072 elements of INT4,
handle 3 a tensor of 65,536 bytes of INT8;
handle 4 a relay queue of 16 records; handle 5 a flat object with a moving granule;
handle 6 a system-shared object in the pool (R207, R209, R211, R319). -/
def recordOf : Nat → List Word64
  | 1 => [0x4B3, 0x0107000000020008, 0x10000, 0x100020000, 0x100000001, 0x0000001100000001]
  | 2 => [0x4B1, 0x20010, 0x10000]
  | 3 => [0x4B3, 0x010A000000020018, 0x10000, 0x100010000, 0x100000001, 0x0000001000000001]
  | 4 => [0x4B7, 0x20020, 0x10000]
  | 6 => [0x4BB, 0x20030, 0x10000]
  | _ => [0x4B1, 0x20028, 0x10000]
/-- The listed bytes of doublewords from an address up. -/
def cells (a : Nat) (ws : List Word64) : Memory :=
  (((ws.map fun w => toBytes 8 w.toNat).flatten).zipIdx.map fun e => (a + e.2, e.1)).filter fun e => e.2 ≠ 0
/-- The state of a loaded word with the tables of some of these objects, ascending, and some v registers written. -/
def world (hs : List Nat) (w : Word64) (vs : List (Nat × Word32)) : State :=
  regs vs (edit (fun t => { t with ortSize := 7 }) { begun w with mem :=
    (hs.map fun h => cells (0x10000 + 64 * h) (recordOf h)).flatten ++
    (hs.map fun h => cells (0x20000 + 8 * h) [if h = 6 then 0x200000000001 else BitVec.ofNat 64 ((h + 2) * 0x10000 + (if h = 5 then 2 else 1))]).flatten ++
    (if hs.contains 4 then cells 0x60000 [0x00010004] else []) })

/-- A 4-byte load of the last word of a granule, under LD and under LD.co. -/
theorem witness_GlobalLoads : ([2, 0x42].all fun imm => (do
    let w := xw 8 12 4 true imm
    let s := world [2] w [(4, 0xFFFC), (5, 0x200)]
    let (a, i) ← laneX w s
    let va := globalAddr (xOf w) i
    guard (xopOf w = 8 ∧ a.left = a.grp.lanes ∧ s.waitsHeld a i.lane va 4 4 .load = false)
    let (s1, x) ← got (s.translate a.team.agent va 4 4 .load)
    let (s2, _) ← got (s1.coreRead a.team.l1 (dieOf a.team.core) x 4 (accPolicy (xOf w)))
    let (s3, x) ← got (s2.translate a.team.agent va 4 4 .load)
    got (s3.coreRead a.team.l1 (dieOf a.team.core) x 4 (accPolicy (xOf w)))).isSome) = true := by decide +kernel

theorem witness_GlobalStores :
    (do let w := xw 9 12 4 true 4
        let s := world [2] w [(4, 0xFFF0), (5, 0x200)]
        let (a, i) ← laneX w s
        let va := globalAddr (xOf w) i
        guard (s.waitsHeld a i.lane va 16 16 .store = false)
        let (s1, x) ← got (s.translate a.team.agent va 16 16 .store)
        guard ((s1.writeLane a i.lane va x (storedBytes 16 (i.val 1)) 0).2 = none)).isSome = true ∧
    (laneX (xw 17 0xF0 4 true 0) (begun (xw 17 0xF0 4 true 0))).isSome = true := by decide +kernel

/-- The last aligned place of the window of 64 KiB, and of the saddlebag of 4,096 bytes. -/
theorem witness_LocalAccesses : ([(10, 65532), (11, 65532), (12, 4092), (13, 4092)].all fun (op, o) => (do
    let w := xw op 12 4 true 2
    let s := world [] w [(4, o)]
    let (a, i) ← laneX w s
    let th ← a.lane? i.lane
    let n := (localAddr (xOf w) i).toNat
    guard (s.heldAcq a i.lane = false ∧ n % 4 = 0)
    if op < 12 then (s.window a.team.block n 4).bind fun p => (tget s.blocks p.1).map fun _ => () else guard (n + 4 ≤ th.bagBytes)).isSome) =
    true := by decide +kernel

theorem witness_DirectionImages : ([14, 15].all fun op => (do
    let w := xw op 0xD8 4 true 1
    let s := world [2] w [(4, 0xFFB8), (5, 0x200)]
    let (a, i) ← laneX w s
    let (s1, xs) ← got (s.xlWords a.team.agent (globalAddr (xOf w) i) (if op = 14 then .load else .store) 17)
    guard (xs.length = 17 ∧
      (xs.zipIdx.all fun e => !s1.heldBy a i.lane (globalAddr (xOf w) i + BitVec.ofNat 64 (4 * e.2)) e.1) = true)
    if op = 14 then (got (s1.readWords a 0 xs)).map fun _ => ()
    else guard ((xs.all fun x => (s1.busFault (dieOf a.team.core) x 4 true).2.isNone) = true)).isSome) = true := by decide +kernel

/-- SLOTST at the last KiB, of a claimed slot, and ACCLD at the last row of bank 1. -/
theorem witness_OperandSlots : ([(16, 2047), (18, 511)].all fun (op, v) => (do
    let w := xw op 12 4 true 0
    let s := (world [] w [(4, v)]).updHitch 0 fun h =>
      { h with fork := some (1, 0), asid := some 0, runs := [{ first := 127, n := 1, released := false, path := [] }] }
    let (a, i) ← laneX w s
    guard (a.left = a.grp.lanes ∧ lo32 (i.val 0) = v ∧ hitchOf a.team.core = 0 ∧ (s.hitch 0).asid = some a.team.asid ∧
      s.heldAcq a i.lane = false ∧
      s.slotClaimed 0 (2047 / 16) a.team.asid = true)).isSome) = true := by decide +kernel

/-- The last four elements of the tensor. -/
theorem witness_CoordinateAccesses : ([0x300, 0x301].all fun op => (do
    let w := fw op 12 4 8 0xF0 6 2
    let s := world [3] w [(4, 0), (5, 0x300), (8, 65532)]
    let (a, i) ← laneF3 w s
    let (s1, c, _) ← got (s.coordRun a (a.thread i.lane) i.lane (f3Of w) (lo64 (i.val 0)) (if op = 0x300 then .load else .store))
    guard (s1.heldBy a i.lane c.va c.x = false ∧ (match (s.coordRun a (a.thread i.lane) i.lane (f3Of w) (lo64 (i.val 0))
      (if op = 0x300 then .load else .store)).2 with | .error (.wait _) => false | _ => true) = true)
    if op = 0x300 then (got (s1.coreRead a.team.l1 (dieOf a.team.core) c.x c.bytes 0)).map fun _ => ()
    else guard (c.bits % 8 = 0 ∧ (s1.writeLane a i.lane c.va c.x
      (spliceBits (List.replicate c.bytes 0) c.bit c.bits (ofBytes (storedBytes 4 (i.val 1)))) 0).2 = none)).isSome) = true := by
  decide +kernel

/-! ### Witnesses: atomics, waits, reservations and fences -/

/-- The place of the lane of a G8 word: in the object, in its scratchpad or in the moving granule. -/
def placedOf (s : State) (a : Act) (w : F3) (i : LaneIn) (n : Nat) (u : Use) (rel read : Bool) : Option (State × Spot × Bool) := do
  let (s0, sp) ← got (s.place a.team i.lane (lo64 (i.val 0)) (mdField w.md 2 0) n u)
  guard (s.spotWaits a i.lane (lo64 (i.val 0)) sp rel = false)
  got (s0.admitLane a i.lane (lo64 (i.val 0)) sp n (mdField w.md 4 3) read u.write)

/-- Every operation at device scope with acquire and release on a word of the object; one on the scratchpad and one on a moving
granule, whose handles are 0xFFFFFF and 5. -/
theorem witness_AtomicsComplete : (((List.range 10).map fun k => (k, (0x200 : Word32), (0x1B : BitVec 8))) ++
      [(0, 0xFFFFFF00, 0x98), (9, 0xFFFFFF00, 0x98), (0, 0x500, 0x9B)]).all (fun (k, h, md) => (do
    let w := (if k = 7 ∨ k = 9 then f3 else f2) (0x200 + k) (if md.msb then 12 else 0xF0) md
    let s := world (if h = 0x500 then [5] else [2]) w [(4, 0xFFFC), (5, h)]
    let (a, i) ← laneF3 w s
    let op ← [AtomOp.add, .min, .max, .and, .or, .xor, .exch, .cas, .fadd, .addw][k]?
    let (s1, sp, ordered) ← placedOf s a (f3Of w) i 4 .atom true true
    match sp with
    | .scratch blk off => guard (ordered = true ∧ (s1.scratchRead blk off 4).2 = [0, 0, 0, 0])
    | .glob x _ =>
      if x.moving then guard ((s1.busFault 0 x 4 true).2 = none)
      else do
        let t := (s1.releaseIn a fun _ => true).claimSpot (hitchOf a.team.core) sp
        guard ((t.busFault 0 x 4 true).2 = none ∧ s1.faultMark sp 4 = none)
        let (s3, bs) ← got ((t.busFault 0 x 4 true).1.busRead 0 x 4 false)
        match atomTable op false (BitVec.ofNat 32 (ofBytes bs)) (g8Src 32 (i.val 1)) (g8Src 32 (i.val 2)) with
        | some v => guard ((s3.busWrite 0 x (toBytes 4 v.toNat) false).2 = none)
        | none => none).isSome) = true := by decide +kernel

/-- AWAIT of a location that is 0, .eq 0, and of one that has been woken, whose destination its lane marked empty; LRES; and SCND
with a reservation of its line and without one, in the object and in scratchpad. -/
theorem witness_WaitsAndReservations :
    (do let w := fw 0x20A 12 4 8 0 6 0x8B
        let s := world [2] w [(4, 0xFFFC), (5, 0x200)]
        let (a, i) ← laneF3 w s
        let (s0, sp) ← got (s.place a.team i.lane (lo64 (i.val 0)) 3 4 .atomRead)
        guard (s.spotWaits a i.lane (lo64 (i.val 0)) sp false = false ∧ s.watchOf a.key i.lane = none)
        let (s1, sp, o) ← got (s0.admitLane a i.lane (lo64 (i.val 0)) sp 4 1 true false)
        let sp := sp.under o
        let t := s1.claimSpot (hitchOf a.team.core) sp
        let (s2, v) ← got (t.spotRead (dieOf a.team.core) sp 4)
        guard (o = true ∧ s2.faultMark sp 4 = none ∧ intHolds false 0 (v.setWidth 32) (g8Src 32 (i.val 1)) = true)).isSome = true ∧
    (do let w := fw 0x20A 12 4 8 0 6 0x8B
        let s0 := world [2] w [(4, 0xFFFC), (5, 0x200), (8, 7)]
        let (key, _) ← s0.teams.head?
        let s := edit (fun t => { t with groups := t.groups.map fun (g : Group) => { g with hold := Hold.wait 0 } })
          (editThread (fun th => { th with v := modAt th.v 12 fun r => r.empty })
            { s0 with watches := [{ unit := 0, scratch := false, loc := 0x4FFFC, width := 4, cond := 0, sgn := false, cmp := 7
                                    engine := false, key := key, lane := 0, woken := true, since := 0, registered := true
                                    degraded := false, dest := .v 12 1 }] })
        guard (laneF3 w s).isNone
        let r := s.refillGroup
        let (a, i) ← laneF3 w r
        let (s0, sp) ← got (r.place a.team i.lane (lo64 (i.val 0)) 3 4 .atomRead)
        let x ← r.watchOf a.key i.lane
        guard (x.woken = true ∧ r.spotWaits a i.lane (lo64 (i.val 0)) sp false = false)
        let (s1, sp, _) ← got (s0.admitLane a i.lane (lo64 (i.val 0)) sp 4 0 true false)
        let sp := sp.under true
        let t := s1.claimSpot (hitchOf a.team.core) sp
        let (s2, v) ← got (t.spotRead (dieOf a.team.core) sp 4)
        guard (s2.faultMark sp 4 = none ∧ intHolds false 0 (v.setWidth 32) (g8Src 32 (i.val 1)) = false)).isSome = true ∧
    ([true, false].all fun r => (do
      let s := edit (fun t => { t with res := if r then some (scratchLine 1 0) else none }) (begun 0)
      let (_, t) ← s.teams.head?
      guard (t.res = some (scratchLine 1 0) ↔ r = true)).isSome) = true ∧
    ([(0x20B, .none), (0x20C, none), (0x20C, some (0x4FF80 / 128))].all fun (op, r) => (do
      let w := if op = 0x20B then f1 op 12 0x8B else f2 op 12 0x13
      let s := edit (fun t => { t with res := r }) (world [2] w [(4, 0xFF80), (5, 0x200)])
      let (a, i) ← laneF3 w s
      let (s1, sp, o) ← placedOf s a (f3Of w) i 4 (if op = 0x20B then .atomRead else .atom) (op = 0x20C) (op = 0x20B)
      let x ← match sp with | .glob x _ => some x | .scratch .. => none
      guard (o = true ∧ x.moving = false)
      let t := (if op = 0x20B then s1 else s1.releaseIn a fun _ => true).claimSpot (hitchOf a.team.core) sp
      if op = 0x20B then do
        let (s2, _) ← got (t.spotRead (dieOf a.team.core) sp 4)
        guard (s2.faultMark sp 4 = none)
      else do
        let team ← tget t.teams a.key
        guard ((team.res = some (x.pa / 128) ↔ r.isSome = true) ∧ (t.busWrite 0 x [0, 0, 0, 0] false).2 = none ∧ (t.busFault 0 x 4 true).2 = none)
        (ok (t.scndAt (dieOf a.team.core) (some a.key) sp 4 0).2).map fun _ => ()).isSome) = true := by decide +kernel

/-- FENCE at device scope; FENCER of no bytes and of the last bytes of the object. -/
theorem witness_Fences : ([(0x20D, 0), (0x20E, 0), (0x20E, 4)].all fun (op, n) => (do
    let w := if op = 0x20D then fw op 0xF0 0xF0 0xF0 0xF0 0 0x1B else f2 op 0xF0 0x1B
    let s := world [2] w [(4, 0xFFFC), (5, 0x200), (8, n)]
    let (a, i) ← laneF3 w s
    guard (s.heldAny a i.lane = false ∧ s.held = [] ∧ a.team.acqPending i.lane = false ∧ (op = 0x20E → lo32 (i.val 1) = n))).isSome) = true := by decide +kernel

/-! ### Witnesses: barriers, rings and queues -/

/-- A loaded word whose block has barrier 15 as given. -/
def atBarrier (w : Word64) (vs : List (Nat × Word32)) (b : Barrier) : State :=
  (regs vs (begun w)).updBlock 1 fun k => { k with bars := modAt k.bars 15 fun _ => b }

/-- BARI of one thread, the most that the block has; BARA and BARAW at the last arrival, BARAW at the first of two, which holds; BARW
of a phase that has completed. -/
theorem witness_Barriers :
    (do let w := f1 0x240 0xF0 15
        let s := atBarrier w [(4, 1)] (newBarrier 1)
        let (a, i) ← laneF3 w s
        let (r, limit) ← s.barRef a.team 15
        guard (lo32 (i.val 0) = 1 ∧ limit = 1 ∧ (s.bar r).a = 0 ∧ (s.bar r).carried = [])).isSome = true ∧
    ([(0x241, 1), (0x243, 1), (0x243, 2)].all fun (op, n) => (do
      let w := fw op 12 0xF0 0xF0 0xF0 0 15
      let s := atBarrier w [] (newBarrier n)
      let (a, i) ← laneF3 w s
      let (r, _) ← s.barRef a.team 15
      let (b, ph) ← (s.bar r).arrive (a.barId i.lane)
      let t := (s.releaseIn a fun _ => true).setBar r b
      let (r', _) ← t.barRef a.team 15
      guard (s.heldAny a i.lane = false ∧ a.grp.hold = Hold.none ∧ (op = 0x243 → (((t.bar r').p - ph).toNat = 1 ↔ n = 1)))).isSome) = true ∧
    (do let w := f1 0x242 0xF0 15
        let s := atBarrier w [(4, 0xFFFFFFFF)] (newBarrier 1)
        let (a, i) ← laneF3 w s
        let (r, _) ← s.barRef a.team 15
        guard (1 ≤ ((s.bar r).p - lo32 (i.val 0)).toNat)).isSome = true ∧
    -- an arrival below the count, the last with one and with all of the next phase carried, a second one, and a third or a strict one
    ([({ newBarrier 3 with a := 1, arrived := [5] }, 6), ({ newBarrier 2 with a := 1, arrived := [5], carried := [5] }, 6),
      ({ newBarrier 1 with carried := [5] }, 6), ({ newBarrier 3 with a := 1, arrived := [6] }, 6)].all fun ((b : Barrier), u) =>
        (b.arrive u).isSome) = true ∧
    ([{ newBarrier 3 with a := 1, arrived := [6], carried := [6] }, { newBarrier 3 with a := 1, arrived := [6], strict := true }].all
      fun (b : Barrier) => (b.arrive 6).isNone) = true := by decide +kernel

/-- A loaded word whose block has a ring descriptor at offset 0 with these counts of filled and free slots. -/
def atRing (w : Word64) (vs : List (Nat × Word32)) (filled free : Word32) : State :=
  (regs vs (begun w)).updBlock 1 fun k => { k with scratch := writeBytes [] 0 (wordsBytes [64, 0x00020010, filled, free, 0, 0, 1, 0]) }

/-- RINIT of the largest ring of 16-byte slots that ends at the window's end; RACQ of a free and of a filled slot, .try with none;
RREL of either role. -/
theorem witness_SlotRings :
    (do let w := f3 0x244 0xF0 0
        let s := regs [(4, 0), (8, 0xC000), (16, 0x04000010)] (begun w)
        let (a, i) ← laneF3 w s
        let _ ← ok (s.ringPlace a.team i.lane (lo32 (i.val 0)))
        guard (lo32 (i.val 1) = 0xC000 ∧ lo32 (i.val 2) = 0x04000010 ∧ 0xC000 + 16 * 1024 ≤ s.windowLimit a.team.block 0 ∧
          s.heldAny a i.lane = false)).isSome = true ∧
    ([(0x245, 1, 0, 1), (0x245, 0, 1, 0), (0x245, 3, 0, 0), (0x246, 0, 0, 1), (0x246, 1, 1, 0)].all fun (op, md, filled, free) => (do
      let w := f1 op (if op = 0x245 then 12 else 0xF0) md
      let s := atRing w [] (BitVec.ofNat 32 filled) (BitVec.ofNat 32 free)
      let (a, i) ← laneF3 w s
      let r ← ok (s.ringOf a.team i.lane (lo32 (i.val 0)))
      guard (r.filled = filled ∧ r.free = free ∧ s.heldAny a i.lane = false ∧ s.heldAcq a i.lane = false ∧ r.filled + r.free < r.count)).isSome) = true ∧
    -- a waiting consumer with a filled slot, a waiting producer with a free one, one behind a copy queue, and neither
    ([(false, 1, 0, 9, true), (true, 0, 1, 9, true), (true, 0, 1, 1, false), (false, 0, 1, 9, false)].all fun (prod, filled, free, k, serves) =>
      (do let s := atRing (f1 0x245 12 0) [] (BitVec.ofNat 32 filled) (BitVec.ofNat 32 free)
          let s := edit (fun t => { t with pend := [{ lane := 0, dest := .v 12 1, words := [0], killed := [], newer := []
                                                      wait := .ring 1 0 prod, order := 5 }] }) s
          let s := if k = 1 then s.updQueue 0 0 fun q => { q with ringWait := some (1, 0, 1) } else s
          let (order, _, i) ← s.oldestPend fun p => decide (p.wait = Wait.ring 1 0 prod)
          let r := s.ringAt 1 0
          guard (order = 5 ∧ i = 0 ∧ (s.oldestPend fun p => decide (p.wait = Wait.ring 1 0 (!prod))) = none ∧
            (decide ((if prod then r.free else r.filled) ≠ 0) && !(prod && s.engineAhead 1 0 order)) = serves)).isSome) = true := by
  decide +kernel

/-- QPUSH to an empty queue, QPOP of an empty queue, which waits or answers zeros, and JDEC of the counters 1 and 2. -/
theorem witness_RelayQueues :
    ([0, 1].all fun md => (do
      let w := f2 0x247 0xF0 md
      let s := world [4] w [(4, 0), (5, 0x400)]
      let (a, i) ← laneF3 w s
      guard (s.heldAny a i.lane = false ∧ s.heldAcq a i.lane = false)
      match s.push a i.lane (lo64 (i.val 0)) (i.val 1) (w.getLsbD 0) (fun s => if w.getLsbD 0 then s.deferRelease a i.lane else s) with
        | .ok _ => some ()
        | _ => none).isSome) = true ∧
    ([0, 1].all fun md => (do
      let w := f1 0x248 8 md
      let s := world [4] w [(4, 0), (5, 0x400)]
      let (a, i) ← laneF3 w s
      let (u, q) ← got (s.relayAt a.team (lo64 (i.val 0)) .load)
      guard (s.heldAcq a i.lane = false ∧ q.pushed = q.popped ∧ q.at'.moving = false ∧
        (u.popFails a.team (lo64 (i.val 0)) q.at'.pa).isNone = true)).isSome) = true ∧
    ([1, 2].all fun n => (do
      let w := f1 0x249 0xF0 0
      let s := world [2, 4] w [(4, 0), (5, 0x200)]
      let s := { s with mem := writeBytes s.mem 0x40000 (toBytes 8 n ++ toBytes 8 0x0000040000000000) }
      let (a, i) ← laneF3 w s
      let (s1, x) ← got (s.translate a.team.agent (lo64 (i.val 0)) 64 64 .atom)
      guard (s.heldAny a i.lane = false ∧ x.moving = false)
      let (s2, bs) ← got (((s1.releaseIn a fun _ => true).evictOwn a x).busRead 0 x 64)
      let ws := bytesWords 16 bs
      let r := s2.busWrite 0 x (toBytes 4 (ws.getD 0 0 - 1).toNat)
      guard (ws.getD 0 0 = BitVec.ofNat 32 n ∧ r.2 = none ∧ a.team.kind ≠ Kind.scalar ∧ ([1, 4, 5, 6, 7].all fun k => decide (ws.getD k 0 = 0)) = true)
      if n = 1 then match (r.1.acquireIn a fun _ => true).push a i.lane (ws.getD 3 0 ++ ws.getD 2 0) (ws.drop 8) false id with
        | .ok _ => some ()
        | _ => none
      else some ()).isSome) = true ∧
    -- a pop that waits for a record of core 5, with a deferred release and without one; one of an empty queue; and one whose header has
    -- left memory
    ([(1, 1), (1, 0), (0, 0), (2, 0)].all fun (pushed, mark) => (do
      let s0 := world (if pushed = 2 then [] else [4]) (f1 0x248 8 0) [(4, 0), (5, 0x400)]
      let waits (p : Pend) : Bool := match p.wait with | .relay h .. => decide (h = 0x60000) | _ => false
      let s := edit (fun t => { t with pend := [{ lane := 0, dest := .v 8 8, words := [0, 0x400], killed := [], newer := []
                                                  wait := .relay 0x60000 0x0000010000000000 0 0, order := 5 }] })
        { s0 with mem := writeBytes (writeBytes s0.mem 0x60008 (toBytes 8 pushed)) 0x60060 (wordsBytes [5, BitVec.ofNat 32 mark]) }
      let (_, key, i) ← s.oldestPend waits
      let team ← tget s.teams key
      let p ← team.pend[i]?
      match s.relayAt team (lo64 p.words) .load with
      | (s1, .error f) => guard (pushed = 2 ∧ (s1.failPop key i p f).isSome = true)
      | (s1, .ok q) =>
      if pushed = 0 then guard (q.pushed = q.popped)
      else do
        guard (q.pushed ≠ q.popped ∧ q.at'.moving = false)
        let (v, x) ← got (s1.xlBytes team.agent q.h q.record (64 + 64 * (q.popped.toNat % 2 ^ q.log)) 64 64)
        let (_, bs) ← got ((v.evictFor team x).busRead (dieOf team.core) x 64)
        let ws := bytesWords 16 bs
        guard ((ws.getD 9 0).getLsbD 0 = decide (mark = 1) ∧ ((ws.getD 8 0).extractLsb' 0 11).toNat = 5 ∧ team.core ≠ 5)).isSome) = true := by
  decide +kernel

theorem witness_PushEffect : (do
    let w := f2 0x247 0xF0 0
    let s := world [4] w [(4, 0), (5, 0x400)]
    let (a, i) ← laneF3 w s
    let (s1, q) ← got (s.relayAt a.team (lo64 (i.val 0)) .store)
    let (s2, x) ← got (s1.relayEntry a.team q q.pushed)
    guard (q.pushed - q.popped ≠ BitVec.ofNat 64 (2 ^ q.log) ∧ q.at'.moving = false ∧ x.moving = false)
    let r := s2.busWrite 0 x (wordsBytes (List.replicate 16 7))
    let r' := r.1.busWrite 0 { q.at' with pa := q.at'.pa + 8 } (toBytes 8 (q.pushed + 1).toNat)
    guard (r.2 = none ∧ r'.2 = none)).isSome = true := by decide +kernel

/-! ### Witnesses: the hitch, forks and copies -/

/-- Die 0 with a region 0 of which every quantity of hitches may be charged. -/
def withRegion (s : State) : State :=
  ({ s with
    mem := writeBytes (writeBytes s.mem 0x80000 [1]) 0x8005C (List.replicate 8 0xFF)
    dies := modAt s.dies 0 fun d => { d with regionBase := 0x80000, regionCount := 1 } } : State).updBlock 1 fun b =>
      { b with tab := { die := 0, base := 0x80000, count := 1, sup := 0 } }
def hitched (f : Hitch → Hitch) (s : State) : State := s.updHitch 0 f
def event (o : Occ) (s : State) : State := { s with issuer := .event o }
def run0 (first n : Nat) : Run := { first := first, n := n, released := false, path := [] }
/-- Queue 0 of die 0 open to region 0. -/
def queueOpen (s : State) : State := s.updQueue 0 0 fun k => { k with enabled := true }

/-- MCLAIM of a single slot and .try of a full slot memory; MRELS of the last slot; MLDW, MSTREAM (at the last row of its slot, into row
255), MZERO and MDRAIN; MSYNC of an empty array and .hand with a load queued. -/
theorem witness_MatrixInstructions :
    (do let w := fw 0x280 12 0xF0 0xF0 0xF0 0 0
        let s := withRegion (begun w)
        let (a, _) ← laneF3 w s
        guard ((s.hitch (hitchOf a.team.core)).runs = [])
        match s.tryCharge (s.tabFor (dieOf a.team.core) a.team.block) a.team.region.toNat [(8, 1)] with
          | .ok _ _ => some ()
          | _ => none).isSome = true ∧
    (do let w := fw 0x280 12 0xF0 0xF0 0xF0 0 4
        let s := hitched (fun h => { h with runs := [run0 0 128] }) (begun w)
        let (a, _) ← laneF3 w s
        guard (hitchOf a.team.core = 0 ∧ (f3Of w).md.getLsbD 2 = true)).isSome = true ∧
    -- .try with a free slot and an exhausted budget
    (do let w := fw 0x280 12 0xF0 0xF0 0xF0 0 4
        let s := { withRegion (begun w) with mem := writeBytes (begun w).mem 0x80000 [1] }
        let (a, _) ← laneF3 w s
        guard ((s.hitch (hitchOf a.team.core)).runs = [])
        match s.tryCharge (s.tabFor (dieOf a.team.core) a.team.block) a.team.region.toNat [(8, 1)] with
          | .wait => some ()
          | _ => none).isSome = true ∧
    (do let w := f1 0x281 0xF0 0
        let s := hitched (fun h => { h with runs := [run0 127 1] }) (regs [(4, 127)] (begun w))
        let (a, i) ← laneF3 w s
        guard (hitchOf a.team.core = 0 ∧ lo32 (i.val 0) = 127)).isSome = true ∧
    ([(0x282, 0x27E, 0x4000, 0), (0x283, 0x0200007E + 0x7F00, 0x4000, 0xFF), (0x284, 0x1FF, 0, 0), (0x285, 0xFF, 0, 0)].all fun (op, x, y, z) => (do
      let w := if op = 0x282 then f2 op 0xF0 0 else if op = 0x284 then f1 op 0xF0 0 else f3 op 0xF0 0
      let s := queueOpen (hitched (fun h => { h with runs := [run0 126 2], lastFmt := some 2 })
        (regs [(4, BitVec.ofNat 32 x), (8, BitVec.ofNat 32 y), (16, BitVec.ofNat 32 z)] (begun w)))
      let (a, i) ← laneF3 w s
      let h := s.hitch (hitchOf a.team.core)
      let v := lo32 (i.val 0)
      guard (v = BitVec.ofNat 32 x ∧ h.arrayQ = [] ∧ s.heldAcq a i.lane = false ∧ h.lastFmt = some 2)
      if op = 0x282 then guard (v.extractLsb' 12 20 = 0 ∧ (v.extractLsb' 0 8).toNat = 126 ∧ (v.extractLsb' 8 4).toNat = 2 ∧
        (ArrOp.ldw v (lo32 (i.val 1))).slots = [126, 127])
      else if op = 0x283 then guard ((v.extractLsb' 28 4).toNat = 0 ∧ (v.extractLsb' 24 4).toNat = 2 ∧ (v.extractLsb' 16 8).toNat = 0 ∧
        (v.extractLsb' 0 8).toNat * 16384 + (v.extractLsb' 8 8).toNat * 128 + 128 ≤ 2 ^ 21 ∧
        (ArrOp.stream v (lo32 (i.val 1)) (lo32 (i.val 2))).slots = [126] ∧ lo32 (i.val 2) = 0xFF)
      else if op = 0x284 then guard ((v.extractLsb' 0 8).toNat = 255 ∧ (v.extractLsb' 16 16).toNat = 0)
      else guard ((lo32 (i.val 1)).toNat = 0 ∧ (s.queue (dieOf a.team.core) 0).owner = a.team.region ∧
        (s.queue (dieOf a.team.core) 0).enabled = true)).isSome) = true ∧
    (laneF3 (fw 0x286 0xF0 0xF0 0xF0 0xF0 0 0) (begun (fw 0x286 0xF0 0xF0 0xF0 0xF0 0 0))).isSome = true ∧
    (laneF3 (fw 0x286 0xF0 0xF0 0xF0 0xF0 0 1) (hitched (fun h => { h with arrayQ := [.zero 0] }) (begun (fw 0x286 0xF0 0xF0 0xF0 0xF0 0 1)))).isSome =
      true := by decide +kernel

/-- An array operation behind a drain of other rows, and a drain behind an operation on other rows. -/
theorem witness_ArrayOperations :
    ([ArrOp.ldw 0x200 0x4000, .stream 0x02000000 0x4000 0, .zero 0].all fun o =>
      let d := ArrOp.drain 0x10F 0 0 none 0
      let h := (event (.hitch 0) (hitched (fun h => { h with arrayQ := [d, o], weights := some { fmt := 2, tile := [], scales := [] } })
        State.reset)).hitch 0
      decide (h.arrayQ = [d] ++ o :: [] ∧ d.isDrain = true ∧ (∀ r ∈ o.rows, r ∉ h.locked ∧ r ∉ d.rows) ∧ h.weights.isSome = true)) = true ∧
    (do let w := fw 0x286 0xF0 0xF0 0xF0 0xF0 0 0
        let s := event (.hitch 0) (hitched (fun h => { h with arrayQ := [.zero 0x100, .drain 0 0 0 none 0] }) (begun w))
        let _ ← tget s.teams (reinKey 0)
        guard (s.occ = Occ.hitch 0 ∧ (s.hitch 0).fork = some (1, 0) ∧ (∀ r ∈ accRows 0, r ∉ (ArrOp.zero 0x100).rows) ∧
          (s.queue 0 0).state = QState.idle ∧ (s.queue 0 0).fifo = [])).isSome = true := by decide +kernel

/-- The scratchpad of block 1 with the words of a rendezvous object at its last place. -/
def withRdv (w0 : Word32) (s : State) : State :=
  s.updBlock 1 fun k => { k with scratch := writeBytes [] 65504 (wordsBytes [w0, 0, 0, 0, 0, 0, 0, 0]) }

/-- FORK of a queue with and without the rein core; RDV of a fork whose parties have ended, of an aborted one, and RDV.abort; CPY of a
command with and without an inline record. -/
theorem witness_ForksAndCopies :
    ([2, 3].all fun d0 => (do
      let w := f2 0x2C0 0xF0 0
      let s := queueOpen (withRegion (world [2] w [(4, 0), (5, 0x200), (8, 65504)]))
      let s := { s with mem := writeBytes s.mem 0x40000 ((toBytes 8 d0) ++ (([0x0000010000000000, 0, 0x0000010000000000] : List Nat).map (toBytes 8)).flatten) }
      let (a, i) ← laneF3 w s
      let (s1, ds) ← got (s.readDoubles a (lo64 (i.val 0)) 8)
      let d := forkDesc ds
      guard (d.reserved = false ∧ d.queues = [0] ∧ d.rein = decide (d0 = 3) ∧ (s1.queue 0 0).owner = a.team.region ∧
        (s1.queue 0 0).enabled = true ∧ (s1.queue 0 0).state = QState.idle ∧ s1.rdvPlace a.team i.lane (lo32 (i.val 1)) = none ∧
        d.entry.toNat % 8 = 0 ∧ d.progs = [0x0000010000000000] ∧ s.heldAny a i.lane = false ∧ (s1.hitch 0).fork = none)
      match s1.tryCharge (s1.tabFor 0 a.team.block) a.team.region.toNat [(7, 1)] with
        | .ok _ _ => some ()
        | _ => none).isSome) = true ∧
    ([(0, 0x11), (0, 0x101), (1, 0x11)].all fun (md, w0) => (do
      let w := f1 0x2C1 12 (BitVec.ofNat 8 md)
      let s := withRdv (BitVec.ofNat 32 w0) (regs [(4, 65504)] (begun w))
      let (a, i) ← laneF3 w s
      let u := if md = 1 then (s.abortFork 1 65504).updRdv 1 65504 0 (· ||| 0x100) else s
      let x := u.scratchWord 1 65504
      guard (a.team.block = 1 ∧ s.rdvPlace a.team i.lane (lo32 (i.val 0)) = none ∧ s.rdvReserved 1 65504 = false ∧
        (x.getLsbD 8 = true ∨ (u.rdvStopped 0 1 65504 = none ∧ x.extractLsb' 0 4 &&& ~~~(x.extractLsb' 4 4) = 0)))).isSome) = true ∧
    ([0, 1].all fun md => (do
      let w := if md = 1 then f3 0x2C2 0xF0 1 else f2 0x2C2 0xF0 0
      let s := queueOpen (regs [(4, 4), (5, 0), (8, 0)] (begun w))
      let (a, i) ← laneF3 w s
      let k := s.queue 0 (lo32 (i.val 1)).toNat
      guard (k.owner = a.team.region ∧ k.enabled = true ∧ k.state = QState.idle ∧ k.fifo = [] ∧ s.heldAny a i.lane = false ∧
        lo64 (i.val 0) = 4)).isSome) = true ∧
    (do let w := f1 0x2C1 12 0
        let s := edit (fun t => { t with rdvLimit := 1, groups := t.groups.map fun (g : Group) => { g with hold := .wait 0 } })
          (withRdv 1 (regs [(4, 65504)] (begun w)))
        let s := event (.group (loadTeam w 0).1 0) { s with clock := 2 }
        let a ← s.actOf (loadTeam w 0).1 0
        let v ← match decode a.word with | .ok (.rdv v) => some v | _ => none
        let i ← match s.gathered a a.left (fun th => th.guard v.gs v.gp) (f3Acc 0x2C1 v) with | [.ok i] => some i | _ => none
        let x := s.scratchWord 1 65504
        guard (a.team.block = 1 ∧ lo32 (i.val 0) = 65504 ∧ s.rdvPlace a.team i.lane 65504 = none ∧ s.rdvReserved 1 65504 = false ∧ x = 1 ∧ s.rdvStopped 0 1 65504 = none ∧
          a.team.rdvLimit = 1 ∧ 1 < s.rdvAge 1 65504)).isSome = true := by decide +kernel

/-! ### Witnesses: copy commands -/

/-- A record of one INT8 element: the last of the object of handle 2, to the last byte of a window; or of the scratchpad. -/
def recordTsr (fmt origin off dest : Word32) : Tsr :=
  [0x00010001 + fmt * 16, 0, origin, 0x10000, 1, 1, 1, 1, 0, 0, 0, 0, off, 0, 0, 0, 0, 0x00010001, 0x00010001, 1, 0, 7, dest, 0]
/-- Queue 0 of die 0 with a command in progress for block 1. -/
def engineAt (hs : List Nat) (tsr : Option Tsr) (f : Queue → Queue) : State :=
  let s := world hs 0 []
  let c : Ctx := { asid := 0, ortBase := 0x10000, ortSize := 7, mode := .s, region := 0, reloc := 0 }
  let e : Entry := { word := 0, extra := [], tsr := tsr, ctx := c, drain := none, hitch := 0, pc := some 0x0000010000000000, rows := []
                     unlocked := false }
  { s.updQueue 0 0 (fun k => f { k with state := .bound, block := some 1, cur := some e }) with issuer := .queue 0 0 }
/-- The command of the issuing queue, which no held write stops. -/
def engineOf (s : State) : Option QAct := do
  let a ← s.queueAct 0 0
  guard (s.issuer = Issuer.queue 0 0 ∧ s.queueHeld 0 0 = false)
  pure a

/-- CWIN of either direction, CFILL of the scratchpad and of the tensor, and CSLOT, each of one element; CWINA from the tensor to the
scratchpad and within it. -/
theorem witness_WindowCommands :
    ([(4, 0x7), (5, 0x7), (4, 0x5), (5, 0x5), (4, 0x4)].all fun (f, mask) => (do
      let slot := decide (mask = 4)
      let c := cmd (BitVec.ofNat 48 f) []
      let r := recordTsr 10 0x200 65535 (if slot then 2 ^ 21 - 1 else 65535)
      let s := hitched (fun h => { h with fork := some (1, 0), asid := some 0, runs := [run0 127 1] }) (engineAt [2] (some r) id)
      let a ← engineOf s
      let (s1, r) ← got (s.commandTsr a c)
      let j := winIndex (tsrSize r) 0
      guard (c.fields &&& ~~~(BitVec.ofNat 48 mask) = 0 ∧ tsrScratch r = false ∧ tsrCount r = 1 ∧ a.elem = 0 ∧ tsrElem r j = Elem.at' 65535)
      if slot then guard (s1.slotStop (s1.hitchOfBlock a.blk) a.entry.ctx.asid r = none)
      else guard (s1.scratchStop a r = none)
      let (u, v) ← got (s1.tensorRead a r 65535)
      match u.tensorWrite a r 65535 v with
        | .done _ => some ()
        | _ => none).isSome) = true ∧
    ([0x200, 0xFFFFFF00].all fun h => (do
      let s := engineAt [2] none id
      let a ← engineOf s
      let r := recordTsr 10 h 65535 0
      let y := recordTsr 10 0xFFFFFF00 0 0
      guard (tsrFault r true = none ∧ tsrFault y true = none ∧ pairStop r y = none ∧ s.viewStop a r = none ∧ s.viewStop a y = none ∧
        tsrCount r = 1)
      let (u, v) ← got (s.viewRead a r 0)
      match u.viewWrite a y 0 (v.getD 0) with
        | .done _ => guard v.isSome
        | _ => none).isSome) = true ∧
    -- the record of a CWINA, read from memory
    (do let s := engineAt [2] none id
        let s := { s with mem := writeBytes s.mem 0x40000 (wordsBytes (recordTsr 10 0x200 0 0)) }
        let a ← engineOf s
        let (_, r) ← got (s.readTsr a 0x0000020000000000)
        guard (r = recordTsr 10 0x200 0 0)).isSome = true ∧
    -- a drain of row 255 of bank 1
    (do let s := event (.queue 0 0) (engineAt [2] (some (recordTsr 0 0x200 0 (5 * 2 ^ 24))) fun k =>
          { k with cur := k.cur.map fun (e : Entry) => { e with drain := some (0x1FF, 0) } })
        let a ← s.queueAct 0 0
        let r ← a.entry.tsr
        guard (s.occ = Occ.queue 0 0 ∧ s.queueHeld 0 0 = false ∧ a.entry.drain = some (0x1FF, 0) ∧ drainFault r (accRows 0x1FF).length = none ∧
          tsrScratch r = false ∧ tsrCount r = 1)
        match (s.unlockDrain a 0x1FF).tensorWrite a r 0 0 with
          | .done _ => some ()
          | _ => none).isSome = true := by decide +kernel

/-- CMCAST of 16 bytes to the end of a window; CRING of one slot; CQF of two points that have come; CSIG and CWAIT; CLOOP with one pass
left; CZERO of the last frame of a stack; CEND. -/
theorem witness_OtherCommands :
    (do let c := cmd 0x1000001 [0x000002000000FFF0, 0x0000FFF000000010]
        let s := engineAt [2] none id
        let a ← engineOf s
        let ts ← s.targets a 1 1
        let _ ← got (s.engineBytes a (c.extra.getD 0 0) 16)
        guard (c.fields &&& ~~~0x3FFFFFF = 0 ∧ (ts.all fun d => (s.targetStop a 0xFFF0 16 d).isNone) = true ∧ a.elem = 0)).isSome = true ∧
    (do let c := cmd 0x000100000000 [0x000002000000FFF0]
        let s := (engineAt [2] none id).updBlock 1 fun k => { k with scratch := writeBytes [] 0 (wordsBytes [64, 0x00010010, 0, 1, 0, 0, 1, 0]) }
        let a ← engineOf s
        match s.ringSlot a 0 (c.extra.getD 0 0) 0 with
          | .done _ => guard (c.fields = 0x000100000000)
          | _ => none).isSome = true ∧
    (do let s := (engineAt [] none id).updQueue 0 31 fun k => { k with progress := 0x7FFFFFFF }
        let a ← engineOf s
        guard (a.q = 0 ∧ (s.queue 0 31).state = QState.idle ∧ ((s.queue 0 31).progress - 0).toNat < 2 ^ 31)).isSome = true ∧
    ([2, 3].all fun scope => (do
      let s := engineAt [2] none id
      let a ← engineOf s
      let (s1, y) ← got (s.signalPlace a.die a.blk a.entry.ctx 0x000002000000FFFC scope 4)
      let _ ← got (s1.rmw a.die y 4 .add false 1 0 false)
      guard (y.moving = false)).isSome) = true ∧
    (do let s := engineAt [2] none id
        let a ← engineOf s
        let (s1, y, eff) ← got (s.enginePlace a.die a.entry.ctx 0x000002000000FFFC 2 4 .atomRead)
        let (s2, b) ← got (s1.admitAt (s1.degrades a.blk) (s.hitchOfBlock a.blk) y 4 eff 1 true fun s => s.busFault a.die y 4 false)
        let sp := (Spot.glob y eff).under b
        let (_, v) ← got ((s2.claimSpot (s.hitchOfBlock a.blk) sp).spotRead a.die sp 4)
        guard ((s.queueWatch a).isNone ∧ intHolds false 0 (v.setWidth 32) (0 : Word32) = true)).isSome = true ∧
    (do let s := engineAt [] none fun k => { k with armed := [false, true], cnt := [0, 1] }
        let a ← engineOf s
        guard (a.entry.pc = some 0x0000010000000000 ∧ ((0x800001FFFFFF : BitVec 48).extractLsb' 0 24).toInt < 0 ∧
          ((0x800001FFFFFF : BitVec 48).extractLsb' 24 23).toNat ≠ 0)).isSome = true ∧
    (do let s := engineAt [] none id
        let a ← engineOf s
        guard (a.entry.ctx.mode = Mode.s ∧ backedFrames 0xEE6B1 1 = true ∧ (tget s.keys 0).isSome ∧
          (s.busFault a.die (frameXl 0xEE6B1 0) 128 true).2 = none)).isSome = true := by decide +kernel

/-- A put of two bytes to the pool: its start, its last byte acknowledged, and its time-out. -/
theorem witness_RemoteCopies : (do
    let s := engineAt [2, 6] none fun k => { k with cur := k.cur.map fun (e : Entry) =>
      { e with word := 0x2B00000000000000, extra := [0x000002000000FFFE, 0x000006000000FFFE, 2] } }
    let s := { s with clock := 121600, dies := modAt s.dies 0 fun d => { d with featEnabled := 7 } }
    let a ← engineOf s
    let (_, c) ← s.netAct 0 0
    let _ ← got (s.netPlaces a c 0)
    guard ((s.queue 0 0).sent = none ∧ c.fields = 0 ∧ ((c.extra.getD 2 0).extractLsb' 0 32).toNat = 2 ∧ a.elem = 0)
    let t := s.updQueue 0 0 fun k => { k with sent := some 0, elem := 1, tries := 7 }
    let (a, c) ← t.netAct 0 0
    guard (t.queueHeld 0 0 = false ∧ a.elem = 1 ∧ 121600 ≤ t.clock - 0)
    match t.netByte a c 1 with
      | .done _ => some ()
      | _ => none).isSome = true := by decide +kernel

/-! ### Witnesses: trailers, traps and handlers -/

/-- The issuing group's exits are none of them faults, and each stands at a leg start. -/
def goes (s : State) (a : Act) (w : TW) (f : Nat → Thread → Exit) : Bool :=
  let es := a.exits w f
  let u := s.updTeam a.key fun t => t.adopt a.grp.lanes
  match tget u.teams a.key with
  | some team => ((u.testExits a.key team es).2.all fun l => decide (l.test = .start)) &&
      es.all (fun e => match e.2 with | .fault _ => false | _ => true) && !es.isEmpty
  | none => false

/-- Trailers to the word after them, whose address is 0x0000010000000010: FALL, BRA and EXIT, BRX and CALLX by v10:v11, CALL with room for
one address, RET of the last one; LOOP at its last pass and before it, counting in v8 and in s3. -/
theorem witness_Trailers : ([(0, 0xF0), (1, 0xF0), (2, 0xF0), (3, 0xF0), (4, 0xF0), (5, 0xF0), (6, 8), (6, 0xE3), (7, 0xF0)].all fun (k, c) => [1, 2].all fun n => (do
    let v : TW := { wT with count := 2, target := if k = 2 ∨ k = 4 then 0x0A0000 else 0, a0 := c, a1 := 0xF0 }
    let s := edit (fun t => { t with s := modAt t.s 3 fun _ => { val := BitVec.ofNat 32 n, full := true } })
      (editThread (fun th => { th with bsp := if k = 5 then 4088 else 8, bag := writeBytes [] 4088 (toBytes 8 0x0000010000000010) })
        (regs [(8, BitVec.ofNat 32 n), (10, 0x10), (11, 0x100)] (begun (packT k v))))
    let a ← s.act
    let th ← a.lane? 0
    let after := a.grp.start + BitVec.ofNat 64 (8 * a.grp.leg.length)
    let pair : Word64 := (th.vreg 11).read ++ (th.vreg 10).read
    guard (a.grp.hold = Hold.none ∧ a.team.kind = Kind.vector ∧ after = 0x0000010000000010 ∧ pair = after ∧ (th.vreg 10).ready = true ∧
      (th.vreg 11).ready = true ∧ (k = 5 ∨ 8 ≤ th.bsp.toNat) ∧ (k ≠ 5 ∨ th.bsp.toNat + 8 = th.bagBytes) ∧
      ofBytes (readBytes th.bag 4088 8) = after.toNat ∧ (th.vreg 8).ready = true ∧ (th.vreg 8).read = BitVec.ofNat 32 n)
    guard (goes s a v fun _ th => match k with
      | 0 => .go after false none
      | 3 | 4 => .go after true (some (writeBytes th.bag (th.bsp.toNat - 8) (toBytes 8 after.toNat), th.bsp - 8))
      | 5 => .go after true (some (th.bag, th.bsp + 8))
      | 6 => if n = 1 then .go after false none else .go after true none
      | 7 => .exit
      | _ => .go after true none)).isSome) = true := by decide +kernel

theorem witness_TrapInstruction : ([f2 0x2C3 12 0, f1 0x2C3 0xF0 1].all fun w => (laneF3 w (begun w)).isSome) = true := by decide +kernel

/-- A team to trap; a trap queue of 16 slots with one free, and a record with entries of its first and its last lane. -/
theorem witness_TrapRecord : (do
    let s := (begun 0).updCore 0 fun k => { k with tqBase := 0x90004, tqHead := 0xFFFFFFFF, tqTail := 14 }
    let t ← tget s.teams (teamKey 0 0)
    let k := s.core 0
    let r : TrapRec := { words := List.replicate 16 7, detail := [(63, [1, 2, 3, 4]), (0, [5, 6, 7, 8])] }
    guard (t.kind ≠ Kind.scalar ∧ t.core < 2048 ∧ t.slot < 32 ∧ k.tqWait = [] ∧ Memory.wf s.mem = true ∧ k.tqBase ≠ 0 ∧
      (k.tqTail - k.tqHead).toNat + 1 = 2 ^ (k.tqBase.extractLsb' 0 6).toNat ∧ (k.tqBase.extractLsb' 6 42).toNat * 64 = 0x90000 ∧
      r.words.length = 16 ∧ (r.detail.all fun e => decide (e.1 < 64 ∧ e.2.length = 4)) = true ∧ (r.detail.map Prod.fst).Nodup)).isSome = true ∧
    ((List.range (1088 * 16)).all fun i => decide (rangeOf (0x90000 + i) = .hbm)) = true := by decide +kernel

/-- A word whose lane is the scalar lane of core 0, at the trailer of its leg once its SRET has been performed. -/
def sretWord : Word64 := fw 0x2C4 0xF0 0xF0 0xF0 0xF0 0 0
theorem witness_HandlerEntry : (do
    let t ← tget (begun sretWord).teams (scalarKey 0)
    let _ ← t.threads.head?
    pure ()).isSome = true := by decide +kernel

theorem witness_ReturnFromHandler : (laneF3 sretWord (begun sretWord)).isSome = true ∧
    (do let s := (edit (fun t => { t with groups := t.groups.map fun (g : Group) => { g with pos := 1 } }) (begun sretWord)).updCore 0 fun k =>
          { k with sret := true }
        let a ← s.act
        let _ ← a.team.threads.head?
        guard (a.grp.hold = Hold.none ∧ a.team.kind = Kind.scalar ∧ a.key = scalarKey a.team.core ∧ a.team.ortNext = [] ∧
          (s.core a.team.core).sret = true)).isSome = true := by decide +kernel

/-- TPOP.nb of an empty queue and TPOP of a record; TRES, and its .val form of a record that takes values; a record with a lane parked. -/
theorem witness_ServingRecords :
    ([(1, 0), (0, 1)].all fun (md, n) => (do
      let w := fw 0x2CF 16 0xF0 0xF0 0xF0 0 (BitVec.ofNat 8 md)
      let s := (begun w).updCore 0 fun k => { k with tqBase := 0x90004, tqTail := BitVec.ofNat 32 n, tqHand := BitVec.ofNat 32 n }
      let (a, _) ← laneF3 w s
      let k := s.core a.team.core
      let _ ← got ((s.acquireIn a fun _ => true).walkRead 0 (k.tqAddr + 64 * (k.tqHead.toNat % k.tqCap)) 64)
      guard (md = 1 ∨ k.tqHead ≠ k.tqHand)).isSome) = true ∧
    ([0, 3].all fun md => (do
      let w := fw 0x2D0 12 16 (if md = 0 then 0xF0 else 8) 0xF0 (if md = 0 then 4 else 6) (BitVec.ofNat 8 md)
      let s := regs [(16, 0x250), (24, 0x0C00)] (begun w)
      let (a, i) ← laneF3 w s
      guard (recordReserved (i.val 0) = false ∧ ((i.val 0).getD 0 0).getLsbD 9 = true ∧ (((i.val 0).getD 8 0).extractLsb' 8 8).toNat = 12 ∧ s.heldAny a i.lane = false)).isSome) =
      true ∧
    -- a value for v191, the last of the team, for t5 and for s15; a record of a block that waits; the mark of no record
    ([0xBF, 0xC5, 0xEF].all fun d => (do
      let s := editThread (fun th => { th with stat := .parked 0 5 0x50 1 .leg }) (begun 0)
      let r : List Word32 := [0x250, 0, 1, 0, 0, 0, 0, 0, BitVec.ofNat 32 (d * 256), 0, 0, 0, 0, 0, 0, 5]
      let team ← tget s.teams (teamKey 0 0)
      let th ← (team : Team).threads[0]?
      guard (s.waitingOn 0 5 = none ∧ s.handleTeam (r.getD 1 0) = some (teamKey 0 0) ∧ team.parkedBy 5 1 ≠ [] ∧ team.pend = [] ∧
        (if d = 0xBF then d < (th : Thread).v.length else if d = 0xC5 then 5 < th.t.length else d - 0xE0 < team.s.length))).isSome) = true ∧
    (do let s := (begun 0).updBlock 1 fun b => { b with waiting := some (0, 5, 1) }
        let (blk, _) ← s.waitingOn 0 5
        let _ ← tget s.blocks blk
        pure ()).isSome = true ∧
    (do let s := editThread (fun th => { th with stat := .parked 0 5 0x50 1 .leg }) (begun 0)
        let r : List Word32 := [0x50, 0, 1, 0, 0, 0, 0, 0, 0, 0, 0, 0, 0, 0, 0, 5]
        let team ← tget s.teams (teamKey 0 0)
        guard (s.waitingOn 0 5 = none ∧ s.handleTeam (r.getD 1 0) = some (teamKey 0 0) ∧ (team.parkedBy 5 1).length = 1 ∧
          noRecord = 0xFFFFFFFF)).isSome = true := by
  decide +kernel

/-! ### Witnesses: system registers and upkeep -/

/-- Whether a thread of a team may access a register, as the table of R346 says. -/
def may (t : Team) (n : Nat) (wide write : Bool) : Bool :=
  sysTable.any fun (m, k, who) => decide (m = n ∧ k = (if wide then 8 else 4) ∧ (who = 1 → t.mode = Mode.s) ∧ (who = 2 → t.kind = Kind.scalar) ∧
    (n = 0x050 → write = true → t.mode = Mode.s))
theorem mayAccess_of {t : Team} {n : Nat} {wide write : Bool} (h : may t n wide write = true) : t.mayAccess n wide write := by
  obtain ⟨⟨m, k, who⟩, he, h⟩ := List.any_eq_true.mp h
  simp only [decide_eq_true_eq] at h
  obtain ⟨rfl, rfl, hw⟩ := h
  exact ⟨who, he, hw⟩

/-- Every register of the table but the ones that trap, read by the scalar lane. -/
theorem witness_SystemReads : (sysTable.all fun (n, size, _) => (do
    let w := fw 0x2C5 12 0xF0 (BitVec.ofNat 8 (n / 256)) (BitVec.ofNat 8 n) 0 (if size = 8 then 1 else 0)
    let s := edit (fun t => { t with kind := .scalar }) (begun w)
    let (a, _) ← laneF3 w s
    guard (sysReg (f3Of w) = n ∧ may a.team n (size = 8) false = true)).isSome) = true := by decide +kernel

/-- A SYSWR of every register with a value that it takes, the largest where it has a range: number, width and value. -/
theorem witness_SystemWrites : (([(0x024, 0xFFFFFFFF), (0x030, 1), (0x031, 1), (0x033, 0x33F), (0x034, 8), (0x035, 8), (0x036, 0xFFFF),
      (0x037, 1), (0x022, 1), (0x060, 1), (0x070, 0), (0x071, 0), (0x072, 0), (0x073, 0), (0x010, 0xB), (0x040, 0xFFFFFFC0), (0x041, 0x1FFFFFF),
      (0x042, 0xFFFF), (0x020, 0x90004), (0x021, 0), (0x025, 0), (0x023, 65536), (0x080, 4096), (0x050, 7), (0x032, 0x3F), (0x038, 0xDFF),
      (0x039, 1)] : List (Nat × Nat)).all fun (n, x) => (do
    let size ← (tget sysTable n).map fun (e : Nat × Nat) => e.1
    let w := fw 0x2C6 0xF0 4 (BitVec.ofNat 8 (n / 256)) (BitVec.ofNat 8 n) 4 (if size = 8 then 1 else 0)
    let s := edit (fun t => { t with kind := .scalar }) (regs [(4, BitVec.ofNat 32 x), (5, 0)] (begun w))
    let (a, i) ← laneF3 w s
    let v := if size = 8 then lo64 (i.val 0) else (lo32 (i.val 0)).setWidth 64
    let k := s.core a.team.core
    guard (sysReg (f3Of w) = n ∧ may a.team n (size = 8) true = true ∧ v.toNat = x)
    let fits : Bool := match n with
      | 0x033 => decide (v.extractLsb' 10 22 = 0 ∧ v.extractLsb' 6 2 = 0)
      | 0x036 | 0x042 => decide (v.extractLsb' 16 16 = 0)
      | 0x010 => decide (a.team.mode = Mode.s)
      | 0x040 => decide (v.extractLsb' 48 16 = 0 ∧ v.extractLsb' 0 6 = 0)
      | 0x041 => decide (v.extractLsb' 25 7 = 0)
      | 0x020 => decide (v.extractLsb' 48 16 = 0 ∧ (v.extractLsb' 0 6).toNat = 4 ∧ (v.extractLsb' 6 42).toNat % 2 ^ 4 = 0 ∧ k.tqTail = k.tqHead)
      | 0x021 => decide ((k.tqTail - low32 v).toNat ≤ k.tqCap)
      | 0x025 => decide ((low32 v - k.tqHead).toNat ≤ (k.tqTail - k.tqHead).toNat)
      | 0x080 => decide ((lo32 (i.val 0)).toNat % 8 = 0 ∧ (lo32 (i.val 0)).toNat ≤ (a.thread i.lane).bagBytes)
      | 0x050 => decide (v.extractLsb' 3 5 = 0)
      | 0x038 => decide (v.extractLsb' 12 20 = 0 ∧ (v.extractLsb' 0 11).toNat < 1536)
      | _ => true
    guard fits).isSome) = true := by decide +kernel

/-- OINV in its three forms, OSHOOT of an object and of a granule, IFLUSH of each scope, IDEM, WFI with a pending interrupt, NOP; KEYSET of
slot 8191 from the object's last 64 bytes and of slot 1 cleared, HALTC of the last core and of its own. -/
theorem witness_Upkeep :
    ([(0, 0xFFFFFF), (1, 0xFFFF), (2, 0)].all fun (md, x) => (do
      let w := if md = 2 then fw 0x2C7 0xF0 0xF0 0xF0 0xF0 0 2 else f1 0x2C7 0xF0 (BitVec.ofNat 8 md)
      let (_, i) ← laneF3 w (regs [(4, BitVec.ofNat 32 x)] (begun w))
      guard (lo32 (i.val 0) = BitVec.ofNat 32 x)).isSome) = true ∧
    ([2, 10, 3, 11].all fun md => (do
      let w := (if 8 ≤ md then f3 else f2) 0x2C8 0xF0 (BitVec.ofNat 8 md)
      let (_, i) ← laneF3 w (regs [(4, 0xFFFFFF), (8, 0xFFFF), (16, 0)] (begun w))
      guard (lo32 (i.val 0) = 0xFFFFFF ∧ lo32 (i.val 1) = 0xFFFF)).isSome) = true ∧
    ([fw 0x2C9 0xF0 0xF0 0xF0 0xF0 0 0, fw 0x2C9 0xF0 0xF0 0xF0 0xF0 0 1, fw 0x2C9 0xF0 0xF0 0xF0 0xF0 0 2, fw 0x2C9 0xF0 0xF0 0xF0 0xF0 0 3,
      fw 0x2CA 0xF0 0xF0 0xF0 0xF0 0 0, fw 0x2CA 0xF0 0xF0 0xF0 0xF0 0 1].all fun w => (do
      let (a, i) ← laneF3 w (begun w)
      guard ((begun w).heldAny a i.lane = false)).isSome) = true ∧
    (do let w := fw 0x2CB 0xF0 0xF0 0xF0 0xF0 0 0
        let s := (begun w).updCore 0 fun k => { k with intPending := 0x20, intEnable := 0x20 }
        let (a, _) ← laneF3 w s
        let k := s.core a.team.core
        guard (k.intPending &&& k.intEnable.extractLsb' 0 6 ≠ 0 ∧ k.intEnable.getLsbD 8 = false)).isSome = true ∧
    ([(8191, 0), (1, 1)].all fun (k, md) => (do
      let w := if md = 0 then f2 0x2CC 0xF0 0 else f1 0x2CC 0xF0 1
      let s := world [2] w [(4, BitVec.ofNat 32 k), (8, 0xFFC0), (9, 0x200)]
      let s := { s with mem := s.mem ++ [(0x4FFC0, 1)] }
      let (a, i) ← laneF3 w s
      guard ((lo32 (i.val 0)).toNat = k ∧ s.held = [])
      if md = 1 then some () else do
      guard (s.waitsHeld a i.lane (lo64 (i.val 1)) 64 64 .load = false)
      let (_, bs) ← got (s.readLane a (lo64 (i.val 1)) 64 64 0)
      guard (ofBytes (bs.take 32) ≠ ofBytes (bs.drop 32))).isSome) = true ∧
    ([(0, 0), (1535, 0), (1535, 1)].all fun (c, md) => (do
      let w := f1 0x2CD 0xF0 (BitVec.ofNat 8 md)
      let s := regs [(4, BitVec.ofNat 32 c)] (begun w)
      let (a, i) ← laneF3 w s
      guard ((lo32 (i.val 0)).toNat = c ∧ s.teams.length = 1 ∧ a.key = teamKey 0 0 ∧ a.g = 0 ∧ a.team.groups.length = 1)).isSome) = true ∧
    -- HALTC held for another core's group, which now stands halted with its group held; and of a core that goes again
    ([true, false].all fun h => (do
      let w := f1 0x2CD 0xF0 0
      let s0 := regs [(4, 5)] (begun w)
      let (_, t) ← s0.teams.head?
      let s := edit (fun t => { t with groups := t.groups.map fun (g : Group) => { g with hold := Hold.wait 0 } })
        (((s0.setTeam (teamKey 5 0) { t with core := 5, groups := t.groups.map fun (g : Group) =>
          { g with hold := if h then Hold.mwait 0 else Hold.none } })).updCore 5 fun k => { k with halted := h })
      let (a, i) ← laneF3 w s
      guard ((lo32 (i.val 0)).toNat = 5 ∧ a.grp.hold = Hold.wait 0 ∧ (s.core 5).halted = h)).isSome) = true ∧
    fitF3 (·.grp.lanes) nopWord (begun nopWord) = true := by decide +kernel

/-! ### Witnesses: events of the cores -/

/-- A loaded word whose one thread waits at its leg start. -/
def waitingAt (w : Word64) (active : Bool) : State :=
  edit (fun t => { t with active := active, groups := [], threads := t.threads.map fun (th : Thread) => { th with stat := .atLeg } }) (begun w)

/-- A pick, with the leg of the loaded word; no candidate; a team that joins the active set; a cross-lane wait past its limit; a wait. -/
theorem witness_GroupEvents :
    (do let s := event (.laneBlock 0 0) (waitingAt nopWord true)
        let c ← s.nextPick 0 0
        let (_, ws) ← ok (match s.fetchWords c.team c.pc [] 25 with | (u, .ok ws) => .ok (u, ws) | (_, .error e) => Except.error e)
        let _ ← ok (legCheck c.team.allot ws)
        guard (s.occ = Occ.laneBlock 0 0 ∧ c.resume = 0 ∧ ((laneList c.lanes).all fun l => !s.acquiring c.key c.team l) = true)).isSome = true ∧
    (event (.laneBlock 1535 3) State.reset).nextPick 1535 3 = none ∧
    (do let s := event (.laneBlock 0 0) (waitingAt nopWord false)
        let (k, t) ← ((s.trimActive 0 0).teamsAt 0 0).head?
        guard (((s.trimActive 0 0).teamsAt 0 0).length = 1 ∧ k = teamKey 0 0 ∧ t.active = false ∧ t.anyReady = true ∧
          (s.trimActive 0 0).mayPick t = true)).isSome = true ∧
    (do let s := event (.group (teamKey 0 0) 0) { edit (fun t => { t with xltLimit := 1, groups := t.groups.map fun (g : Group) =>
          { g with hold := .cross 3 0 } }) (begun (f1 0x181 12 12)) with clock := 2 }
        let a ← s.actOf (teamKey 0 0) 0
        guard (a.grp.hold = Hold.cross 3 0 ∧ a.team.xltLimit = 1 ∧ 1 < s.clock - a.grp.since ∧ laneList a.grp.lanes = [0])).isSome = true ∧
    (do let t ← tget (begun 0).teams (teamKey 0 0)
        t.groups[0]?).isSome = true := by decide +kernel

/-- A result for v191 of a loaded word's lane that waits as given. -/
def pending (wt : Wait) : State :=
  event (.result (teamKey 0 0) 0)
    (edit (fun t => { t with pend := [{ lane := 0, dest := .v 191 1, words := [7], killed := [], newer := [], wait := wt, order := 0 }] }) (begun 0))
/-- A write of lane 0 held at the entry of handle 5, whose state becomes `kind`. -/
def holding (kind : Nat) (f : Held → Held) : State :=
  let h : Held := { id := 9, asid := 0, ortBase := 0x10000, ortSize := 7, va := 0x0000050000000100, pa := 0x70100, entryAt := 0x20028, op := .add
                    plain := false, bytes := [1, 2, 3, 4], width := 4, signed := false, data := 1, cmp := 0, dev := false, key := teamKey 0 0, lane := 0
                    engine := none, dest := .none, start := 0, word := 0, w8 := 0, gran := 0, since := 0, limit := 1, keySlot := 0, live := true
                    acq := false, scope := 3, order := 3, hitch := 0, degrade := false, coord := none, owner := (1, 0), launch := none, mode := .s, vector := true, byEngine := false
                    tab := { die := 0, base := 0, count := 0, sup := 0 } }
  let s := world [5] 0 []
  event (.held 9) { s with held := [f h], mem := writeBytes s.mem 0x20028 (toBytes 8 (0x70000 + kind)), clock := 2 }

theorem witness_ResultEvents :
    ([Wait.ready, .ring 1 0 true, .relay 0x60000 0 0 0].all fun wt => (do
      let s := pending wt
      let t ← tget s.teams (teamKey 0 0)
      let p ← t.pend[0]?
      let th ← t.threads[p.lane]?
      guard (s.occ = Occ.result (teamKey 0 0) 0 ∧ p.wait = wt ∧ p.dest = Dest.v 191 1 ∧ 191 < th.v.length)).isSome) = true ∧
    (do let s := event (.team 0 0 0) (pending (.writeback 0 0 0))
        let u ← tget s.teams (teamKey 0 0)
        guard ((u.pend.filter fun (p : Pend) => decide (p.wait = Wait.writeback 0 0 0)).length = 1)).isSome = true ∧
    -- one that comes before it on its location, and one of the lane above
    ([8, 10].all fun m => (do
      let s0 := holding 2 id
      let h ← s0.held.head?
      let s := { s0 with held := s0.held ++ [{ h with id := m, pa := h.pa + 3 }] }
      guard (s.occ = Occ.held 9 ∧ (s.held.find? fun (h : Held) => decide (h.id = 9)) = some h)).isSome) = true ∧
    -- still moving; of an engine; its granule gone; moving at another entry; performed: a store, an SCND, an atomic, an acquiring one and a
    -- signal; and one that mismatches, under TRAP and under DEGRADE
    ([(2, true, none, 0x20028, 0), (1, true, some (0, 31), 0x20028, 0), (0, false, none, 0x20028, 0), (2, true, none, 0x20100, 0),
      (1, true, none, 0x20028, 0), (1, true, none, 0x20028, 2), (1, false, none, 0x20028, 0), (1, false, none, 0x20028, 1),
      (1, false, none, 0x20028, 3), (1, false, none, 0x20028, 4)].all fun (kind, plain, eng, at', k) =>
        [AtomOp.add, .scnd].all fun op => (do
      let s0 := holding kind fun h => { h with plain := plain, engine := eng, entryAt := at', acq := k = 1, dev := k = 2, degrade := k = 4, op := op }
      let s := if 3 ≤ k then { s0 with scopes := tset s0.scopes (0x70100 / 128) (2, 5) } else s0
      let h ← s.held.find? fun (h : Held) => decide (h.id = 9)
      let e := s.devDouble h.unitDie h.entryAt
      guard (e.extractLsb' 48 16 = 0 ∧ e.extractLsb' 2 14 = 0 ∧ (e.extractLsb' 0 2 = 2 ↔ kind = 2 ∧ at' = 0x20028) ∧ h.live = true)
      let u : State := { s.forgetGranule h.asid ((h.va.extractLsb' 40 24).toNat) h.gran with held := s.held.filter fun k => decide (k.id ≠ h.id) }
      if kind = 2 ∧ at' = 0x20028 ∨ eng.isSome then some ()
      else if kind = 0 then match (u.xlHeld h).2 with | .error _ => some () | .ok _ => none
      else do
        let (v, x, _, bits) ← got (u.xlHeld h)
        let w := if h.dev then v else v.evictLine (h.key / 64) (x.pa / 128)
        if kind = 2 then guard (x.moving = true)
        else do
          guard (x.moving = false)
          if plain ∧ k = 0 then guard (bits % 8 = 0 ∧ (w.busWrite h.die x (h.bytes.take (bits / 8))).2 = none)
          else
            let eff := effScope x h.scope
            let r := w.admitAt h.degrade h.hitch x h.width eff h.order (decide (h.op ≠ AtomOp.scnd)) fun s => s.busFault h.die x h.width true
            if k = 3 then match r.2 with | .error _ => some () | .ok _ => none
            else do
              let (v, stands) ← got r
              guard (stands = decide (k ≠ 4))
              let sp : Spot := .glob x (if stands then eff else max 3 eff)
              let noted := if stands = false then v.updTeam h.key fun t => { t with scopeMis := true } else v
              let at' := noted.claimSpot h.hitch sp
              if plain then guard ((at'.busWrite h.die x h.bytes false).2 = none)
              else if op = AtomOp.scnd then (got (at'.scndAt h.die (some h.key) sp h.width h.data)).map fun _ => ()
              else do
                let _ ← got (at'.rmw h.die x h.width h.op h.signed h.data h.cmp false)
                guard (at'.faultMark sp h.width = none)).isSome) = true ∧
    -- an STC of one element of a tensor of INT4, at its second nibble
    (do let s0 := world [1] 0 []
        let h0 ← (holding 1 id).held.head?
        let h := { h0 with va := 0x0000010000000000, entryAt := 0x20008, plain := true, bytes := [5], width := 1, coord := some ([1], 1, 1) }
        let s := { s0 with held := [h] }
        let u : State := { s.forgetGranule h.asid ((h.va.extractLsb' 40 24).toNat) h.gran with held := s.held.filter fun k => decide (k.id ≠ h.id) }
        let (v, x, bit, bits) ← got (u.xlHeld h)
        guard (bit = 4 ∧ bits % 8 = 4 ∧ x.moving = false ∧
          ((v.evictLine (h.key / 64) (x.pa / 128)).mergeHome h.die x bit bits (ofBytes h.bytes)).2 = none)).isSome = true ∧
    ([(2, false), (1, false), (1, true)].all fun (n, eng) => (do
      let s := (holding 2 fun h => { h with limit := n, engine := if eng then some (0, 31) else none }).updTeam (teamKey 0 0) fun t =>
        { t with relocLimit := n }
      let h ← s.held.find? fun (h : Held) => decide (h.id = 9)
      let t ← tget s.teams h.key
      guard (h.live = true ∧ (if eng then h.limit else t.relocLimit) = n ∧ 1 < s.clock - h.since)).isSome) = true ∧
    ([true, false].all fun b => decide (((event (.core 0) State.reset).updCore 0 fun k => { k with splitMoving := b }).occ = Occ.core 0)) = true := by
  decide +kernel

/-- The timer at its compare value and before it; a trap queue at its batch threshold, with a waiting record, past the age limit, and
empty; an interrupt with all conditions and without IE; a watchdog at its end and before it. -/
theorem witness_InterruptEvents :
    ([0, 1].all fun n => decide (let s := (event (.core 0) (begun 0)).updCore 0 fun k => { k with timerCmp := n }
      s.occ = Occ.core 0 ∧ ((s.core 0).timerCmp.toNat ≤ (BitVec.ofNat 64 s.clock + (s.core 0).timerOff).toNat ↔ n = 0))) = true ∧
    ([(0, [], 0), (1, [], 0), (0, [{ words := [], detail := [] }], 0), (0, [], 1)].all fun (n, ws, age) => decide (
      let s := ({ event (.core 0) (begun 0) with clock := 2 }).updCore 0 fun k => { k with
        tqTail := if age = 0 then n else 1, tqWait := ws, tqAge := age, tqBatch := if age = 0 then 1 else 2, tqTimes := [(0, 0)] }
      let k := s.core 0
      s.occ = Occ.core 0 ∧ ((k.tqTail ≠ k.tqHand ∧ k.tqBatch.toNat ≤ (k.tqTail - k.tqHand).toNat ↔ n = 1) ∧ (k.tqWait ≠ [] ↔ ws ≠ []) ∧
        (k.tqAge ≠ 0 ↔ age = 1)))) = true ∧
    (do let s := event (.core 0) ((edit (fun t => { t with groups := [], threads := t.threads.map fun (th : Thread) => { th with stat := .atLeg } })
          (begun sretWord)).updCore 0 fun k => { k with intEnable := 0x120, intPending := 0x20 })
        let k := s.core 0
        let t ← tget s.teams (scalarKey 0)
        let _ ← t.interruptPoint
        guard (k.started = true ∧ k.intEnable.getLsbD 8 = true ∧ k.intPending &&& k.intEnable.extractLsb' 0 6 ≠ 0)).isSome = true ∧
    (State.reset.core 0).intEnable.getLsbD 8 = false ∧
    ([2, 3].all fun n => (do
      let s := (event (.core 0) { begun sretWord with clock := 2 }).updCore 0 fun k => { k with wdt := n }
      let t ← tget s.teams (scalarKey 0)
      let _ ← t.anyPoint
      guard ((s.core 0).wdt ≠ 0 ∧ ((s.core 0).wdtSet + (s.core 0).wdt.toNat ≤ s.clock ↔ n = 2))).isSome) = true := by decide +kernel

/-! ### Witnesses: the dispatcher -/

/-- Words from an address up, as memory cells. -/
def words (a : Nat) (ws : List Word32) : Memory := (((wordsBytes ws).zipIdx).map fun e => (a + e.2, e.1)).filter fun e => e.2 ≠ 0
/-- A module with one queue, mapped to slot 15 of die 0: its ring in the object of handle 2 holds one packet of these words. Region 0 is
valid with word 0 as given, and unlimited. -/
def launched (r0 : Word32) (packet : List Word32) (f : Die → Die) : State :=
  let s := State.reset
  { s with
    clock := 1
    mem := cells 0x10080 (recordOf 2) ++ cells 0x20010 [0x40001] ++ words 0x40000 packet ++
      words 0x80000 ([r0, 0, 0, 0, 0, 0, 0x10000, 0, 7, 0, 0, 0, 0, 0, 0, 0] ++ List.replicate 14 0xFFFFFFFF) ++
      words 0x90000 [1, 0, 0, 0x200, 1, 0, 1]
    dies := modAt s.dies 0 fun d => f { d with
      regionBase := 0x80000, regionCount := 1
      slots := modAt d.slots 15 fun t => { t with valid := true, qcb := 0x90000, known := true, ready := true } } }
/-- One block of one thread with 8 registers; and a neighbourhood of one such block on one core. -/
def packet0 : List Word32 := [0, 1, 1, 8, 0, 0, 0, 0, 0, 0, 0, 0, 0, 0, 0, 0]
def packet1 : List Word32 := [1, 0x10001, 1, 8, 0x01010000, 0, 0, 0, 0, 0, 0, 0, 0, 0, 0, 0]
/-- A packet of that queue, taken, with these blocks placed; late packets are skipped or not. -/
def takenPacket (ws : List Word32) (nextBlk : Nat) (skip : Bool) : Packet :=
  { qcb := 0x90000, slot := 15, n := 0, words := ws, nextBlk := nextBlk, total := 1, late := false, done := false, judged := false
    tab := { die := 0, base := 0x80000, count := 1, sup := 0 }
    eff := { degrade := false, skipLate := skip, sup := true, ceiling := 0, ageing := 0, domain := 0, asid := 0, ortBase := 0x10000
             ortSize := 7 } }

/-- A packet to take in an invalid region, from a ring that does not translate, well formed and of a reserved kind; a block and a
neighbourhood to place, in time and late under SKIP_LATE; a phase marker, a change of phase, a signal-only packet, a packet that has run. -/
theorem witness_DieEvents :
    -- a period in which nothing was dropped, and the one in which lines were
    ([0, 1].all fun n =>
      let s := event (.slice 0 3) { State.reset.updDie 0 fun d => { d with swept := [(3, 500)] } with clock := 500 + 1000 * n }
      decide (s.occ = Occ.slice 0 3 ∧ tget (s.die 0).swept 3 = some 500 ∧ (500 / 1000 < s.clock / 1000 ↔ n = 1))) = true ∧
    tget (State.reset.die 0).swept 3 = none ∧
    ([(0, packet0, 0x10000), (1, packet0, 1), (1, packet0, 0x10000), (1, 4 :: packet0.tail, 0x10000)].all fun (r0, ws, q) => (do
      let s := event (.slot 0 15) (launched r0 ws id)
      let s := { s with mem := s.mem.map fun (e : Nat × Byte) => if e.1 = 0x80018 + 2 then (e.1, BitVec.ofNat 8 (q / 0x10000)) else e }
      let t := s.slot 0 15
      let tab := s.tabOf 0
      guard (t.valid = true ∧ t.known = true ∧ (s.die 0).seqError = 0 ∧ (s.qcbWord 0 t.qcb.toNat 10).toNat % 4 ≠ 2 ∧ s.mayTake 0 t.qcb.toNat = true ∧
        s.regionOk tab 0 = decide (r0 = 1))
      let r := s.readPacket 0 t.qcb.toNat 0 (s.effOf tab 0) 0
      if r0 = 0 then some ()
      else match r.2 with
        | .error _ => guard (q = 1)
        | .ok v => guard (v = ws ∧ ((packetFaults (fun k => v.getD k 0) 0 (r.1.path tab 0).isSome false).isEmpty = decide (ws = packet0)))).isSome) = true ∧
    ([(false, packet0), (false, packet1), (true, packet0), (true, packet1)].all fun (skip, ws) => (do
      let ws : List Word32 := if skip then ws.take 13 ++ [0x01000000, 0, 0] else ws
      let s := event (.die 0) (launched 1 ws fun d => { d with packets := [takenPacket ws 0 skip] })
      let (i, nx) ← s.arbitrate 0
      let p ← match nx with | .block p cs => if cs = [0] then some p else none | .nbhd p us => if us = [[0]] then some p else none | .restore _ => none
      guard (i = 15 ∧ s.occ = Occ.die 0 ∧ ((p.judged = false ∧ p.deadline < s.clock ∧ p.eff.skipLate = true) ↔ skip = true))).isSome) = true ∧
    (takenPacket packet0 0 false).judged = false ∧ ({ takenPacket packet0 0 false with judged := true } : Packet).judged = true ∧
    -- a phase marker, a change of phase, a signal-only packet, a packet that has run
    ([2, 0x10000, 3, 0].all fun (w0 : Word32) =>
      let p := takenPacket (w0 :: packet0.tail) (if w0 = 0 then 1 else 0) false
      let s := event (.slot 0 15) (launched 1 packet0 fun d => { d with packets := [p] })
      let phaseDue : Bool := decide (p.kind = 2) || (decide (p.nextBlk = 0) && decide (p.phase ≠ (s.qcbWord 0 p.qcb 8).toNat % 2 ^ 16))
      decide ((s.die 0).packets = [] ++ p :: [] ∧ p.slot = 15 ∧ p.done = false ∧ s.blocks = [] ∧ s.held = []) &&
        (if w0 = 2 then phaseDue else if w0 = 0x10000 then phaseDue && decide (p.kind ≠ 2) else if w0 = 3 then decide (p.kind = 3) && !phaseDue
        else decide (p.kind ≤ 1 ∧ p.total ≠ 0 ∧ p.total ≤ p.nextBlk))) = true ∧
    -- a signal that does not translate, one that does, in its scope, over good links
    ([3, 2].all fun (h : Nat) => (do
      let s := launched 1 packet0 id
      let p := takenPacket (packet0.take 9 ++ [0x100, BitVec.ofNat 32 (h * 256)] ++ packet0.drop 11) 0 false
      let va := p.pair 9
      guard (va ≠ 0)
      match s.translate (dieAgent 0 (p.eff.ctx p.region) false) va 8 8 Use.atom with
        | (_, .error _) => guard (h = 3)
        | (s1, .ok x) => do
          let (s2, _) ← got (s1.admitAt p.eff.degrade (dieParty 0) x 8 (effScope x 3) 2 true fun s => s.linkFault 0 x 8 true)
          guard (h = 2 ∧ x.moving = false ∧ (s2.plainWrite 0 x (toBytes 8 0)).2 = none)).isSome) = true ∧
    (takenPacket packet0 0 false).pair 9 = 0 ∧
    -- a signal that mismatches, under TRAP and under DEGRADE, one over a failed link and one whose old word is poisoned
    (do let s := launched 1 packet0 id
        let p := takenPacket (packet0.take 9 ++ [0x100, 0x200] ++ packet0.drop 11) 0 false
        let (s1, x) ← got (s.translate (dieAgent 0 (p.eff.ctx p.region) false) (p.pair 9) 8 8 Use.atom)
        let checked (s : State) (degrade : Bool) (die : Nat) : Option Bool :=
          (got (s.admitAt degrade (dieParty die) x 8 (effScope x 3) 2 true fun s => s.linkFault die x 8 true)).map fun (e : State × Bool) => e.2
        let marked : State := { s1 with scopes := tset s1.scopes (x.pa / 128) (2, 0) }
        let cut := s1.updMgmt fun m => { m with badEdges := edges }
        guard (checked marked false 0 = none ∧ checked marked true 0 = some false ∧
          checked { s1 with poison := tset s1.poison (x.pa / 128) false } false 0 = none ∧
          ((List.range 16).any fun d => decide (checked cut false d = none)) = true)).isSome = true ∧
    -- nothing to retire, one that has not completed, one that has
    (let of' (d : Bool) : State := launched 1 packet0 fun k => { k with packets := [{ takenPacket packet0 1 false with done := d }] }
     decide (((of' true).die 0).packets.filter (fun (p : Packet) => decide (p.qcb = 5)) = []) &&
       ([true, false].all fun d => ((of' d).die 0).packets.any fun (p : Packet) => decide (p.qcb = 0x90000 ∧ p.done = d))) = true ∧
    -- a lane block with all its slots taken, and one with slot 1 the first free
    (let full (n : Nat) : State := { State.reset with teams := (((begun 0).teams.map fun (e : Nat × Team) =>
        (List.range n).map fun j => (teamKey 0 j, e.2)).flatten) }
     ((List.range 8).all fun j => (tget (full 8).teams (teamKey 0 j)).isSome) && (tget (full 1).teams (teamKey 0 0)).isSome &&
       (tget (full 1).teams (teamKey 0 1)).isNone) = true ∧
    ([0, 5].all fun c => decide ((event (.seqError 0 c) State.reset).occ = Occ.seqError 0 c)) = true := by decide +kernel

/-- A kept block of one thread: saved with its team, its hitch and its rein core, or discarded with the thread's section entry. -/
def kept (stat : BStat) : Block :=
  { loadBlock false with
    stat := stat, qcb := 0x90000, threads := 1, scratchKiB := 0, tab := { die := 0, base := 0x80000, count := 1, sup := 0 }
    savedTeams := if stat = .saved then ((begun 0).teams.map fun (e : Nat × Team) => e.2).take 1 else []
    savedHitch := if stat = .saved then some { Hitch.reset with acc := [(3, 5)] } else none
    savedRein := if stat = .saved then ((begun 0).teams.map fun (e : Nat × Team) => e.2).head? else none
    reentry := if stat = .discarded then [(0, 64)] else [] }

/-- Two stalled groups of a block that is being saved, the second on a neighbour's register; a quiet block with and without room in the context store, and one
that is not being saved; a kept result of a team and of a rein core; a kept block that is picked; a saved and a discarded one with
free slots for their teams. -/
theorem witness_SavesAndRestores :
    ([Hold.stall, .tandem 1 0].all fun hold => (do
        let s := event (.group (teamKey 0 0) 0) ({ edit (fun t => { t with groups := (t.groups.map fun (g : Group) => { g with hold := hold }) })
          (begun 0) with clock := 4097 }.updBlock 1 fun b => { b with stat := .saving })
        let t ← tget s.teams (teamKey 0 0)
        let gr ← (t.groups[0]? : Option Group)
        let b ← (tget s.blocks t.block : Option Block)
        guard (b.stat = BStat.saving ∧ t.kind = Kind.vector ∧ gr.hold = hold ∧ (s.core t.core).preGrace.toNat < s.clock - gr.since)).isSome) = true ∧
    ([100, 0].all fun n => (do
      let s := event (.block 1) ((waitingAt 0 true).updBlock 1 fun b => { b with stat := .saving })
      let s := { s with dies := modAt s.dies 0 fun d => { d with ctxFrames := BitVec.ofNat 32 n } }
      let b ← tget s.blocks 1
      let need := b.image (s.partyTeams 1).length (b.forks.any (·.rein))
      guard (s.quiet 1 = true ∧ b.die < s.dies.length ∧ ((s.die 0).ctxUsed.toNat + need ≤ (s.die 0).ctxFrames.toNat ↔ n = 100))).isSome) = true ∧
    ((tget (event (.block 1) (begun 0)).blocks 1).any fun (b : Block) => decide (b.stat ≠ BStat.saving)) = true ∧
    ([(Wait.ready, true), (.writeback 0 0 0, true), (.ready, false), (.writeback 0 0 0, false)].all fun (wt, team) => (do
      let t ← tget (pending wt).teams (teamKey 0 0)
      let s := event (.saved 1 0) ((begun 0).updBlock 1 fun b => { b with
        stat := .saved, savedTeams := if team then [t] else [], savedRein := if team then none else some t })
      let b ← tget s.blocks 1
      let image := b.savedTeams ++ b.savedRein.toList
      let (i, p) ← ((image.zipIdx.map fun (e : Team × Nat) => e.1.pend.map fun (p : Pend) => (e.2, p)).flatten[0]? : Option (Nat × Pend))
      let _ ← image[i]?
      guard (p.wait = wt ∧ s.occ = Occ.saved 1 0)).isSome) = true ∧
    (do let s := event (.slot 0 15) { launched 1 packet0 id with blocks := [(1, kept .saved)] }
        let (i, nx) ← s.arbitrate 0
        match nx with
          | .restore bs => guard (i = 15 ∧ bs.length = 1)
          | _ => none).isSome = true ∧
    ([BStat.saved, .discarded].all fun stat => (do
        let s := { launched 1 packet0 id with blocks := [(1, kept stat)] }
        let b ← tget s.blocks 1
        let free := ((List.range 8).filter fun i => (tget s.teams (teamKey 0 i)).isNone).length
        guard (b.die < s.dies.length ∧ [0].Nodup ∧ free = 8 ∧ b.savedTeams.length = (if stat = BStat.saved then 1 else 0) ∧
          b.need.teams = 1 ∧ (b.savedHitch.isSome = true ↔ stat = BStat.saved) ∧ (b.savedRein.isSome = true ↔ stat = BStat.saved) ∧
          ((b.reentry.find? fun (x : Nat × BitVec 64) => decide (x.1 = 0)) = some (0, 64) ↔ stat = BStat.discarded))).isSome) = true := by decide +kernel

/-! ### Witnesses: the windows, the ports and the outside -/

/-- A store that is an event of a state, with what is asked of it. -/
def storeAt (die off : Nat) (data : Word64) (s : State) (ask : State → CtlStore → Bool) : Bool :=
  let c : CtlStore := { die := die, off := off, wide := false, data := data }
  let s := event (.ctl c) s
  decide (s.occ = Occ.ctl c ∧ off % 4 = 0) && ask s c

/-- A store to a slot's words: what it makes of the slot, and whether the words are bad. -/
def slotPut (s : State) (c : CtlStore) (valid : Bool) : State × Bool :=
  let n := slotOfOff c.off
  let b := slotBase c.off
  let t := s.slot c.die n
  let w0 := c.new b (if t.valid then 1 else 0)
  let w1 := c.new (b + 4) (t.doorbell.setWidth 32)
  let qcb := c.pair (b + 8) t.qcb
  (s.updSlot c.die n fun t => { t with valid := w0.getLsbD 0, doorbell := w1.setWidth 12, qcb := qcb, refused := false },
    decide (w0.toNat / 2 ≠ 0 ∨ w1.toNat / 2 ^ 12 ≠ 0 ∨ qcb.toNat / 2 ^ 48 ≠ 0 ∨ qcb.toNat % 128 ≠ 0 ∨ t.valid = valid))

/-- At the bounds of each window. A partition entry refused and taken; a counter and a new bit; a queue's owner refused and taken, a
restart, a discard of an idle and of a bound queue; the dispatcher, context-store and feature blocks refused and taken. -/
theorem witness_ControlStores :
    (let s := State.reset
     storeAt 0 0 0 s (fun s c => (s.die 0).partBad 0 (c.new 0 ((s.die 0).partEntry 0).w0) 0 0) &&
     storeAt 15 0xFF8 0xFFFFFF s (fun s _ => !(s.die 15).partBad 255 ((s.die 15).partEntry 255).w0 ((s.die 15).partEntry 255).w1 0xFFFFFF) &&
     storeAt 0 0x1000 0 s (fun _ _ => true) && storeAt 15 0x1104 0 s (fun _ _ => true) && storeAt 0 0x1110 1 s (fun _ _ => true) &&
     storeAt 0 0x23E0 0x2000000 s (fun _ c => decide ((low32 c.data).toNat / 2 ^ 25 ≠ 0)) &&
     storeAt 0 0x23E0 0x1FFFFFF s (fun s c => decide ((low32 c.data).toNat / 2 ^ 25 = 0 ∧ (s.queue 0 31).block = none)) &&
     -- of a bound queue: the same owner and another
     ([5, 6].all fun n => storeAt 0 0x2000 (BitVec.ofNat 64 n) (s.updQueue 0 0 fun k => { k with block := some 1, owner := 5 }) fun s c =>
       decide ((low32 c.data).toNat / 2 ^ 25 = 0 ∧ (s.queue 0 0).block.isSome = true ∧
         ((low32 c.data).setWidth 24 ≠ (s.queue 0 0).owner ↔ n = 6))) &&
     storeAt 0 0x23E4 8 s (fun _ c => (low32 c.data).getLsbD 3 && !(low32 c.data).getLsbD 4) &&
     storeAt 0 0x2004 16 s (fun s c => (low32 c.data).getLsbD 4 && decide ((s.queue 0 0).state = QState.idle ∧ (s.queue 0 0).block = none)) &&
     storeAt 0 0x2004 24 (s.updQueue 0 0 fun k => { k with block := some 1, state := .bound })
       (fun s c => (low32 c.data).getLsbD 4 && decide ((s.queue 0 0).block = some 1)) &&
     -- a bound queue that no fork holds, and the party of one
     ([true, false].all fun held =>
       let f : Fork := { off := 0, hitch := 0, die := 0, queues := [0, 5], rein := true, ended := 0, path := [] }
       let b := { loadBlock false with forks := if held then [f] else [] }
       storeAt 0 0x2004 16 { (s.updQueue 0 0 fun k => { k with block := some 1, state := .bound }) with blocks := [(1, b)] } fun s c =>
         let party (f : Fork) : Bool := f.queues.contains 0 && !(match f.partyOf 0 with | some i => f.ended.getLsbD i | none => true)
         match tget s.blocks 1 with
           | some x => (low32 c.data).getLsbD 4 && decide ((s.queue 0 0).state ≠ QState.idle ∧ (s.queue 0 0).block = some 1) &&
             (if held then decide (x.forks.find? party = some f ∧ (x.forks.find? fun (g : Fork) => decide (g.off = f.off)) = some f ∧
               f.die < s.dies.length ∧ (f.queues.all fun g => decide (g < (s.die f.die).queues.length)) = true ∧ f.partyOf 5 = some 2 ∧
               f.ended.getLsbD 2 = false)
             else x.forks.all (fun (f : Fork) => !party f))
           | none => false) &&
     -- a block with a team, with a bound queue, with a fork, with nothing left
     ([(true, false, false), (false, true, false), (false, false, true), (false, false, false)].all fun (team, queue, fork) =>
       let f : Fork := { off := 0, hitch := 0, die := 0, queues := [], rein := true, ended := 0, path := [] }
       let u := { s with blocks := [(1, { loadBlock false with forks := if fork then [f] else [] })],
                         teams := if team then (begun 0).teams else [] }
       let u := if queue then u.updQueue 0 0 fun k => { k with block := some 1, state := .bound } else u
       match tget u.blocks 1 with
         | some x => decide (x.stat = BStat.placed ∧ (u.teamsOf 1 ≠ [] ↔ team = true) ∧ (u.queueBound 1 = true ↔ queue = true) ∧
             (x.forks ≠ [] ↔ fork = true) ∧ tget u.nbhds x.nbhd = none) &&
             (List.range 32).all fun q => !decide ((u.queue x.die q).block = some 1 ∧ (u.queue x.die q).state = QState.stopped)
         | none => false) &&
     ([1535, 1536].all fun n => storeAt 0 0x300C (BitVec.ofNat 64 n) s fun s c =>
       decide ((1535 < (c.new 0x300C (s.die 0).supCore).toNat ↔ n = 1536) ∧ (s.die 0).regionBase = 0 ∧ (s.die 0).regionCount = 0)) &&
     ([1, 0x10000].all fun n => storeAt 0 0x3040 (BitVec.ofNat 64 n) s fun s c =>
       decide (0 < s.dies.length ∧ ((c.pair 0x3040 (s.die 0).ctxBase).toNat % 2 ^ 16 ≠ 0 ↔ n = 1) ∧ n < 2 ^ 48)) &&
     ([0, 1].all fun n => storeAt 15 0x30A0 (BitVec.ofNat 64 n) s fun s c =>
       decide (15 < s.dies.length ∧ (s.die 15).featLocked = false ∧ ((s.updDie 15 fun d => { d with featLocked := true }).die 15).featLocked = true ∧ (s.die 15).featEnabled.extractLsb' 32 96 = 0 ∧
         ((c.new 0x30A0 0).getLsbD 0 = true ↔ n = 1) ∧ n < 2))) = true ∧
    -- a slot mapped; refused for its words, its region, a reserved bit of its QCB, its budget
    ([(1, 1, false, false), (3, 1, false, false), (1, 0, false, false), (1, 1, true, false), (1, 1, false, true)].all fun (n, r0, dirty, full) =>
      let s := (launched (BitVec.ofNat 32 r0) packet0 id).updSlot 0 15 fun t => { t with valid := false }
      let s := if dirty then { s with mem := writeBytes s.mem 0x90001 [0x80] } else s
      let s := if full then { s with mem := writeBytes s.mem 0x80040 [0, 0, 0, 0] } else s
      storeAt 0 0x85E0 (BitVec.ofNat 64 n) s fun s c =>
        let (put, bad) := slotPut s c true
        let at' := (put.slot 0 15).qcbAt
        let path := put.path (put.tabOf 0) ((put.qcbWord 0 at' 1).toNat % 2 ^ 24)
        decide ((c.new 0x85E0 0).getLsbD 0 = true ∧ (s.slot 0 15).valid = false ∧ (bad = true ↔ n = 3) ∧ (path = none ↔ r0 = 0) ∧
          (qcbClean (put.qcbWord 0 at') = false ↔ dirty = true)) &&
        (path.isNone || decide (put.chargeFits 0 (path.getD []) [(0, 1)] = !full))) = true ∧
    ([(0, 0), (2, 0), (0, 1)].all fun (n, idx) => storeAt 0 0x85E0 (BitVec.ofNat 64 n)
        { launched 1 packet0 id with mem := writeBytes (launched 1 packet0 id).mem 0x90024 [BitVec.ofNat 8 idx] } fun s c =>
      decide ((c.new 0x85E0 1).getLsbD 0 = false ∧ (s.slot 0 15).valid = true ∧ ((slotPut s c false).2 = true ↔ n = 2) ∧
        (s.qcbWord 0 (s.slot 0 15).qcbAt 9 ≠ s.qcbWord 0 (s.slot 0 15).qcbAt 6 ↔ idx = 0))) = true ∧
    ([1, 0x1000].all fun n => storeAt 0 0x85E4 (BitVec.ofNat 64 n) (launched 1 packet0 id) fun s c =>
      decide ((s.slot 0 15).valid = true ∧ (c.new 0x85E0 1).getLsbD 0 = true ∧ (n / 2 ^ 12 ≠ 0 ↔ n = 0x1000))) = true ∧
    -- PREEMPT_SAVE and PREEMPT_IDEM: while one is under way, with no placed block, with one
    ([(1, true, false), (1, false, false), (1, false, true), (2, true, false), (2, false, false), (2, false, true)].all fun (n, under, one) =>
      storeAt 0 0x85FC (BitVec.ofNat 64 n) { (launched 1 packet0 id).updSlot 0 15 (fun t => { t with preempting := under }) with
          blocks := if one then [(1, { loadBlock false with qcb := 0x90000 })] else [] } fun s c =>
        let mine := s.blocks.filter fun (e : Nat × Block) => decide (e.2.die = 0 ∧ e.2.qcb = (s.slot 0 15).qcbAt ∧ e.2.stat = BStat.placed)
        decide ((low32 c.data).toNat % 4 = n ∧ (s.slot 0 15).preempting = under ∧ (s.slot 0 15).valid = true ∧ (mine ≠ [] ↔ one = true))) = true ∧
    -- a kick of a mapped and of an unmapped doorbell; the pending map
    ([0x4000, 0x7FFC].all fun o => storeAt 0 o 0 (launched 1 packet0 id) fun s _ =>
      decide (((List.range 16).filter fun i => (s.slot 0 i).valid && decide ((s.slot 0 i).doorbell.toNat = (o - 0x4000) / 4)) =
        if o = 0x4000 then [15] else [])) = true ∧
    (storeAt 15 0x81FC 1 State.reset fun _ _ => true) = true ∧
    -- the I/O dies: an event block refused and taken with and without a record waiting
    ([(0, 0), (0x800, 0), (0, 1)].all fun (n, tail) => storeAt 17 0x400 (BitVec.ofNat 64 n) (State.reset.updIo 1 fun d => { d with tail := tail, cap := 4 })
        fun s c =>
      let d := s.io 1
      decide (d.eventBad (c.new 0x400 d.eventCore) d.ringBase d.cap d.head false = decide (n = 0x800) ∧ (d.tail = d.head ↔ tail = 0))) = true ∧
    (storeAt 16 0x41C 0 State.reset (fun _ _ => true) && storeAt 16 0x404 0 State.reset (fun _ _ => true) && storeAt 16 0x424 0 State.reset (fun _ _ => true) &&
      ([0x10000, 0x10FFC].all fun o => storeAt 17 o 0 State.reset fun s _ => decide (1 < s.ios.length)) &&
      ([0, 16].all fun n => storeAt 16 0x10FFE0 (BitVec.ofNat 64 n) State.reset fun s c =>
        decide (0 < s.ios.length ∧ ((c.new 0x10FFE0 0).toNat / 16 ≠ 0 ↔ n = 16) ∧ (s.io 0).remwin 0x7FF = { words := List.replicate 8 0, refused := false })) &&
      ([(3, 0), (3, 1), (0, 3), (0, 0)].all fun (n, h) => storeAt 16 0x100 (BitVec.ofNat 64 n)
        (State.reset.updMgmt fun m => { m with holder := h }) fun s c => decide ((low32 c.data).toNat % 4 = n ∧ s.mgmt.holder = h)) &&
      storeAt 16 0xA00 0x21 State.reset (fun _ _ => true) &&
      ([true, false].all fun b => storeAt 16 0xA40 1 (State.reset.updMgmt fun m => { m with reportBusy := b }) fun s c =>
        decide (low32 c.data = 1 ∧ s.mgmt.reportBusy = b)) &&
      ([0x280, 0x298, 0x29C].all fun o => storeAt 16 o 7 State.reset fun _ c => decide (o < 0x29C ∨ c.off = 0x29C))) = true ∧
    -- a hole; the words that software does not write; the mailbox and the nonce
    ([(0, 0x8600), (17, 0x500), (20, 0)].all fun ((d, o) : Nat × Nat) => storeAt d o 1 State.reset fun s c => decide (s.ctlWord c.die c.off = none)) = true ∧
    ([(0, 0x1008), (15, 0x110C), (0, 0x1800), (0, 0x2008), (0, 0x23FC), (0, 0x3010), (0, 0x304C), (0, 0x3080), (0, 0x8410), (0, 0x85F8), (16, 0x200),
      (16, 0x800), (17, 0x100), (16, 0x900), (16, 0x9FC), (16, 0xA20), (16, 0xA3C)].all fun ((d, o) : Nat × Nat) =>
        storeAt d o 1 State.reset fun _ c => !c.wide) = true ∧
    -- the owner of a bound queue by a store of both words
    (let c : CtlStore := { die := 0, off := 0x2000, wide := true, data := 6 }
     let s := event (.ctl c) (State.reset.updQueue 0 0 fun k => { k with block := some 1, owner := 5 })
     decide (s.occ = Occ.ctl c ∧ (s.queue 0 0).block.isSome = true ∧ (low32 c.data).setWidth 24 ≠ (s.queue 0 0).owner)) = true := by decide +kernel

/-- Port A with the semaphore free, its own and the other port's; a report; flash bytes at both ends of their range; power limits;
a full and an empty mailbox; a marker; a lapse; a report under way; a module that is off and one that is up, in time and late. -/
theorem witness_PortsAndBoot :
    -- of several takers: not the last holder, then the lowest
    ([([1, 2], 1, 2), ([1, 2], 0, 1), ([2, 3], 2, 3), ([3], 3, 3)].all fun ((rs, last, r) : List Nat × Nat × Nat) =>
      let s := (event (.takers rs) State.reset).updMgmt fun m => { m with last := last }
      decide (s.occ = Occ.takers rs ∧ s.mgmt.holder = 0 ∧ r ∈ rs ∧ r ∈ [1, 2, 3]) &&
        rs.all fun q => !decide (q ∈ [1, 2, 3] ∧ q ≠ s.mgmt.last ∧ (r = s.mgmt.last ∨ q < r))) = true ∧
    ([0, 1, 2].all fun h => decide (((event (.port .a) State.reset).updMgmt fun m => { m with holder := h }).occ = Occ.port .a)) = true ∧
    ([(0x2000, 4096), (0x1FFFFFFF, 1)].all fun (n, len) =>
      let s := (event (.portBytes .b n (List.replicate len 0)) State.reset).updMgmt fun m => { m with holder := 2 }
      decide (s.mgmt.holder = 2 ∧ (match s.occ with | .portBytes p n' bs => decide (p = Port.b ∧ n' = n ∧ bs.length = len) | _ => false) = true ∧ len ≤ 4096 ∧ 0x2000 ≤ n ∧ n + len ≤ 0x20000000)) = true ∧
    ([(0, false), (0, true), (2, false)].all fun (h, full) =>
      let s := (event (.portBytes .b (if h = 2 then 15 else 2) (List.replicate (if full then 32 else 256) 0)) State.reset).updMgmt fun m =>
        { m with holder := h, inFull := full }
      decide (s.mgmt.boot ≠ Boot.noSlot ∧ (s.mgmt.holder = 2 ↔ h = 2) ∧ s.mgmt.inFull = full)) = true ∧
    (event (.marker .a true) (State.reset.updMgmt fun m => { m with holder := 1 })).occ = Occ.marker .a true ∧
    ([0, 3800000000].all fun n =>
      let s : State := { State.reset.updMgmt fun m => { m with holder := 1, reportBusy := decide (n = 0) } with clock := n }
      decide ((s.mgmt.lastCmd + 3800000000 ≤ s.clock ↔ n ≠ 0) ∧ s.mgmt.boot = Boot.off ∧ (s.mgmt.reportBusy = true ↔ n = 0))) = true ∧
    (State.reset.updMgmt fun m => { m with boot := .ran true false }).mgmt.boot ≠ Boot.off ∧
    ([none, some (0, 0x2000, [7, 8])].all fun u =>
      let s := (event (.torn 1) State.reset).updMgmt fun m => { m with flashUndo := u }
      decide (s.occ = Occ.torn 1 ∧ s.mgmt.flashUndo = u)) = true := by decide +kernel

/-- Temperatures where the clauses meet; links that exist and that do not; addresses in HBM and past it; a scrub; ports; an event
ring with and without room; messages, requests served, refused and unserved; atomics and accesses of a peer. -/
theorem witness_ErrorsAndMessages :
    ([104, 105, 114, 115].all fun t => decide ((event (.temp 15 t) State.reset).occ = Occ.temp 15 t)) = true ∧
    ([(1, 0), (0, 15)].all fun (a, b) => decide ((event (.link a b) State.reset).occ = Occ.link a b ∧ ((min a b, max a b) ∈ edges ↔ a = 1))) = true ∧
    ([0x1FFFFF, 0x20000000000].all fun pa => decide ((event (.phys pa) State.reset).occ = Occ.phys pa ∧
      (rangeOf pa = Range.hbm ↔ pa = 0x1FFFFF))) = true ∧
    ([ScrubFinding.clean, .corrected, .uncorrectable].all fun f =>
      decide ((event (.scrub 15 1 3 f) State.reset).occ = Occ.scrub 15 1 3 f ∧ rangeOf (31 * 2 ^ 36 + 384) = Range.hbm ∧ homeDie (31 * 2 ^ 36 + 384) = 15)) = true ∧
    (event (.io 1 15) State.reset).occ = Occ.io 1 15 ∧ (event (.msix 1 15 9) State.reset).occ = Occ.msix 1 15 9 ∧
    ([0, 16].all fun t =>
      let s := State.reset.updIo 1 fun d => { d with cap := 4, tail := t }
      decide (1 < s.ios.length ∧ (((s.io 1).tail - (s.io 1).head).toNat < 16 ↔ t = 0))) = true ∧
    ((event (.inbound { io := 1, link := 0, addr := 0xF00011000500, write := true, data := [1, 2, 3, 4], len := 0 }) State.reset).occ =
      Occ.inbound { io := 1, link := 0, addr := 0xF00010000500 + 0x1000000, write := true, data := [1, 2, 3, 4], len := 0 }) ∧
    -- served by the second window: a write, one without the right, one under an empty key slot, a read; past every window; and a write and
    -- a read that meet an error
    ([(true, true, 0, 0xFFFFF), (true, false, 0, 0xFFFFF), (true, true, 9, 0xFFFFF), (false, true, 0, 0xFFFFF), (false, true, 0, 0x100000),
      (true, true, 0, 0x20000000005), (false, true, 0, 0x20000000005)].all fun ((wr, may, key, pa) : Bool × Bool × Nat × Nat) => (do
      let r : Inbound := { io := 0, link := 15, addr := pa, write := wr, data := [7], len := 1 }
      let frame := if pa = 0x20000000005 then 0x2000000 else 0xF
      let win : InWin := { w01 := BitVec.ofNat 64 (frame * 65536 + (if may then 3 else 1)), size := 1, key := BitVec.ofNat 32 key, refused := false }
      let s := (event (.inbound r) State.reset).updIo 0 fun d => { d with inwins := [(241, win)] }
      let w (k : Nat) : InWin := (s.io 0).inwin (15 * 16 + k)
      let first (k : Nat) : Nat := ((w k).w01.extractLsb' 16 32).toNat
      let serves (k : Nat) : Bool := (w k).w01.getLsbD 0 && decide (first k * 65536 ≤ r.addr ∧ r.addr < (first k + (w k).size.toNat) * 65536)
      guard (s.occ = Occ.inbound r ∧ (serves 1 = true ↔ pa ≠ 0x100000) ∧ ((List.range 16).any fun k => decide (k ≠ 1) && serves k) = false ∧
        (w 1).w01.getLsbD 1 = may ∧ (tget s.keys key = none ↔ key = 9))
      let x : Xl := { pa := pa, key := 0, part := 0, cls := 1, kind := 0, gran := 0, entryAt := 0, moving := false }
      let fails : Bool := if wr then (s.busWrite 16 x [7]).2.isSome else (ok (s.busRead 16 x 1).2).isNone
      if fails = decide (pa = 0x20000000005) then some () else none).isSome) = true ∧
    ([0x1FFFFC, 0x1FFFFD, 0x20000000000].all fun pa => (do
      let r : RemoteAtomic := { io := 1, op := .add, pa := pa, wide := false, signed := false, data := 1, cmp := 0 }
      let s := event (.remoteAtomic r) State.reset
      guard (s.occ = Occ.remoteAtomic r ∧ ((outsideOk pa 4 = true ∧ pa % 4 = 0) ↔ pa = 0x1FFFFC))
      if pa = 0x1FFFFC then (got (s.rmw 17 (outsideXl pa) 4 .add false 1 0)).map fun _ => () else some ()).isSome) = true ∧
    ([true, false].all fun put => (do
      let r : RemoteAccess := { io := 1, pa := 0x1FFFFF, put := put, data := if put then [7] else [], len := 1 }
      let s := event (.remoteAccess r) State.reset
      guard (s.occ = Occ.remoteAccess r ∧ outsideOk r.pa 1 = true)
      if put then guard ((s.busWrite 17 (outsideXl r.pa) r.data).2 = none)
      else (got (s.busRead 17 (outsideXl r.pa) 1)).map fun _ => ()).isSome) = true := by decide +kernel

/-! ### Witnesses: frames, words, steps, privilege and translation -/

/-- One lane that writes v12, with a read of v4 killed; its effect is a write and its kill names no neighbour's register. -/
theorem witness_ValueFrame :
    let i : LaneIn := { lane := 0, vals := [[7]], dst := [(.v 12, 1)], ix := [0, 0, 0, 0], kills := [(.v 4, 1)] }
    let s := begun nopWord
    (s.act.bind fun a => (tget s.teams a.key).bind fun t => t.threads[0]?).isSome = true ∧
    ([i].all fun j => (j.kills.all fun e => decide (e.1 = Loc.v 4)) && !j.dst0.1.isS) = true ∧
    ([i].filter fun j => decide (j.lane = i.lane)) = [i] ∧ (∀ x ∈ [Eff.write [8]], ∃ ws, x = .write ws) := by
  refine ⟨by decide +kernel, by decide +kernel, by decide +kernel, ?_⟩
  intro x h
  exact ⟨[8], by simpa using h⟩

/-- A byte on either side of written bytes; an access at the end of a line; bytes of a scratchpad. -/
theorem witness_MemoryFrames :
    (decide (0x0FFF + 1 ≤ 0x1000 ∧ 0x1000 + ([1, 2] : List Byte).length ≤ 0x1002 ∧ Memory.wf State.reset.mem = true ∧
      State.reset.keyOf 0 = State.reset.keyOf 0) && ((blocksOf 0x1010 1).all fun b => !(blocksOf 0x1000 2).contains b)) = true ∧
    (let l : L1Line := { line := 0x20, key := 0, data := 7, present := 3, dirty := 1, tag := .multi, way := 0, part := 0, cls := 1, keep := false }
     let k : Core := { Core.reset with l1 := [l] }
     decide ((k.l1.map fun (l : L1Line) => l.line).Nodup ∧ 0x107C % 128 + 4 ≤ 128) &&
       k.l1.all fun (l : L1Line) => decide (l.dirty &&& ~~~l.present = 0)) = true ∧
    ((tget (begun 0).blocks 1).map fun b => Memory.wf b.scratch) = some true := by decide +kernel

/-- A step that answers a next state from a state with the form: the loaded word of the reset machine. -/
theorem witness_MemoryStaysCanonical :
    Memory.wf (State.reset.withFetchWord 64 nopWord.toNat).mem = true ∧
    (match step (State.reset.withFetchWord 64 nopWord.toNat) with | .next _ => true | _ => false) = true := by decide +kernel

theorem witness_DecodeEncode :
    (let i := Instr.iadd (f3Of (f2 0x000 12 0))
     i.ownRow && i.wellFormed && decide (((encode i).bind fun w => ok (decode w)) = some i)) = true ∧
    (let i := Instr.czero (cmd 0x010200000000 [0])
     i.ownRow && decide (((encodeCmd i).bind fun ws => match ws with | w :: ws => ok (decodeCmd w ws) | _ => none) = some i)) = true := by
  decide +kernel

/-- A loaded word at its turn; a loaded command at its queue's turn; an event on the agenda; a fetch of the loaded line. -/
theorem witness_StepRuns :
    (do let (u, t) := (State.reset.loadWord nopWord).nextTurn
        let .issue key g := t | none
        let team ← tget u.teams key
        let gr ← (team.groups[g]? : Option Group)
        let w ← gr.leg[gr.pos]?
        let i ← ok (decode w)
        guard (u.mayIssue key g = true ∧ w = nopWord ∧ i.form = (Instr.nop (f3Of nopWord)).form)).isSome = true ∧
    (do let (w, ws) ← (match encodeCmd (.czero (cmd 0x010200000000 [0])) with | some (w :: ws) => some (w, ws) | _ => none)
        let (u, t) := (State.reset.loadCommand (w :: ws)).nextTurn
        let .queue die q := t | none
        let v := u.takeCommand die q
        let a ← v.queueAct die q
        let i ← ok (decodeCmd a.entry.word a.entry.extra)
        guard (u.queuePlaced die q = true ∧ a.entry.drain = none ∧ i = Instr.czero (cmd 0x010200000000 [0]))).isSome = true ∧
    ({ State.reset with agenda := [.event .reportDone .none] } : State).nextTurn.2 = Turn.event .reportDone .none ∧
    (do let s := (State.reset.loadWord nopWord)
        let t ← tget s.teams (teamKey 0 0)
        let (v, x) ← got (s.translate t.agent (loadVa &&& ~~~(63 : Word64)) 64 64 .fetch)
        let (_, bs) ← got (v.busRead (dieOf t.core) x 64)
        guard (v.icacheOf t = [] ∧ bs.length = 64)).isSome = true := by decide +kernel

/-- A U team and a supervisor-only opcode, and SRET on a vector lane; reads and writes of a register that a U thread may not access,
and of no register. -/
theorem witness_Privilege :
    (do let t ← tget (edit (fun t => { t with mode := .u }) (begun nopWord)).teams (teamKey 0 0)
        let g ← f3Sig 0x2C7 (f3Of (f1 0x2C7 0xF0 0))
        let _ ← f3Sig 0x2C4 (f3Of nopWord)
        guard (t.allot.mode = Mode.u ∧ t.allot.kind ≠ Kind.scalar ∧ (0x2C7 ∈ [0x2C7, 0x2C8, 0x2CC, 0x2CD, 0x2CF, 0x2D0]) ∧ g.bad = false)).isSome = true ∧
    ([(0x2C5, 0x020), (0x2C6, 0x020), (0x2C5, 0xFFF), (0x2C6, 0xFFF)].all fun (op, r) => (do
      let b := BitVec.ofNat 8 (r / 256)
      let c := BitVec.ofNat 8 r
      let w := if op = 0x2C5 then fw 0x2C5 12 0xF0 b c 0 1 else fw 0x2C6 0xF0 4 b c 4 1
      let s := edit (fun t => { t with mode := .u }) (begun w)
      let (a, _) ← laneF3 w s
      guard (a.team.mode = Mode.u ∧ sysReg (f3Of w) = r ∧
        (sysTable.filter fun (e : Nat × Nat × Nat) => decide (e.1 = r)) = if r = 0xFFF then [] else [(0x020, 8, 1)])).isSome) = true := by decide +kernel

/-- An agent of the first team, and the table of handle 2 with a record of these rights. -/
def agentOf (user : Bool) : Agent :=
  { tlb := .core 0, die := 0, ctx := { asid := 0, ortBase := 0x10000, ortSize := 3, mode := if user then .u else .s, region := 0, reloc := 0 }
    user := user, engine := false, bare := false }

/-- The state with these doublewords as the record of handle 2, and this entry 0 in its table. -/
def withRecord (ds : List Word64) (entry : Word64) : State := { begun 0 with mem := cells 0x10080 ds ++ cells 0x20010 [entry] }
/-- A tensor of rank 2 in 8-bit elements: 240 by 256, its rows 256 apart, so that the last 16 bytes of each are padding. -/
def padded : List Word64 := [0x4B3, 0x020A000000020010, 0x10000, 0x00000100000000F0, 0x100000001, 0x0000080800000001, 0x100]

/-- Handle 0 and the first past the table; a record that fails a check; each right absent, the kind of a direction and an instruction
fetch among them; the first byte past the extent, a misaligned address, a first byte in a tensor's padding and a later one in it, a key
slot that holds no keys, entries that are absent, of state 3 and with a reserved bit; and a load and a store whose translation fails. -/
theorem witness_TranslationFaults :
    ([0, 3].all fun h => decide ((agentOf false).bare = false ∧ (h = 0 ∨ (agentOf false).ctx.ortSize.toNat ≤ h))) = true ∧
    (do let s := withRecord [0x4B0, 0x20010, 0x10000] 0x40001
        let ag := agentOf false
        let (_, bs) ← got (s.walkRead 0 0x10080 64)
        guard ((s.tlbOf ag.tlb).rec? 0 2 = none ∧ (s.die 0).tlb.rec? 0 2 = none ∧
          ({ d := (List.range 8).map fun i => BitVec.ofNat 64 (ofBytes ((bs.drop (8 * i)).take 8)) } : Record).ok = false)).isSome = true ∧
    ([((0x5B1 : Word64), false, Use.load, some (8 : Word32)), (0x6B1, true, .load, some 9), (0x4A1, false, .load, some 4), (0x491, false, .store, some 5),
      (0x4B5, false, .fetch, some 6), (0x431, false, .atom, some 7), (0x4B1, false, .fetch, some 0), (0x4F5, false, .fetch, none),
      (0x4B1, true, .load, none), (0x5B1, true, .load, some 8)].all fun (d, user, u, why) => (do
        let (_, r) ← got ((withRecord [d, 0x20010, 0x10000] 0x40001).findRecord (agentOf user) 2)
        guard (r.refuses (agentOf user) u = why)).isSome) = true ∧
    ([((0x4B1 : Word64), 65536, 1, (0x40001 : Word64)), (0x4B1, 65533, 4, 0x40001), (0x4B1, 65534, 4, 0x40001), (0x14B1, 65532, 4, 0x40001),
      (0x4B1, 0, 4, 0), (0x4B1, 0, 4, 0x40003), (0x4B1, 0, 4, 0x40005), (0x4B1, 0, 4, 0x1000000040001)].all fun (d, off, n, e) => (do
        let s := withRecord [d, 0x20010, 0x10000] e
        let ag := agentOf false
        let (v, r) ← got (s.findRecord ag 2)
        guard (r.refuses ag .load = none ∧ (65536 < off + n ↔ off = 65536 ∨ off = 65533 ∨ off = 65534))
        if 65532 < off then some ()
        else do
          let (g, _) ← ok (r.locate off n)
          guard (off % n = 0 ∧ (tget v.keys r.keyIdx = none ↔ d = 0x14B1) ∧ (v.tlbOf ag.tlb).gran? 0 2 r.gen g = none ∧ (v.die 0).tlb.gran? 0 2 r.gen g = none)
          let (_, bs) ← got (v.walkRead 0 (r.table + 8 * g) 8)
          guard (d = 0x14B1 ∨ (BitVec.ofNat 64 (ofBytes bs) = e ∧
            (e.extractLsb' 48 16 ≠ 0 ∨ e.extractLsb' 2 14 ≠ 0 ∨ e.extractLsb' 0 2 = 0 ∨ e.extractLsb' 0 2 = 3)))).isSome) = true ∧
    ([0xF0, 0xEE, 0xE2].all fun (off : Nat) => (do
        let (_, r) ← got ((withRecord padded 0x40001).findRecord (agentOf false) 2)
        let x := (r.coords off).getD 0 0
        guard (r.refuses (agentOf false) .load = none ∧ r.kind = 1 ∧ r.elemBits = 8 ∧ off + 4 ≤ r.extent ∧ off % 2 = 0 ∧ (off % 4 ≠ 0 ↔ off ≠ 0xF0) ∧
          (r.ext 0 ≤ x ↔ off = 0xF0) ∧ ((r.locate off 4).toOption = none ↔ off ≠ 0xE2))).isSome) = true ∧
    ([8, 9].all fun op => (do
      let w := xw op 12 4 true 2
      let s := world [2] w [(4, 2), (5, 0x200)]
      let (a, i) ← laneX w s
      let u := if op = 8 then Use.load else .store
      guard (accSize (xOf w) = 4 ∧ s.waitsHeld a i.lane (globalAddr (xOf w) i) 4 4 u = false)
      match (s.translate a.team.agent (globalAddr (xOf w) i) 4 4 u).2 with
        | .error f => guard (f.cause = Cause.misaligned ∧ f.w9 = 0)
        | _ => none).isSome) = true := by decide +kernel

/-! ### One step, with results that the spec writes out -/

/-- What the loaded word's thread has after its step for v12 and up, with v registers written before: the result that waits to be
written back (R126), else the registers. -/
def ran (n : Nat) (w : Word64) (vs : List (Nat × Word32)) : Option (List Word32) :=
  match step (regs vs (begun w)) with
  | .next t => (tget t.teams (loadTeam w 0).1).bind fun (t : Team) => match t.pend with
    | p :: _ => some p.words
    | [] => t.threads[0]?.map fun th => (List.range n).map fun k => ((th.v[12 + k]?).map (·.val)).getD 0
  | _ => none

-- the table after R157
theorem test_iadd_sat : ran 1 (f2 0x000 12 2) [(4, 0x7FFFFFF0), (8, 0x20)] = some [0x7FFFFFFF] := by decide +kernel
theorem test_iadd_wraps : ran 1 (f2 0x000 12 0) [(4, 0x7FFFFFF0), (8, 0x20)] = some [0x80000010] := by decide +kernel
theorem test_isub_usat : ran 1 (f2 0x001 12 4) [(4, 5), (8, 9)] = some [0] := by decide +kernel
theorem test_imulh : ran 1 (f2 0x004 12 0) [(4, 0x80000000), (8, 0x80000000)] = some [0x40000000] := by decide +kernel
theorem test_imulh_u : ran 1 (f2 0x004 12 4) [(4, 0xFFFFFFFF), (8, 0xFFFFFFFF)] = some [0xFFFFFFFE] := by decide +kernel
theorem test_sar : ran 1 (f2 0x00E 12 0) [(4, 0x80000000), (8, 40)] = some [0xFFFFFFFF] := by decide +kernel
theorem test_sar_mask : ran 1 (f2 0x00E 12 2) [(4, 0x80000000), (8, 40)] = some [0xFF800000] := by decide +kernel
theorem test_idiv : ran 1 (f2 0x019 12 0) [(4, 0xFFFFFFF9), (8, 2)] = some [0xFFFFFFFD] := by decide +kernel
theorem test_idiv_most_negative : ran 1 (f2 0x019 12 0) [(4, 0x80000000), (8, 0xFFFFFFFF)] = some [0x80000000] := by decide +kernel
theorem test_irem : ran 1 (f2 0x01A 12 0) [(4, 0xFFFFFFF9), (8, 2)] = some [0xFFFFFFFF] := by decide +kernel
theorem test_irem_by_zero : ran 1 (f2 0x01A 12 4) [(4, 12), (8, 0)] = some [12] := by decide +kernel
theorem test_bfe_s : ran 1 (f2 0x013 12 4) [(4, 0xF00), (8, 0x408)] = some [0xFFFFFFFF] := by decide +kernel

-- FP32 to F8A after R84: 0.3 by RN, -0.00001 by RD; and CvtScale of the tie 12.0 and of 14.0 after R85
theorem test_cvt_f8a : [(0, 0x3E99999A), (3, 0xB727C5AC)].map (fun (c, x) => ran 1 (fw 0x0C0 12 4 0xF0 c 4 0x03) [(4, x)]) =
    [some [0x2A], some [0x81]] := by decide +kernel
theorem test_cvt_sc8 : [0x41400000, 0x41600000].map (fun x => ran 1 (fw 0x0C0 12 4 0xF0 0 4 0x0B) [(4, x)]) =
    [some [0x82], some [0x83]] := by decide +kernel

-- "A worked direction" of chapter 7: 3.0 and 4.0
theorem test_worked_direction : renorm ([{ m := 3, e := 0 }, { m := 4, e := 0 }] ++ List.replicate 14 { m := 0, e := 0 }) 1 0 =
    { codes := [9830, 13107] ++ List.replicate 14 0, norm := 0x0252, range := false } := by decide +kernel

-- ST then memory: a byte store of 4 bytes in little-endian order (R7)
theorem test_st : (match step (world [2] (xw 9 12 4 true 2) [(4, 0x10), (5, 0x200), (12, 0x04030201)]) with
    | .next t => some ((List.range 4).map fun k => t.seen 0 (0x40010 + k) 0)
    | _ => none) = some [1, 2, 3, 4] := by decide +kernel
-- LD.b8.s sign-extends (R26)
theorem test_ld : (match step (let s := world [2] (xw 8 12 4 true 8) [(4, 0x10), (5, 0x200)]; { s with mem := s.mem ++ [(0x40010, 0x80)] }) with
    | .next t => (tget t.teams (teamKey 0 0)).bind fun (t : Team) => t.pend.head?.map (·.words)
    | _ => none) = some [0xFFFFFF80] := by decide +kernel

-- a placed word is the word that the next step runs
theorem test_fetch : (match step (State.reset.withFetchWord 64 (xw 0 12 0xF0 false 7).toNat) with
    | .next t => (tget t.teams (teamKey 0 0)).bind fun t => t.threads[0]?.bind fun th => th.v[12]?.map fun (r : VReg) => r.val
    | _ => none) = some 7 := by decide +kernel
theorem test_decode_table_word : decodeTableWord 64 0x0C570C04050C1C02 =
    some (.dp4f { gs := false, gp := 7, d := 12, a := 4, b := 5, c := 12, lu := 0, kw := 7, ns := 0, md := 2 }) := by decide +kernel
theorem test_command : (match step (State.reset.withFetchWord 128 ((encodeCmd (.cend (cmd 0 []))).getD []).head!.toNat) with
    | .next t => some (t.queue 0 0).prog
    | _ => none) = some none := by decide +kernel

-- the digest of the empty message that FIPS 202 gives: 46 B9 DD 2B 0B A8 8D 13 ...
theorem test_shake256 : toBytes 8 (shake256 []).toNat = [0x46, 0xB9, 0xDD, 0x2B, 0x0B, 0xA8, 0x8D, 0x13] := by decide +kernel
-- the example of AES-256 in FIPS 197: key 00 01 ... 1F, block 00 11 ... FF
theorem test_aes : (let k : List Byte := (List.range 32).map fun i => BitVec.ofNat 8 i
    let b : List Byte := (List.range 16).map fun i => BitVec.ofNat 8 (17 * i)
    ((aesEncrypt k b).take 4, decide (aesDecrypt k (aesEncrypt k b) = b))) = ([0x8E, 0xA2, 0xB7, 0xCA], true) := by decide +kernel

end Sys2Proof.Tests
end

section
/-! SUPPORT. What a U team may not run or access (R45, R343, R345, R346): the leg check of the supervisor-only opcodes, the check of
an access to a system register against the table of R346, and the issue of a word whose lanes all fault. -/

namespace Sys2Proof.Machine

/-! ### Words whose every performing lane faults -/

/-- A lane that has gathered its operands or skips neither faults nor waits for an operand. -/
theorem Got.not_fault_not_waits {g : Got} (h : g.isSkip = true ∨ g.input?.isSome = true) : g.fault? = none ∧ g.waits = false := by
  cases g <;> simp_all [Got.isSkip, Got.input?, Got.fault?, Got.waits]

/-- On lanes that are ready, a body that faults without an effect leaves the state and collects one fault for each performing lane. -/
theorem foldl_lane_faults {inOrder : Bool} {issued : List Nat} {body : LaneIn → Bool → State → LaneRes} {s : State}
    {mk : LaneIn → LaneFault} (hb : ∀ i lead, body i lead s = .fault s (mk i)) (got : Nat → Got) (xs : List Nat)
    (hall : ∀ l ∈ xs, (got l).isSkip = true ∨ (got l).input?.isSome = true) (fs : List LaneFault) (done : BitVec 64) :
    ∃ d, (xs.map fun l => ({ lane := l, got := [got l] } : LaneOps)).foldl (fun r l => LaneRun.lane r inOrder issued body l)
        { s := s, faults := fs, late := [], waits := [], done := done }
      = { s := s, faults := fs ++ ((xs.map got).filterMap Got.input?).map mk, late := [], waits := [], done := d } := by
  induction xs generalizing fs done with
  | nil => exact ⟨done, by simp⟩
  | cons x xs ih =>
    have ih' := ih fun y hy => hall y (List.mem_cons_of_mem x hy)
    simp only [List.map_cons, List.foldl_cons]
    cases hx : (got x).input? with
    | none =>
      have e := Got.skip_of_not_input (hall x List.mem_cons_self) hx
      rw [List.filterMap_cons_none hx]
      simpa [LaneRun.lane, e] using ih' fs (done ||| BitVec.twoPow 64 x)
    | some i =>
      have e := Got.ok_of_input hx
      rw [List.filterMap_cons_some hx]
      simpa [LaneRun.lane, e, hb] using ih' (fs ++ [mk i]) done

/-- An instruction that performs lane by lane, when every performing lane faults without an effect: one record parks them, and the
group moves past it (R351). -/
theorem issueLanes_faults {s : State} {a : Act} {dest : Code} {guard : Thread → Bool} {acc : List Acc} {inOrder : Bool}
    {body : LaneIn → Bool → State → LaneRes} {ins : List LaneIn} {mk : LaneIn → LaneFault}
    (h : s.ready a a.left guard acc ins) (hb : ∀ i lead, body i lead s = .fault s (mk i)) :
    s.issueLanes a dest guard acc inOrder body = (s.faultLanes a dest (ins.map mk)).advance a := by
  obtain ⟨hall, rfl⟩ := h
  let got (l : Nat) : Got := s.gather a l (a.passes guard l) acc
  have hready : ∀ l ∈ laneList a.left, (got l).isSkip = true ∨ (got l).input?.isSome = true :=
    fun l hl => hall _ (List.mem_map_of_mem hl)
  have hops : s.gatherOp a guard acc = (laneList a.left).map fun l => { lane := l, got := [got l] } := gatherOp_eq s a guard acc
  have hfine : (s.gatherOp a guard acc).filter (fun l => (l.got.findSome? Got.fault?).isNone) = s.gatherOp a guard acc := by
    rw [hops, List.filter_eq_self, List.forall_mem_map]
    exact fun l hl => by simp [(Got.not_fault_not_waits (hready l hl)).1]
  have hwaits : (s.gatherOp a guard acc).any (fun l => l.got.any Got.waits) = false := by
    rw [hops, List.any_eq_false, List.forall_mem_map]
    exact fun l hl => by simp [(Got.not_fault_not_waits (hready l hl)).2]
  obtain ⟨d, hfold⟩ := foldl_lane_faults (inOrder := inOrder) (issued := a.issued guard) hb got (laneList a.left) hready [] a.done
  simp only [State.issueLanes, List.map_id, hfine, hwaits, Bool.false_eq_true, if_false]
  rw [hops, hfold]
  rfl

/-! ### The check of an access to a system register (R345, R346) -/

/-- The model's lookup of a register is the table of R346. -/
theorem mem_sysTable_iff {n width who : Nat} : (n, width, who) ∈ sysTable ↔ sysInfo n = some (width, who) := by
  constructor
  · have hall : ∀ e ∈ sysTable, sysInfo e.1 = some e.2 := by decide
    exact hall (n, width, who)
  · intro h
    unfold sysInfo at h
    split at h <;> cases h <;> decide

/-- A register that its thread may not access, in its own width. -/
theorem sysCheck_eq_privilegedOp {t : Team} {n who : Nat} {wide write : Bool}
    (hmem : (n, (if wide then 8 else 4), who) ∈ sysTable)
    (hdenied : (who = 1 ∧ t.mode = .u) ∨ (who = 2 ∧ t.kind ≠ .scalar) ∨ (n = 0x050 ∧ write = true ∧ t.mode = .u)) :
    sysCheck t n wide write = some .privilegedOp := by
  simp only [sysCheck, mem_sysTable_iff.1 hmem, ne_eq, not_true_eq_false, if_false]
  rcases hdenied with h | h | h <;> simp [h]

/-- A register that is unassigned, or has another width. -/
theorem sysCheck_eq_reservedField {t : Team} {n : Nat} {wide write : Bool}
    (hnone : ∀ who, (n, (if wide then 8 else 4), who) ∉ sysTable) : sysCheck t n wide write = some .reservedField := by
  cases hinfo : sysInfo n with
  | none => simp only [sysCheck, hinfo]
  | some e =>
    have hwidth : e.1 ≠ if wide then 8 else 4 := fun hw => hnone e.2 (mem_sysTable_iff.2 (hw ▸ hinfo))
    simp only [sysCheck, hinfo, if_pos hwidth]

/-! ### The register number of a SYSRD or SYSWR word (R345) -/

/-- The high half of the number has four bits where the reserved ones are 0. -/
theorem sysNumber_eq_sysReg {w : F3} (h : mdField w.b 7 4 = 0) : sysNumber w = sysReg w := by
  have hb : w.b.toNat < 2 ^ 4 := by
    have := w.b.isLt
    simp only [mdField] at h
    omega
  simp only [sysNumber, sysReg, BitVec.toNat_append, BitVec.extractLsb'_toNat, Nat.shiftRight_zero, Nat.mod_eq_of_lt hb]
  rw [← Nat.shiftLeft_add_eq_or_of_lt w.c.isLt, Nat.shiftLeft_eq]

/-- The reserved bits of the number are 0 in a SYSRD or SYSWR that issues. -/
theorem State.lanesF3.sysNumber_eq {s : State} {a : Act} {op : Nat} {w : F3} {ins : List LaneIn} (h : s.lanesF3 a op w ins)
    (hop : op = 0x2C5 ∨ op = 0x2C6) : sysNumber w = sysReg w := by
  obtain ⟨-, ⟨g, hg, hbad⟩, -⟩ := h
  apply sysNumber_eq_sysReg
  rcases hop with rfl | rfl <;> cases hg <;> simpa using (Bool.or_eq_false_iff.1 hbad).2

/-! ### SYSRD and SYSWR of a register that the check refuses -/

/-- Every performing lane of a refused SYSRD traps, and nothing is read. -/
theorem exec_sysrd_refused {s : State} {a : Act} {w : F3} {ins : List LaneIn} {c : Cause} (h : s.lanesF3 a 0x2C5 w ins)
    (hc : sysCheck a.team (sysReg w) (w.md.getLsbD 0) false = some c) :
    exec (.sysrd w) s = .next ((s.faultLanes a w.d (ins.map fun i => openFault i.lane c 0)).advance a) := by
  rw [← h.sysNumber_eq (.inl rfl)] at hc
  obtain ⟨hact, -, hready⟩ := h
  refine (State.asGroup_some hact _).trans (congrArg _ (issueLanes_faults hready fun i lead => ?_))
  simp only [hc]

/-- Every performing lane of a refused SYSWR traps, and nothing is written, whatever the rule of the register. -/
theorem sysWrite_refused {s : State} {a : Act} {w : F3} {ins : List LaneIn} {c : Cause} (h : s.lanesF3 a 0x2C6 w ins)
    (hc : sysCheck a.team (sysReg w) (w.md.getLsbD 0) true = some c) (perThread : Bool)
    (f : Act → Nat → Word64 → State → Except Cause State) :
    s.sysWrite w perThread f = .next ((s.faultLanes a 0xF0 (ins.map fun i => openFault i.lane c 0)).advance a) := by
  rw [← h.sysNumber_eq (.inr rfl)] at hc
  obtain ⟨hact, -, hready⟩ := h
  refine (State.asGroup_some hact _).trans (congrArg _ (issueLanes_faults hready fun i lead => ?_))
  simp only [hc]

/-- The rows of SYSWR: the registers without a write rule of their own, and those with one (R346). -/
def registerWrites : List (F3 → Instr) :=
  [.syswr, .statusWrite, .ortRegisterWrite, .tqBaseWrite, .tqHeadWrite, .tqHandWrite, .tqBatchWrite, .coreSplitWrite,
   .intPendingClear, .ipiWrite, .wdtWrite, .bspWrite]

/-- Every row of SYSWR is a checked register write. -/
theorem exec_registerWrite (w : F3) (s : State) :
    ∀ mk ∈ registerWrites, ∃ perThread f, exec (mk w) s = s.sysWrite w perThread f := by
  simp only [registerWrites, List.forall_mem_cons]
  exact ⟨⟨_, _, (rfl : _ = execSyswr w s)⟩,
    ⟨_, _, (rfl : _ = execStatusWrite w s)⟩,
    ⟨_, _, (rfl : _ = execOrtRegisterWrite w s)⟩,
    ⟨_, _, (rfl : _ = execTqBaseWrite w s)⟩,
    ⟨_, _, (rfl : _ = execTqHeadWrite w s)⟩,
    ⟨_, _, (rfl : _ = execTqHandWrite w s)⟩,
    ⟨_, _, (rfl : _ = execTqBatchWrite w s)⟩,
    ⟨_, _, (rfl : _ = execCoreSplitWrite w s)⟩,
    ⟨_, _, (rfl : _ = execIntPendingClear w s)⟩,
    ⟨_, _, (rfl : _ = execIpiWrite w s)⟩,
    ⟨_, _, (rfl : _ = execWdtWrite w s)⟩,
    ⟨_, _, (rfl : _ = execBspWrite w s)⟩, List.forall_mem_nil _⟩

theorem exec_registerWrite_refused {s : State} {a : Act} {w : F3} {ins : List LaneIn} {c : Cause} {mk : F3 → Instr}
    (hmk : mk ∈ registerWrites) (h : s.lanesF3 a 0x2C6 w ins)
    (hc : sysCheck a.team (sysReg w) (w.md.getLsbD 0) true = some c) :
    exec (mk w) s = .next ((s.faultLanes a 0xF0 (ins.map fun i => openFault i.lane c 0)).advance a) := by
  obtain ⟨perThread, f, e⟩ := exec_registerWrite w s mk hmk
  exact e.trans (sysWrite_refused h hc perThread f)

/-! ### The leg check of a supervisor-only opcode (R45) -/

theorem f3Privileged_iff {al : Allot} {op : Nat} :
    f3Privileged al op = true ↔
      (al.mode = .u ∧ op ∈ [0x2C7, 0x2C8, 0x2CC, 0x2CD, 0x2CF, 0x2D0]) ∨ (al.kind ≠ .scalar ∧ op = 0x2C4) := by
  simp [f3Privileged, and_comm, or_comm]

/-- An opcode that the mode or lane forbids is among the failures of its word. -/
theorem exists_privilegedOp_mem_f3Fails {al : Allot} {pend : List Touch} {first : Bool} {op : Nat} {w : F3} {g : Sig}
    (hg : f3Sig op w = some g) (hp : f3Privileged al op = true) : ∃ f ∈ f3Fails al pend first op w, f.cause = .privilegedOp := by
  refine ⟨{ cause := .privilegedOp, half := 0, dest := destOf w.d g.d, w9 := 0 }, ?_, rfl⟩
  simp [f3Fails, hg, hp, failW9]

/-- Settles O59: the leg check by opcode alone, and a refused access as a word whose every performing lane faults. -/
theorem privilege : Obligations.Privilege := by
  refine ⟨fun al pend first op w g hg hp => exists_privilegedOp_mem_f3Fails hg (f3Privileged_iff.2 hp), fun s a w ins => ?_⟩
  refine ⟨fun h => ⟨?_, ?_⟩, fun h mk hmk => ⟨?_, ?_⟩⟩
  · rintro ⟨who, hmem, hdenied⟩
    exact exec_sysrd_refused h (sysCheck_eq_privilegedOp hmem hdenied)
  · exact fun hnone => exec_sysrd_refused h (sysCheck_eq_reservedField hnone)
  · rintro ⟨who, hmem, hdenied⟩
    exact exec_registerWrite_refused hmk h (sysCheck_eq_privilegedOp hmem hdenied)
  · exact fun hnone => exec_registerWrite_refused hmk h (sysCheck_eq_reservedField hnone)

end Sys2Proof.Machine
end

section
/-! SUPPORT. The packed dot products (R88, R89, R167): the elements of a source as bit fields, their integer values, and the exact
sum of an integer dot product. -/

namespace Sys2Proof.Machine

/-! ### The rounding mode of a modifier (R52) -/

/-- The two readings of modifier [3:2] agree. -/
theorem mdRnd_eq_fpMode (md : BitVec 8) : mdRnd md = fpMode md := by
  have hbits : mdField md 3 2 = (md.extractLsb' 2 2).toNat := by simp [mdField, Nat.shiftRight_eq_div_pow]
  simp only [mdRnd, fpMode, hbits, Rnd.ofBits, BitVec.toNat_eq]
  rfl

/-! ### Integers as dyadic numbers -/

/-- A sign and a magnitude make up the integer again. -/
theorem signed_natAbs (i : Int) : (if i < 0 then -(i.natAbs : Int) else (i.natAbs : Int)) = i := by
  by_cases h : i < 0
  · rw [if_pos h]
    omega
  · rw [if_neg h]
    omega

@[simp] theorem FVal.dyad_ofDyad (d : Dyad) : (FVal.ofDyad d).dyad = d := by
  simp only [FVal.ofDyad, FVal.dyad, decide_eq_true_eq, signed_natAbs]

/-- An integer rounds to itself in every mode. -/
theorem quot_one (md : Rnd) (neg : Bool) (n : Nat) : quot md neg n 1 = n := by
  cases md <;> simp [quot, Nat.mod_one]

@[simp] theorem Dyad.toInt_ofInt (md : Rnd) (i : Int) : (Dyad.ofInt i).toInt md = i := by
  have hfrac : (Dyad.ofInt i).frac = (i.natAbs, 1) := by simp [Dyad.frac, Dyad.ofInt]
  simp only [Dyad.toInt, hfrac, quot_one]
  exact signed_natAbs i

/-! ### The elements of a source (R78, R79, R81) -/

/-- The two's complement of a bit-vector's code is the integer that it stands for. -/
theorem toSigned_toNat {n : Nat} (x : BitVec n) : toSigned n x.toNat = x.toInt := by
  cases n with
  | zero => simp [toSigned, BitVec.of_length_zero]
  | succ n =>
    have hlt := x.isLt
    simp only [toSigned, BitVec.toInt_eq_toNat_cond, Nat.mod_eq_of_lt hlt, Nat.add_sub_cancel]
    rw [Nat.pow_succ] at hlt ⊢
    split <;> split <;> omega

theorem srcInt_32 (ws : List Word32) : srcInt 32 ws = (lo32 ws).toInt := toSigned_toNat (lo32 ws)

/-- The two's complement of element `k` of a register is that of a field of its bits. -/
theorem toSigned_elemCode {c n : Nat} (hn : fmtBits c = n) (k : Nat) (x : Word32) :
    toSigned n (elemCode c k x.toNat) = (x.extractLsb' (n * k) n).toInt := by
  rw [← toSigned_toNat]
  simp [elemCode, hn, Nat.shiftRight_eq_div_pow, Nat.mul_comm]

/-- The integer that element `k` of a source stands for in I8 (10, R79), I8S (6, R78) or I4S (7, R78). -/
def intElem (c k : Nat) (ws : List Word32) : Int :=
  if c = 10 then ((lo32 ws).extractLsb' (8 * k) 8).toInt
  else if c = 6 then max (-127) ((lo32 ws).extractLsb' (8 * k) 8).toInt
  else max (-7) ((lo32 ws).extractLsb' (4 * k) 4).toInt

/-- An element that reads as an exact integer has that integer for its value, whatever the mode of the conversion. -/
theorem elemInt_of_readElem {c : Nat} {v : Nat → Int} (h : ∀ code, readElem c code = .ofDyad (.ofInt (v code))) (k : Nat)
    (ws : List Word32) : elemInt c k ws = v (elemCode c k (lo32 ws).toNat) := by
  rw [elemInt, h, FVal.dyad_ofDyad, Dyad.toInt_ofInt]

/-- An element of an integer format reads as its two's complement, the reserved code of I8S and I4S raised to the least value. -/
theorem elemInt_eq_intElem {c : Nat} (hc : c ∈ [6, 7, 10]) (k : Nat) (ws : List Word32) : elemInt c k ws = intElem c k ws := by
  simp only [List.mem_cons, List.not_mem_nil, or_false] at hc
  rcases hc with rfl | rfl | rfl
  · rw [elemInt_of_readElem (v := fun code => max (toSigned 8 code) (-127)) fun _ => rfl, toSigned_elemCode (n := 8) rfl, Int.max_comm]
    rfl
  · rw [elemInt_of_readElem (v := fun code => max (toSigned 4 code) (-7)) fun _ => rfl, toSigned_elemCode (n := 4) rfl, Int.max_comm]
    rfl
  · rw [elemInt_of_readElem (v := toSigned 8) fun _ => rfl, toSigned_elemCode (n := 8) rfl]
    rfl

/-! ### The sum of an integer dot product (R89) -/

/-- Adding terms one by one to an accumulator gives their sum and the accumulator. -/
theorem foldl_add_eq_sum_add {α : Type} (f : α → Int) (l : List α) (x : Int) :
    l.foldl (fun s i => s + f i) x = (l.map f).sum + x := by
  induction l generalizing x with
  | nil => simp
  | cons i l ih => simp only [List.foldl_cons, ih, List.map_cons, List.sum_cons]; omega

/-- The result of DP4I and DP8I is the exact sum of the products and C, clamped or modulo 2^32. -/
theorem dotInt_eq {ca cb : Nat} (hca : ca ∈ [6, 7, 10]) (hcb : cb ∈ [6, 7, 10]) (n : Nat) (sat : Bool) (a b c : List Word32) :
    dotInt ca cb n sat a b c =
      let x := ((List.range n).map fun k => intElem ca k a * intElem cb k b).sum + (lo32 c).toInt
      [BitVec.ofInt 32 (if sat then max (-2 ^ 31) (min x (2 ^ 31 - 1)) else x)] := by
  simp only [dotInt, foldl_add_eq_sum_add, srcInt_32, elemInt_eq_intElem hca, elemInt_eq_intElem hcb]

/-! ### The instructions (R167) -/

/-! Each of the five is the meaning that the dispatch names. -/

theorem exec_dp4i (w : F3) (s : State) : exec (.dp4i w) s = execDp4i w s := rfl
theorem exec_dp8i (w : F3) (s : State) : exec (.dp8i w) s = execDp8i w s := rfl
theorem exec_dp4f (w : F3) (s : State) : exec (.dp4f w) s = execDp4f w s := rfl
theorem exec_dp8f (w : F3) (s : State) : exec (.dp8f w) s = execDp8f w s := rfl
theorem exec_dp2b (w : F3) (s : State) : exec (.dp2b w) s = execDp2b w s := rfl

/-- A ready value operation performs with the effect that its value gives each lane. -/
theorem f3Value_performed {s : State} {a : Act} {op : Nat} {w : F3} {ins : List LaneIn} {f : List (List Word32) → List Word32}
    {eff : LaneIn → List Eff} (h : s.readyF3 a op w ins) (heff : ∀ i, [Eff.write (f i.vals)] = eff i) :
    s.f3Value op w f = .next (s.performed a ins eff) := by
  rw [f3Value_ready h, funext heff]

/-- Settles O12: each instruction is one value operation, whose integer sum is exact over the elements' bit fields and whose
floating-point sum is rounded once in the mode of its modifier. -/
theorem dotProducts : Obligations.DotProducts := by
  intro s a w ins int fp
  have hint {ca cb : Nat} (hca : ca ∈ [6, 7, 10]) (hcb : cb ∈ [6, 7, 10]) (n : Nat) (i : LaneIn) :
      [Eff.write (dotInt ca cb n (w.md.getLsbD 2) (i.val 0) (i.val 1) (i.val 2))] = int ca cb n i :=
    congrArg (fun r => [Eff.write r]) (dotInt_eq hca hcb ..)
  have hfp (ca cb n : Nat) (flush : Bool) (i : LaneIn) :
      [Eff.write (dotFp ca cb n (mdRnd w.md) (w.md.getLsbD 4) flush (i.val 0) (i.val 1) (i.val 2))] = fp ca cb n flush i := by
    rw [mdRnd_eq_fpMode]
    rfl
  have hfmt (b : Bool) : (if b then 6 else 10) ∈ [6, 7, 10] := by cases b <;> decide
  refine ⟨fun h => ?_, fun h => ?_, fun h => ?_, fun h => ?_, fun h => ?_⟩
  · rw [exec_dp4i, execDp4i]
    exact f3Value_performed h (hint (hfmt _) (hfmt _) 4)
  · rw [exec_dp8i, execDp8i]
    exact f3Value_performed h (hint (by decide) (by decide) 8)
  · rw [exec_dp4f, execDp4f]
    exact f3Value_performed h (hfp _ _ 4 false)
  · rw [exec_dp8f, execDp8f]
    exact f3Value_performed h (hfp 5 5 8 false)
  · rw [exec_dp2b, execDp2b]
    exact f3Value_performed h (hfp _ _ 2 true)

end Sys2Proof.Machine
end

section
/-! SUPPORT. Masks of lanes and the lists of their lanes, tables with rising keys, updates of one team, and the issuing group. -/

namespace Sys2Proof.Machine

/-! ### Masks of lanes -/

/-- A lane is in the union of masks when it is in one of them. -/
theorem getLsbD_foldl_or {α : Type} (f : α → BitVec 64) (xs : List α) (m : BitVec 64) (l : Nat) :
    (xs.foldl (fun m x => m ||| f x) m).getLsbD l = (m.getLsbD l || xs.any fun x => (f x).getLsbD l) := by
  induction xs generalizing m with
  | nil => simp only [List.foldl_nil, List.any_nil, Bool.or_false]
  | cons x xs ih => simp only [List.foldl_cons, ih, BitVec.getLsbD_or, List.any_cons, Bool.or_assoc]

theorem getLsbD_laneMask (ls : List Nat) {l : Nat} (hl : l < 64) : (laneMask ls).getLsbD l = decide (l ∈ ls) := by
  rw [laneMask, getLsbD_foldl_or, Bool.eq_iff_iff]
  simp [hl]

theorem mem_laneList {m : BitVec 64} {l : Nat} : l ∈ laneList m ↔ m.getLsbD l = true := by
  simp only [laneList, List.mem_filter, List.mem_range, and_iff_right_iff_imp]
  exact BitVec.lt_of_getLsbD

theorem lt_of_mem_laneList {m : BitVec 64} {l : Nat} (h : l ∈ laneList m) : l < 64 := BitVec.lt_of_getLsbD (mem_laneList.1 h)

theorem mem_laneList_laneMask {ls : List Nat} {l : Nat} : l ∈ laneList (laneMask ls) ↔ l < 64 ∧ l ∈ ls := by
  refine ⟨fun h => ?_, fun ⟨hl, h⟩ => mem_laneList.2 (by rw [getLsbD_laneMask ls hl, decide_eq_true h])⟩
  have hl := lt_of_mem_laneList h
  exact ⟨hl, of_decide_eq_true ((getLsbD_laneMask ls hl).symm.trans (mem_laneList.1 h))⟩

theorem length_laneList (m : BitVec 64) : (laneList m).length = (List.range 64).countP m.getLsbD :=
  List.countP_eq_length_filter.symm

/-- A mask is 0 when it has no lane. -/
theorem eq_zero_iff_laneList {m : BitVec 64} : m = 0 ↔ ∀ l, l ∉ laneList m := by
  simp only [mem_laneList, Bool.not_eq_true]
  exact ⟨fun h => by simp [h], fun h => BitVec.eq_of_getLsbD_eq fun l _ => by simp [h]⟩

/-- The lanes of `x` that `y` lacks. -/
theorem mem_laneList_andNot {x y : BitVec 64} {l : Nat} : l ∈ laneList (x &&& ~~~y) ↔ l ∈ laneList x ∧ l ∉ laneList y := by
  simp only [mem_laneList, BitVec.getLsbD_and, BitVec.getLsbD_not, Bool.and_eq_true, Bool.not_eq_true', decide_eq_true_eq]
  refine ⟨fun ⟨hx, _, hy⟩ => ⟨hx, by simp [hy]⟩, fun ⟨hx, hy⟩ => ⟨hx, BitVec.lt_of_getLsbD hx, Bool.eq_false_iff.2 hy⟩⟩

/-- No lane of `x` is lacking in `y`. -/
theorem andNot_eq_zero_iff {x y : BitVec 64} : x &&& ~~~y = 0 ↔ ∀ l ∈ laneList x, l ∈ laneList y := by
  simp only [eq_zero_iff_laneList, mem_laneList_andNot, not_and, Classical.not_not]

/-! ### Tables with rising keys -/

theorem tget_of_mem {α : Type} {t : Tab α} {n : Nat} {a : α} (hr : Tab.rising t) (h : (n, a) ∈ t) : tget t n = some a := by
  induction t with
  | nil => cases h
  | cons e t ih =>
    obtain ⟨k, x⟩ := e
    obtain ⟨hlt, hr⟩ := List.pairwise_cons.1 hr
    rw [tget_cons]
    rcases List.mem_cons.1 h with e | h
    · cases e
      exact if_pos rfl
    · rw [if_neg (Nat.ne_of_lt (hlt _ h)), ih hr h]

theorem mem_iff_tget {α : Type} {t : Tab α} (hr : Tab.rising t) {n : Nat} {a : α} : (n, a) ∈ t ↔ tget t n = some a :=
  ⟨tget_of_mem hr, mem_of_tget⟩

/-! ### Updates of one team after another -/

theorem tset_tset_self {α : Type} (t : Tab α) (n : Nat) (a b : α) : tset (tset t n a) n b = tset t n b := by
  induction t with
  | nil => simp [tset]
  | cons e t ih =>
    obtain ⟨k, x⟩ := e
    simp only [tset]
    by_cases h1 : n < k
    · simp [h1, tset]
    · by_cases h2 : n = k
      · simp [h2, tset]
      · simp [h1, h2, tset, ih]

theorem State.updTeam_updTeam (s : State) (key : Nat) (f g : Team → Team) :
    (s.updTeam key f).updTeam key g = s.updTeam key fun t => g (f t) := by
  cases h : tget s.teams key with
  | none => simp [State.updTeam_none, h]
  | some t =>
    rw [State.updTeam_some f h, State.updTeam_some _ h, State.updTeam_some (t := f t) g (by simp)]
    simp [State.setTeam, tset_tset_self]

/-- Updates that agree on the team that stands there are one. -/
theorem State.updTeam_congr {s : State} {key : Nat} {t : Team} {f g : Team → Team} (h : tget s.teams key = some t) (hfg : f t = g t) :
    s.updTeam key f = s.updTeam key g := by
  rw [State.updTeam_some f h, State.updTeam_some g h, hfg]

/-! ### The issuing group -/

/-- The issuing group stands in its team, at its word. -/
theorem State.act_some {s : State} {a : Act} (h : s.act = some a) :
    tget s.teams a.key = some a.team ∧ a.team.groups[a.g]? = some a.grp ∧ a.word = a.grp.leg.getD a.grp.pos 0 := by
  unfold State.act at h
  split at h
  · split at h
    · next t ht =>
      split at h
      · next g hg => cases h; exact ⟨ht, hg, rfl⟩
      · cases h
    · cases h
  · cases h

end Sys2Proof.Machine
end

section
/-! SUPPORT. What the cores do by themselves for the groups of a lane block (R97, R98, R100, R107, R111, R114, R257, R374): the
least of a list, the pick, the join of the active set, and the turns of held groups. -/

namespace Sys2Proof.Machine

/-! ### The least of a list (R98, R100) -/

theorem eq_nil_of_leastBy {α : Type} {f : α → Nat} {l : List α} (h : leastBy f l = none) : l = [] := by
  cases l with
  | nil => rfl
  | cons x l =>
    simp only [leastBy] at h
    split at h
    · cases h
    · split at h <;> cases h

theorem mem_of_leastBy {α : Type} {f : α → Nat} {l : List α} {a : α} (h : leastBy f l = some a) : a ∈ l := by
  induction l with
  | nil => cases h
  | cons x l ih =>
    simp only [leastBy] at h
    split at h
    · cases h; exact List.mem_cons_self
    · next b hb =>
      split at h <;> cases h
      · exact List.mem_cons_of_mem x (ih hb)
      · exact List.mem_cons_self

theorem le_of_leastBy {α : Type} {f : α → Nat} {l : List α} {a : α} (h : leastBy f l = some a) : ∀ b ∈ l, f a ≤ f b := by
  induction l generalizing a with
  | nil => cases h
  | cons x l ih =>
    simp only [leastBy] at h
    rw [List.forall_mem_cons]
    split at h
    · next hnone =>
      cases h
      rw [eq_nil_of_leastBy hnone]
      exact ⟨Nat.le_refl _, List.forall_mem_nil _⟩
    · next b hb =>
      split at h <;> cases h
      · next hlt => exact ⟨Nat.le_of_lt hlt, ih hb⟩
      · next hle => exact ⟨Nat.le_refl _, fun y hy => Nat.le_trans (Nat.not_lt.1 hle) (ih hb y hy)⟩

/-- The first of the elements of least measure is the one found. -/
theorem leastBy_append_cons {α : Type} {f : α → Nat} {pre post : List α} {x : α} (hpre : ∀ e ∈ pre, f x < f e)
    (hpost : ∀ e ∈ post, f x ≤ f e) : leastBy f (pre ++ x :: post) = some x := by
  induction pre with
  | nil =>
    simp only [List.nil_append, leastBy]
    cases h : leastBy f post with
    | none => rfl
    | some b => simp [Nat.not_lt.2 (hpost b (mem_of_leastBy h))]
  | cons a pre ih =>
    simp [leastBy, ih fun e he => hpre e (List.mem_cons_of_mem a he), hpre a List.mem_cons_self]

/-! ### The pick (R97, R98, R374) -/

/-- The candidates of a lane block that may be picked. -/
def State.pickable (s : State) (core lb : Nat) : List Candidate :=
  (((s.teamsAt core lb).filter fun e => e.2.active && s.mayPick e.2).map fun e => e.2.candidates e.1).flatten.filter s.mayFetch

theorem State.nextPick_eq (s : State) (core lb : Nat) : s.nextPick core lb = leastBy Candidate.since (s.pickable core lb) := rfl

theorem State.mayFetch_iff {s : State} {c : Candidate} :
    s.mayFetch c = true ↔ ∀ l ∈ laneList c.lanes, s.acquiring c.key c.team l = false := by
  simp [State.mayFetch]

theorem Team.mem_candidates {t : Team} {key : Nat} {c : Candidate} :
    c ∈ t.candidates key ↔ ∃ th ∈ t.threads, th.ready = true ∧ t.candidate key th.pc = c := by
  simp only [Team.candidates, List.mem_map, List.mem_eraseDups, List.mem_filter]
  constructor
  · rintro ⟨_, ⟨th, ⟨hth, hready⟩, rfl⟩, rfl⟩
    exact ⟨th, hth, hready, rfl⟩
  · rintro ⟨th, hth, hready, rfl⟩
    exact ⟨th.pc, ⟨th, ⟨hth, hready⟩, rfl⟩, rfl⟩

theorem State.mem_pickable {s : State} {core lb : Nat} {c : Candidate} :
    c ∈ s.pickable core lb ↔ ∃ e ∈ s.teamsAt core lb, e.2.active = true ∧ s.mayPick e.2 = true ∧
      ∃ th ∈ e.2.threads, th.ready = true ∧ e.2.candidate e.1 th.pc = c ∧ s.mayFetch c = true := by
  simp only [State.pickable, List.mem_filter, List.mem_flatten, List.mem_map, Bool.and_eq_true]
  constructor
  · rintro ⟨⟨_, ⟨e, ⟨he, hact, hmay⟩, rfl⟩, hc⟩, hf⟩
    obtain ⟨th, hth, hready, rfl⟩ := Team.mem_candidates.1 hc
    exact ⟨e, he, hact, hmay, th, hth, hready, rfl, hf⟩
  · rintro ⟨e, he, hact, hmay, th, hth, hready, rfl, hf⟩
    exact ⟨⟨_, ⟨e, ⟨he, hact, hmay⟩, rfl⟩, Team.mem_candidates.2 ⟨th, hth, hready, rfl⟩⟩, hf⟩

/-- The lanes of a candidate are those of the ready threads at its leg start. -/
theorem Team.getLsbD_candidate_lanes {t : Team} (key : Nat) (pc : Word64) {l : Nat} {th : Thread} (hl : l < 64)
    (hth : t.threads[l]? = some th) : (t.candidate key pc).lanes.getLsbD l = true ↔ th.ready = true ∧ th.pc = pc := by
  have hlen : l < t.threads.length := (List.getElem?_eq_some_iff.1 hth).1
  simp only [Team.candidate, getLsbD_laneMask _ hl, List.mem_filter, List.mem_range, hth, decide_eq_true_eq, Bool.and_eq_true]
  exact and_iff_right hlen

/-- A leg that is not resumed starts at its first word. -/
theorem legPos_zero (leg : List Word64) : legPos leg 0 = (0, 0) := by
  have hp : ((List.range leg.length).find? fun p => decide (((leg.take p).map counts).sum ≥ 0)).getD (leg.length - 1) = 0 := by
    cases leg <;> simp [List.range_succ_eq_map]
  simp only [legPos, hp, List.take_zero, List.map_nil, List.sum_nil]

/-- A candidate whose leg is fetched and checked starts on it. -/
theorem State.pick_ok {s u : State} {c : Candidate} {ws leg : List Word64} (hf : s.fetchWords c.team c.pc [] 25 = (u, .ok ws))
    (hc : legCheck c.team.allot ws = .ok leg) : s.pick c = u.startGroup c leg := by
  simp only [State.pick, hf, hc]

theorem State.startGroup_fresh {s : State} {c : Candidate} (leg : List Word64) (h : c.resume = 0) :
    s.startGroup c leg = s.updTeam c.key fun t => { t with
      legs := t.legs + 1
      threads := (laneList c.lanes).foldl (fun ths l => modAt ths l fun th =>
        { th with stat := .running, t := List.replicate 6 0, resume := 0 }) t.threads
      groups := t.groups ++
        [{ lanes := c.lanes, start := c.pc, leg := leg, pos := 0, idx := 0, hold := .none, since := s.clock }] } := by
  simp only [State.startGroup, h, legPos_zero, if_true]

/-- A pick of a lane block without a candidate does nothing. -/
theorem exec_groupPick_none {s : State} {core lb : Nat} (ho : s.occ = .laneBlock core lb) (hp : s.nextPick core lb = none) :
    exec .groupPick s = .next s := by
  change execGroupPick s = _
  simp only [execGroupPick, ho, hp]

theorem exec_groupPick_some {s : State} {core lb : Nat} {c : Candidate} (ho : s.occ = .laneBlock core lb)
    (hp : s.nextPick core lb = some c) : exec .groupPick s = .next (s.pick c) := by
  change execGroupPick s = _
  simp only [execGroupPick, ho, hp]

/-! ### The join of the active set (R100) -/

/-- A team of a lane block that waits for a place in the active set. -/
def State.awaitsPlace (s : State) (e : Nat × Team) : Bool := !e.2.active && e.2.anyReady && s.mayPick e.2

theorem State.awaitsPlace_iff {s : State} {e : Nat × Team} :
    s.awaitsPlace e = true ↔ e.2.active = false ∧ e.2.anyReady = true ∧ s.mayPick e.2 = true := by
  simp [State.awaitsPlace, and_assoc]

theorem exec_activeSetJoin {s : State} {core lb k : Nat} {t : Team} (ho : s.occ = .laneBlock core lb) (hlb : lb < 4)
    (hfree : ((s.trimActive core lb).teamsAt core lb).countP (fun e => e.2.active) < 4)
    (hl : leastBy (fun e => Team.waiting e.2) (((s.trimActive core lb).teamsAt core lb).filter (s.trimActive core lb).awaitsPlace)
      = some (k, t)) :
    exec .activeSetJoin s = .next ((s.trimActive core lb).updTeam k fun t =>
      { t with active := true, legs := 0, waitSince := (s.trimActive core lb).clock }) := by
  rw [List.countP_eq_length_filter] at hfree
  have hplace : ¬ (lb ≥ 4 ∨ (((s.trimActive core lb).teamsAt core lb).filter fun e => e.2.active).length ≥ 4) := by omega
  unfold State.awaitsPlace at hl
  change execActiveSetJoin s = _
  simp only [execActiveSetJoin, ho, if_neg hplace, hl]

/-! ### A rendezvous past its limit, and the test of a wait (R114, R257) -/

theorem exec_crosslaneTimeout {s : State} {key g : Nat} {a : Act} {snap left : BitVec 64} {l : Nat} {ls : List Nat}
    (ho : s.occ = .group key g) (ha : s.actOf key g = some a) (hh : a.grp.hold = .cross snap left) (h0 : a.team.xltLimit ≠ 0)
    (hlim : a.team.xltLimit.toNat < s.clock - a.grp.since) (hl : laneList a.grp.lanes = l :: ls) :
    exec .crosslaneTimeout s =
      let missing := (laneList (a.team.mustArrive snap left &&& ~~~(a.team.lanesOf (a.team.heldAt a.grp.at)))).length
      let fault (l : Nat) : LaneFault := laneFault l .crosslaneTimeout (BitVec.ofNat 32 missing) 0
      .next ((s.faultAll a (unpackF3 a.word).d (l :: ls) ((l :: ls).map fault) (fault l) noAddrs).updTeam key Team.dropEmpty) := by
  have hpast : ¬ (a.team.xltLimit = 0 ∨ s.clock - a.grp.since ≤ a.team.xltLimit.toNat) := by
    rintro (h | h)
    · exact h0 h
    · omega
  change execCrosslaneTimeout s = _
  simp only [execCrosslaneTimeout, ho, ha, hh, if_neg hpast, hl, List.map_cons, List.head?_cons]

/-- The lanes of a mask that another lacks, counted. -/
theorem length_laneList_andNot (x y : BitVec 64) :
    (laneList (x &&& ~~~y)).length = (List.range 64).countP fun l => x.getLsbD l && !y.getLsbD l := by
  rw [length_laneList]
  refine List.countP_congr fun l hl => ?_
  simp [List.mem_range.1 hl]

theorem exec_awaitRetest {s : State} {key g : Nat} {t : Team} {gr : Group} (ho : s.occ = .group key g)
    (ht : tget s.teams key = some t) (hg : t.groups[g]? = some gr) :
    exec .awaitRetest s = .next { s with watches := s.watches.map fun w =>
      if w.engine = false ∧ w.registered = false ∧ w.key = key ∧ gr.lanes.getLsbD w.lane = true ∧ 512 ≤ s.clock - w.since then
        { w with woken := true } else w } := by
  change execAwaitRetest s = _
  simp only [execAwaitRetest, ho, ht, Option.bind_some, hg, Bool.and_eq_true, Bool.not_eq_true', decide_eq_true_eq, and_assoc, ge_iff_le]

/-! ### The turns of the cores -/

/-- Settles O44: the pick and the join take the least of what waits, and the other turns are their functions' only open branch. -/
theorem groupEvents : Obligations.GroupEvents := by
  refine fun s => ⟨fun core lb c h => ?_, fun core lb c u ws leg ho hp hr hf hc => ?_, fun core lb ho hp => exec_groupPick_none ho hp,
    fun core lb k t pre post ho hlb hfree hts hw hpre hpost => ?_, fun key g a snap left ho ha hh h0 hlim l ls hl => ?_,
    fun key g t gr ho ht hg => exec_awaitRetest ho ht hg⟩
  · rw [State.nextPick_eq] at h
    obtain ⟨e, he, hact, -, th, hth, -, rfl, hfetch⟩ := State.mem_pickable.1 (mem_of_leastBy h)
    refine ⟨he, hact, fun l th hl hth => Team.getLsbD_candidate_lanes e.1 _ hl hth, State.mayFetch_iff.1 hfetch, ?_⟩
    intro e' he' hact' hmay' th' hth' hready' hacq'
    exact le_of_leastBy h _ (State.mem_pickable.2 ⟨e', he', hact', hmay', th', hth', hready', rfl, State.mayFetch_iff.2 hacq'⟩)
  · rw [exec_groupPick_some ho hp, State.pick_ok hf hc, State.startGroup_fresh leg hr]
  · refine exec_activeSetJoin (t := t) ho hlb hfree ?_
    have hmem {e : Nat × Team} {l : List (Nat × Team)} (he : e ∈ l.filter (s.trimActive core lb).awaitsPlace) :
        e ∈ l ∧ e.2.active = false ∧ e.2.anyReady = true ∧ (s.trimActive core lb).mayPick e.2 = true :=
      (List.mem_filter.1 he).imp_right State.awaitsPlace_iff.1
    rw [hts, List.filter_append, List.filter_cons_of_pos (State.awaitsPlace_iff.2 hw)]
    exact leastBy_append_cons (fun e he => hpre e (hmem he).1 (hmem he).2) fun e he => hpost e (hmem he).1 (hmem he).2
  · rw [exec_crosslaneTimeout ho ha hh h0 hlim hl, length_laneList_andNot]

end Sys2Proof.Machine
end

section
/-! SUPPORT. Masks and meeting (R107-R111): the instructions that change a mask or a meeting register, the groups held at an MWAIT,
and the threads held at a meeting address. -/

namespace Sys2Proof.Machine

/-! ### The issuing group -/

/-- A group with lanes is held at its word. -/
theorem State.holdAt_of_lanes {s : State} {a : Act} (h : s.act = some a) (hl : a.grp.lanes ≠ 0) (k : Hold) :
    s.holdAt a k = s.updTeam a.key fun t => { t with groups := modAt a.team.groups a.g fun g =>
      { g with hold := k, since := if g.hold = .none then s.clock else g.since } } := by
  obtain ⟨ht, hg, -⟩ := State.act_some h
  exact State.updTeam_congr ht (by simp only [hg, if_neg hl])

/-! ### The instructions that change masks and meeting registers (R108-R110) -/

theorem maskEffect_ready {s : State} {a : Act} {op : Nat} {w : F3} {ins : List LaneIn} (h : s.readyF3 a op w ins)
    {eff : Env → Except (Cause × Word32 × Word64) (List Eff)} (e : LaneIn → List Eff)
    (he : ∀ i ∈ ins, ∀ th, a.team.threads[i.lane]? = some th → eff (laneEnv s a i th) = .ok (e i)) :
    s.maskEffect op w eff = .next ((s.performed a ins e).settleTeam a.key) := by
  unfold State.maskEffect
  rw [State.asGroup_some h.1, issueValue_one h.2.2 he (fun _ => rfl)]

/-- MEET: an address whose low three bits are 0 is a multiple of 8. -/
theorem meet_aligned {x : Word64} (h : x.extractLsb' 0 3 = 0) : x.toNat % 8 = 0 := by
  simpa using congrArg BitVec.toNat h

/-- MEETR: the signed offset in words, as bytes. -/
theorem meetr_offset (x : BitVec 16) : (x.signExtend 64 : Word64) <<< 3 = BitVec.ofInt 64 (8 * x.toInt) := by
  rw [Int.mul_comm, BitVec.ofInt_mul, BitVec.shiftLeft_eq_mul_twoPow]
  rfl

theorem exec_meetr {s : State} {a : Act} {w : F3} {ins : List LaneIn} (h : s.readyF3 a 0x1C6 w ins) :
    exec (.meetr w) s = .next ((s.performed a ins fun _ => [.mt (a.grp.start + BitVec.ofNat 64 (8 * a.grp.leg.length)
      + BitVec.ofInt 64 (8 * (w.b ++ w.c : BitVec 16).toInt))]).settleTeam a.key) := by
  change execMeetr w s = _
  unfold execMeetr
  rw [State.asGroup_some h.1, ← meetr_offset]
  dsimp only
  rw [issueValue_one h.2.2 (fun _ _ _ _ => rfl) (fun _ => rfl)]

/-! ### Groups held at an MWAIT (R111) -/

/-- The lanes of a group whose guard passes. -/
theorem Act.mem_laneList_passing {a : Act} {g : Group} {l : Nat} :
    l ∈ laneList (a.team.passing g) ↔ l ∈ laneList g.lanes ∧
      a.passes (fun th => th.guard (unpackF3 (g.leg.getD g.pos 0)).gs (unpackF3 (g.leg.getD g.pos 0)).gp) l = true := by
  simp only [Team.passing, mem_laneList_laneMask, List.mem_filter, Act.passes]
  exact ⟨fun h => h.2, fun h => ⟨lt_of_mem_laneList h.1, h⟩⟩

/-- Every member of mask `n` waits at an MWAIT on it. -/
def Team.allWait (t : Team) (n : Nat) : Prop :=
  ∀ l ∈ laneList (t.m.getD n 0), ∃ g ∈ t.groups, g.hold = .mwait n ∧ l ∈ laneList (t.passing g)

/-- A group past the MWAIT on mask `n` at which it is held. -/
def Group.passMwait (n : Nat) (g : Group) : Group :=
  if g.hold = .mwait n then { g with pos := g.pos + 1, idx := g.idx + 1, hold := .none } else g

/-- The test of a mask reads as its rule: a group is held at an MWAIT on it, and every member waits. -/
theorem Team.releaseMwait_eq (t : Team) (n : Nat) [Decidable ((∃ g ∈ t.groups, g.hold = .mwait n) ∧ t.allWait n)] :
    t.releaseMwait n =
      if (∃ g ∈ t.groups, g.hold = .mwait n) ∧ t.allWait n then { t with groups := t.groups.map (Group.passMwait n) } else t := by
  have hnone : (t.groups.filter fun g => decide (g.hold = .mwait n)).isEmpty = true ↔ ¬ ∃ g ∈ t.groups, g.hold = .mwait n := by
    simp [List.isEmpty_iff, List.filter_eq_nil_iff]
  have hall : t.m.getD n 0 &&& ~~~((t.groups.filter fun g => decide (g.hold = .mwait n)).foldl (fun m g => m ||| t.passing g) 0) ≠ 0
      ↔ ¬ t.allWait n := by
    rw [ne_eq, andNot_eq_zero_iff]
    refine not_congr (forall₂_congr fun l hl => ?_)
    rw [mem_laneList, getLsbD_foldl_or]
    simp [mem_laneList]
  simp only [Team.releaseMwait, Bool.or_eq_true, decide_eq_true_eq, hnone, hall, ← Classical.not_and_iff_not_or_not, ite_not]
  rfl

theorem Team.releaseMwait_of_not_held {t : Team} {n : Nat} (h : ∀ g ∈ t.groups, g.hold ≠ .mwait n) : t.releaseMwait n = t := by
  classical
  rw [Team.releaseMwait_eq, if_neg fun ⟨⟨g, hg, hh⟩, _⟩ => h g hg hh]

theorem Team.foldl_releaseMwait_of_not_held {t : Team} {ks : List Nat} (h : ∀ k ∈ ks, ∀ g ∈ t.groups, g.hold ≠ .mwait k) :
    ks.foldl Team.releaseMwait t = t := by
  induction ks with
  | nil => rfl
  | cons k ks ih =>
    rw [List.foldl_cons, Team.releaseMwait_of_not_held (h k List.mem_cons_self)]
    exact ih fun k' hk' => h k' (List.mem_cons_of_mem k hk')

/-- The test of a mask changes groups alone, and holds none at an MWAIT anew. -/
theorem Team.releaseMwait_groups (t : Team) (n : Nat) :
    ∃ gs, t.releaseMwait n = { t with groups := gs } ∧ ∀ g ∈ gs, ∀ k, g.hold = .mwait k → ∃ g' ∈ t.groups, g'.hold = .mwait k := by
  classical
  rw [Team.releaseMwait_eq]
  split
  · refine ⟨_, rfl, fun g hg k hk => ?_⟩
    obtain ⟨g', hg', rfl⟩ := List.mem_map.1 hg
    unfold Group.passMwait at hk
    split at hk
    · cases hk
    · exact ⟨g', hg', hk⟩
  · exact ⟨t.groups, rfl, fun g hg k hk => ⟨g, hg, hk⟩⟩

/-- When groups are held at an MWAIT on one mask alone, the tests of all masks are the test of that one. -/
theorem Team.foldl_releaseMwait_of_only {t : Team} {n : Nat} (hn : n < 12) (h : ∀ g ∈ t.groups, ∀ k, g.hold = .mwait k → k = n) :
    (List.range 12).foldl Team.releaseMwait t = t.releaseMwait n := by
  obtain ⟨pre, post, hr⟩ := List.append_of_mem (List.mem_range.2 hn)
  have hnd := hr ▸ List.nodup_range (n := 12)
  obtain ⟨-, hcons, hapart⟩ := List.nodup_append.1 hnd
  have hnpre : n ∉ pre := fun h => hapart n h n List.mem_cons_self rfl
  have hnpost : n ∉ post := (List.nodup_cons.1 hcons).1
  obtain ⟨gs, e, hgs⟩ := t.releaseMwait_groups n
  have hpre : pre.foldl Team.releaseMwait t = t := Team.foldl_releaseMwait_of_not_held fun k hk g hg hh =>
    hnpre (h g hg k hh ▸ hk)
  rw [hr, List.foldl_append, List.foldl_cons, Team.foldl_releaseMwait_of_not_held, hpre]
  · rw [hpre, e]
    intro k hk g hg hh
    obtain ⟨g', hg', hh'⟩ := hgs g hg k hh
    exact hnpost (h g' hg' k hh' ▸ hk)

/-! ### Threads held at a meeting address (R107) -/

/-- Every thread that names a meeting address is held there or has exited. -/
def Team.metAt (t : Team) (x : Word64) : Prop := ∀ o ∈ t.threads, o.mt = x → o.stat = .meet ∨ o.stat = .exited

/-- A thread that is released from its meeting address: ready at its leg start, with no meeting address. -/
def Thread.met (clock : Nat) (th : Thread) : Thread := { th with stat := .atLeg, mt := 0, readySince := clock }

/-- A thread after the test of a meeting address at which every thread is held. -/
def Thread.meetAt (x : Word64) (clock : Nat) (th : Thread) : Thread := if th.stat = .meet ∧ th.mt = x then th.met clock else th

theorem Team.releaseMeet_eq (t : Team) (x : Word64) (clock : Nat) [Decidable (t.metAt x)] :
    t.releaseMeet x clock = if t.metAt x then { t with threads := t.threads.map (Thread.meetAt x clock) } else t := by
  have hmet : (t.threads.all fun (th : Thread) => !(decide (th.mt = x) && decide (th.stat ≠ .exited)) || decide (th.stat = .meet)) = true
      ↔ t.metAt x := by
    simp only [List.all_eq_true, Team.metAt]
    refine forall₂_congr fun o _ => ?_
    by_cases hx : o.mt = x <;> by_cases he : o.stat = .exited <;> simp [hx, he]
  simp only [Team.releaseMeet, hmet]
  rfl

/-- The test of one address leaves the meeting at another as it stands. -/
theorem Team.metAt_meetAt_iff {t : Team} {x y : Word64} (clock : Nat) (h0 : y ≠ 0) (hne : y ≠ x) :
    ({ t with threads := t.threads.map (Thread.meetAt x clock) } : Team).metAt y ↔ t.metAt y := by
  simp only [Team.metAt, List.forall_mem_map]
  refine forall₂_congr fun o _ => ?_
  unfold Thread.meetAt
  split
  · next h => exact iff_of_true (fun e => absurd e h0.symm) fun e => absurd (e.symm.trans h.2) hne
  · rfl

/-- What the tests of meeting addresses make of a thread that is held at none, or at one that is not 0. -/
def Team.settled (t : Team) (xs : List Word64) (clock : Nat) (th th' : Thread) : Prop :=
  (th.stat = .meet ∧ th.mt ∈ xs ∧ t.metAt th.mt → th' = th.met clock) ∧
    (¬ (th.stat = .meet ∧ th.mt ∈ xs ∧ t.metAt th.mt) → th' = th)

/-- The tests of meeting addresses release the threads held at those where every thread that names one is held. -/
theorem Team.foldl_releaseMeet (xs : List Word64) (clock : Nat) (t : Team) :
    ∃ ths, xs.foldl (fun t x => t.releaseMeet x clock) t = { t with threads := ths } ∧ ths.length = t.threads.length ∧
      ∀ (l : Nat) (th : Thread), t.threads[l]? = some th → th.stat ≠ .meet ∨ th.mt ≠ 0 →
        ∃ th', ths[l]? = some th' ∧ t.settled xs clock th th' := by
  classical
  induction xs generalizing t with
  | nil => exact ⟨t.threads, rfl, rfl, fun l th h _ => ⟨th, h, by simp [Team.settled]⟩⟩
  | cons x xs ih =>
    rw [List.foldl_cons, Team.releaseMeet_eq]
    by_cases hx : t.metAt x
    · obtain ⟨ths, e, hlen, hths⟩ := ih { t with threads := t.threads.map (Thread.meetAt x clock) }
      refine ⟨ths, by rw [if_pos hx, e], by simpa using hlen, fun l th h hth => ?_⟩
      by_cases hrel : th.stat = .meet ∧ th.mt = x
      · obtain ⟨th', hl, hs⟩ := hths l (th.met clock) (by simp [h, Thread.meetAt, hrel]) (.inl (by simp [Thread.met]))
        refine ⟨th', hl, fun _ => hs.2 (by simp [Thread.met]), fun hn => absurd ⟨hrel.1, by simp [hrel.2], hrel.2 ▸ hx⟩ hn⟩
      · obtain ⟨th', hl, hs⟩ := hths l th (by simp [h, Thread.meetAt, hrel]) hth
        refine ⟨th', hl, ?_⟩
        have hiff : (th.stat = .meet ∧ th.mt ∈ xs ∧ ({ t with threads := t.threads.map (Thread.meetAt x clock) } : Team).metAt th.mt)
            ↔ (th.stat = .meet ∧ th.mt ∈ x :: xs ∧ t.metAt th.mt) := by
          refine and_congr_right fun hm => ?_
          have hne : th.mt ≠ x := fun e => hrel ⟨hm, e⟩
          rw [Team.metAt_meetAt_iff clock (hth.resolve_left (Classical.not_not.2 hm)) hne, List.mem_cons, or_iff_right hne]
        unfold Team.settled at hs ⊢
        rwa [hiff] at hs
    · obtain ⟨ths, e, hlen, hths⟩ := ih t
      refine ⟨ths, by rw [if_neg hx, e], hlen, fun l th h hth => ?_⟩
      obtain ⟨th', hl, hs⟩ := hths l th h hth
      refine ⟨th', hl, ?_⟩
      have hiff : (th.stat = .meet ∧ th.mt ∈ xs ∧ t.metAt th.mt) ↔ (th.stat = .meet ∧ th.mt ∈ x :: xs ∧ t.metAt th.mt) := by
        refine and_congr_right fun _ => ?_
        by_cases hxe : th.mt = x
        · simp [hxe, hx]
        · simp [hxe]
      unfold Team.settled at hs ⊢
      rwa [hiff] at hs

/-! ### The tests of a team -/

/-- The addresses at which threads are held. -/
def Team.meetings (t : Team) : List Word64 := (t.threads.filter fun (th : Thread) => decide (th.stat = .meet)).map (·.mt)

theorem Team.settle_eq {t u : Team} {clock : Nat} (h : (List.range 12).foldl Team.releaseMwait t = u) :
    t.settle clock = u.meetings.foldl (fun t x => t.releaseMeet x clock) u := by
  subst h
  rfl

theorem Team.meetings_of_none {t : Team} (h : ∀ th ∈ t.threads, th.stat ≠ .meet) : t.meetings = [] := by
  simpa [Team.meetings, List.filter_eq_nil_iff] using h

/-- With no thread held at a meeting, and groups held at an MWAIT on one mask alone, the tests are the test of that mask. -/
theorem Team.settle_of_only {t : Team} {n : Nat} (clock : Nat) (hm : ∀ th ∈ t.threads, th.stat ≠ .meet) (hn : n < 12)
    (h : ∀ g ∈ t.groups, ∀ k, g.hold = .mwait k → k = n) : t.settle clock = t.releaseMwait n := by
  obtain ⟨gs, e, -⟩ := t.releaseMwait_groups n
  rw [Team.settle_eq (Team.foldl_releaseMwait_of_only hn h), Team.meetings_of_none (by rw [e]; exact hm), List.foldl_nil]

/-- With no group held at an MWAIT, the tests are those of the meeting addresses. -/
theorem Team.settle_of_not_held {t : Team} (clock : Nat) (h : ∀ g ∈ t.groups, ∀ k, g.hold ≠ .mwait k) :
    t.settle clock = t.meetings.foldl (fun t x => t.releaseMeet x clock) t :=
  Team.settle_eq (Team.foldl_releaseMwait_of_not_held fun k _ g hg => h g hg k)

/-! ### MWAIT (R111) -/

/-- The groups of the team when the issuing one is held at an MWAIT on mask `n`. -/
def Act.heldGroups (a : Act) (n clock : Nat) : List Group :=
  modAt a.team.groups a.g fun g => { g with hold := .mwait n, since := if g.hold = .none then clock else g.since }

/-- The issuing group is among the held ones. -/
theorem Act.exists_heldGroups {s : State} {a : Act} (h : s.act = some a) (n clock : Nat) :
    ∃ g ∈ a.heldGroups n clock, g.hold = .mwait n := by
  obtain ⟨-, hg, -⟩ := State.act_some h
  exact ⟨_, List.mem_of_getElem? (i := a.g) (by rw [Act.heldGroups, modAt_getElem?_self, hg, Option.map_some]), rfl⟩

/-- When no other group is held at another MWAIT, none is. -/
theorem Act.heldGroups_only {a : Act} {n : Nat} (clock : Nat)
    (h : ∀ (j : Nat) (g : Group) (k : Nat), a.team.groups[j]? = some g → j ≠ a.g → g.hold = .mwait k → k = n) :
    ∀ g ∈ a.heldGroups n clock, ∀ k, g.hold = .mwait k → k = n := by
  intro g hg k hk
  obtain ⟨j, hj⟩ := List.mem_iff_getElem?.1 hg
  rw [Act.heldGroups, modAt_getElem?] at hj
  split at hj
  · obtain ⟨g', -, rfl⟩ := Option.map_eq_some_iff.1 hj
    cases hk
    rfl
  · next hne => exact h j g k hj hne hk

/-- The lanes of the issuing group that wait at its MWAIT. -/
theorem Act.passing_grp {s : State} {a : Act} {w : F3} (h : s.act = some a) (hw : unpackF3 a.word = w) :
    a.team.passing a.grp = laneMask ((laneList a.grp.lanes).filter fun l => a.passes (fun th => th.guard w.gs w.gp) l) := by
  obtain ⟨-, -, hword⟩ := State.act_some h
  rw [← hw, hword]
  rfl

/-- Every member of a mask waits when each is a lane, with its guard passing, of a group held at an MWAIT on it. -/
theorem Act.allWait_iff {a : Act} {gs : List Group} {n : Nat} :
    ({ a.team with groups := gs } : Team).allWait n ↔ ∀ l ∈ laneList (a.team.m.getD n 0), ∃ g ∈ gs, g.hold = .mwait n ∧
      l ∈ laneList g.lanes ∧
      a.passes (fun th => th.guard (unpackF3 (g.leg.getD g.pos 0)).gs (unpackF3 (g.leg.getD g.pos 0)).gp) l = true := by
  simp only [← Act.mem_laneList_passing]
  rfl

theorem exec_mwait_of_none {s : State} {a : Act} {w : F3} (h : s.act = some a) (hp : a.team.passing a.grp = 0) :
    exec (.mwait w) s = .next (s.advance a) := by
  change execMwait w s = _
  rw [execMwait, State.asGroup_some h, if_pos hp]

/-- A group with a waiting thread is held, and its mask tested. -/
theorem exec_mwait_of_some {s : State} {a : Act} {w : F3} (h : s.act = some a) (hp : a.team.passing a.grp ≠ 0)
    (hm : ∀ th ∈ a.team.threads, th.stat ≠ .meet) (hn : maskNum w < 12)
    (ho : ∀ (j : Nat) (g : Group) (k : Nat), a.team.groups[j]? = some g → j ≠ a.g → g.hold = .mwait k → k = maskNum w) :
    exec (.mwait w) s = .next (s.updTeam a.key fun _ =>
      ({ a.team with groups := a.heldGroups (maskNum w) s.clock } : Team).releaseMwait (maskNum w)) := by
  obtain ⟨ht, -, -⟩ := State.act_some h
  have hl : a.grp.lanes ≠ 0 := fun h0 => hp (eq_zero_iff_laneList.2 fun l hl =>
    eq_zero_iff_laneList.1 h0 l (Act.mem_laneList_passing.1 hl).1)
  change execMwait w s = _
  rw [execMwait, State.asGroup_some h, if_neg hp, State.holdAt_of_lanes h hl, State.settleTeam, State.updTeam_updTeam,
    State.updTeam_clock]
  exact congrArg _ (State.updTeam_congr ht (Team.settle_of_only s.clock hm hn (Act.heldGroups_only s.clock ho)))

/-! ### The release of a meeting (R107) -/

/-- Of a team with no group held at an MWAIT, the tests release the threads that meet, and leave every other thread as it is. -/
theorem State.settleTeam_meet {s : State} {key : Nat} {t : Team} (ht : tget s.teams key = some t)
    (hw : ∀ g ∈ t.groups, ∀ k, g.hold ≠ .mwait k) :
    ∃ ths, s.settleTeam key = s.updTeam key (fun t => { t with threads := ths }) ∧ ths.length = t.threads.length ∧
      ∀ (l : Nat) (th : Thread), t.threads[l]? = some th → th.stat ≠ .meet ∨ th.mt ≠ 0 →
        (th.stat = .meet ∧ t.metAt th.mt → ths[l]? = some (th.met s.clock)) ∧
        (¬ (th.stat = .meet ∧ t.metAt th.mt) → ths[l]? = some th) := by
  obtain ⟨ths, e, hlen, hths⟩ := Team.foldl_releaseMeet t.meetings s.clock t
  refine ⟨ths, State.updTeam_congr ht ((Team.settle_of_not_held s.clock hw).trans e), hlen, fun l th h hth => ?_⟩
  have hmem : th.stat = .meet → th.mt ∈ t.meetings := fun hm =>
    List.mem_map_of_mem (List.mem_filter.2 ⟨List.mem_of_getElem? h, decide_eq_true hm⟩)
  obtain ⟨th', hl, hmet, hstay⟩ := hths l th h hth
  exact ⟨fun ⟨hm, ha⟩ => hl.trans (congrArg some (hmet ⟨hm, hmem hm, ha⟩)),
    fun hn => hl.trans (congrArg some (hstay fun ⟨hm, _, ha⟩ => hn ⟨hm, ha⟩))⟩

/-- Settles O15: each instruction is one value operation and the tests of its team; the tests of an MWAIT are those of its mask
alone, and those of meeting addresses do not touch one another. -/
theorem masksAndMeeting : Obligations.MasksAndMeeting := by
  classical
  refine ⟨?_, ?_, fun s key t ht hg => State.settleTeam_meet ht hg⟩
  · intro s a w ins n
    refine ⟨fun h => ?_, fun h => ?_, fun h => ?_, fun h => ?_, fun h hal => ?_, exec_meetr⟩
    · exact maskEffect_ready h _ fun _ _ _ _ => rfl
    · exact maskEffect_ready h _ fun _ _ _ _ => rfl
    · exact maskEffect_ready h _ fun _ _ _ _ => rfl
    · exact f3Effect_ready h _ fun _ _ _ _ => rfl
    · exact maskEffect_ready h _ fun i hi _ _ => if_neg (Classical.not_not.2 (meet_aligned (hal i hi)))
  · intro s a w h hw hm n wait
    have hwait : a.team.passing a.grp = wait := Act.passing_grp h hw
    refine ⟨fun h0 => exec_mwait_of_none h (hwait.trans h0), ?_⟩
    intro hne hn ho held waits t
    have e := exec_mwait_of_some h (hwait ▸ hne) hm hn ho
    rw [Team.releaseMwait_eq] at e
    refine ⟨fun hall => ?_, fun ⟨l, hl, hno⟩ => ?_⟩
    · rw [e, if_pos ⟨Act.exists_heldGroups h _ _, Act.allWait_iff.2 hall⟩]
      exact congrArg _ (State.updTeam_congr (State.act_some h).1 rfl)
    · rw [e, if_neg fun ⟨_, hall⟩ => hno (Act.allWait_iff.1 hall l hl)]
      exact congrArg _ (State.updTeam_congr (State.act_some h).1 rfl)

end Sys2Proof.Machine
end

section
/-! SUPPORT. Cross-lane instructions (R112-R119): the lanes that gather, the words of the present members, the results, and the perform
of a rendezvous that is complete. -/

namespace Sys2Proof.Machine

/-! ### Destinations that a lane has gathered -/

/-- Only a lane that waits for nothing has gathered. -/
theorem LaneIn.got_ok {i j : LaneIn} {w : Option Bool} (h : i.got w = .ok j) : j = i := by
  cases w <;> cases h
  rfl

theorem State.gatherAcc_dst {s : State} {a : Act} {th : Thread} {l : Nat} {x : Acc} {j i : LaneIn} {w : Option Bool}
    (h : s.gatherAcc a th l x j w = .ok i) : i.dst.length = j.dst.length + [x].countP (·.write) := by
  unfold State.gatherAcc at h
  dsimp only at h
  split at h
  · cases h
  · split at h
    · cases h
    · split at h
      · next hx => simp [LaneIn.got_ok h, hx]
      · next hx => simp [LaneIn.got_ok h, hx]

theorem State.gatherFold_dst {s : State} {a : Act} {th : Thread} {l : Nat} (acc : List Acc) {j i : LaneIn}
    (h : acc.foldl (fun g x => s.gatherOne a th l x g) (.ok j) = .ok i) : i.dst.length = j.dst.length + acc.countP (·.write) := by
  induction acc generalizing j with
  | nil => cases h; rfl
  | cons x acc ih =>
    rw [List.foldl_cons] at h
    obtain ⟨k, hk, -⟩ := gatherFold_lane acc h
    rw [hk] at h
    rw [ih h, State.gatherAcc_dst (show s.gatherAcc a th l x j none = .ok k from hk), Nat.add_assoc, ← List.countP_append,
      List.singleton_append]

/-- A lane that gathers has a destination for each access that writes. -/
theorem State.gather_dst {s : State} {a : Act} {l : Nat} {pass : Bool} {acc : List Acc} {i : LaneIn}
    (h : s.gather a l pass acc = .ok i) : i.dst.length = acc.countP (·.write) := by
  unfold State.gather at h
  split at h
  · cases h
  · split at h
    · rw [State.gatherFold_dst acc h]; exact Nat.zero_add _
    · cases h

/-! ### The lanes of a cross-lane instruction -/

/-- The four cross-lane instructions with their opcodes. -/
def crossInstrs : List (Nat × (F3 → Instr)) := [(0x180, .shfl), (0x181, .vote), (0x182, .lred), (0x183, .lscan)]

/-- Their opcodes. -/
def crossOps : List Nat := [0x180, 0x181, 0x182, 0x183]

theorem exec_cross {op : Nat} {mk : F3 → Instr} (h : (op, mk) ∈ crossInstrs) (w : F3) (s : State) :
    op ∈ crossOps ∧ exec (mk w) s = s.crossIssue op w := by
  simp only [crossInstrs, List.mem_cons, Prod.mk.injEq, List.not_mem_nil, or_false] at h
  rcases h with ⟨rfl, rfl⟩ | ⟨rfl, rfl⟩ | ⟨rfl, rfl⟩ | ⟨rfl, rfl⟩ <;> exact ⟨by decide, rfl⟩

/-- The registers of A (R116). -/
def crossWidth (op : Nat) (w : F3) : Nat := if op = 0x180 ∧ w.md.getLsbD 6 then 2 else 1

/-- A comes first among the accesses; LSCAN alone writes two fields. -/
theorem f3Acc_cross {op : Nat} (h : op ∈ crossOps) (w : F3) :
    ∃ x xs, f3Acc op w = x :: xs ∧ x.n = crossWidth op w ∧ x.write = false ∧ xs.countP (·.write) = if op = 0x183 then 2 else 1 := by
  simp only [crossOps, List.mem_cons, List.not_mem_nil, or_false] at h
  rcases h with rfl | rfl | rfl | rfl
  · exact ⟨_, _, rfl, by simp [crossWidth, pairIf], rfl, rfl⟩
  · exact ⟨_, _, rfl, rfl, rfl, rfl⟩
  · exact ⟨_, _, rfl, rfl, rfl, rfl⟩
  · exact ⟨_, _, rfl, rfl, rfl, rfl⟩

/-- A lane that gathers for a cross-lane instruction is a lane, carries its number, and has its destinations. -/
theorem crossGather_ok {s : State} {key op : Nat} {w : F3} {gs : List Nat} {must : BitVec 64} {c : CrossLane} {i : LaneIn}
    (hop : op ∈ crossOps) (hc : c ∈ s.crossGather key op w gs must) (hi : c.got = .ok i) :
    i.lane = c.lane ∧ c.lane < 64 ∧ i.dst.length = if op = 0x183 then 2 else 1 := by
  obtain ⟨x, xs, hacc, -, hx, hxs⟩ := f3Acc_cross hop w
  simp only [State.crossGather, List.mem_flatten, List.mem_map] at hc
  obtain ⟨_, ⟨g, -, rfl⟩, hc⟩ := hc
  split at hc
  · obtain ⟨l, hl, rfl⟩ := List.mem_map.1 hc
    refine ⟨(State.gather_ok hi).1, lt_of_mem_laneList hl, ?_⟩
    rw [State.gather_dst hi, hacc, ← hxs]
    split
    · simp [hx]
    · rfl
  · cases hc

/-! ### The words of the present members (R112) -/

/-- The words of A that one lane adds for lane `l`: those of a present member. -/
def CrossLane.wordsA (must : BitVec 64) (l : Nat) (c : CrossLane) : Option (List Word32) :=
  if must.getLsbD l ∧ c.lane = l then c.got.input?.map fun i => i.vals.getD 0 [] else none

theorem presentA_cons (c : CrossLane) (ls : List CrossLane) (must : BitVec 64) (l : Nat) :
    presentA (c :: ls) must l = (presentA ls must l).or (c.wordsA must l) := by
  unfold presentA CrossLane.wordsA
  by_cases hm : must.getLsbD l = true
  · by_cases hc : c.lane = l
    · cases hg : c.got.input? with
      | none => simp [hm, hc, hg]
      | some i =>
        simp only [hm, hc, hg, if_true, and_self, List.filterMap_cons, List.getLast?_cons, Option.map_some]
        cases (ls.filterMap fun c => if c.lane = l then c.got.input? else none).getLast? <;> rfl
    · simp [hm, hc]
  · simp [hm]

/-- The table of the present members' words with those of one more lane. -/
def CrossLane.addA (must : BitVec 64) (p : Tab (List Word32)) (c : CrossLane) : Tab (List Word32) :=
  match c.got with
  | .ok i => if must.getLsbD c.lane then tset p c.lane (i.vals.getD 0 []) else p
  | _ => p

theorem CrossLane.tget_addA (must : BitVec 64) (p : Tab (List Word32)) (c : CrossLane) (l : Nat) :
    tget (c.addA must p) l = (c.wordsA must l).or (tget p l) := by
  unfold CrossLane.addA CrossLane.wordsA
  cases c.got with
  | ok i =>
    by_cases hc : c.lane = l
    · subst hc
      by_cases hm : must.getLsbD c.lane = true <;> simp [hm, Got.input?]
    · have hne : l ≠ c.lane := fun e => hc e.symm
      by_cases hm : must.getLsbD c.lane = true <;> simp [hm, hc, hne]
  | skip => simp [Got.input?]
  | fault f => simp [Got.input?]
  | wait b i => simp [Got.input?]

theorem CrossLane.rising_addA (must : BitVec 64) {p : Tab (List Word32)} (c : CrossLane) (hp : Tab.rising p) :
    Tab.rising (c.addA must p) := by
  unfold CrossLane.addA
  split
  · split
    · exact rising_tset _ _ hp
    · exact hp
  · exact hp

/-- The present members with the words of A, as the perform collects them. -/
def presentTab (ls : List CrossLane) (must : BitVec 64) (p : Tab (List Word32)) : Tab (List Word32) :=
  ls.foldl (fun p c => c.addA must p) p

theorem rising_presentTab (ls : List CrossLane) (must : BitVec 64) {p : Tab (List Word32)} (hp : Tab.rising p) :
    Tab.rising (presentTab ls must p) := by
  induction ls generalizing p with
  | nil => exact hp
  | cons c ls ih => exact ih (c.rising_addA must hp)

theorem tget_presentTab (ls : List CrossLane) (must : BitVec 64) (p : Tab (List Word32)) (l : Nat) :
    tget (presentTab ls must p) l = (presentA ls must l).or (tget p l) := by
  induction ls generalizing p with
  | nil => simp [presentTab, presentA]
  | cons c ls ih => rw [presentA_cons, Option.or_assoc, ← CrossLane.tget_addA]; exact ih _

/-! ### Results (R117-R119) -/

/-- A present member votes with the low word of its A. -/
def votes (a : Nat → Option (List Word32)) (l : Nat) : Bool := match a l with | some x => decide (lo32 x ≠ 0) | none => false

theorem votes_iff {a : Nat → Option (List Word32)} {l : Nat} : votes a l = true ↔ ∃ x, a l = some x ∧ lo32 x ≠ 0 := by
  unfold votes
  cases a l <;> simp

/-- The lanes that vote, as a mask. -/
def ballot (p : Tab (List Word32)) : BitVec 64 := laneMask ((p.filter fun e => decide (lo32 e.2 ≠ 0)).map (·.1))

section
variable {p : Tab (List Word32)} {a : Nat → Option (List Word32)} (hr : Tab.rising p) (ha : ∀ l, tget p l = a l)
include hr ha

theorem getLsbD_ballot {l : Nat} (hl : l < 64) : (ballot p).getLsbD l = votes a l := by
  rw [ballot, getLsbD_laneMask _ hl, Bool.eq_iff_iff, votes_iff, decide_eq_true_eq]
  simp [mem_iff_tget hr, ha]

theorem ballot_eq_laneMask : ballot p = laneMask ((List.range 64).filter (votes a)) :=
  BitVec.eq_of_getLsbD_eq fun l hl => by rw [getLsbD_ballot hr ha hl, getLsbD_laneMask _ hl]; simp [hl]

theorem mem_laneList_ballot {l : Nat} : l ∈ laneList (ballot p) ↔ l < 64 ∧ votes a l = true := by
  rw [ballot_eq_laneMask hr ha, mem_laneList_laneMask]
  simp

theorem length_laneList_ballot : (laneList (ballot p)).length = (List.range 64).countP (votes a) := by
  rw [length_laneList]
  exact List.countP_congr fun l hl => by rw [getLsbD_ballot hr ha (List.mem_range.1 hl)]

theorem ballot_ne_zero_iff : ballot p ≠ 0 ↔ (List.range 64).any (votes a) = true := by
  rw [ne_eq, eq_zero_iff_laneList, Classical.not_forall]
  simp [mem_laneList_ballot hr ha]

theorem andNot_ballot_eq_zero_iff {snap : BitVec 64} :
    snap &&& ~~~(ballot p) = 0 ↔ ((List.range 64).all fun l => !snap.getLsbD l || votes a l) = true := by
  simp only [andNot_eq_zero_iff, mem_laneList_ballot hr ha, mem_laneList, List.all_eq_true, List.mem_range, Bool.or_eq_true,
    Bool.not_eq_true']
  refine forall_congr' fun l => ⟨fun h hl => ?_, fun h hs => ?_⟩
  · by_cases hs : snap.getLsbD l = true
    · exact .inr (h hs).2
    · exact .inl (Bool.not_eq_true _ ▸ hs)
  · have hl := BitVec.lt_of_getLsbD hs
    exact ⟨hl, (h hl).resolve_left (by simp [hs])⟩

end

/-- The values of the present members among the lowest `n` lanes. -/
def foldWords (code : Nat) (a : Nat → Option (List Word32)) (n : Nat) : List (Option Word32) :=
  (List.range n).map fun l => (a l).map fun ws => foldCanon code (lo32 ws)

theorem take_foldWords (code : Nat) (a : Nat → Option (List Word32)) {n : Nat} (hn : n ≤ 64) :
    (foldWords code a 64).take n = foldWords code a n := by
  rw [foldWords, ← List.map_take, List.take_range, Nat.min_eq_left hn]
  rfl

/-! The statement's own account of the results, for each instruction. -/

section
variable (w : F3) (snap : BitVec 64) (a : Nat → Option (List Word32)) (stored : Nat → List Word32) (i : LaneIn)

theorem crossWords_vote : crossWords 0x181 w snap a stored i =
    (if mdField w.md 5 4 = 0 then [if (List.range 64).any (votes a) then 1 else 0]
      else if mdField w.md 5 4 = 1 then [if (List.range 64).all fun l => !snap.getLsbD l || votes a l then 1 else 0]
      else if mdField w.md 5 4 = 2 then [BitVec.ofNat 32 ((List.range 64).countP (votes a))]
      else words64 (laneMask ((List.range 64).filter (votes a))), []) := rfl

theorem crossWords_lred : crossWords 0x182 w snap a stored i =
    ([(if 8 ≤ mdField w.md 7 4 ∧ mdField w.md 7 4 ≤ 10 then foldTree (mdField w.md 7 4) (foldWords (mdField w.md 7 4) a 64)
      else foldAsc (mdField w.md 7 4) (foldWords (mdField w.md 7 4) a 64)).getD (foldIdentity (mdField w.md 7 4))], []) := by
  rw [apply_ite (fun r : Option Word32 => r.getD (foldIdentity (mdField w.md 7 4)))]
  rfl

theorem crossWords_lscan : crossWords 0x183 w snap a stored i =
    ([(foldAsc (mdField w.md 7 4) (foldWords (mdField w.md 7 4) a (i.lane + 1))).getD (foldIdentity (mdField w.md 7 4))],
      [(foldAsc (mdField w.md 7 4) (foldWords (mdField w.md 7 4) a i.lane)).getD (foldIdentity (mdField w.md 7 4))]) := rfl

end

/-- The result of a cross-lane instruction is that of the statement's account. -/
theorem crossResult_eq {op : Nat} (hop : op ∈ crossOps) {p : Tab (List Word32)} {a : Nat → Option (List Word32)} (hr : Tab.rising p)
    (ha : ∀ l, tget p l = a l) (w : F3) (snap : BitVec 64) (stored : Nat → List Word32) {i : LaneIn} (hi : i.lane < 64) :
    crossResult op w snap p stored i.lane i.vals =
      { d := (crossWords op w snap a stored i).1, b := if op = 0x183 then some (crossWords op w snap a stored i).2 else none } := by
  have hvals : ((List.range 64).map fun l => (tget p l).map fun ws => foldCanon (mdField w.md 7 4) (lo32 ws))
      = foldWords (mdField w.md 7 4) a 64 := by simp only [ha, foldWords]
  have hballot : laneMask ((p.filter fun e => decide (lo32 e.2 ≠ 0)).map (·.1)) = ballot p := rfl
  simp only [crossOps, List.mem_cons, List.not_mem_nil, or_false] at hop
  rcases hop with rfl | rfl | rfl | rfl
  · simp only [crossResult, crossWords, if_true, ha, List.getLastD_eq_getLast?, gt_iff_lt]
    generalize mdField w.md 5 4 = mode
    rcases mode with _ | _ | _ | mode <;> rfl
  · simp only [crossResult, hballot, ballot_ne_zero_iff hr ha, andNot_ballot_eq_zero_iff hr ha, length_laneList_ballot hr ha,
      crossWords_vote, ← ballot_eq_laneMask hr ha]
    generalize mdField w.md 5 4 = mode
    rcases mode with _ | _ | _ | mode <;> rfl
  · simp only [crossResult, hvals, crossWords_lred]
    rfl
  · simp only [crossResult, hvals, crossWords_lscan, take_foldWords _ _ (Nat.le_of_lt hi), take_foldWords _ _ hi, if_true]

/-! ### The perform (R112, R113) -/

/-- Whether a lane has its operands, as the perform asks it. -/
def Got.isOk (g : Got) : Bool := match g with | .ok _ => true | _ => false

theorem Got.isOk_eq (g : Got) : g.isOk = g.input?.isSome := by
  cases g <;> rfl

/-- Whether a lane is the lowest of its group that performs (R133). -/
def CrossLane.leads (ls : List CrossLane) (c : CrossLane) : Bool :=
  decide ((ls.find? fun d => decide (d.g = c.g) && d.got.isOk).map (·.lane) = some c.lane)

/-- A lane writes its results: D, and B of an LSCAN. -/
def State.crossWrite (s : State) (key : Nat) (c : CrossLane) (lead : Bool) (i : LaneIn) (r : CrossRes) : State :=
  let s := s.writeDst key c.lane lead ((i.dst.getLast?).getD (.zero, 0)).1 r.d
  match r.b, i.dst with
  | some b, dB :: _ :: _ => s.writeDst key c.lane lead dB.1 b
  | _, _ => s

/-- A lane with a destination for each result writes both of an LSCAN, and the one of every other instruction. -/
theorem State.crossWrite_eq {op : Nat} {i : LaneIn} (hd : i.dst.length = if op = 0x183 then 2 else 1) (s : State) (key : Nat)
    (c : CrossLane) (lead : Bool) (r : List Word32 × List Word32) :
    s.crossWrite key c lead i { d := r.1, b := if op = 0x183 then some r.2 else none } =
      let s := s.writeDst key c.lane lead ((i.dst.getLast?).getD (.zero, 0)).1 r.1
      if op = 0x183 then s.writeDst key c.lane lead i.dst0.1 r.2 else s := by
  by_cases hop : op = 0x183
  · have htwo : i.dst.length = 2 := hd.trans (if_pos hop)
    match hdst : i.dst, htwo with
    | [x, y], _ => simp [State.crossWrite, hop, LaneIn.dst0, hdst]
  · simp [State.crossWrite, hop]

/-- Lanes that neither wait nor fault perform the instruction: the results are those of the statement's account. -/
theorem crossPerform_eq {s : State} {key op : Nat} {w : F3} {gs : List Nat} {snap must : BitVec 64} {t : Team} (hop : op ∈ crossOps)
    (ht : tget s.teams key = some t)
    (hfine : ∀ c ∈ s.crossGather key op w gs must, c.got.waits = false ∧ c.got.fault? = none) :
    s.crossPerform key op w gs snap must =
      s.crossed key op gs (s.crossGather key op w gs must)
        (crossWords op w snap (presentA (s.crossGather key op w gs must) must) (storedA t w.a.toNat (crossWidth op w))) := by
  obtain ⟨x, xs, hacc, hn, -, -⟩ := f3Acc_cross hop w
  have hok := fun c hc i => crossGather_ok (s := s) (key := key) (w := w) (gs := gs) (must := must) (c := c) (i := i) hop hc
  unfold State.crossPerform
  generalize s.crossGather key op w gs must = ls at hfine hok ⊢
  have hwaits : (ls.any fun l => l.got.waits) = false := List.any_eq_false.2 fun c hc => by simp [(hfine c hc).1]
  have hfaults : (ls.filterMap fun l => l.got.fault?) = [] := List.filterMap_eq_nil_iff.2 fun c hc => (hfine c hc).2
  simp only [hwaits, Bool.false_eq_true, if_false, hfaults, List.foldl_nil, ht, hacc, hn]
  unfold State.crossed
  refine congrArg (fun s => List.foldl _ s gs) ((foldl_congr_mem _ _ _ (fun c hc u => ?_) _).trans
    (congrArg (fun s => List.foldl _ s ls) (foldl_congr_mem _ _ _ (fun c _ u => ?_) _)))
  · cases hg : c.got with
    | ok i =>
      obtain ⟨hl, h64, hd⟩ := hok c hc i hg
      have hres := crossResult_eq hop (rising_presentTab ls must List.Pairwise.nil)
        (fun l => (tget_presentTab ls must [] l).trans Option.or_none) w snap (storedA t w.a.toNat (crossWidth op w)) (hl ▸ h64)
      rw [hl] at hres
      change u.crossWrite key c (c.leads ls) i
        (crossResult op w snap (presentTab ls must []) (storedA t w.a.toNat (crossWidth op w)) c.lane i.vals) = _
      rw [hres, State.crossWrite_eq hd]
      simp only [CrossLane.leads, Got.isOk_eq]
      rfl
    | skip => rfl
    | fault f => rfl
    | wait b i => rfl
  · cases c.got <;> rfl

/-! ### The issue, and the rendezvous (R112, R115) -/

/-- A group that is not held at a rendezvous performs at once under %grp. -/
theorem crossIssue_grp {s : State} {a : Act} {op : Nat} {w : F3} (h : s.act = some a) (hh : ∀ p q, a.grp.hold ≠ .cross p q)
    (hm : mdField w.md 3 0 = 13)
    (hw : ∀ c ∈ s.crossGather a.key op w [a.g] (a.team.mustArrive a.grp.lanes 0), c.got.waits = false) :
    s.crossIssue op w = .next (s.crossPerform a.key op w [a.g] a.grp.lanes (a.team.mustArrive a.grp.lanes 0)) := by
  have hany := List.any_eq_false.2 fun c hc => Bool.not_eq_true _ ▸ hw c hc
  rw [State.crossIssue, State.asGroup_some h]
  split
  · next p q e => exact absurd e (hh p q)
  · simp only [hm, decide_true, if_true, hany, Bool.false_eq_true, if_false]

/-- Under another member code it is held with the snapshot, and the rendezvous is tested. -/
theorem crossIssue_held {s : State} {a : Act} {op : Nat} {w : F3} {snap left : BitVec 64} (h : s.act = some a)
    (hh : ∀ p q, a.grp.hold ≠ .cross p q) (hm : mdField w.md 3 0 < 13) (hs : a.team.snapshot a.grp.at (mdField w.md 3 0) = (snap, left))
    (hw : ∀ c ∈ s.crossGather a.key op w [a.g] (a.team.mustArrive snap left), c.got.waits = false) :
    s.crossIssue op w = .next ((s.updGroup a.key a.g fun g => { g with hold := .cross snap left, since := s.clock }).crossTry
      a.key op w a.grp.at) := by
  have hany := List.any_eq_false.2 fun c hc => Bool.not_eq_true _ ▸ hw c hc
  rw [State.crossIssue, State.asGroup_some h]
  split
  · next p q e => exact absurd e (hh p q)
  · simp only [Nat.ne_of_lt hm, decide_false, Bool.false_eq_true, if_false, hs, hany]

/-- A rendezvous at which every thread that must arrive stands is performed. -/
theorem crossTry_complete {s : State} {key op : Nat} {w : F3} {addr : Word64} {t : Team} {snap left : BitVec 64}
    (ht : tget s.teams key = some t) (hs : t.snapshot addr 12 = (snap, left))
    (hc : t.mustArrive snap left &&& ~~~(t.lanesOf (t.heldAt addr)) = 0) :
    s.crossTry key op w addr = s.crossPerform key op w (t.heldAt addr) snap (t.mustArrive snap left) := by
  simp only [State.crossTry, ht, hs, hc, if_true]

/-- Settles O16: at its issue under %grp, and at the arrival of the last member else, the perform is the statement's. -/
theorem crossLane : Obligations.CrossLane := by
  intro s a w op mk hmk hact hhold _ n fine done
  obtain ⟨hop, hexec⟩ := exec_cross hmk w s
  rw [hexec]
  constructor
  · intro hm hf
    rw [crossIssue_grp hact hhold hm fun c hc => (hf c hc).1, crossPerform_eq hop (State.act_some hact).1 hf]
    rfl
  · intro hm snap left t team hs hw ht hteam gs hs12 hall hf
    subst ht
    rw [crossIssue_held hact hhold hm hs hw, crossTry_complete hteam hs12 hall, crossPerform_eq hop hteam hf]
    rfl

end Sys2Proof.Machine
end

section
/-! SUPPORT. The direction instructions (R176-R183): each is one value operation, whose result the direction pipe gives to its
destination at once or when it arrives, or writes to registers. -/

namespace Sys2Proof.Machine

/-! ### The meanings of the instructions (R178-R183) -/

/-! DFROM, DADD, DSUB, DMIX, DNRM and DPROJ have a long-latency direction for their result, DSCL one that is written at once. -/

theorem exec_dfrom (w : F3) (s : State) : exec (.dfrom w) s = s.dirOp 0x100 w true fun e => dirFrom (e.val 0) := rfl
theorem exec_dadd (w : F3) (s : State) :
    exec (.dadd w) s = s.dirOp 0x102 w true fun e => dirAdd false (e.dirn w 0) (e.dirn w 1) := rfl
theorem exec_dsub (w : F3) (s : State) :
    exec (.dsub w) s = s.dirOp 0x103 w true fun e => dirAdd true (e.dirn w 0) (e.dirn w 1) := rfl
theorem exec_dmix (w : F3) (s : State) :
    exec (.dmix w) s = s.dirOp 0x104 w true fun e => dirMix (e.dirn w 0) (e.dirn w 1) (lo32 (e.val 2)) := rfl
theorem exec_dscl (w : F3) (s : State) :
    exec (.dscl w) s = s.dirOp 0x107 w false fun e => dirScale (w.md.getLsbD 2) (e.dirn w 0) (lo32 (e.val 1)) := rfl
theorem exec_dnrm (w : F3) (s : State) : exec (.dnrm w) s = s.dirOp 0x108 w true fun e => dirNorm (e.dirn w 0) := rfl
theorem exec_dproj (w : F3) (s : State) :
    exec (.dproj w) s = s.dirOp 0x10A w true fun e => dirProj (w.md.getLsbD 2) (e.dirn w 0) (e.dirn w 1) := rfl

/-! The others have another effect: DTO, DCOS and DDOT in registers, DSETN and DMOV without the renormaliser's codes. -/

theorem exec_dto (w : F3) (s : State) : exec (.dto w) s =
    s.f3Effect 0x101 w fun e => .ok [.write (dirTo (w.md.getLsbD 2) (w.md.getLsbD 3) (e.dirn w 0))] := rfl
theorem exec_dcos (w : F3) (s : State) : exec (.dcos w) s =
    s.f3Effect 0x105 w fun e => .ok [.write [dirCos (w.md.getLsbD 2) (e.dirn w 0) (e.dirn w 1)]] := rfl
theorem exec_ddot (w : F3) (s : State) : exec (.ddot w) s =
    s.f3Effect 0x106 w fun e => .ok [.write [dirDotVal (e.dirn w 0) (e.dirn w 1)]] := rfl
theorem exec_dsetn (w : F3) (s : State) : exec (.dsetn w) s =
    s.f3Effect 0x109 w fun e => .ok [.norm ((lo32 (e.val 0)).setWidth 16)] := rfl
theorem exec_dmov (w : F3) (s : State) : exec (.dmov w) s =
    s.f3Effect 0x10B w fun e => .ok [.dir (codesWords (if w.md.getLsbD 2 then negCodes (e.dirn w 0).stored else (e.dirn w 0).stored))
      (e.dirn w 0).norm] := rfl

/-! ### Results of the direction pipe (R175, R176) -/

/-- A ready direction instruction performs with its result in each lane, after DIRRANGE. -/
theorem dirOp_ready {s : State} {a : Act} {op : Nat} {w : F3} {ins : List LaneIn} (h : s.readyF3 a op w ins) {long : Bool}
    {f : Env → DirRes} (r : LaneIn → DirRes) (hr : ∀ i th, f (laneEnv s a i th) = r i) :
    s.dirOp op w long f = .next (s.performed a ins fun i => (r i).effs long) :=
  f3Effect_ready h (fun i => (r i).effs long) fun i _ th _ => by rw [hr]

/-- A ready direction instruction with results in registers performs with the value of each lane. -/
theorem dirWrite_ready {s : State} {a : Act} {op : Nat} {w : F3} {ins : List LaneIn} (h : s.readyF3 a op w ins)
    {f : Env → List Word32} (v : LaneIn → List Word32) (hv : ∀ i th, f (laneEnv s a i th) = v i) :
    s.f3Effect op w (fun e => .ok [.write (f e)]) = .next (s.performed a ins fun i => [.write (v i)]) :=
  f3Effect_ready h (fun i => [.write (v i)]) fun i _ th _ => by rw [hv]

/-! ### Values in registers (R179, R181) -/

theorem Dirn.inv_iff {d : Dirn} : d.inv = true ↔ d.norm = 0x7FFF := decide_eq_true_iff

/-- DTO by the norm code of its source. -/
theorem dirTo_eq (unit norm : Bool) (d : Dirn) :
    dirTo unit norm d = if norm then [d.norm.signExtend 32]
      else d.vals.map fun v =>
        if d.norm = 0x7FFF then BitVec.ofNat 32 fp32.nan
        else if unit then BitVec.ofNat 32 (fp32.roundDyad .rn false false v)
        else scaledFp32 v d.norm.toInt := by
  simp only [dirTo, Dirn.inv_iff]

/-- DDOT by the norm codes of its sources. -/
theorem dirDotVal_eq (a b : Dirn) :
    dirDotVal a b = if a.norm = 0x7FFF ∨ b.norm = 0x7FFF then BitVec.ofNat 32 fp32.nan
      else scaledFp32 { m := (a.codes.zip b.codes).foldl (fun x p => x + p.1 * p.2) 0, e := -28 }
        (a.norm.toInt + b.norm.toInt) := by
  simp only [dirDotVal, dirDot, Bool.or_eq_true, Dirn.inv_iff]

/-! ### The instructions -/

/-- Settles O13: a word with a direction result performs with DIRRANGE and that result, pending or at once; DTO, DCOS and DDOT
write their values, DSETN and DMOV what they read. -/
theorem directions : Obligations.Directions := by
  intro s a w ins d flag long now
  refine ⟨fun h => ?dfrom, fun h => ?dto, fun h => ?dadd, fun h => ?dsub, fun h => ?dmix, fun h => ?dcos, fun h => ?ddot,
    fun h => ?dscl, fun h => ?dnrm, fun h => ?dsetn, fun h => ?dproj, fun h => ?dmov⟩
  case dfrom => exact (exec_dfrom w s).trans (dirOp_ready h (fun i => dirFrom (i.val 0)) fun _ _ => rfl)
  case dadd => exact (exec_dadd w s).trans (dirOp_ready h (fun i => dirAdd false (d 0 i) (d 1 i)) fun _ _ => rfl)
  case dsub => exact (exec_dsub w s).trans (dirOp_ready h (fun i => dirAdd true (d 0 i) (d 1 i)) fun _ _ => rfl)
  case dmix => exact (exec_dmix w s).trans (dirOp_ready h (fun i => dirMix (d 0 i) (d 1 i) (lo32 (i.val 2))) fun _ _ => rfl)
  case dscl =>
    exact (exec_dscl w s).trans (dirOp_ready h (fun i => dirScale (w.md.getLsbD 2) (d 0 i) (lo32 (i.val 1))) fun _ _ => rfl)
  case dnrm => exact (exec_dnrm w s).trans (dirOp_ready h (fun i => dirNorm (d 0 i)) fun _ _ => rfl)
  case dproj => exact (exec_dproj w s).trans (dirOp_ready h (fun i => dirProj (w.md.getLsbD 2) (d 0 i) (d 1 i)) fun _ _ => rfl)
  case dto => exact (exec_dto w s).trans (dirWrite_ready h _ fun i _ => dirTo_eq _ _ (d 0 i))
  case dcos => exact (exec_dcos w s).trans (dirWrite_ready h _ fun _ _ => rfl)
  case ddot => exact (exec_ddot w s).trans (dirWrite_ready h _ fun i _ => congrArg (fun v => [v]) (dirDotVal_eq (d 0 i) (d 1 i)))
  case dsetn =>
    refine (exec_dsetn w s).trans (f3Effect_ready h _ fun i _ _ _ => ?_)
    rw [BitVec.setWidth_eq_extractLsb' (by decide)]
    rfl
  case dmov => exact (exec_dmov w s).trans (f3Effect_ready h _ fun _ _ _ _ => rfl)

end Sys2Proof.Machine
end

section
/-! SUPPORT. The direction images (R184-R186): the fields of DLD and DST, the tests of an image's words, and the four bytes of a
stored word. -/

namespace Sys2Proof.Machine

/-! ### The fields of an image access (R184) -/

theorem imPol_eq_accPolicy (w : XW) : imPol w.imm = accPolicy w := by
  simp [imPol, accPolicy, Nat.shiftRight_eq_div_pow]

theorem xAddr_eq_globalAddr (w : XW) (i : LaneIn) : xAddr w i = globalAddr w i := rfl

/-- The width code of an image access. -/
theorem imm_mod_four (w : XW) : w.imm.toNat % 4 = (w.imm.extractLsb' 0 2).toNat := by simp

/-! ### The bytes of a stored word (R7) -/

theorem toBytes_eq_map_range (n x : Nat) : toBytes n x = (List.range n).map fun k => BitVec.ofNat 8 (x / 256 ^ k) := by
  induction n generalizing x with
  | zero => rfl
  | succ n ih =>
    simp [toBytes, ih, List.range_succ_eq_map, Nat.div_div_eq_div_mul, Nat.pow_succ']

/-- The bytes of one word are its four byte fields. -/
theorem toBytes_eq_storedBytes (x : Word32) : toBytes 4 x.toNat = storedBytes 4 [x] := by
  rw [toBytes_eq_map_range, storedBytes]
  refine List.map_congr_left fun k hk => BitVec.eq_of_toNat_eq ?_
  have hk : k < 4 := List.mem_range.1 hk
  have h256 : 256 ^ k = 2 ^ (8 * k) := by rw [Nat.pow_mul]
  simp [Nat.div_eq_of_lt hk, Nat.mod_eq_of_lt hk, h256, Nat.shiftRight_eq_div_pow]

/-! ### The tests of an image's words (R185, R219) -/

/-- An image waits behind no held write when none of its words does. -/
theorem State.imageHeld_eq_false {s : State} {a : Act} {lane : Nat} {va : Word64} {xs : List Xl}
    (h : ∀ e ∈ xs.zipIdx, s.heldBy a lane (va + BitVec.ofNat 64 (4 * e.2)) e.1 = false) : s.imageHeld a lane va xs = false :=
  List.any_eq_false.2 fun e he => Bool.eq_false_iff.1 (h e he)

/-- A CXL port without an error leaves no trace of the test. -/
theorem State.takeCxl_false {s t : State} {io port : Nat} (h : s.takeCxl io port = (t, false)) : t = s := by
  unfold State.takeCxl at h
  split at h <;> cases h
  rfl

/-- A test of the way to memory that finds no fault leaves the state as it was. -/
theorem State.linkFault_none {s : State} {die : Nat} {x : Xl} {n : Nat} {write : Bool} (h : (s.linkFault die x n write).2 = none) :
    s.linkFault die x n write = (s, none) := by
  refine Prod.ext ?_ h
  cases hb : busOf x.pa with
  | hole | hbm | ctl | flash => simp only [State.linkFault, hb]
  | cxl io port =>
    simp only [State.linkFault, hb] at h ⊢
    split
    · rfl
    · next hroute =>
      rw [if_neg hroute] at h
      split at h
      · cases h
      · next e => exact State.takeCxl_false e
  | remote io w =>
    simp only [State.linkFault, hb]
    (repeat' split) <;> rfl
  | pcie io link =>
    simp only [State.linkFault, hb] at h ⊢
    split
    · rfl
    · next hfits =>
      split
      · rfl
      · next hroute =>
        rw [if_neg hfits, if_neg hroute] at h
        split
        · next hdown =>
          rw [if_pos hdown] at h
          cases h
        · rfl

/-- An access that the bus lets pass leaves the state as it was. -/
theorem State.busFault_none {s : State} {die : Nat} {x : Xl} {n : Nat} {write : Bool} (h : (s.busFault die x n write).2 = none) :
    s.busFault die x n write = (s, none) := by
  cases hb : busOf x.pa with
  | ctl d off =>
    refine Prod.ext ?_ h
    simp only [State.busFault, hb]
    (repeat' split) <;> rfl
  | hole | hbm | cxl | remote | pcie | flash =>
    simp only [State.busFault, hb] at h ⊢
    exact State.linkFault_none h

/-- A store of an image reaches its words when each can be reached, and the tests leave no trace. -/
theorem State.imageFault_none {s : State} {die : Nat} {xs : List Xl} (h : ∀ x ∈ xs, (s.busFault die x 4 true).2 = none) :
    s.imageFault die xs = (s, none) := by
  induction xs with
  | nil => rfl
  | cons x xs ih =>
    obtain ⟨hx, hxs⟩ := List.forall_mem_cons.1 h
    simp only [State.imageFault, State.busFault_none hx, ih hxs]

/-! ### The instructions -/

/-- An X word that performs lane by lane, when the chain of its ready lanes is one that its body performs. -/
theorem lanesX_done {s t : State} {a : Act} {op : Nat} {w : XW} {ins : List LaneIn} {dest : Code} {inOrder : Bool}
    {body : Act → LaneIn → Bool → State → LaneRes} {R : LaneIn → Bool → State → State → Prop} (h : s.lanesX a op w ins)
    (hc : LaneChain R (a.lead w.gs w.gp) ins s t) (hb : ∀ i b s t, R i b s t → body a i b s = .done t) :
    s.asGroup (fun a => s.issueLanes a dest (fun th => th.guard w.gs w.gp) (xAcc op w) inOrder (body a)) = .next (t.advance a) := by
  obtain ⟨hact, -, hready⟩ := h
  rw [Act.lead_eq] at hc
  rw [State.asGroup_some hact, issueLanes_done (ops := id) R hready hc hb fun _ _ => rfl]

/-- Settles O20: in a lane whose words pass their tests, the body of DLD reads its image, and that of DST writes it, the whole image
in the one step of the lane (log 5). -/
theorem directionImages : Obligations.DirectionImages := by
  intro s t a w ins k words
  have hk : imageWords w = k := by rw [imageWords, imm_mod_four]
  refine ⟨fun h hc => ?dld, fun h hc => ?dst⟩
  case dld =>
    refine lanesX_done (dest := xDest 14 w) (inOrder := false) h hc ?_
    rintro i lead s t ⟨s1, xs, s2, ws, ⟨hxl, hheld⟩, hread, rfl⟩
    simp only [xAddr_eq_globalAddr, hk, hxl, State.imageHeld_eq_false hheld, imPol_eq_accPolicy, hread, Bool.false_eq_true, if_false,
      BitVec.setWidth_eq_extractLsb' (show 16 ≤ 32 by decide)]
  case dst =>
    refine lanesX_done (dest := 0xF0) (inOrder := false) h hc ?_
    rintro i lead s t ⟨s1, xs, ⟨hxl, hheld⟩, hbus, rfl⟩
    simp only [xAddr_eq_globalAddr, hk, hxl, State.imageHeld_eq_false hheld, State.imageFault_none hbus, imPol_eq_accPolicy,
      imm_mod_four, toBytes_eq_storedBytes, Bool.false_eq_true, if_false]

end Sys2Proof.Machine
end

section
/-! SUPPORT. Temperatures, links, errors, events and accesses from outside (R240, R241, R384, R387-R392, R400): the stack block that
an error reaches, the ring of events, and the window that serves a request. -/

namespace Sys2Proof.Machine

/-! ### Errors and events (R241, R390) -/

/-- A change of a stack block leaves the supervisor core of every die. -/
@[simp] theorem State.updStack_supCore (s : State) (die k i : Nat) (f : Stack → Stack) :
    ((s.updStack die k f).die i).supCore = (s.die i).supCore := by
  simp only [State.die, State.updStack, State.updDie_dies, modAt_getElem?]
  split
  · cases s.dies[i]? <;> rfl
  · rfl

theorem State.hbmUncorrected_eq (s : State) (pa : Nat) : s.hbmUncorrected pa =
    (({ s with poison := tset s.poison (pa / 128) false } : State).updStack (homeDie pa) (pa / 2 ^ 36 % 2) fun k =>
      { k with uncorrected := satInc k.uncorrected, lastAddr := BitVec.ofNat 64 pa, fresh := true }).interrupt
        (s.die (homeDie pa)).supCore.toNat 3 := by
  simp only [State.hbmUncorrected, stackOf, State.updStack_supCore]
  rfl

/-- An event at a ring with room is its next word; at a full one it is counted (R390). -/
theorem State.ioEvent_eq (s : State) (i link type : Nat) (v : BitVec 16) (addr : Word32) : s.ioEvent i link type v addr =
    if (s.io i).ringSize ≤ ((s.io i).tail - (s.io i).head).toNat then
      (s.interrupt (s.io i).eventCore.toNat 3).updIo i fun d => { d with overflow := satInc d.overflow }
    else
      ((s.interrupt (s.io i).eventCore.toNat 3).devWrite (16 + i)
        ((s.io i).ringBase.toNat + (s.io i).tail.toNat % (s.io i).ringSize * 8)
        (toBytes 8 (link % 16 + type * 16 + v.toNat * 2 ^ 16 + addr.toNat * 2 ^ 32))).updIo i fun d => { d with tail := d.tail + 1 } := rfl

/-! ### Requests from a link (R389, R391) -/

/-- Whether an inbound window serves a bus address: it is valid and holds the address. -/
def InWin.serves (w : InWin) (addr : Nat) : Prop :=
  w.w01.getLsbD 0 = true ∧ (w.w01.extractLsb' 16 32).toNat * 65536 ≤ addr ∧
    addr < ((w.w01.extractLsb' 16 32).toNat + w.size.toNat) * 65536

/-- The test by which a window is found says that it serves the address. -/
theorem InWin.serves_iff (w : InWin) (addr : Nat) :
    (w.w01.getLsbD 0 && decide (field w.w01 47 16 * 65536 ≤ addr ∧ addr < (field w.w01 47 16 + w.size.toNat) * 65536)) = true ↔
      w.serves addr := by
  simp [InWin.serves, field_eq]

theorem IoDie.serving_none {d : IoDie} {link addr : Nat} (h : ∀ k, k < 16 → ¬(d.inwin (link * 16 + k)).serves addr) :
    d.serving link addr = none := by
  simpa [IoDie.serving, List.find?_eq_none, InWin.serves, field_eq] using h

/-- The window that serves a request is the lowest of its link that can. -/
theorem IoDie.serving_first {d : IoDie} {link addr k : Nat} (hk : k < 16) (h : (d.inwin (link * 16 + k)).serves addr)
    (hfirst : ∀ j, j < k → ¬(d.inwin (link * 16 + j)).serves addr) : d.serving link addr = some (d.inwin (link * 16 + k)) := by
  have hfind : (List.range 16).find? ((fun w : InWin => w.w01.getLsbD 0 &&
      decide (field w.w01 47 16 * 65536 ≤ addr ∧ addr < (field w.w01 47 16 + w.size.toNat) * 65536)) ∘
        fun k => d.inwin (link * 16 + k)) = some k := by
    refine List.find?_range_eq_some.2 ⟨(InWin.serves_iff _ _).2 h, List.mem_range.2 hk, fun j hj => ?_⟩
    exact Bool.not_eq_true' _ ▸ Bool.eq_false_iff.2 fun hs => hfirst j hj ((InWin.serves_iff _ _).1 hs)
  rw [IoDie.serving, List.find?_map, hfind]
  rfl

/-- A message's vector is the little-endian value of its first two bytes. -/
theorem ofNat_ofBytes_pair (b0 b1 : Byte) : BitVec.ofNat 16 (ofBytes [b0, b1]) = b1 ++ b0 := by
  apply BitVec.eq_of_toNat_eq
  have h0 := b0.isLt
  have h1 := b1.isLt
  rw [BitVec.toNat_append, Nat.shiftLeft_eq, Nat.mul_comm, ← Nat.two_pow_add_eq_or_of_lt h0]
  simp [ofBytes]
  omega

/-! ### The events -/

theorem exec_thermalThrottle (s : State) : exec .thermalThrottle s = execThermalThrottle s := rfl
theorem exec_throttleEnd (s : State) : exec .throttleEnd s = execThrottleEnd s := rfl
theorem exec_thermalShutdown (s : State) : exec .thermalShutdown s = execThermalShutdown s := rfl
theorem exec_dieLinkFailure (s : State) : exec .dieLinkFailure s = execDieLinkFailure s := rfl
theorem exec_hbmUncorrectableError (s : State) : exec .hbmUncorrectableError s = execHbmUncorrectableError s := rfl
theorem exec_hbmCorrectableError (s : State) : exec .hbmCorrectableError s = execHbmCorrectableError s := rfl
theorem exec_patrolScrub (s : State) : exec .patrolScrub s = execPatrolScrub s := rfl
theorem exec_pcieCompletionTimeout (s : State) : exec .pcieCompletionTimeout s = execPcieCompletionTimeout s := rfl
theorem exec_cxlError (s : State) : exec .cxlError s = execCxlError s := rfl
theorem exec_pcieLinkDown (s : State) : exec .pcieLinkDown s = execPcieLinkDown s := rfl
theorem exec_msixMessage (s : State) : exec .msixMessage s = execMsixMessage s := rfl
theorem exec_inboundRequest (s : State) : exec .inboundRequest s = execInboundRequest s := rfl
theorem exec_remoteAtomicArrival (s : State) : exec .remoteAtomicArrival s = execRemoteAtomicArrival s := rfl
theorem exec_inboundRemoteAccess (s : State) : exec .inboundRemoteAccess s = execInboundRemoteAccess s := rfl

/-- Settles O51, event by event. A request of a link goes by the window that serves it (`IoDie.serving_first`), and an event by the
room in its ring (`State.ioEvent_eq`). -/
theorem errorsAndMessages : Obligations.ErrorsAndMessages := by
  unfold Obligations.ErrorsAndMessages
  intro s say sat stack corrected uncorrected
  refine ⟨fun die t h => ?temperature, fun a b h => ?link, fun pa h => ?hbm, fun die st line found h hst => ?scrub,
    fun i link h => ?io, fun i link v h => ?msix, fun i link type v addr _ => ?ring, fun r h => ?inbound,
    fun r h => ?atomic, fun r h => ?access⟩
  case temperature =>
    simp only [exec_thermalThrottle, exec_throttleEnd, exec_thermalShutdown, execThermalThrottle, execThrottleEnd, execThermalShutdown, h,
      true_and]
    exact ⟨fun ht => congrArg _ (if_pos ht), fun ht => congrArg _ (if_neg (Nat.not_lt.2 ht)), fun ht => congrArg _ (if_pos ht),
      fun ht => congrArg _ (if_neg (Nat.not_le.2 ht))⟩
  case link =>
    simp only [exec_dieLinkFailure, execDieLinkFailure, h]
    exact ⟨fun he => if_neg (by simpa [edge] using he), fun he => if_pos (by simpa [edge] using he)⟩
  case hbm =>
    simp only [exec_hbmUncorrectableError, exec_hbmCorrectableError, execHbmUncorrectableError, execHbmCorrectableError, h,
      State.hbmUncorrected_eq]
    exact ⟨fun hp => ⟨congrArg _ (if_pos hp), congrArg _ (if_pos hp)⟩, fun hp => ⟨congrArg _ (if_neg hp), congrArg _ (if_neg hp)⟩⟩
  case scrub =>
    intro pa hpa hdie
    simp only [exec_patrolScrub, execPatrolScrub, h, Nat.mod_eq_of_lt hst, State.hbmUncorrected_eq]
    rw [if_neg (not_or.2 ⟨fun hn => hn hpa, fun hn => hn hdie⟩)]
    cases found <;> rfl
  case io =>
    simp only [exec_pcieCompletionTimeout, exec_cxlError, exec_pcieLinkDown, execPcieCompletionTimeout, execCxlError, execPcieLinkDown, h,
      and_self]
  case msix => simp only [exec_msixMessage, execMsixMessage, h]
  case ring =>
    exact ⟨fun hroom => (State.ioEvent_eq ..).trans (if_neg (Nat.not_le.2 hroom)),
      fun hfull => (State.ioEvent_eq ..).trans (if_pos hfull)⟩
  case inbound =>
    simp only [exec_inboundRequest, execInboundRequest, h, msgAddr]
    refine ⟨fun b0 b1 b2 b3 ha hw hd => ?message, fun hmsg => ⟨fun hnone => ?unserved, fun k hk hserves hfirst => ?served⟩⟩
    case message =>
      rw [if_pos ⟨ha, hw, congrArg List.length hd⟩, hd]
      simp only [List.take, ofNat_ofBytes_pair]
      rfl
    case unserved =>
      rw [if_neg hmsg, IoDie.serving_none hnone]
      rfl
    case served =>
      simp only [if_neg hmsg, IoDie.serving_first hk hserves hfirst]
      refine ⟨fun hbad => if_pos (by simpa using hbad), fun hkey => ?_⟩
      have hkey := Option.isNone_eq_false_iff.2 (Option.isSome_iff_ne_none.2 hkey)
      refine ⟨fun u hw hmay hu => ?_, fun u f hw hmay hu => ?_, fun u bs hw hu => ?_, fun u f hw hu => ?_⟩
      · simp only [hw, hmay, hkey, hu, Bool.not_true, Bool.and_false, Bool.or_false, Bool.false_eq_true, if_false, if_true]
        rfl
      · simp only [hw, hmay, hkey, hu, Bool.not_true, Bool.and_false, Bool.or_false, Bool.false_eq_true, if_false, if_true]
        rfl
      · simp only [hw, hkey, Bool.false_and, Bool.or_false, Bool.false_eq_true, if_false] at hu ⊢
        simp only [hu]
        rfl
      · simp only [hw, hkey, Bool.false_and, Bool.or_false, Bool.false_eq_true, if_false] at hu ⊢
        simp only [hu]
        rfl
  case atomic =>
    simp only [exec_remoteAtomicArrival, execRemoteAtomicArrival, h]
    refine ⟨fun hok hal hop u old hu => ?_, fun hbad => if_pos ?_⟩
    · rw [if_neg (by simp [hok, hal, hop]), hu]
      rfl
    · rcases hbad with hb | hb
      · simp [hb]
      · simp [hb]
  case access =>
    simp only [exec_inboundRemoteAccess, execInboundRemoteAccess, h]
    refine ⟨fun u hput hne hok hu => ?_, fun u bs hput hne hok hu => ?_⟩
    · simp [hput, hne, hok, hu]
      rfl
    · simp [hput, hne, hok, hu]
      rfl

end Sys2Proof.Machine
end

section
/-! SUPPORT. The end of a block in a state that lists the block twice (R244, R289): the counterexample of Obligations.ControlStores. -/

namespace Sys2Proof.Machine

/-- A packet all of whose words are 0. -/
def blankPacket : Packet where
  qcb := 0
  slot := 0
  n := 0
  words := []
  nextBlk := 0
  total := 0
  late := false
  done := false
  judged := false
  tab := { die := 0, base := 0, count := 0, sup := 0 }
  eff := { degrade := false, skipLate := false, sup := false, ceiling := 0, ageing := 0, domain := 0, asid := 0, ortBase := 0, ortSize := 0 }

/-- A placed block of it, on no core, with no team, bound queue or fork. -/
def endedBlock : Block := packetBlock 0 blankPacket 0 0 none 0

/-- The module at reset, at a store to die 0's window, with block 1 listed twice. A table whose keys rise (`Tab.rising`) lists none
twice, but a state's table need not. -/
def twiceListed : State :=
  { State.reset with issuer := .event (.ctl { die := 0, off := 0, wide := false, data := 0 }), blocks := [(1, endedBlock), (1, endedBlock)] }

/-- Removing the ended block deletes the first entry of its key (`tdel`), and the second stands. -/
theorem settleBlock_twiceListed : tget (twiceListed.settleBlock 1).blocks 1 = some endedBlock := by decide +kernel

/-- Refutes O47: that an ended block is gone from the table fails in a state that lists it twice, since the statement speaks of every
state and asks of its block table no rising keys, which `tget_tdel_self` needs. The counterexample is against
this one clause; it touches no clause about a store. -/
theorem not_controlStores : ¬ Obligations.ControlStores := by
  unfold Obligations.ControlStores
  intro h
  obtain ⟨-, -, -, -, hend, -⟩ := h twiceListed _ rfl
  have hnone := (((hend 1 endedBlock rfl).2 (.inl rfl) rfl (by decide)).2 rfl rfl).1
  rw [settleBlock_twiceListed] at hnone
  cases hnone

end Sys2Proof.Machine
end
